-- ==== Sys2Proof/Word.lean ====
section
/-! DEFINITION. The word types of the block and their plainest arithmetic (00_scope.md R7, R9, R10). -/

namespace Sys2Proof

/-- A host data word, a command word, a host bus address (R7). -/
abbrev Word := BitVec 32

/-- An element of a byte array: a `u8` of the spec's notation (R9). -/
abbrev Byte := BitVec 8

/-- A stored coefficient or residual: an `s16` of the spec's notation (R7, R9). -/
abbrev Half := BitVec 16

/-- A number as a 32-bit word (the spec's `v mod 2^32`). -/
abbrev word (n : Nat) : Word := BitVec.ofNat 32 n

end Sys2Proof
end

