-- ==== Sys2Proof/Config.lean ====
section
/-! DEFINITION. What one implementation fixes (the OPEN parameters of 00_scope.md R8) and the free values the spec
leaves unspecified. -/

namespace Sys2Proof

/-- The capacities an implementation fixes; the host reads them at CAP_MCUS, CAP_IN and CAP_OUT (R8, R40). -/
structure Config where
  maxMcus : Nat
  inCap   : Nat
  outCap  : Nat
  deriving DecidableEq, Repr

/-- The ranges R8 allows for the capacities. -/
abbrev Config.legal (c : Config) : Prop :=
  1 ≤ c.maxMcus ∧ c.maxMcus ≤ 10922 ∧ 1 ≤ c.inCap ∧ c.inCap ≤ 4194304 ∧ 1 ≤ c.outCap ∧ c.outCap ≤ 4194304

/-- The capacities of `State.reset`: the greatest R8 allows.
DESIGN CHOICE, log entry 3: the spec leaves them open; no statement rests on these numbers. -/
def Config.greatest : Config := { maxMcus := 10922, inCap := 4194304, outCap := 4194304 }

/-- A value the spec leaves unspecified, of width `w`: the `index`-th value of draw number `draw`. It has no body, so
nothing can be proved of a particular value. Used for a read while BUSY (R58, I6), for the locations of an abandoned
command (R211, I5) and for what a hardware reset during a run leaves unspecified (R210, I1); log entries 8, 9, 10. -/
opaque Config.freeValue : (w : Nat) → (draw index : Nat) → BitVec w

/-- Unspecified contents of RAM: any list of addressed bytes. No body, as `freeValue`; log entries 8 and 10. -/
opaque Config.freeCells : (draw : Nat) → List Host.Cell

end Sys2Proof
end

