-- ==== Sys2Proof/Machine/State.lean ====
section
/-! DEFINITION. All the state the spec gives the block (10_state.md R20 to R41), as plain data; the reasons a step can
stop; the state after a hardware reset (70_reset_and_hazards.md R210). -/

namespace Sys2Proof.Machine

/-- Why the machine stops with a fault: never. Every fault of the spec is the sticky fault state of R200, a next state
of the machine (`FaultCode` below), and no rule lets the block stop. -/
inductive Fault
  deriving DecidableEq, Repr

/-- Why a command has no meaning. -/
inductive Refusal where
  /-- Raised by an arm of `exec` whose command is not modelled yet; safe. No arm raises it. -/
  | notModelled (mnemonic : String)
  deriving DecidableEq, Repr

/-- The fault codes of 60_exceptions.md R201, by name. -/
inductive FaultCode where
  | badCmd | badSlot | slotInvalid | huffCount | huffOverflow | huffDup | huffDepth | huffMiss | huffNocode | rdEod
  | wrFull | badLen | vliRange | acRun | dcCat | badComp | blkRange | geom | predRange | qzero | hostBusy
  deriving DecidableEq, Repr

/-- The fault recorded since reset: what FAULT and FAULT_INFO read (R23). -/
structure FaultRecord where
  code : FaultCode
  info : Word
  deriving DecidableEq, Repr

/-- The reader's bit cursor (R28): RD_PTR, RBUF, RCNT, EOD, MARKER. -/
structure Reader where
  ptr    : Word
  buf    : Word
  cnt    : BitVec 5
  eod    : Bool
  marker : Bool
  deriving DecidableEq, Repr

/-- The writer's bit cursor (R30): WR_PTR, WACC, WCNT. -/
structure Writer where
  ptr : Word
  acc : Byte
  cnt : BitVec 4
  deriving DecidableEq, Repr

/-- A slot's derived table (R31): VALID_s, LENSET_s (bit L-1 for length L), LEN_s and CODE_s. -/
structure HuffSlot where
  valid  : Bool
  lenset : BitVec 16
  len    : Vector (BitVec 5) 256
  code   : Vector (BitVec 16) 256
  deriving DecidableEq, Repr

/-- The RAM of the host address space (20_memory.md R52) by byte address: the bytes that are not what an unlisted
address reads as, in rising order of address. -/
abbrev Memory := List Host.Cell

/-- What a byte of RAM nothing has written reads as. DESIGN CHOICE, log entry 1, unsafe: R210 leaves RAM unspecified. -/
abbrev unwritten : Byte := 0

/-- The canonical form of memory: strictly rising addresses, no byte listed that an unlisted address reads as. -/
abbrev Memory.wf (m : Memory) : Prop :=
  m.Pairwise (fun x y => x.1 < y.1) ∧ ∀ c ∈ m, c.2 ≠ unwritten

/-- One 32-bit host access (R53). -/
inductive Access where
  | read (addr : Word)
  | write (addr value : Word)
  deriving DecidableEq, Repr

/-- What the outside world does next (log entry 5). -/
inductive HostEvent where
  /-- A host access that waits for `STATUS.BUSY` = 0 (R58, R213). -/
  | access (a : Access)
  /-- A host access that arrives while the command in flight, if there is one, has not ended (R58; log entry 6). -/
  | early (a : Access)
  /-- The reset input is asserted (R210). -/
  | hardReset
  deriving DecidableEq, Repr

/-- The state of the block, with the host's pending accesses. -/
structure State where
  /-- The capacities: CAP_MCUS, CAP_IN, CAP_OUT (R40). -/
  cfg        : Config
  /-- ARG0, ARG1, RES (R20). -/
  arg0       : Word
  arg1       : Word
  res        : Word
  /-- The command accepted and not yet ended; `STATUS.BUSY` says there is one (R22, R191). -/
  inFlight   : Option Word
  /-- `STATUS.DONE` and `STATUS.EOS` (R22). -/
  done       : Bool
  eos        : Bool
  /-- FAULT and FAULT_INFO; `STATUS.FAULT` says there is one (R22, R23). -/
  recorded   : Option FaultRecord
  /-- CTRL.DONE_IE and CTRL.FAULT_IE (R24). -/
  doneIe     : Bool
  faultIe    : Bool
  /-- IRQ.DONE_P and IRQ.FAULT_P (R25). -/
  doneP      : Bool
  faultP     : Bool
  /-- GEOM (R26), IN_LEN and OUT_LEN (R27). -/
  geom       : Word
  inLen      : Word
  outLen     : Word
  /-- The bit cursors (R28, R30). -/
  rd         : Reader
  wr         : Writer
  /-- The derived tables of the six slots (R31). -/
  slots      : Vector HuffSlot 6
  /-- QT, BITS_s, HUFFVAL_s, FREQ, IN, OUT, CM and DR (R32 to R37) at their host addresses (R52). -/
  mem        : Memory
  /-- The model's own: the host's accesses still to come (log entry 5). -/
  host       : List HostEvent
  /-- The model's own: the word the last host read returned (log entry 13). -/
  busData    : Word
  /-- The model's own: how many draws of free values there have been (log entry 14). -/
  freeDraws  : Nat
  deriving DecidableEq, Repr

/-- The reader after either reset (R28, R210, R211): at end of data. -/
def Reader.atReset : Reader := { ptr := 0, buf := 0, cnt := 0, eod := true, marker := false }

/-- The writer after either reset (R30, R210, R211). -/
def Writer.atReset : Writer := { ptr := 0, acc := 0, cnt := 0 }

/-- A slot after power-on: invalid (R210). LEN, CODE and LENSET are DESIGN CHOICE 0, log entry 2. -/
def HuffSlot.atReset : HuffSlot :=
  { valid := false, lenset := 0, len := Vector.replicate 256 0, code := Vector.replicate 256 0 }

/-- The block right after power-on, for an implementation with capacities `c` (R210). Nothing is listed in memory and
the host has no access pending. -/
def State.resetWith (c : Config) : State :=
  { cfg := c, arg0 := 0, arg1 := 0, res := 0, inFlight := none, done := false, eos := false, recorded := none,
    doneIe := false, faultIe := false, doneP := false, faultP := false, geom := 0, inLen := 0, outLen := 0,
    rd := Reader.atReset, wr := Writer.atReset, slots := Vector.replicate 6 HuffSlot.atReset, mem := [], host := [],
    busData := 0, freeDraws := 0 }

/-- The block right after power-on, with the capacities of log entry 3 (R210). -/
def State.reset : State := State.resetWith Config.greatest

end Sys2Proof.Machine
end

