-- ==== Sys2Proof/Machine/Memory.lean ====
section
/-! DEFINITION. RAM: one byte, the wider entries, and where each array element of the spec lies in the host address
space (20_memory.md R52, R55, R56). -/

namespace Sys2Proof.Machine

/-- One byte of RAM; `unwritten` where nothing is listed. -/
def memRead : Memory → Nat → Byte
  | [], _ => unwritten
  | (x, v) :: m, a => if x = a then v else memRead m a

/-- Memory with nothing listed at `a`. -/
def memErase (m : Memory) (a : Nat) : Memory := m.filter (fun c => c.1 != a)

/-- Memory with `b` listed at `a`, in its place in the rising order. -/
def memInsert : Memory → Nat → Byte → Memory
  | [], a, b => [(a, b)]
  | c :: m, a, b => if a < c.1 then (a, b) :: c :: m else c :: memInsert m a b

/-- One byte stored; writing what an unlisted address reads as removes the entry. -/
def memWrite (m : Memory) (a : Nat) (b : Byte) : Memory :=
  if b = unwritten then memErase m a else memInsert (memErase m a) a b

/-- An `s16` entry: its low byte at the lower address (log entry 11). -/
def memRead16 (m : Memory) (a : Nat) : Half := memRead m (a + 1) ++ memRead m a

/-- An `s16` entry stored. -/
def memWrite16 (m : Memory) (a : Nat) (v : Half) : Memory :=
  memWrite (memWrite m a (v.extractLsb' 0 8)) (a + 1) (v.extractLsb' 8 8)

/-- A `u32` entry, low byte first: `{B[a+3], B[a+2], B[a+1], B[a]}` as in R55 (log entry 11). -/
def memRead32 (m : Memory) (a : Nat) : Word :=
  memRead m (a + 3) ++ memRead m (a + 2) ++ memRead m (a + 1) ++ memRead m a

/-- A `u32` entry stored. -/
def memWrite32 (m : Memory) (a : Nat) (v : Word) : Memory :=
  memWrite (memWrite (memWrite (memWrite m a (v.extractLsb' 0 8)) (a + 1) (v.extractLsb' 8 8))
    (a + 2) (v.extractLsb' 16 8)) (a + 3) (v.extractLsb' 24 8)

/-! ### Where the elements lie (R52) -/

/-- `QT[t][p]`. -/
def qtAddr (t p : Nat) : Nat := 0x1000 + 4 * (64 * t + p)

/-- `BITS_s[L]`, L in 1..16. -/
def bitsAddr (s L : Nat) : Nat := 0x2000 + 0x800 * s + 4 * (L - 1)

/-- `HUFFVAL_s[i]`. -/
def huffvalAddr (s i : Nat) : Nat := 0x2000 + 0x800 * s + 0x40 + 4 * i

/-- `FREQ[sym]`. -/
def freqAddr (sym : Nat) : Nat := 0x6000 + 4 * sym

/-- `IN[j]`. -/
def inAddr (j : Nat) : Nat := 0x400000 + j

/-- `OUT[j]`. -/
def outAddr (j : Nat) : Nat := 0x800000 + j

/-- `cbase(comp)`: 0, 4·MAX_MCUS, 5·MAX_MCUS. -/
def cbase (c : Config) (comp : Nat) : Nat :=
  if comp = 0 then 0 else if comp = 1 then 4 * c.maxMcus else 5 * c.maxMcus

/-- `CM[comp][k][p]`. -/
def cmAddr (c : Config) (comp k p : Nat) : Nat := 0x1000000 + 4 * (64 * (cbase c comp + k) + p)

/-- `DR[comp][k]`. -/
def drAddr (c : Config) (comp k : Nat) : Nat := 0x2000000 + 4 * (cbase c comp + k)

/-! ### Which byte addresses have storage (R52, R54, R55, R56) -/

/-- `a` lies in the `size` bytes from `lo`. -/
def inSpan (lo size a : Nat) : Bool := decide (lo ≤ a) && decide (a < lo + size)

/-- `a` lies in the CM or the DR window: entries that sign-extend on a read (R56). -/
def inHalfWindow (c : Config) (a : Nat) : Bool :=
  inSpan 0x1000000 (1536 * c.maxMcus) a || inSpan 0x2000000 (24 * c.maxMcus) a

/-- `a` lies in the entries of a window of `u8` entries: QT, BITS_s or HUFFVAL_s. A slot's window ends at offset
0x43C + 4 (R54). -/
def inByteWindow (a : Nat) : Bool :=
  inSpan 0x1000 0x200 a || (inSpan 0x2000 0x3000 a && decide ((a - 0x2000) % 0x800 < 0x440))

/-- `a` has one byte of storage: bits 7:0 of a `u8` entry, bits 15:0 of an `s16` entry, all of a FREQ entry, and the
bytes of IN and OUT below their capacities. -/
def backed (c : Config) (a : Nat) : Bool :=
  (inByteWindow a && decide (a % 4 = 0)) || inSpan 0x6000 0x400 a || inSpan 0x400000 c.inCap a ||
    inSpan 0x800000 c.outCap a || (inHalfWindow c a && decide (a % 4 < 2))

end Sys2Proof.Machine
end

