-- ==== Sys2Proof/Machine/Ops.lean ====
section
/-! DEFINITION. What every command shares: how a command's body runs and ends, fault entry and reset
(60_exceptions.md R200 to R204, 44_control.md R191, 70_reset_and_hazards.md R210, R211), the operand checks
(30_encoding.md R75), and the accessors of the slots and the arrays. -/

namespace Sys2Proof.Machine

/-- How a piece of a command's body ends: with a result, or with `raise Fault(code, info)` (R12). Either way `st` is
the state as the pseudocode has left it (R202; log entry 4). -/
inductive Run (σ α : Type) where
  | ok (a : α) (st : σ)
  | raise (code : FaultCode) (info : Word) (st : σ)
  deriving DecidableEq, Repr

/-- Go on with `f`, unless a fault has ended the command. -/
def Run.andThen {σ α β : Type} (r : Run σ α) (f : α → σ → Run σ β) : Run σ β :=
  match r with
  | .ok a st => f a st
  | .raise code info st => .raise code info st

/-- Run a piece that works on a part of the state. -/
def Run.lift {σ τ α : Type} (r : Run σ α) (put : σ → τ) : Run τ α :=
  match r with
  | .ok a st => .ok a (put st)
  | .raise code info st => .raise code info (put st)

/-! ### Fault entry, command end, reset -/

/-- The number of a fault code (R201). -/
def faultNumber (f : FaultCode) : Byte :=
  match f with
  | .badCmd => 0x01
  | .badSlot => 0x02
  | .slotInvalid => 0x03
  | .huffCount => 0x04
  | .huffOverflow => 0x05
  | .huffDup => 0x06
  | .huffDepth => 0x07
  | .huffMiss => 0x08
  | .huffNocode => 0x09
  | .rdEod => 0x0A
  | .wrFull => 0x0B
  | .badLen => 0x0C
  | .vliRange => 0x0D
  | .acRun => 0x0E
  | .dcCat => 0x0F
  | .badComp => 0x10
  | .blkRange => 0x11
  | .geom => 0x12
  | .predRange => 0x13
  | .qzero => 0x14
  | .hostBusy => 0x15

/-- Record the fault, unless one is recorded: the first fault wins (R200). -/
def recordFault (code : FaultCode) (info : Word) (s : State) : State :=
  match s.recorded with
  | none => { s with recorded := some { code := code, info := info }, faultP := true }
  | some _ => s

/-- `FaultEntry(NAME, info)` of R200: the one way a fault is taken. The command in flight, if any, ends (BUSY <- 0) and
DONE stays as the command's acceptance left it. -/
def faultEntry (code : FaultCode) (info : Word) (s : State) : State :=
  { recordFault code info s with inFlight := none }

/-- The normal end of a command (R191): `STATUS.DONE <- 1 ; IRQ.DONE_P <- 1 ; STATUS.BUSY <- 0`. -/
def commandDone (s : State) : State :=
  { s with done := true, doneP := true, inFlight := none }

/-- The end of a command, normal or by a fault (R191). -/
def endCommand (r : Run State Unit) : Host.Outcome State Fault Refusal :=
  match r with
  | .ok _ s => .next (commandDone s)
  | .raise code info s => .next (faultEntry code info s)

/-- Clear `VALID_s` of a slot; the derived arrays keep their values (R97, R211). -/
def invalidate (t : HuffSlot) : HuffSlot := { t with valid := false }

/-- The part of R210 and R211 that both resets do: registers, cursors, slots' validity. GEOM, IN_LEN, OUT_LEN and RAM
are left, and so is what is not the block's (the host's list). -/
def resetRegisters (s : State) : State :=
  { s with arg0 := 0, arg1 := 0, res := 0, inFlight := none, done := false, eos := false, recorded := none,
           doneIe := false, faultIe := false, doneP := false, faultP := false, rd := Reader.atReset,
           wr := Writer.atReset, slots := s.slots.map invalidate }

/-! ### Accessors -/

/-- Slot `n`; `n` is in 0..5 wherever a command reads it. -/
def slotOf (s : State) (n : Nat) : HuffSlot := s.slots.getD n HuffSlot.atReset

/-- Slot `n` replaced. -/
def withSlot (s : State) (n : Nat) (t : HuffSlot) : State := { s with slots := s.slots.setIfInBounds n t }

/-- `LEN_s[x]` (R31). -/
def lenAt (t : HuffSlot) (x : Byte) : Nat := (t.len.getD x.toNat 0).toNat

/-- `CODE_s[x]` (R31). -/
def codeAt (t : HuffSlot) (x : Byte) : Nat := (t.code.getD x.toNat 0).toNat

/-- `LENSET_s[L-1] = 1` (R31). -/
def hasLength (t : HuffSlot) (L : Nat) : Bool := t.lenset.getLsbD (L - 1)

/-- `BITS_s[L]` (R32). -/
def bitsOf (m : Memory) (s L : Nat) : Nat := (memRead m (bitsAddr s L)).toNat

/-- `HUFFVAL_s[i]` (R32). -/
def huffvalOf (m : Memory) (s i : Nat) : Byte := memRead m (huffvalAddr s i)

/-- `QT[t][p]` (R34). -/
def qtOf (m : Memory) (t p : Nat) : Nat := (memRead m (qtAddr t p)).toNat

/-- `FREQ[sym]` (R36). -/
def freqOf (m : Memory) (sym : Nat) : Nat := (memRead32 m (freqAddr sym)).toNat

/-- `CM[comp][k][p]`, a signed number (R35). -/
def cmOf (c : Config) (m : Memory) (comp k p : Nat) : Int := (memRead16 m (cmAddr c comp k p)).toInt

/-- `CM[comp][k][p] <- v`, for `v` in the range of s16. -/
def setCm (c : Config) (m : Memory) (comp k p : Nat) (v : Int) : Memory :=
  memWrite16 m (cmAddr c comp k p) (BitVec.ofInt 16 v)

/-- `DR[comp][k]`, a signed number (R35). -/
def drOf (c : Config) (m : Memory) (comp k : Nat) : Int := (memRead16 m (drAddr c comp k)).toInt

/-- `DR[comp][k] <- v`, for `v` in the range of s16. -/
def setDr (c : Config) (m : Memory) (comp k : Nat) (v : Int) : Memory :=
  memWrite16 m (drAddr c comp k) (BitVec.ofInt 16 v)

/-! ### Geometry (R26, R38) -/

/-- `MCUX = GEOM[15:0]`. -/
def mcux (s : State) : Nat := (s.geom.extractLsb' 0 16).toNat

/-- `MCUY = GEOM[31:16]`. -/
def mcuy (s : State) : Nat := (s.geom.extractLsb' 16 16).toNat

/-- The geometry is valid (R26). -/
def geomValid (s : State) : Bool :=
  decide (1 ≤ mcux s) && decide (1 ≤ mcuy s) && decide (mcux s * mcuy s ≤ s.cfg.maxMcus)

/-- `nblocks(comp)` (R38). -/
def nblocks (s : State) (comp : Nat) : Nat :=
  if comp = 0 then 4 * (mcux s * mcuy s) else mcux s * mcuy s

/-! ### Operand checks, in the order of R75 -/

/-- Go on when `ok`, else raise the fault: an operand check, which changes no state (R75, R202). -/
def check (ok : Bool) (code : FaultCode) (info : Word) (s : State) (k : Run State Unit) : Run State Unit :=
  if ok then k else .raise code info s

/-- `BAD_SLOT` if the slot is above 5 (R75 item 2). -/
def checkSlot (slot : Nat) (s : State) (k : Run State Unit) : Run State Unit :=
  check (decide (slot ≤ 5)) .badSlot (word slot) s k

/-- `BAD_SLOT`, then `SLOT_INVALID` if the slot is not built (R75 item 2). -/
def checkBuilt (slot : Nat) (s : State) (k : Run State Unit) : Run State Unit :=
  checkSlot slot s (check (slotOf s slot).valid .slotInvalid (word slot) s k)

/-- `BAD_LEN` if a bit count or category is above its limit (R75 item 3). -/
def checkLen (n limit : Nat) (s : State) (k : Run State Unit) : Run State Unit :=
  check (decide (n ≤ limit)) .badLen (word n) s k

/-- `BAD_COMP`, then `GEOM` (R75 items 4 and 5). -/
def checkComp (comp : Nat) (s : State) (k : Run State Unit) : Run State Unit :=
  check (decide (comp < 3)) .badComp (word comp) s (check (geomValid s) .geom s.geom s k)

/-- `BAD_COMP`, `GEOM`, then `BLK_RANGE` on one block index (R75 items 4 to 6). -/
def checkBlock (comp k : Nat) (s : State) (body : Run State Unit) : Run State Unit :=
  checkComp comp s (check (decide (k < nblocks s comp)) .blkRange (word k) s body)

/-- `BAD_COMP`, `GEOM`, then `BLK_RANGE` on a range, computed without wrap-around (R72, R75). -/
def checkRange (comp first count : Nat) (s : State) (body : Run State Unit) : Run State Unit :=
  checkComp comp s (check (decide (first + count ≤ nblocks s comp)) .blkRange (word (first + count)) s body)

end Sys2Proof.Machine
end

