-- ==== Sys2Proof/Machine/Flags.lean ====
section
/-! DEFINITION. The status, fault, control and interrupt registers as the host reads them, and the interrupt output
(10_state.md R22 to R25, R33, R41; 60_exceptions.md R203). -/

namespace Sys2Proof.Machine

/-- A flag as the number 2^bit or 0. -/
def bitAt (b : Bool) (bit : Nat) : Word := if b then word (2 ^ bit) else 0

/-- `STATUS.BUSY` (R22). -/
def busy (s : State) : Bool := s.inFlight.isSome

/-- `STATUS.FAULT` (R22). -/
def faulted (s : State) : Bool := s.recorded.isSome

/-- STATUS (R22); bits 31:6 read 0. -/
def statusWord (s : State) : Word :=
  bitAt (busy s) 0 ||| bitAt s.done 1 ||| bitAt (faulted s) 2 ||| bitAt s.eos 3 ||| bitAt s.rd.eod 4 |||
    bitAt s.rd.marker 5

/-- FAULT (R23): the code of the recorded fault, 0 for none. -/
def faultWord (s : State) : Word :=
  match s.recorded with
  | none => 0
  | some r => (faultNumber r.code).setWidth 32

/-- FAULT_INFO (R23). -/
def faultInfoWord (s : State) : Word :=
  match s.recorded with
  | none => 0
  | some r => r.info

/-- CTRL (R24): SRST and the reserved bits read 0. -/
def ctrlWord (s : State) : Word := bitAt s.doneIe 1 ||| bitAt s.faultIe 2

/-- IRQ (R25). -/
def irqWord (s : State) : Word := bitAt s.doneP 0 ||| bitAt s.faultP 1

/-- The interrupt output (R25, R203). -/
def irqOutput (s : State) : Bool := (s.doneP && s.doneIe) || (s.faultP && s.faultIe)

/-- SLOTVALID (R33). -/
def slotValidWord (s : State) : Word :=
  bitAt (slotOf s 0).valid 0 ||| bitAt (slotOf s 1).valid 1 ||| bitAt (slotOf s 2).valid 2 |||
    bitAt (slotOf s 3).valid 3 ||| bitAt (slotOf s 4).valid 4 ||| bitAt (slotOf s 5).valid 5

/-- RD_CNT (R28): `RD_CNT[4:0]` = RCNT. -/
def rdCntWord (s : State) : Word := s.rd.cnt.setWidth 32

/-- WR_ACC (R30): `WR_ACC[7:0]` = WACC, `WR_ACC[11:8]` = WCNT. -/
def wrAccWord (s : State) : Word := (s.wr.cnt ++ s.wr.acc).setWidth 32

/-- A CTRL write without SRST stores the two enables (R24). -/
def setCtrl (v : Word) (s : State) : State := { s with doneIe := v.getLsbD 1, faultIe := v.getLsbD 2 }

/-- An IRQ write: a bit written 1 clears its pending bit (R25). -/
def clearIrq (v : Word) (s : State) : State :=
  { s with doneP := s.doneP && !v.getLsbD 0, faultP := s.faultP && !v.getLsbD 1 }

end Sys2Proof.Machine
end

