-- ==== Sys2Proof/Machine/Bus.lean ====
section
/-! DEFINITION. Host reads and writes of the register block and the data windows (20_memory.md R50 to R57), but for the
two writes that do more than store: CMD and CTRL.SRST, which Issue.lean takes. -/

namespace Sys2Proof.Machine

/-- The word address an access reaches: bits 1:0 cleared (R53). -/
def wordAddr (addr : Word) : Nat := 4 * (addr.toNat / 4)

/-- The register block read at an offset below 0x1000 (R51); CMD and the reserved offsets read 0 (R54). -/
def readRegister (off : Nat) (s : State) : Word :=
  match off with
  | 0x004 => s.arg0
  | 0x008 => s.arg1
  | 0x00C => s.res
  | 0x010 => statusWord s
  | 0x014 => faultWord s
  | 0x018 => faultInfoWord s
  | 0x01C => ctrlWord s
  | 0x020 => irqWord s
  | 0x024 => s.geom
  | 0x028 => s.inLen
  | 0x02C => s.outLen
  | 0x030 => s.rd.ptr
  | 0x034 => s.rd.buf
  | 0x038 => rdCntWord s
  | 0x03C => s.wr.ptr
  | 0x040 => wrAccWord s
  | 0x044 => slotValidWord s
  | 0x048 => 0x48434A31
  | 0x04C => word s.cfg.maxMcus
  | 0x050 => word s.cfg.inCap
  | 0x054 => word s.cfg.outCap
  | _ => 0

/-- One byte lane of a window: 0 where there is no storage (R54, R55, R56). -/
def readLane (s : State) (a : Nat) : Byte := if backed s.cfg a then memRead s.mem a else 0

/-- A window word at the aligned address `a`: its four lanes, and the sign of an `s16` entry extended (R55, R56). -/
def readWindow (s : State) (a : Nat) : Word :=
  if inHalfWindow s.cfg a then (readLane s (a + 1) ++ readLane s a).signExtend 32
  else readLane s (a + 3) ++ readLane s (a + 2) ++ readLane s (a + 1) ++ readLane s a

/-- What a host read of `addr` returns (R51 to R56). -/
def busRead (s : State) (addr : Word) : Word :=
  if wordAddr addr < 0x1000 then readRegister (wordAddr addr) s else readWindow s (wordAddr addr)

/-- IN_LEN or OUT_LEN as stored: at most the capacity (R27). -/
def clampLen (cap : Nat) (v : Word) : Word := if v.toNat ≤ cap then v else word cap

/-- The register block written: the writable registers store their fields, every other offset ignores the write (R20,
R24 to R27, R51, R54). CMD and SRST are Issue.lean's. -/
def writeRegister (off : Nat) (v : Word) (s : State) : State :=
  match off with
  | 0x004 => { s with arg0 := v }
  | 0x008 => { s with arg1 := v }
  | 0x01C => setCtrl v s
  | 0x020 => clearIrq v s
  | 0x024 => { s with geom := v }
  | 0x028 => { s with inLen := clampLen s.cfg.inCap v }
  | 0x02C => { s with outLen := clampLen s.cfg.outCap v }
  | _ => s

/-- One byte lane of a window stored, where there is storage (R54, R55, R56). -/
def writeLane (c : Config) (a : Nat) (b : Byte) (m : Memory) : Memory := if backed c a then memWrite m a b else m

/-- A window word stored at the aligned address `a`. -/
def writeWindow (a : Nat) (v : Word) (s : State) : State :=
  { s with mem := writeLane s.cfg (a + 3) (v.extractLsb' 24 8) (writeLane s.cfg (a + 2) (v.extractLsb' 16 8)
                    (writeLane s.cfg (a + 1) (v.extractLsb' 8 8) (writeLane s.cfg a (v.extractLsb' 0 8) s.mem))) }

/-- A host write that only stores (R57). -/
def busWrite (addr v : Word) (s : State) : State :=
  if wordAddr addr < 0x1000 then writeRegister (wordAddr addr) v s else writeWindow (wordAddr addr) v s

end Sys2Proof.Machine
end

