-- ==== Sys2Proof/Machine/Operands.lean ====
section
/-! DEFINITION. Operand assembly from ARG0 and ARG1 (30_encoding.md R72) and the number forms of the operands: the VLI
functions (41_bitio.md R117). -/

namespace Sys2Proof.Machine

/-- ARG0 as an unsigned index: a pointer, a block, a first block (R72). -/
def arg0Nat (s : State) : Nat := s.arg0.toNat

/-- ARG1 as an unsigned count (R72). -/
def arg1Nat (s : State) : Nat := s.arg1.toNat

/-- `sext_32(ARG0)`: ARG0 read as signed (R72). -/
def arg0Int (s : State) : Int := s.arg0.toInt

/-- A signed number as a 32-bit two's-complement word. -/
def signedWord (v : Int) : Word := BitVec.ofInt 32 v

/-- `bitlen(x)`: the number of binary digits of `x`; 0 for 0 (R10). -/
def bitlen (x : Nat) : Nat := if x = 0 then 0 else Nat.log2 x + 1

/-- `cat(v)`: the category (R117). -/
def cat (v : Int) : Nat := bitlen v.natAbs

/-- `VliBits(v, c)`: the stored pattern, `v` if positive and `v + 2^c - 1` if negative (R117). -/
def vliBits (v : Int) (c : Nat) : Nat :=
  if 0 < v then v.toNat else (v + 2 ^ c - 1).toNat

/-- `VliDecode(x, c)` (R117). -/
def vliDecode (x c : Nat) : Int :=
  if c = 0 then 0 else if x.testBit (c - 1) then (x : Int) else (x : Int) + 1 - 2 ^ c

end Sys2Proof.Machine
end

