-- ==== Sys2Proof/Machine/Reader.lean ====
section
/-! DEFINITION. The byte-stuffed bit reader: Fetch, Consume, TakeBits, EosCheck (41_bitio.md R110 to R113) and the
commands RDINIT, GETBITS, RECEIVE (R114 to R116). The primitives work on the reader's cursor alone; `m` is RAM and
`len` is IN_LEN, which they only read. -/

namespace Sys2Proof.Machine

/-- `Fetch()` of R110: the next destuffed byte, or none at end of data. -/
def fetch (m : Memory) (len : Nat) (r : Reader) : Option Byte × Reader :=
  if r.eod then (none, r)
  else if len ≤ r.ptr.toNat then (none, { r with eod := true, marker := false })
  else if memRead m (inAddr r.ptr.toNat) ≠ 0xFF then
    (some (memRead m (inAddr r.ptr.toNat)), { r with ptr := r.ptr + 1 })
  else if len ≤ r.ptr.toNat + 1 then (none, { r with eod := true, marker := false })
  else if memRead m (inAddr (r.ptr.toNat + 1)) = 0x00 then (some 0xFF, { r with ptr := r.ptr + 2 })
  else (none, { r with eod := true, marker := true })

/-- `RBUF <- (RBUF << 8) | b ; RCNT <- RCNT + 8`. -/
def pushByte (r : Reader) (b : Byte) : Reader :=
  { r with buf := (r.buf <<< 8) ||| b.setWidth 32, cnt := BitVec.ofNat 5 (r.cnt.toNat + 8) }

/-- `while RCNT < n: b <- Fetch(); if b = NONE stop; push b`. Says whether `n` bits are buffered at the end. The count
of rounds is a bound: each round adds 8 bits. -/
def pullTo (m : Memory) (len n : Nat) : Nat → Reader → Bool × Reader
  | 0, r => (decide (n ≤ r.cnt.toNat), r)
  | fuel + 1, r =>
    if n ≤ r.cnt.toNat then (true, r)
    else match fetch m len r with
      | (none, r') => (false, r')
      | (some b, r') => pullTo m len n fuel (pushByte r' b)

/-- `RBUF[RCNT-1 : RCNT-n]`: the next n unconsumed bits. -/
def topBits (r : Reader) (n : Nat) : Nat := r.buf.toNat / 2 ^ (r.cnt.toNat - n) % 2 ^ n

/-- `if RCNT = 0: b <- Fetch(); if b != NONE: RBUF <- b ; RCNT <- 8`: the refill of R111 and R114. -/
def refill (m : Memory) (len : Nat) (r : Reader) : Reader :=
  match fetch m len r with
  | (none, r') => r'
  | (some b, r') => { r' with buf := b.setWidth 32, cnt := 8 }

/-- `Consume(n)` of R111. -/
def consume (m : Memory) (len n : Nat) (r : Reader) : Reader :=
  if r.cnt.toNat - n = 0 then refill m len { r with buf := 0, cnt := 0 }
  else { r with buf := word (r.buf.toNat % 2 ^ (r.cnt.toNat - n)), cnt := BitVec.ofNat 5 (r.cnt.toNat - n) }

/-- `TakeBits(n)` of R112. -/
def takeBits (m : Memory) (len n : Nat) (r : Reader) : Run Reader Nat :=
  if n = 0 then .ok 0 r
  else match pullTo m len n n r with
    | (false, r') => .raise .rdEod r'.ptr r'
    | (true, r') => .ok (topBits r' n) (consume m len n r')

/-- `EosCheck()` of R113: is this miss the normal end of the scan data? -/
def eosCheck (m : Memory) (len : Nat) (r : Reader) : Bool × Reader :=
  if r.cnt.toNat ≤ 7 ∧ r.buf.toNat = 2 ^ r.cnt.toNat - 1 then
    if r.eod then (true, r)
    else match fetch m len r with
      | (none, r') => (true, r')
      | (some b, r') => (false, pushByte r' b)
  else (false, r)

/-- RDINIT's new cursor (R114): start reading at byte index `p`. -/
def readerStart (m : Memory) (len : Nat) (p : Word) : Reader :=
  refill m len { ptr := p, buf := 0, cnt := 0, eod := false, marker := false }

/-- RDINIT (R114). -/
def execRdinit (s : State) : Host.Outcome State Fault Refusal :=
  endCommand (.ok () { s with rd := readerStart s.mem s.inLen.toNat s.arg0 })

/-- GETBITS n (R115): `RES <- zext_32(TakeBits(n))`. -/
def execGetbits (n : Nat) (s : State) : Host.Outcome State Fault Refusal :=
  endCommand (checkLen n 16 s
    (((takeBits s.mem s.inLen.toNat n s.rd).lift (fun r => { s with rd := r })).andThen
      fun x s => .ok () { s with res := word x }))

/-- RECEIVE n (R116): `RES <- sext_32(VliDecode(TakeBits(n), n))`. -/
def execReceive (n : Nat) (s : State) : Host.Outcome State Fault Refusal :=
  endCommand (checkLen n 15 s
    (((takeBits s.mem s.inLen.toNat n s.rd).lift (fun r => { s with rd := r })).andThen
      fun x s => .ok () { s with res := signedWord (vliDecode x n) }))

end Sys2Proof.Machine
end

