-- ==== Sys2Proof/Machine/Writer.lean ====
section
/-! DEFINITION. The byte-stuffing bit writer: EmitByte, PutBits (41_bitio.md R118, R119) and the commands WRINIT,
PUTBITS, PUTVLI, VCAT, FLUSH (R120 to R124). -/

namespace Sys2Proof.Machine

/-- What the writer works on: its cursor and RAM (it writes OUT). -/
structure OutPort where
  wr  : Writer
  mem : Memory
  deriving DecidableEq, Repr

/-- The writer's part of a state. -/
def outPort (s : State) : OutPort := { wr := s.wr, mem := s.mem }

/-- The writer's part of a state replaced. -/
def withOutPort (s : State) (p : OutPort) : State := { s with wr := p.wr, mem := p.mem }

/-- How many bytes of OUT a byte of the stream takes: 2 for 0xFF, which is stuffed (R118). -/
def stuffedSize (b : Byte) : Nat := if b = 0xFF then 2 else 1

/-- A byte of the stream stored at OUT[j], with the stuffed 0x00 after a 0xFF (R118). -/
def storeStuffed (m : Memory) (j : Nat) (b : Byte) : Memory :=
  if b = 0xFF then memWrite (memWrite m (outAddr j) b) (outAddr (j + 1)) 0x00 else memWrite m (outAddr j) b

/-- `EmitByte(b)` of R118; `limit` is OUT_LEN, checked before any byte is written. -/
def emitByte (limit : Nat) (b : Byte) (p : OutPort) : Run OutPort Unit :=
  if limit < p.wr.ptr.toNat + stuffedSize b then .raise .wrFull p.wr.ptr p
  else .ok () { wr := { p.wr with ptr := p.wr.ptr + word (stuffedSize b) },
                mem := storeStuffed p.mem p.wr.ptr.toNat b }

/-- `WACC <- (WACC << 1) | bit ; WCNT <- WCNT + 1`. -/
def pushBit (w : Writer) (bit : Bool) : Writer :=
  { w with acc := (w.acc <<< 1) ||| (BitVec.ofBool bit).setWidth 8, cnt := w.cnt + 1 }

/-- One round of `PutBits` (R119): append a bit, and emit the byte when it is complete. -/
def putBit (limit : Nat) (bit : Bool) (p : OutPort) : Run OutPort Unit :=
  if (pushBit p.wr bit).cnt = 8 then
    (emitByte limit (pushBit p.wr bit).acc { p with wr := pushBit p.wr bit }).andThen
      fun _ p => .ok () { p with wr := { p.wr with acc := 0, cnt := 0 } }
  else .ok () { p with wr := pushBit p.wr bit }

/-- `PutBits(n, v)` of R119: the low n bits of v, most significant first. -/
def putBits (limit : Nat) : Nat → Nat → OutPort → Run OutPort Unit
  | 0, _, p => .ok () p
  | n + 1, v, p => (putBit limit (v.testBit n) p).andThen fun _ p => putBits limit n v p

/-- WRINIT (R120). -/
def execWrinit (s : State) : Host.Outcome State Fault Refusal :=
  endCommand (.ok () { s with wr := { ptr := s.arg0, acc := 0, cnt := 0 } })

/-- PUTBITS n (R121): `PutBits(n, ARG0)`. -/
def execPutbits (n : Nat) (s : State) : Host.Outcome State Fault Refusal :=
  endCommand (checkLen n 32 s
    ((putBits s.outLen.toNat n (arg0Nat s) (outPort s)).lift (withOutPort s)))

/-- PUTVLI (R122): write the pattern of ARG0 read as signed; `RES <- cat(v)`. -/
def execPutvli (s : State) : Host.Outcome State Fault Refusal :=
  endCommand (check (decide (cat (arg0Int s) ≤ 15)) .vliRange s.arg0 s
    (((putBits s.outLen.toNat (cat (arg0Int s)) (vliBits (arg0Int s) (cat (arg0Int s))) (outPort s)).lift
        (withOutPort s)).andThen
      fun _ s' => .ok () { s' with res := word (cat (arg0Int s)) }))

/-- VCAT (R123): `RES <- cat(v)`. -/
def execVcat (s : State) : Host.Outcome State Fault Refusal :=
  endCommand (.ok () { s with res := word (cat (arg0Int s)) })

/-- FLUSH's padding (R124): complete a partial byte with one-bits. -/
def flushBits (limit : Nat) (p : OutPort) : Run OutPort Unit :=
  if p.wr.cnt = 0 then .ok () p
  else putBits limit (8 - p.wr.cnt.toNat) (2 ^ (8 - p.wr.cnt.toNat) - 1) p

/-- FLUSH (R124). -/
def execFlush (s : State) : Host.Outcome State Fault Refusal :=
  endCommand ((flushBits s.outLen.toNat (outPort s)).lift (withOutPort s))

end Sys2Proof.Machine
end

