-- ==== Sys2Proof/Machine/Huffman.lean ====
section
/-! DEFINITION. The canonical Huffman codec (40_huffman.md R90 to R97): building a slot from its wire form or from the
frequency table, symbol lookup, code emission and query, invalidation. -/

namespace Sys2Proof.Machine

/-! ### Table construction from the wire form (R90) -/

/-- The table under construction: LEN', CODE', the running code and the index into HUFFVAL. -/
structure Builder where
  len  : Vector (BitVec 5) 256
  code : Vector (BitVec 16) 256
  next : Nat
  k    : Nat
  deriving DecidableEq, Repr

/-- A builder's answer: the table so far, or the fault to raise. -/
abbrev Build := Except (FaultCode × Word) Builder

/-- One code of length `L` for the symbol HUFFVAL_s[k]. -/
def buildCode (m : Memory) (s L : Nat) (b : Builder) : Build :=
  if 2 ^ L ≤ b.next then .error (.huffOverflow, word (L * 2 ^ 24 + b.next))
  else if b.len.getD (huffvalOf m s b.k).toNat 0 ≠ 0 then .error (.huffDup, word (huffvalOf m s b.k).toNat)
  else .ok { len := b.len.setIfInBounds (huffvalOf m s b.k).toNat (BitVec.ofNat 5 L),
             code := b.code.setIfInBounds (huffvalOf m s b.k).toNat (BitVec.ofNat 16 b.next),
             next := b.next + 1, k := b.k + 1 }

/-- `repeat count times`: the codes of one length class. -/
def buildClass (m : Memory) (s L : Nat) : Nat → Builder → Build
  | 0, b => .ok b
  | count + 1, b =>
    match buildCode m s L b with
    | .error e => .error e
    | .ok b' => buildClass m s L count b'

/-- The length classes listed, in order, with the left shift after each one. -/
def buildClasses (m : Memory) (s : Nat) : List Nat → Builder → Build
  | [], b => .ok b
  | L :: rest, b =>
    match buildClass m s L (bitsOf m s L) b with
    | .error e => .error e
    | .ok b' => buildClasses m s rest { b' with next := 2 * b'.next }

/-- The code lengths 1..16, ascending. -/
def codeLengths : List Nat := [1, 2, 3, 4, 5, 6, 7, 8, 9, 10, 11, 12, 13, 14, 15, 16]

/-- `BITS_s[1] + ... + BITS_s[16]`. -/
def totalCodes (m : Memory) (s : Nat) : Nat := (codeLengths.map (bitsOf m s)).sum

/-- The empty table. -/
def Builder.empty : Builder := { len := Vector.replicate 256 0, code := Vector.replicate 256 0, next := 0, k := 0 }

/-- `LENSET_s[L-1] <- (BITS_s[L] > 0) for L in 1..16`. -/
def lensetOf (m : Memory) (s : Nat) : BitVec 16 :=
  codeLengths.foldl (fun acc L => acc ||| (if 0 < bitsOf m s L then BitVec.twoPow 16 (L - 1) else 0)) 0

/-- The table the wire form of slot `s` in memory gives, or the fault it raises. -/
def buildTable (m : Memory) (s : Nat) : Except (FaultCode × Word) HuffSlot :=
  if 256 < totalCodes m s then .error (.huffCount, word (totalCodes m s))
  else match buildClasses m s codeLengths Builder.empty with
    | .error e => .error e
    | .ok b => .ok { valid := true, lenset := lensetOf m s, len := b.len, code := b.code }

/-- The body of R90: clear VALID_s, build, and install the table. -/
def buildSlot (slot : Nat) (s : State) : Run State Unit :=
  match buildTable s.mem slot with
  | .error (code, info) => .raise code info (withSlot s slot (invalidate (slotOf s slot)))
  | .ok t => .ok () (withSlot s slot t)

/-- HBUILD (R90). -/
def execHbuild (slot : Nat) (s : State) : Host.Outcome State Fault Refusal :=
  endCommand (checkSlot slot s (buildSlot slot s))

/-! ### Table generation from frequencies (R92) -/

/-- A node's shape: a leaf carries a symbol, or none for the pseudo-symbol P. -/
inductive HuffTree where
  | leaf (sym : Option Nat)
  | node (child0 child1 : HuffTree)
  deriving DecidableEq, Repr

/-- A node of the forest H, with its weight and serial number. -/
structure HuffNode where
  weight : Nat
  serial : Nat
  tree   : HuffTree
  deriving DecidableEq, Repr

/-- "least (weight, serial)": weight first, serial second. -/
def nodeBefore (a b : HuffNode) : Bool :=
  decide (a.weight < b.weight) || (decide (a.weight = b.weight) && decide (a.serial < b.serial))

/-- A node added to a forest held in rising order of (weight, serial). -/
def insertNode (a : HuffNode) : List HuffNode → List HuffNode
  | [] => [a]
  | b :: rest => if nodeBefore a b then a :: b :: rest else b :: insertNode a rest

/-- H at the start: a leaf for each symbol with FREQ > 0, and P with weight 0 and serial 256. -/
def initialForest (m : Memory) : List HuffNode :=
  ((List.range 256).filter (fun sym => decide (0 < freqOf m sym))).foldr
    (fun sym h => insertNode { weight := freqOf m sym, serial := sym, tree := .leaf (some sym) } h)
    [{ weight := 0, serial := 256, tree := .leaf none }]

/-- `while |H| > 1`: merge the two least nodes, the first removed as child 0. The forest is held in rising order, so the
two least are its first two; each round makes it one shorter, and `fuel` is its length. -/
def mergeForest : (fuel next : Nat) → List HuffNode → HuffTree
  | fuel + 1, next, a :: b :: rest =>
    mergeForest fuel (next + 1)
      (insertNode { weight := a.weight + b.weight, serial := next, tree := .node a.tree b.tree } rest)
  | _, _, a :: _ => a.tree
  | _, _, [] => .leaf none

/-- How many nodes a tree has. -/
def treeSize : HuffTree → Nat
  | .leaf _ => 1
  | .node a b => treeSize a + treeSize b + 1

/-- Breadth-first leaf collection: each real symbol with its depth. Each round takes one node off the queue, and `fuel`
is the number of nodes. -/
def collectLeaves : Nat → List (HuffTree × Nat) → List (Nat × Nat)
  | 0, _ => []
  | _ + 1, [] => []
  | fuel + 1, (.leaf none, _) :: q => collectLeaves fuel q
  | fuel + 1, (.leaf (some sym), d) :: q => (sym, d) :: collectLeaves fuel q
  | fuel + 1, (.node a b, d) :: q => collectLeaves fuel (q ++ [(a, d + 1), (b, d + 1)])

/-- `list` of R92: the symbols with their depths, in breadth-first order, for the frequencies in memory. -/
def huffmanLeaves (m : Memory) : List (Nat × Nat) :=
  collectLeaves (treeSize (mergeForest (initialForest m).length 257 (initialForest m)))
    [(mergeForest (initialForest m).length 257 (initialForest m), 0)]

/-- `maxd`: the greatest depth, 0 for an empty list. -/
def maxDepth (leaves : List (Nat × Nat)) : Nat := leaves.foldl (fun d x => max d x.2) 0

/-- `BITS_s[L] <- |{ (sym, d) in list : d = L }|`. -/
def storeBits (s : Nat) (leaves : List (Nat × Nat)) (m : Memory) : Memory :=
  codeLengths.foldl (fun m L => memWrite m (bitsAddr s L) (BitVec.ofNat 8 (leaves.countP (fun x => x.2 == L)))) m

/-- `HUFFVAL_s[i] <- list[i].sym`, from index `i` on; entries past the list keep their values. -/
def storeHuffval (s : Nat) : Nat → List (Nat × Nat) → Memory → Memory
  | _, [], m => m
  | i, x :: rest, m => storeHuffval s (i + 1) rest (memWrite m (huffvalAddr s i) (BitVec.ofNat 8 x.1))

/-- The wire form of R92 written to memory. -/
def storeWireForm (s : Nat) (leaves : List (Nat × Nat)) (m : Memory) : Memory :=
  storeHuffval s 0 leaves (storeBits s leaves m)

/-- The body of R92: clear VALID_s, generate, refuse a depth above 16, write the wire form, build. -/
def generateSlot (slot : Nat) (s : State) : Run State Unit :=
  if 16 < maxDepth (huffmanLeaves s.mem) then
    .raise .huffDepth (word (maxDepth (huffmanLeaves s.mem))) (withSlot s slot (invalidate (slotOf s slot)))
  else buildSlot slot { s with mem := storeWireForm slot (huffmanLeaves s.mem) s.mem }

/-- HGEN (R92). -/
def execHgen (slot : Nat) (s : State) : Host.Outcome State Fault Refusal :=
  endCommand (checkSlot slot s (generateSlot slot s))

/-! ### Lookup (R93, R94) -/

/-- All byte values in rising order. -/
def allSymbols : List Byte := (List.range 256).map (BitVec.ofNat 8)

/-- "some x has LEN_s[x] = L and CODE_s[x] = top": unique in a built table (R91 (a)); the least such x (log entry 12). -/
def matchCode (t : HuffSlot) (L top : Nat) : Option Byte :=
  allSymbols.find? (fun x => lenAt t x == L && codeAt t x == top)

/-- `Lookup(s)` of R93 over the lengths listed: a symbol, or none for MISS. -/
def lookupFrom (t : HuffSlot) (m : Memory) (len : Nat) : List Nat → Reader → Option Byte × Reader
  | [], r => (none, r)
  | L :: rest, r =>
    if hasLength t L then
      match pullTo m len L L r with
      | (false, r') => (none, r')
      | (true, r') =>
        match matchCode t L (topBits r' L) with
        | some x => (some x, consume m len L r')
        | none => lookupFrom t m len rest r'
    else lookupFrom t m len rest r

/-- `Lookup(s)` of R93. -/
def lookup (t : HuffSlot) (m : Memory) (len : Nat) (r : Reader) : Option Byte × Reader :=
  lookupFrom t m len codeLengths r

/-- The body of R94 after the operand checks. -/
def decodeSymbol (slot : Nat) (eosok : Bool) (s : State) : Run State Unit :=
  match lookup (slotOf s slot) s.mem s.inLen.toNat s.rd with
  | (some x, r) => .ok () { s with rd := r, res := x.setWidth 32 }
  | (none, r) =>
    if eosok then
      match eosCheck s.mem s.inLen.toNat r with
      | (true, r') => .ok () { s with rd := r', eos := true, res := 0xFFFFFFFF }
      | (false, r') => .raise .huffMiss (word slot) { s with rd := r' }
    else .raise .huffMiss (word slot) { s with rd := r }

/-- HDEC (R94). -/
def execHdec (slot : Nat) (eosok : Bool) (s : State) : Host.Outcome State Fault Refusal :=
  endCommand (checkBuilt slot s (decodeSymbol slot eosok s))

/-! ### Emission and query (R95, R96, R97) -/

/-- `HencSym(s, x)` of R141, the body of R95: HUFF_NOCODE if the symbol has no code, else its code to the writer. -/
def hencSym (t : HuffSlot) (limit : Nat) (x : Byte) (p : OutPort) : Run OutPort Unit :=
  if lenAt t x = 0 then .raise .huffNocode (x.setWidth 32) p
  else putBits limit (lenAt t x) (codeAt t x) p

/-- HENC (R95). -/
def execHenc (slot : Nat) (sym : Byte) (s : State) : Host.Outcome State Fault Refusal :=
  endCommand (checkBuilt slot s ((hencSym (slotOf s slot) s.outLen.toNat sym (outPort s)).lift (withOutPort s)))

/-- `RES <- (L << 16) | CODE_s[sym]` of R96. -/
def codeWord (t : HuffSlot) (x : Byte) : Word := word (lenAt t x * 2 ^ 16 + codeAt t x)

/-- HCODE (R96). -/
def execHcode (slot : Nat) (sym : Byte) (s : State) : Host.Outcome State Fault Refusal :=
  endCommand (checkBuilt slot s
    (if lenAt (slotOf s slot) sym = 0 then .raise .huffNocode (sym.setWidth 32) s
     else .ok () { s with res := codeWord (slotOf s slot) sym }))

/-- HINV (R97). -/
def execHinv (slot : Nat) (s : State) : Host.Outcome State Fault Refusal :=
  endCommand (checkSlot slot s (.ok () (withSlot s slot (invalidate (slotOf s slot)))))

end Sys2Proof.Machine
end

