-- ==== Sys2Proof/Machine/Block.lean ====
section
/-! DEFINITION. The block symbol stream: DECBLK and ENCBLK (42_block.md R140 to R142). -/

namespace Sys2Proof.Machine

/-- What DECBLK's body works on: the reader's cursor and RAM (it writes DR and CM). -/
structure InPort where
  rd  : Reader
  mem : Memory
  deriving DecidableEq, Repr

/-- The run of an AC symbol: `s[7:4]` (R142). -/
def symRun (x : Byte) : Nat := x.toNat / 16

/-- The category of an AC symbol: `s[3:0]` (R142). -/
def symCat (x : Byte) : Nat := x.toNat % 16

/-- The AC symbol of a run and a category: `(r << 4) | c` (R141). -/
def acSymbol (r c : Nat) : Byte := BitVec.ofNat 8 (r * 16 + c)

/-- AC_RUN's info: `(j << 8) | s`. -/
def acRunInfo (j : Nat) (x : Byte) : Word := word (j * 256 + x.toNat)

/-- `CM[comp][k][p] <- 0 for p in 1..n`. -/
def clearAc (c : Config) (comp k : Nat) : Nat → Memory → Memory
  | 0, m => m
  | n + 1, m => setCm c (clearAc c comp k n m) comp k (n + 1) 0

/-- R140's `while j <= 63`: the AC symbols from position `j` on. Each round raises `j`; `fuel` bounds the rounds. -/
def decodeAc (c : Config) (len : Nat) (t : HuffSlot) (acs comp k : Nat) : (fuel j : Nat) → InPort → Run InPort Unit
  | 0, _, p => .ok () p
  | fuel + 1, j, p =>
    if 63 < j then .ok () p
    else match lookup t p.mem len p.rd with
      | (none, r) => .raise .huffMiss (word acs) { p with rd := r }
      | (some x, r) =>
        if symCat x = 0 then
          if symRun x = 0 then .ok () { p with rd := r }
          else if symRun x = 15 then
            if 64 < j + 16 then .raise .acRun (acRunInfo (j + 16) x) { p with rd := r }
            else decodeAc c len t acs comp k fuel (j + 16) { p with rd := r }
          else .raise .acRun (acRunInfo j x) { p with rd := r }
        else if 63 < j + symRun x then .raise .acRun (acRunInfo (j + symRun x) x) { p with rd := r }
        else ((takeBits p.mem len (symCat x) r).lift (fun r => { p with rd := r })).andThen fun v p =>
          decodeAc c len t acs comp k fuel (j + symRun x + 1)
            { p with mem := setCm c p.mem comp k (j + symRun x) (vliDecode v (symCat x)) }

/-- The part of R140 after the DC symbol `x`: DC_CAT, the DC value, the AC zeroing, the AC symbols. -/
def decodeBlockFrom (s : State) (acs comp : Nat) (x : Byte) (p : InPort) : Run InPort Unit :=
  if 15 < x.toNat then .raise .dcCat (x.setWidth 32) p
  else ((takeBits p.mem s.inLen.toNat x.toNat p.rd).lift (fun r => { p with rd := r })).andThen fun v p =>
    decodeAc s.cfg s.inLen.toNat (slotOf s acs) acs comp (arg0Nat s) 64 1
      { p with mem := clearAc s.cfg comp (arg0Nat s) 63
                 (setDr s.cfg p.mem comp (arg0Nat s) (vliDecode v x.toNat)) }

/-- The body of R140 after the operand checks. -/
def decodeBlock (dcs acs comp : Nat) (eosok : Bool) (s : State) : Run State Unit :=
  match lookup (slotOf s dcs) s.mem s.inLen.toNat s.rd with
  | (none, r) =>
    if eosok then
      match eosCheck s.mem s.inLen.toNat r with
      | (true, r') => .ok () { s with rd := r', eos := true, res := 1 }
      | (false, r') => .raise .huffMiss (word dcs) { s with rd := r' }
    else .raise .huffMiss (word dcs) { s with rd := r }
  | (some x, r) =>
    ((decodeBlockFrom s acs comp x { rd := r, mem := s.mem }).lift
        (fun p => { s with rd := p.rd, mem := p.mem })).andThen
      fun _ s => .ok () { s with res := 0 }

/-- DECBLK (R140). -/
def execDecblk (dcs acs comp : Nat) (eosok : Bool) (s : State) : Host.Outcome State Fault Refusal :=
  endCommand (checkBuilt dcs s (checkBuilt acs s (checkBlock comp (arg0Nat s) s (decodeBlock dcs acs comp eosok s))))

/-- `while r > 15: HencSym(acs, 0xF0) ; r <- r - 16`, as the number of rounds. -/
def encodeZrls (t : HuffSlot) (limit : Nat) : Nat → OutPort → Run OutPort Unit
  | 0, p => .ok () p
  | n + 1, p => (hencSym t limit 0xF0 p).andThen fun _ p => encodeZrls t limit n p

/-- A value in a block: VLI_RANGE, then its symbol of run `r`, then its VLI pattern (R141). For the DC value the run is 0
and the symbol is the category. -/
def encodeValue (t : HuffSlot) (limit r : Nat) (v : Int) (p : OutPort) : Run OutPort Unit :=
  if 15 < cat v then .raise .vliRange (signedWord v) p
  else (hencSym t limit (acSymbol r (cat v)) p).andThen fun _ p => putBits limit (cat v) (vliBits v (cat v)) p

/-- R141's `for j in 1..63`: `n` positions from `j` on, with `r` zeros pending; then EOB if zeros remain. -/
def encodeAc (c : Config) (limit : Nat) (t : HuffSlot) (comp k : Nat) : (n j r : Nat) → OutPort → Run OutPort Unit
  | 0, _, r, p => if 0 < r then hencSym t limit 0x00 p else .ok () p
  | n + 1, j, r, p =>
    if cmOf c p.mem comp k j = 0 then encodeAc c limit t comp k n (j + 1) (r + 1) p
    else (encodeZrls t limit (r / 16) p).andThen fun _ q =>
      (encodeValue t limit (r % 16) (cmOf c p.mem comp k j) q).andThen fun _ q =>
        encodeAc c limit t comp k n (j + 1) 0 q

/-- The body of R141 after the operand checks. -/
def encodeBlock (dcs acs comp : Nat) (s : State) (p : OutPort) : Run OutPort Unit :=
  (encodeValue (slotOf s dcs) s.outLen.toNat 0 (drOf s.cfg p.mem comp (arg0Nat s)) p).andThen fun _ p =>
    encodeAc s.cfg s.outLen.toNat (slotOf s acs) comp (arg0Nat s) 63 1 0 p

/-- ENCBLK (R141). -/
def execEncblk (dcs acs comp : Nat) (s : State) : Host.Outcome State Fault Refusal :=
  endCommand (checkBuilt dcs s (checkBuilt acs s (checkBlock comp (arg0Nat s) s
    (((encodeBlock dcs acs comp s (outPort s)).lift (withOutPort s)).andThen
      fun _ s => .ok () { s with res := 0 }))))

end Sys2Proof.Machine
end

