-- ==== Sys2Proof/Machine/Control.lean ====
section
/-! DEFINITION. The control command (44_control.md R190). -/

namespace Sys2Proof.Machine

/-- NOP (R190): nothing beyond the protocol. -/
def execNop (s : State) : Host.Outcome State Fault Refusal := endCommand (.ok () s)

end Sys2Proof.Machine
end

