-- ==== Sys2Proof/Machine/Frequency.lean ====
section
/-! DEFINITION. The frequency table commands FCLR, FINC, FHIST (40_huffman.md R98 to R100). -/

namespace Sys2Proof.Machine

/-- `FREQ[i] <- 0 for i in 0..n-1`. -/
def clearFreq : Nat → Memory → Memory
  | 0, m => m
  | n + 1, m => memWrite32 (clearFreq n m) (freqAddr n) 0

/-- `FREQ[sym] <- min(FREQ[sym] + 1, 0xFFFFFFFF)`. -/
def countSymbol (m : Memory) (sym : Nat) : Memory :=
  memWrite32 m (freqAddr sym) (word (min (freqOf m sym + 1) 0xFFFFFFFF))

/-- R100's loop: count the category of `count` residuals from block `k` on, ascending. -/
def countCategories (c : Config) (comp : Nat) : (count k : Nat) → Memory → Memory
  | 0, _, m => m
  | count + 1, k, m => countCategories c comp count (k + 1) (countSymbol m (cat (drOf c m comp k)))

/-- FCLR (R98). -/
def execFclr (s : State) : Host.Outcome State Fault Refusal :=
  endCommand (.ok () { s with mem := clearFreq 256 s.mem })

/-- FINC (R99). -/
def execFinc (sym : Byte) (s : State) : Host.Outcome State Fault Refusal :=
  endCommand (.ok () { s with mem := countSymbol s.mem sym.toNat })

/-- FHIST (R100). -/
def execFhist (comp : Nat) (s : State) : Host.Outcome State Fault Refusal :=
  endCommand (checkRange comp (arg0Nat s) (arg1Nat s) s
    (.ok () { s with mem := countCategories s.cfg comp (arg1Nat s) (arg0Nat s) s.mem }))

end Sys2Proof.Machine
end

