-- ==== Sys2Proof/Machine/Predictor.lean ====
section
/-! DEFINITION. The DC predictor: neighbour geometry, edge estimates, trimmed mean, prediction (43_predictor.md R160 to
R169) and the commands DPCMDEC, DPCMENC, SPPRED, SPDEC, SPENC (R170 to R174). Arithmetic is on integers. -/

namespace Sys2Proof.Machine

/-! ### Neighbours (R160, R161, R162) -/

/-- `Left(comp, k)`; `mx` is MCUX. -/
def leftOf (mx comp k : Nat) : Option Nat :=
  if comp = 0 then
    if k % 4 = 1 ∨ k % 4 = 3 then some (k - 1)
    else if 0 < k / 4 % mx then some (k - 3) else none
  else if k % mx ≠ 0 then some (k - 1) else none

/-- `Above(comp, k)`; `mx` is MCUX. -/
def aboveOf (mx comp k : Nat) : Option Nat :=
  if comp = 0 then
    if k % 4 = 2 ∨ k % 4 = 3 then some (k - 2)
    else if 0 < k / 4 / mx then some (k - 4 * mx + 2) else none
  else if mx ≤ k then some (k - mx) else none

/-! ### Tables (R163, R165) -/

/-- `ZZ(8v+u)` by natural index, one row v a line (R163). -/
def zzTable : List Nat :=
  [0, 1, 5, 6, 14, 15, 27, 28] ++
  [2, 4, 7, 13, 16, 26, 29, 42] ++
  [3, 8, 12, 17, 25, 30, 41, 43] ++
  [9, 11, 18, 24, 31, 40, 44, 53] ++
  [10, 19, 23, 32, 39, 45, 52, 54] ++
  [20, 22, 33, 38, 46, 51, 55, 60] ++
  [21, 34, 37, 47, 50, 56, 59, 61] ++
  [35, 36, 48, 49, 57, 58, 62, 63]

/-- `ZZ(n)`: the zigzag position of natural index n. -/
def zz (n : Nat) : Nat := zzTable.getD n 0

/-- `ZZ_TO_NAT[p]` (R163), sixteen positions a line. -/
def zzToNatTable : List Nat :=
  [0, 1, 8, 16, 9, 2, 3, 10, 17, 24, 32, 25, 18, 11, 4, 5] ++
  [12, 19, 26, 33, 40, 48, 41, 34, 27, 20, 13, 6, 7, 14, 21, 28] ++
  [35, 42, 49, 56, 57, 50, 43, 36, 29, 22, 15, 23, 30, 37, 44, 51] ++
  [58, 59, 52, 45, 38, 31, 39, 46, 53, 60, 61, 54, 47, 55, 62, 63]

/-- `ZZ_TO_NAT[p]`: the natural index of zigzag position p. -/
def zzToNat (p : Nat) : Nat := zzToNatTable.getD p 0

/-- The rows of `BQ` (R165). -/
def bqTable : List (List Int) :=
  [[5793, 8035, 7568, 6811, 5793, 4551, 3135, 1598]] ++
  [[5793, 6811, 3135, -1598, -5793, -8035, -7568, -4551]] ++
  [[5793, 4551, -3135, -8035, -5793, 1598, 7568, 6811]] ++
  [[5793, 1598, -7568, -4551, 5793, 6811, -3135, -8035]] ++
  [[5793, -1598, -7568, 4551, 5793, -6811, -3135, 8035]] ++
  [[5793, -4551, -3135, 8035, -5793, -1598, 7568, -6811]] ++
  [[5793, -6811, 3135, 1598, -5793, 8035, -7568, 4551]] ++
  [[5793, -8035, 7568, -6811, 5793, -4551, 3135, -1598]]

/-- `BQ[y][v]`. -/
def bq (y v : Nat) : Int := (bqTable.getD y []).getD v 0

/-! ### Edge estimates, discontinuity, delta (R164, R166 to R168) -/

/-- The quantisation table of a component: 0 for Y, 1 for Cb and Cr (R34, R164). -/
def qtIndex (comp : Nat) : Nat := if comp = 0 then 0 else 1

/-- `S(X; v, u)` (R164). -/
def dequantised (c : Config) (m : Memory) (comp x v u : Nat) : Int :=
  if v = 0 ∧ u = 0 then 0
  else cmOf c m comp x (zz (8 * v + u)) * (qtOf m (qtIndex comp) (zz (8 * v + u)) : Int)

/-- `Σ_{i=0..7} f i`. -/
def sum8 (f : Nat → Int) : Int := ((List.range 8).map f).sum

/-- `ECol(X, x0, y)` (R166). -/
def eCol (c : Config) (m : Memory) (comp x x0 y : Nat) : Int :=
  sum8 fun v => bq y v * sum8 fun u => bq x0 u * dequantised c m comp x v u

/-- `ERow(X, y0, x)` (R166). -/
def eRow (c : Config) (m : Memory) (comp x y0 xi : Nat) : Int :=
  sum8 fun u => bq xi u * sum8 fun v => bq y0 v * dequantised c m comp x v u

/-- The eight entries of D for the left neighbour `l`, if there is one (R167). -/
def leftEdge (c : Config) (m : Memory) (comp k : Nat) (l : Option Nat) : List Int :=
  match l with
  | none => []
  | some l => (List.range 8).map fun y => eCol c m comp k 0 y - eCol c m comp l 7 y

/-- The eight entries of D for the above neighbour `a`, if there is one (R167). -/
def topEdge (c : Config) (m : Memory) (comp k : Nat) (a : Option Nat) : List Int :=
  match a with
  | none => []
  | some a => (List.range 8).map fun x => eRow c m comp k 0 x - eRow c m comp a 7 x

/-- The discontinuity vector D (R167). -/
def discontinuity (c : Config) (m : Memory) (mx comp k : Nat) : List Int :=
  leftEdge c m comp k (leftOf mx comp k) ++ topEdge c m comp k (aboveOf mx comp k)

/-- `M` of R168: D sorted, less the 3n/8 least and the 3n/8 greatest. -/
def trimmed (d : List Int) : List Int :=
  ((d.insertionSort (· ≤ ·)).drop (3 * d.length / 8)).take (d.length - 2 * (3 * d.length / 8))

/-- `delta` of R168, for D not empty and q the DC quantisation step. `/` on a positive divisor is floor division. -/
def dcDelta (d : List Int) (q : Nat) : Int :=
  (-2 * (trimmed d).sum + ((trimmed d).length : Int) * q * 2 ^ 25) / (((trimmed d).length : Int) * q * 2 ^ 26)

/-- The reference term of R169, with at least one neighbour. -/
def dcReference (c : Config) (m : Memory) (comp : Nat) (l a : Option Nat) : Int :=
  match l, a with
  | some l, some a => (cmOf c m comp l 0 + cmOf c m comp a 0) / 2
  | some l, none => cmOf c m comp l 0
  | none, some a => cmOf c m comp a 0
  | none, none => 0

/-- `Pred(comp, k)` of R169 after its QZERO check; `mx` is MCUX. -/
def prediction (c : Config) (m : Memory) (mx comp k : Nat) : Int :=
  if leftOf mx comp k = none ∧ aboveOf mx comp k = none then 0
  else dcReference c m comp (leftOf mx comp k) (aboveOf mx comp k) +
    dcDelta (discontinuity c m mx comp k) (qtOf m (qtIndex comp) 0)

/-- `Pred(comp, k)` of R169: QZERO if the DC quantisation step is 0, else the prediction. -/
def pred (c : Config) (mx comp k : Nat) (m : Memory) : Run Memory Int :=
  if qtOf m (qtIndex comp) 0 = 0 then .raise .qzero (word comp) m
  else .ok (prediction c m mx comp k) m

/-! ### The commands (R170 to R174) -/

/-- A reconstructed DC fits s16 (R170, R173). -/
def fitsHalf (v : Int) : Bool := decide (-32768 ≤ v) && decide (v ≤ 32767)

/-- A residual has a category of at most 15 (R171, R174). -/
def fitsResidual (v : Int) : Bool := decide (-32767 ≤ v) && decide (v ≤ 32767)

/-- A prediction fits s32 (R172). -/
def fitsWord (v : Int) : Bool := decide (-2147483648 ≤ v) && decide (v ≤ 2147483647)

/-- R170's loop: `n` blocks from `k` on, ascending. -/
def dpcmDecode (c : Config) (comp : Nat) : (n k : Nat) → (prev : Int) → Memory → Run Memory Unit
  | 0, _, _, m => .ok () m
  | n + 1, k, prev, m =>
    if fitsHalf (drOf c m comp k + prev) then
      dpcmDecode c comp n (k + 1) (drOf c m comp k + prev) (setCm c m comp k 0 (drOf c m comp k + prev))
    else .raise .predRange (word k) m

/-- R171's loop: `n` blocks from `k` on, ascending. -/
def dpcmEncode (c : Config) (comp : Nat) : (n k : Nat) → (prev : Int) → Memory → Run Memory Unit
  | 0, _, _, m => .ok () m
  | n + 1, k, prev, m =>
    if fitsResidual (cmOf c m comp k 0 - prev) then
      dpcmEncode c comp n (k + 1) (cmOf c m comp k 0) (setDr c m comp k (cmOf c m comp k 0 - prev))
    else .raise .predRange (word k) m

/-- One block of R173: `dc <- DR + Pred`. -/
def spatialDecodeBlock (c : Config) (mx comp k : Nat) (m : Memory) : Run Memory Unit :=
  (pred c mx comp k m).andThen fun p m =>
    if fitsHalf (drOf c m comp k + p) then .ok () (setCm c m comp k 0 (drOf c m comp k + p))
    else .raise .predRange (word k) m

/-- R173's loop: `n` blocks from `k` on, ascending. -/
def spatialDecode (c : Config) (mx comp : Nat) : (n k : Nat) → Memory → Run Memory Unit
  | 0, _, m => .ok () m
  | n + 1, k, m => (spatialDecodeBlock c mx comp k m).andThen fun _ m => spatialDecode c mx comp n (k + 1) m

/-- One block of R174: `r <- CM[0] - Pred`. -/
def spatialEncodeBlock (c : Config) (mx comp k : Nat) (m : Memory) : Run Memory Unit :=
  (pred c mx comp k m).andThen fun p m =>
    if fitsResidual (cmOf c m comp k 0 - p) then .ok () (setDr c m comp k (cmOf c m comp k 0 - p))
    else .raise .predRange (word k) m

/-- R174's loop: blocks `first + n - 1` down to `first`. -/
def spatialEncode (c : Config) (mx comp first : Nat) : (n : Nat) → Memory → Run Memory Unit
  | 0, m => .ok () m
  | n + 1, m => (spatialEncodeBlock c mx comp (first + n) m).andThen fun _ m => spatialEncode c mx comp first n m

/-- DPCMDEC (R170). -/
def execDpcmdec (comp : Nat) (s : State) : Host.Outcome State Fault Refusal :=
  endCommand (checkRange comp (arg0Nat s) (arg1Nat s) s
    ((dpcmDecode s.cfg comp (arg1Nat s) (arg0Nat s) 0 s.mem).lift (fun m => { s with mem := m })))

/-- DPCMENC (R171). -/
def execDpcmenc (comp : Nat) (s : State) : Host.Outcome State Fault Refusal :=
  endCommand (checkRange comp (arg0Nat s) (arg1Nat s) s
    ((dpcmEncode s.cfg comp (arg1Nat s) (arg0Nat s) 0 s.mem).lift (fun m => { s with mem := m })))

/-- SPPRED (R172). -/
def execSppred (comp : Nat) (s : State) : Host.Outcome State Fault Refusal :=
  endCommand (checkBlock comp (arg0Nat s) s
    (((pred s.cfg (mcux s) comp (arg0Nat s) s.mem).lift (fun m => { s with mem := m })).andThen fun p s =>
      if fitsWord p then .ok () { s with res := signedWord p }
      else .raise .predRange (word (arg0Nat s)) s))

/-- SPDEC (R173). -/
def execSpdec (comp : Nat) (s : State) : Host.Outcome State Fault Refusal :=
  endCommand (checkRange comp (arg0Nat s) (arg1Nat s) s
    ((spatialDecode s.cfg (mcux s) comp (arg1Nat s) (arg0Nat s) s.mem).lift (fun m => { s with mem := m })))

/-- SPENC (R174). -/
def execSpenc (comp : Nat) (s : State) : Host.Outcome State Fault Refusal :=
  endCommand (checkRange comp (arg0Nat s) (arg1Nat s) s
    ((spatialEncode s.cfg (mcux s) comp (arg0Nat s) (arg1Nat s) s.mem).lift (fun m => { s with mem := m })))

end Sys2Proof.Machine
end

