-- ==== Sys2Proof/Syntax.lean ====
section
/-! DEFINITION. The commands of the block: one constructor per row of spec/opcode_table.json (30_encoding.md R73). -/

namespace Sys2Proof

/-- A command. Slots, lengths and components are the unsigned numbers of their fields (R71); a value in the field's
width but out of the operation's range is a command all the same, whose meaning raises the operation's own fault (R73,
R75). `WellFormed` says which values the fields can hold. -/
inductive Instr where
  /-- 0x00, R190. -/
  | nop
  /-- 0x10, R90. -/
  | hbuild (slot : Nat)
  /-- 0x11, R92. -/
  | hgen (slot : Nat)
  /-- 0x12, R94. -/
  | hdec (slot : Nat) (eosok : Bool)
  /-- 0x13, R95. -/
  | henc (slot : Nat) (sym : Byte)
  /-- 0x14, R96. -/
  | hcode (slot : Nat) (sym : Byte)
  /-- 0x15, R97. -/
  | hinv (slot : Nat)
  /-- 0x18, R98. -/
  | fclr
  /-- 0x19, R99. -/
  | finc (sym : Byte)
  /-- 0x1A, R100. -/
  | fhist (comp : Nat)
  /-- 0x20, R114. -/
  | rdinit
  /-- 0x21, R115. -/
  | getbits (n : Nat)
  /-- 0x22, R116. -/
  | receive (n : Nat)
  /-- 0x28, R120. -/
  | wrinit
  /-- 0x29, R121. -/
  | putbits (n : Nat)
  /-- 0x2A, R122. -/
  | putvli
  /-- 0x2B, R123. -/
  | vcat
  /-- 0x2C, R124. -/
  | flush
  /-- 0x30, R140. -/
  | decblk (dcs acs comp : Nat) (eosok : Bool)
  /-- 0x31, R141. -/
  | encblk (dcs acs comp : Nat)
  /-- 0x38, R170. -/
  | dpcmdec (comp : Nat)
  /-- 0x39, R171. -/
  | dpcmenc (comp : Nat)
  /-- 0x3A, R173. -/
  | spdec (comp : Nat)
  /-- 0x3B, R174. -/
  | spenc (comp : Nat)
  /-- 0x3C, R172. -/
  | sppred (comp : Nat)
  deriving DecidableEq, Repr

end Sys2Proof
end

