-- ==== Sys2Proof/Machine/Dispatch.lean ====
section
/-! DEFINITION. One arm per command (30_encoding.md R73): an accepted command runs to its end (44_control.md R191). -/

namespace Sys2Proof.Machine

def exec (i : Instr) (s : State) : Host.Outcome State Fault Refusal :=
  match i with
  -- control
  | .nop => Sys2Proof.Machine.execNop s
  -- Huffman codec
  | .hbuild slot => Sys2Proof.Machine.execHbuild slot s
  | .hgen slot => Sys2Proof.Machine.execHgen slot s
  | .hdec slot eosok => Sys2Proof.Machine.execHdec slot eosok s
  | .henc slot sym => Sys2Proof.Machine.execHenc slot sym s
  | .hcode slot sym => Sys2Proof.Machine.execHcode slot sym s
  | .hinv slot => Sys2Proof.Machine.execHinv slot s
  -- frequency table
  | .fclr => Sys2Proof.Machine.execFclr s
  | .finc sym => Sys2Proof.Machine.execFinc sym s
  | .fhist comp => Sys2Proof.Machine.execFhist comp s
  -- reader
  | .rdinit => Sys2Proof.Machine.execRdinit s
  | .getbits n => Sys2Proof.Machine.execGetbits n s
  | .receive n => Sys2Proof.Machine.execReceive n s
  -- writer
  | .wrinit => Sys2Proof.Machine.execWrinit s
  | .putbits n => Sys2Proof.Machine.execPutbits n s
  | .putvli => Sys2Proof.Machine.execPutvli s
  | .vcat => Sys2Proof.Machine.execVcat s
  | .flush => Sys2Proof.Machine.execFlush s
  -- block stream
  | .decblk dcs acs comp eosok => Sys2Proof.Machine.execDecblk dcs acs comp eosok s
  | .encblk dcs acs comp => Sys2Proof.Machine.execEncblk dcs acs comp s
  -- predictor
  | .dpcmdec comp => Sys2Proof.Machine.execDpcmdec comp s
  | .dpcmenc comp => Sys2Proof.Machine.execDpcmenc comp s
  | .spdec comp => Sys2Proof.Machine.execSpdec comp s
  | .spenc comp => Sys2Proof.Machine.execSpenc comp s
  | .sppred comp => Sys2Proof.Machine.execSppred comp s

end Sys2Proof.Machine
end

