-- ==== Sys2Proof/WellFormed.lean ====
section
/-! DEFINITION. Which commands a word can encode: every operand fits its field (30_encoding.md R70, R71, R73). -/

namespace Sys2Proof

/-- A slot field is 4 bits (A or B). -/
abbrev slotFits (slot : Nat) : Prop := slot < 16

/-- `comp = IMM[1:0]`. -/
abbrev compFits (comp : Nat) : Prop := comp < 4

/-- Every operand of the command fits the field R71 and R73 give it: the commands a word can encode. -/
abbrev WellFormed (i : Instr) : Prop :=
  match i with
  | .nop => True
  | .hbuild slot => slotFits slot
  | .hgen slot => slotFits slot
  | .hdec slot _ => slotFits slot
  | .henc slot _ => slotFits slot
  | .hcode slot _ => slotFits slot
  | .hinv slot => slotFits slot
  | .fclr => True
  | .finc _ => True
  | .fhist comp => compFits comp
  | .rdinit => True
  | .getbits n => n < 32
  | .receive n => n < 32
  | .wrinit => True
  | .putbits n => n < 64
  | .putvli => True
  | .vcat => True
  | .flush => True
  | .decblk dcs acs comp _ => slotFits dcs ∧ slotFits acs ∧ compFits comp
  | .encblk dcs acs comp => slotFits dcs ∧ slotFits acs ∧ compFits comp
  | .dpcmdec comp => compFits comp
  | .dpcmenc comp => compFits comp
  | .spdec comp => compFits comp
  | .spenc comp => compFits comp
  | .sppred comp => compFits comp

end Sys2Proof
end

