-- ==== Sys2Proof/Decode.lean ====
section
/-! DEFINITION. Command words: the decoder, total on every word and rejecting by name, and the encoder
(30_encoding.md R70 to R76). -/

namespace Sys2Proof

/-- Why a word is illegal (R74). -/
inductive DecodeError where
  /-- The opcode is not in the map of R73. -/
  | unassignedOpcode
  /-- A bit the opcode reserves is not 0. -/
  | reservedBit
  deriving DecidableEq, Repr

/-- The four fields of a command word (R70), unsigned. -/
structure Fields where
  op  : Nat
  a   : Nat
  b   : Nat
  imm : Nat
  deriving DecidableEq, Repr

/-- `OP = w[31:24]`, `A = w[23:20]`, `B = w[19:16]`, `IMM = w[15:0]` (R71). -/
def fieldsOf (w : Word) : Fields :=
  { op := (w.extractLsb' 24 8).toNat, a := (w.extractLsb' 20 4).toNat, b := (w.extractLsb' 16 4).toNat,
    imm := (w.extractLsb' 0 16).toNat }

/-- `{OP, A, B, IMM}` of R77. -/
def wordOf (f : Fields) : Word :=
  word (f.op * 2 ^ 24 + f.a * 2 ^ 20 + f.b * 2 ^ 16 + f.imm)

/-- Accept `i` when every reserved bit is 0 (R74). -/
def whenReservedZero (ok : Bool) (i : Instr) : Except DecodeError Instr :=
  if ok then .ok i else .error .reservedBit

/-- The opcode map of R73 on the fields: which fields each opcode uses, and which of its bits must be 0. -/
def decodeFields (f : Fields) : Except DecodeError Instr :=
  match f.op with
  | 0x00 => whenReservedZero (f.a == 0 && f.b == 0 && f.imm == 0) .nop
  | 0x10 => whenReservedZero (f.b == 0 && f.imm == 0) (.hbuild f.a)
  | 0x11 => whenReservedZero (f.b == 0 && f.imm == 0) (.hgen f.a)
  | 0x12 => whenReservedZero (f.b / 2 == 0 && f.imm == 0) (.hdec f.a (f.b % 2 == 1))
  | 0x13 => whenReservedZero (f.b == 0 && f.imm / 2 ^ 8 == 0) (.henc f.a (BitVec.ofNat 8 f.imm))
  | 0x14 => whenReservedZero (f.b == 0 && f.imm / 2 ^ 8 == 0) (.hcode f.a (BitVec.ofNat 8 f.imm))
  | 0x15 => whenReservedZero (f.b == 0 && f.imm == 0) (.hinv f.a)
  | 0x18 => whenReservedZero (f.a == 0 && f.b == 0 && f.imm == 0) .fclr
  | 0x19 => whenReservedZero (f.a == 0 && f.b == 0 && f.imm / 2 ^ 8 == 0) (.finc (BitVec.ofNat 8 f.imm))
  | 0x1A => whenReservedZero (f.a == 0 && f.b == 0 && f.imm / 2 ^ 2 == 0) (.fhist (f.imm % 2 ^ 2))
  | 0x20 => whenReservedZero (f.a == 0 && f.b == 0 && f.imm == 0) .rdinit
  | 0x21 => whenReservedZero (f.a == 0 && f.b == 0 && f.imm / 2 ^ 5 == 0) (.getbits (f.imm % 2 ^ 5))
  | 0x22 => whenReservedZero (f.a == 0 && f.b == 0 && f.imm / 2 ^ 5 == 0) (.receive (f.imm % 2 ^ 5))
  | 0x28 => whenReservedZero (f.a == 0 && f.b == 0 && f.imm == 0) .wrinit
  | 0x29 => whenReservedZero (f.a == 0 && f.b == 0 && f.imm / 2 ^ 6 == 0) (.putbits (f.imm % 2 ^ 6))
  | 0x2A => whenReservedZero (f.a == 0 && f.b == 0 && f.imm == 0) .putvli
  | 0x2B => whenReservedZero (f.a == 0 && f.b == 0 && f.imm == 0) .vcat
  | 0x2C => whenReservedZero (f.a == 0 && f.b == 0 && f.imm == 0) .flush
  | 0x30 => whenReservedZero (f.imm / 2 ^ 3 == 0) (.decblk f.a f.b (f.imm % 2 ^ 2) (f.imm / 2 ^ 2 % 2 == 1))
  | 0x31 => whenReservedZero (f.imm / 2 ^ 2 == 0) (.encblk f.a f.b (f.imm % 2 ^ 2))
  | 0x38 => whenReservedZero (f.a == 0 && f.b == 0 && f.imm / 2 ^ 2 == 0) (.dpcmdec (f.imm % 2 ^ 2))
  | 0x39 => whenReservedZero (f.a == 0 && f.b == 0 && f.imm / 2 ^ 2 == 0) (.dpcmenc (f.imm % 2 ^ 2))
  | 0x3A => whenReservedZero (f.a == 0 && f.b == 0 && f.imm / 2 ^ 2 == 0) (.spdec (f.imm % 2 ^ 2))
  | 0x3B => whenReservedZero (f.a == 0 && f.b == 0 && f.imm / 2 ^ 2 == 0) (.spenc (f.imm % 2 ^ 2))
  | 0x3C => whenReservedZero (f.a == 0 && f.b == 0 && f.imm / 2 ^ 2 == 0) (.sppred (f.imm % 2 ^ 2))
  | _ => .error .unassignedOpcode

/-- The command a word selects, or why it is illegal (R73, R74, R76). -/
def decode (w : Word) : Except DecodeError Instr := decodeFields (fieldsOf w)

/-- The decoder's answer on a row of spec/opcode_table.json. A command is one 32-bit word (R70) and the table's bit 0 is
the word's bit 0, so the word is the number itself; `nbits` is not needed, since every bit above it is 0. -/
def decodeTableWord (_nbits w : Nat) : Option Instr :=
  match decode (word w) with
  | .ok i => some i
  | .error _ => none

/-- `0x01` or `0x00` for a flag field. -/
def flagBit (b : Bool) : Nat := if b then 1 else 0

/-- The fields of a command: the column OP of R73 and the syntax table of R77. -/
def encodeFields (i : Instr) : Fields :=
  match i with
  | .nop => { op := 0x00, a := 0, b := 0, imm := 0 }
  | .hbuild slot => { op := 0x10, a := slot, b := 0, imm := 0 }
  | .hgen slot => { op := 0x11, a := slot, b := 0, imm := 0 }
  | .hdec slot eosok => { op := 0x12, a := slot, b := flagBit eosok, imm := 0 }
  | .henc slot sym => { op := 0x13, a := slot, b := 0, imm := sym.toNat }
  | .hcode slot sym => { op := 0x14, a := slot, b := 0, imm := sym.toNat }
  | .hinv slot => { op := 0x15, a := slot, b := 0, imm := 0 }
  | .fclr => { op := 0x18, a := 0, b := 0, imm := 0 }
  | .finc sym => { op := 0x19, a := 0, b := 0, imm := sym.toNat }
  | .fhist comp => { op := 0x1A, a := 0, b := 0, imm := comp }
  | .rdinit => { op := 0x20, a := 0, b := 0, imm := 0 }
  | .getbits n => { op := 0x21, a := 0, b := 0, imm := n }
  | .receive n => { op := 0x22, a := 0, b := 0, imm := n }
  | .wrinit => { op := 0x28, a := 0, b := 0, imm := 0 }
  | .putbits n => { op := 0x29, a := 0, b := 0, imm := n }
  | .putvli => { op := 0x2A, a := 0, b := 0, imm := 0 }
  | .vcat => { op := 0x2B, a := 0, b := 0, imm := 0 }
  | .flush => { op := 0x2C, a := 0, b := 0, imm := 0 }
  | .decblk dcs acs comp eosok => { op := 0x30, a := dcs, b := acs, imm := flagBit eosok * 2 ^ 2 + comp }
  | .encblk dcs acs comp => { op := 0x31, a := dcs, b := acs, imm := comp }
  | .dpcmdec comp => { op := 0x38, a := 0, b := 0, imm := comp }
  | .dpcmenc comp => { op := 0x39, a := 0, b := 0, imm := comp }
  | .spdec comp => { op := 0x3A, a := 0, b := 0, imm := comp }
  | .spenc comp => { op := 0x3B, a := 0, b := 0, imm := comp }
  | .sppred comp => { op := 0x3C, a := 0, b := 0, imm := comp }

/-- The word of a command (R77). -/
def encode (i : Instr) : Word := wordOf (encodeFields i)

end Sys2Proof
end

