-- ==== Sys2Proof/Machine/Reset.lean ====
section
/-! DEFINITION. The two resets (70_reset_and_hazards.md R210, R211) and what becomes unspecified with them: a command
abandoned in flight leaves a free value in every location it could write (R200, R202, R211 and 20_memory.md R64; log
entries 8 and 10). -/

namespace Sys2Proof.Machine

/-- RAM with free contents in a region: what was listed there is dropped and any bytes may stand in its place. -/
def freeRam (region : Nat → Bool) (s : State) : State :=
  { s with mem := (Config.freeCells s.freeDraws).foldl
                    (fun m x => if region x.1 && backed s.cfg x.1 then memWrite m x.1 x.2 else m)
                    (s.mem.filter (fun x => !region x.1)) }

/-- RES with a free value. -/
def freeRes (s : State) : State := { s with res := Config.freeValue 32 s.freeDraws 0 }

/-- The reader's cursor with free values. -/
def freeReader (s : State) : State :=
  { s with rd := { ptr := Config.freeValue 32 s.freeDraws 1, buf := Config.freeValue 32 s.freeDraws 2,
                   cnt := Config.freeValue 5 s.freeDraws 0, eod := Config.freeValue 1 s.freeDraws 0 == 1,
                   marker := Config.freeValue 1 s.freeDraws 1 == 1 } }

/-- The writer's cursor with free values. -/
def freeWriter (s : State) : State :=
  { s with wr := { ptr := Config.freeValue 32 s.freeDraws 3, acc := Config.freeValue 8 s.freeDraws 0,
                   cnt := Config.freeValue 4 s.freeDraws 0 } }

/-- A derived table with free values; `n` is the slot it is for. -/
def freeTable (draw n : Nat) : HuffSlot :=
  { valid := Config.freeValue 1 draw (2 + n) == 1, lenset := Config.freeValue 16 draw (256 * 6 + n),
    len := Vector.ofFn fun i : Fin 256 => Config.freeValue 5 draw (256 * n + i.val + 1),
    code := Vector.ofFn fun i : Fin 256 => Config.freeValue 16 draw (256 * n + i.val) }

/-- The derived table of a slot with free values. -/
def freeSlot (n : Nat) (s : State) : State := withSlot s n (freeTable s.freeDraws n)

/-- `VALID_s` alone with a free value. -/
def freeValid (n : Nat) (s : State) : State :=
  withSlot s n { slotOf s n with valid := Config.freeValue 1 s.freeDraws (2 + n) == 1 }

/-! ### The locations an abandoned command could write (R64) -/

/-- The state command `i` would end in if it ran to its end. What an abandoned command could write is read off it where
R64's column alone does not say: how far WR_PTR gets (R118), and whether an operand check or an end of scan ends the
command before any array is written (R202, R140). -/
def endOf (i : Instr) (s : State) : State :=
  match exec i { s with eos := false, recorded := none } with
  | .next t => t
  | .fault _ => s
  | .refused _ => s

/-- The faults of the operand checks (R75, R202); BAD_CMD is the decoder's. -/
def checkCodes : List FaultCode := [.badSlot, .slotInvalid, .badLen, .badComp, .geom, .blkRange]

/-- The command would end at an operand check, which changes no other state (R75, R202). -/
def endsAtCheck (i : Instr) (s : State) : Bool :=
  match (endOf i s).recorded with
  | none => false
  | some f => checkCodes.contains f.code

/-- The wire form HGEN writes in slot `n`: `BITS_s[1..16]` and `HUFFVAL_s[0..count-1]` (R64, R92). -/
def inWireForm (n count a : Nat) : Bool :=
  (inSpan (bitsAddr n 1) 0x40 a || inSpan (huffvalAddr n 0) (4 * count) a) && decide (a % 4 = 0)

/-- `OUT[start..upto-1]`. -/
def inOut (start upto a : Nat) : Bool := decide (outAddr start ≤ a) && decide (a < outAddr upto)

/-- `FREQ[cat(DR[comp][k])]` for a block `k` of the range (R100). -/
def inHistogram (s : State) (comp a : Nat) : Bool :=
  (List.range (arg1Nat s)).any fun i => inSpan (freqAddr (cat (drOf s.cfg s.mem comp (arg0Nat s + i)))) 4 a

/-- `CM[comp][k][1..63]` and `DR[comp][k]`. -/
def inBlock (c : Config) (comp k a : Nat) : Bool :=
  (inSpan (cmAddr c comp k 1) (4 * 63) a || inSpan (drAddr c comp k) 4 a) && decide (a % 4 < 2)

/-- `CM[comp][first..first+count-1][0]`. -/
def inDcRange (c : Config) (comp first count a : Nat) : Bool :=
  inSpan (cmAddr c comp first 0) (256 * count) a && decide ((a - cmAddr c comp first 0) % 256 < 2)

/-- `DR[comp][first..first+count-1]`. -/
def inDrRange (c : Config) (comp first count a : Nat) : Bool :=
  inSpan (drAddr c comp first) (4 * count) a && decide (a % 4 < 2)

/-- The bytes of RAM that command `i`, past its operand checks, could write: the arrays in R64's column "writes". -/
def couldWrite (i : Instr) (s : State) : Nat → Bool :=
  match i with
  | .nop | .hbuild _ | .hdec _ _ | .hcode _ _ | .hinv _ | .rdinit | .getbits _ | .receive _ | .wrinit | .vcat
  | .sppred _ => fun _ => false
  | .hgen slot =>
    if (endOf (.hgen slot) s).recorded.isSome then fun _ => false
    else inWireForm slot (huffmanLeaves s.mem).length
  | .fclr => inSpan (freqAddr 0) 0x400
  | .finc sym => inSpan (freqAddr sym.toNat) 4
  | .fhist comp => inHistogram s comp
  | .henc slot sym => inOut s.wr.ptr.toNat (endOf (.henc slot sym) s).wr.ptr.toNat
  | .putbits n => inOut s.wr.ptr.toNat (endOf (.putbits n) s).wr.ptr.toNat
  | .putvli => inOut s.wr.ptr.toNat (endOf .putvli s).wr.ptr.toNat
  | .flush => inOut s.wr.ptr.toNat (endOf .flush s).wr.ptr.toNat
  | .encblk dcs acs comp => inOut s.wr.ptr.toNat (endOf (.encblk dcs acs comp) s).wr.ptr.toNat
  | .decblk dcs acs comp eosok =>
    if (endOf (.decblk dcs acs comp eosok) s).eos then fun _ => false else inBlock s.cfg comp (arg0Nat s)
  | .dpcmdec comp | .spdec comp => inDcRange s.cfg comp (arg0Nat s) (arg1Nat s)
  | .dpcmenc comp | .spenc comp => inDrRange s.cfg comp (arg0Nat s) (arg1Nat s)

/-- Free values in the registers, the cursors and the slot in R64's column "writes" of command `i`. HGEN that would raise
HUFF_DEPTH leaves the derived arrays unchanged (R92). -/
def freeRegisters (i : Instr) (s : State) : State :=
  match i with
  | .nop | .fclr | .finc _ | .fhist _ | .dpcmdec _ | .dpcmenc _ | .spdec _ | .spenc _ => s
  | .hbuild slot => freeSlot slot s
  | .hgen slot => if (endOf (.hgen slot) s).recorded.isSome then freeValid slot s else freeSlot slot s
  | .hinv slot => freeValid slot s
  | .hcode _ _ | .vcat | .sppred _ => freeRes s
  | .rdinit => freeReader s
  | .hdec _ _ | .getbits _ | .receive _ | .decblk _ _ _ _ => freeRes (freeReader s)
  | .henc _ _ | .wrinit | .putbits _ | .flush => freeWriter s
  | .putvli | .encblk _ _ _ => freeRes (freeWriter s)

/-- Free values in every location command `i` could write: the column "writes" of R64, and nothing for a command that
would end at an operand check. -/
def freeWrites (i : Instr) (s : State) : State :=
  if endsAtCheck i s then s else freeRam (couldWrite i s) (freeRegisters i s)

/-- Abandon the command in flight, if there is one: free values where it could write (R211, R200). An illegal word
selects no command and writes nothing. -/
def abandon (s : State) : State :=
  match s.inFlight with
  | none => s
  | some w =>
    match decode w with
    | .error _ => { s with inFlight := none }
    | .ok i => { freeWrites i s with inFlight := none, freeDraws := s.freeDraws + 1 }

/-- Soft reset: a CTRL write with bit 0 set (R211). GEOM, IN_LEN, OUT_LEN and RAM keep their contents. -/
def softReset (s : State) : State := resetRegisters (abandon s)

/-- Hardware reset during a run (R210): what R210 lists is set; RAM and the derived tables become free values. The
capacities stay (R40), and so do the host's pending accesses, which are not the block's. -/
def hardReset (s : State) : State :=
  { resetRegisters (freeRam (fun _ => true) s) with
      geom := 0, inLen := 0, outLen := 0,
      slots := Vector.ofFn fun n : Fin 6 => invalidate (freeTable s.freeDraws n.val),
      freeDraws := s.freeDraws + 1 }

end Sys2Proof.Machine
end

