-- ==== Sys2Proof/Machine/Issue.lean ====
section
/-! DEFINITION. The command issue protocol (44_control.md R191) and the host's accesses, idle and while BUSY
(20_memory.md R57 to R59, 60_exceptions.md R200, R204). -/

namespace Sys2Proof.Machine

/-- The acceptance of a command (R191): `BUSY <- 1 ; DONE <- 0 ; EOS <- 0`. -/
def acceptCommand (w : Word) (s : State) : State :=
  { s with inFlight := some w, done := false, eos := false }

/-- A write of `w` to CMD: ignored entirely while a fault is recorded, else accepted (R191, R204). -/
def issueCommand (w : Word) (s : State) : State :=
  if faulted s then s else acceptCommand w s

/-- Run the accepted command `w` to its end; an illegal word raises BAD_CMD with the word as info (R74, R75, R191). -/
def runCommand (w : Word) (s : State) : Host.Outcome State Fault Refusal :=
  match decode w with
  | .ok i => exec i s
  | .error _ => .next (faultEntry .badCmd w s)

/-- Run the command in flight, if there is one, to its end. -/
def finishInFlight (s : State) : Host.Outcome State Fault Refusal :=
  match s.inFlight with
  | none => .next s
  | some w => runCommand w s

/-- The access is a soft reset: a write of CTRL with bit 0 set (R57). -/
def isSoftReset (a : Access) : Bool :=
  match a with
  | .read _ => false
  | .write addr v => wordAddr addr == 0x01C && v.getLsbD 0

/-- The address of an access as the host gives it. -/
def accessAddr (a : Access) : Word :=
  match a with
  | .read addr => addr
  | .write addr _ => addr

/-- A host access the protocol allows (R57): a read returns its value and changes nothing else; a CMD write issues a
command; a CTRL write with SRST resets; every other write only stores. -/
def hostAccess (a : Access) (s : State) : State :=
  match a with
  | .read addr => { s with busData := busRead s addr }
  | .write addr v =>
    if isSoftReset (.write addr v) then softReset s
    else if wordAddr addr = 0x000 then issueCommand v s
    else busWrite addr v s

/-- What R58 allows while BUSY: reads of STATUS, FAULT, FAULT_INFO and IRQ, and a soft reset. -/
def allowedWhileBusy (a : Access) : Bool :=
  match a with
  | .read addr => [0x010, 0x014, 0x018, 0x020].contains (wordAddr addr)
  | .write _ _ => isSoftReset a

/-- A forbidden access while BUSY (R58, R200): a write is dropped, a read returns a free value, HOST_BUSY is recorded if
no fault is, with the address as info, and the command in flight ends there (log entries 7, 8, 9, 19). -/
def busyViolation (a : Access) (s : State) : State :=
  match a with
  | .read addr =>
    faultEntry .hostBusy addr
      (abandon { s with busData := Config.freeValue 32 s.freeDraws 4, freeDraws := s.freeDraws + 1 })
  | .write addr _ => faultEntry .hostBusy addr (abandon s)

/-- A host access that arrives while a command is in flight (R58). -/
def earlyAccess (a : Access) (s : State) : State :=
  if allowedWhileBusy a then hostAccess a s else busyViolation a s

/-- An event of the outside world when no command is in flight. -/
def hostEvent (ev : HostEvent) (s : State) : State :=
  match ev with
  | .access a => hostAccess a s
  | .early a => hostAccess a s
  | .hardReset => hardReset s

/-- The next event arrives before a command in flight has ended. -/
def earlyNext (s : State) : Bool :=
  match s.host with
  | .early _ :: _ => true
  | _ => false

/-- After an event: a command it issued runs at once (R59), unless an early access comes first (R58). -/
def afterEvent (s : State) : Host.Outcome State Fault Refusal :=
  if earlyNext s then .next s else finishInFlight s

/-- One event of the total order of R59: an early access to a block with a command in flight; the end of a command in
flight; the host's next event, with the whole command it issues; nothing when the host has none. -/
def nextEvent (s : State) : Host.Outcome State Fault Refusal :=
  match s.inFlight, s.host with
  | some _, .early a :: rest => .next (earlyAccess a { s with host := rest })
  | some _, _ => finishInFlight s
  | none, [] => .next s
  | none, ev :: rest => afterEvent (hostEvent ev { s with host := rest })

/-- An event is an early access. -/
def isEarly (ev : HostEvent) : Bool :=
  match ev with
  | .early _ => true
  | _ => false

/-- The host's list with a write of `w` to CMD put first, as an access that finds the block ready. -/
def queueCommand (w : Word) (s : State) : State :=
  { s with inFlight := none, recorded := none,
           host := .access (.write 0x00000000 w) :: s.host.dropWhile isEarly }

end Sys2Proof.Machine
end

