-- ==== Sys2Proof/Machine/Step.lean ====
section
/-! DEFINITION. One step of the block (20_memory.md R59, 44_control.md R191), and how a command word is put where the
next step takes it. -/

namespace Sys2Proof.Machine

/-- One step: the next event of the total order of R59. -/
def step (s : State) : Host.Outcome State Fault Refusal := nextEvent s

/-- `s` with the command word `w` where the step takes its next command: the host's next access is a write of `w` to CMD.
The block has no program memory (R21, R62), so this is the host's act and not a fetch (log entry 5). For the very next
step to run it, no command is in flight, no fault is recorded (a recorded fault makes CMD writes ignored, R191), and no
early access comes before it ends. `nbits` is not needed: a command is one 32-bit word (R70). -/
def State.withFetchWord (s : State) (_nbits w : Nat) : State := queueCommand (word w) s

end Sys2Proof.Machine
end

