-- ==== Sys2Proof/Safety.lean ====
section
/-! DEFINITION. The terms claims use: the bits the reader has ahead of it and the bits the writer appends, what a built
table and a coded block are, the invariants of the block, and what each command may change. A run of the block is always
safe in the sense that no step stops (`Fault` has no value); what a claim asks of a state is said here. -/

namespace Sys2Proof.Machine

/-! ### Bit strings -/

/-- The low `n` bits of `v`, most significant first (R11). -/
def natBits : Nat → Nat → List Bool
  | 0, _ => []
  | n + 1, v => v.testBit n :: natBits n v

/-- A bit string read as a number, first bit most significant. -/
def bitsNat (l : List Bool) : Nat := l.foldl (fun a b => 2 * a + (if b then 1 else 0)) 0

/-! ### The reader's side -/

/-- The destuffed bytes of IN from index `p` up to the end of data: FF 00 is FF, and the data ends at `len`, at a marker,
or at a lone final FF (R110). `fuel` bounds the bytes. -/
def destuff (m : Memory) (len : Nat) : (fuel p : Nat) → List Byte
  | 0, _ => []
  | fuel + 1, p =>
    if len ≤ p then []
    else if memRead m (inAddr p) ≠ 0xFF then memRead m (inAddr p) :: destuff m len fuel (p + 1)
    else if len ≤ p + 1 then []
    else if memRead m (inAddr (p + 1)) = 0x00 then 0xFF :: destuff m len fuel (p + 2)
    else []

/-- The bytes the reader has not fetched yet. -/
def bytesAhead (m : Memory) (len : Nat) (r : Reader) : List Byte :=
  if r.eod then [] else destuff m len (len - r.ptr.toNat) r.ptr.toNat

/-- The unconsumed bits: those buffered, then those of the bytes ahead (R28). -/
def stream (m : Memory) (len : Nat) (r : Reader) : List Bool :=
  natBits r.cnt.toNat r.buf.toNat ++ (bytesAhead m len r).flatMap (fun b => natBits 8 b.toNat)

/-- The unconsumed bits of a state's reader. -/
def streamOf (s : State) : List Bool := stream s.mem s.inLen.toNat s.rd

/-- R29's invariant of the reader, with R28's "the others are 0", and MARKER only at end of data (R22). -/
abbrev ReaderOk (r : Reader) : Prop :=
  r.cnt.toNat ≤ 8 ∧ (r.eod = false → 1 ≤ r.cnt.toNat) ∧ r.buf.toNat < 2 ^ r.cnt.toNat ∧
    (r.marker = true → r.eod = true)

/-! ### The writer's side -/

/-- The bits the writer holds (R30). -/
def pending (w : Writer) : List Bool := natBits w.cnt.toNat w.acc.toNat

/-- The first `k` bytes of a bit string. -/
def packBytes : Nat → List Bool → List Byte
  | 0, _ => []
  | k + 1, l => BitVec.ofNat 8 (bitsNat (l.take 8)) :: packBytes k (l.drop 8)

/-- A byte string stuffed: 0x00 after every 0xFF (R118). -/
def stuff : List Byte → List Byte
  | [] => []
  | b :: rest => if b = 0xFF then 0xFF :: 0x00 :: stuff rest else b :: stuff rest

/-- The bytes that go to OUT when `bits` are appended: the complete ones, stuffed (R119). -/
def emitted (w : Writer) (bits : List Bool) : List Byte :=
  stuff (packBytes ((pending w ++ bits).length / 8) (pending w ++ bits))

/-- OUT_LEN leaves room for them (R118); appending bits that complete no byte needs none. -/
abbrev HasRoom (s : State) (bits : List Bool) : Prop :=
  emitted s.wr bits = [] ∨ s.wr.ptr.toNat + (emitted s.wr bits).length ≤ s.outLen.toNat

/-- R30's invariant of the writer. -/
abbrev WriterOk (w : Writer) : Prop := w.cnt.toNat ≤ 7 ∧ w.acc.toNat < 2 ^ w.cnt.toNat

/-- Writer `w'` and RAM `m'` are what appending `bits` makes of `w` and `m`: the complete bytes, stuffed, stand in OUT
from WR_PTR on, every other byte of RAM is as before, and the bits left over are pending. -/
def Appended (w : Writer) (m : Memory) (bits : List Bool) (w' : Writer) (m' : Memory) : Prop :=
  w'.ptr.toNat = w.ptr.toNat + (emitted w bits).length ∧
  pending w' = (pending w ++ bits).drop (8 * ((pending w ++ bits).length / 8)) ∧
  WriterOk w' ∧
  (∀ i, i < (emitted w bits).length → memRead m' (outAddr (w.ptr.toNat + i)) = (emitted w bits).getD i 0) ∧
  (∀ a, (a < outAddr w.ptr.toNat ∨ outAddr (w.ptr.toNat + (emitted w bits).length) ≤ a) →
    memRead m' a = memRead m a)

/-! ### Tables -/

/-- The registered symbols of a table (R31). -/
def registered (t : HuffSlot) : List Byte := allSymbols.filter (fun x => lenAt t x != 0)

/-- The code of a symbol as bits. -/
def codeBits (t : HuffSlot) (x : Byte) : List Bool := natBits (lenAt t x) (codeAt t x)

/-- No code of a registered symbol is a bit-prefix of another's (R91 (a)). -/
abbrev PrefixFree (t : HuffSlot) : Prop :=
  ∀ x ∈ registered t, ∀ y ∈ registered t, x ≠ y → lenAt t x ≤ lenAt t y →
    codeAt t y / 2 ^ (lenAt t y - lenAt t x) ≠ codeAt t x

/-- What R31 and R91 say of a built table: lengths 1..16, codes that fit them, LENSET the set of lengths present, codes
prefix-free. -/
abbrev TableOk (t : HuffSlot) : Prop :=
  (∀ x ∈ registered t, lenAt t x ≤ 16 ∧ codeAt t x < 2 ^ lenAt t x) ∧
  (∀ L ∈ codeLengths, hasLength t L = (registered t).any (fun x => lenAt t x == L)) ∧
  PrefixFree t

/-- The code lengths of a wire form, in HUFFVAL order (R90). -/
def wireLengths (m : Memory) (s : Nat) : List Nat := codeLengths.flatMap (fun L => List.replicate (bitsOf m s L) L)

/-- The symbols of a wire form, in HUFFVAL order (R90). -/
def wireSymbols (m : Memory) (s : Nat) : List Byte := (List.range (totalCodes m s)).map (huffvalOf m s)

/-- The Kraft sum of a wire form, in units of 2^(-16) (R91 (d)). -/
def kraft (m : Memory) (s : Nat) : Nat := ((wireLengths m s).map (fun L => 2 ^ (16 - L))).sum

/-- The canonical code of the `k`-th symbol of a wire form: the code space the earlier symbols take, in units of the
`k`-th length. -/
def canonicalCode (lengths : List Nat) (k : Nat) : Nat :=
  ((lengths.take k).map (fun L => 2 ^ (lengths.getD k 0 - L))).sum

/-- R90's running code after length class `L`: the codes of lengths 1 to `L`, in units of the `L`-th length. Lengths up
to `L` have enough code space exactly when it is at most 2^L. -/
def codesNeeded (m : Memory) (s L : Nat) : Nat :=
  (codeLengths.map (fun l => if l ≤ L then bitsOf m s l * 2 ^ (L - l) else 0)).sum

/-- The node is the least of `H`: first by weight, then by serial (R92). -/
def LeastNode (a : HuffNode) (H : List HuffNode) : Prop := a ∈ H ∧ ∀ x ∈ H, x ≠ a → nodeBefore a x = true

/-- R92's `while |H| > 1`, as a relation: the nodes `H`, in any order, merge into the tree `T`, the next serial number
being `next`. -/
inductive Merges : Nat → List HuffNode → HuffTree → Prop
  | single (next : Nat) (a : HuffNode) : Merges next [a] a.tree
  | merge (next : Nat) (H : List HuffNode) (a b : HuffNode) (T : HuffTree) :
      LeastNode a H → LeastNode b (H.erase a) →
      Merges (next + 1)
        ({ weight := a.weight + b.weight, serial := next, tree := .node a.tree b.tree } :: (H.erase a).erase b) T →
      Merges next H T

/-- R92's first `H`: a leaf for each symbol counted, and P with weight 0 and serial 256. -/
def startNodes (m : Memory) : List HuffNode :=
  { weight := 0, serial := 256, tree := .leaf none } ::
    ((List.range 256).filter (fun sym => decide (0 < freqOf m sym))).map
      fun sym => { weight := freqOf m sym, serial := sym, tree := .leaf (some sym) }

/-- The real symbols at depth `d` of a tree, child 0 before child 1. -/
def leavesAt : Nat → HuffTree → List Nat
  | 0, .leaf sym => sym.toList
  | 0, .node _ _ => []
  | _ + 1, .leaf _ => []
  | d + 1, .node a b => leavesAt d a ++ leavesAt d b

/-- The real symbols of a tree with their depths, breadth first (R92). -/
def breadthFirst (T : HuffTree) : List (Nat × Nat) :=
  (List.range (treeSize T)).flatMap fun d => (leavesAt d T).map fun sym => (sym, d)

/-- The bits a writing command appends (R95, R121, R122, R124), for a command that has any to append: HENC of a symbol
with a code, PUTBITS, PUTVLI of a value in range, FLUSH. -/
def bitsToWrite (i : Instr) (s : State) : Option (List Bool) :=
  match i with
  | .henc slot sym => if lenAt (slotOf s slot) sym = 0 then none else some (codeBits (slotOf s slot) sym)
  | .putbits n => some (natBits n (arg0Nat s))
  | .putvli =>
    if 15 < cat (arg0Int s) then none
    else some (natBits (cat (arg0Int s)) (vliBits (arg0Int s) (cat (arg0Int s))))
  | .flush => some (if s.wr.cnt = 0 then [] else List.replicate (8 - s.wr.cnt.toNat) true)
  | _ => none

/-- `EmitByte` of each byte in turn (R125). -/
def emitAll (limit : Nat) : List Byte → OutPort → Run OutPort Unit
  | [], p => .ok () p
  | b :: rest, p => (emitByte limit b p).andThen fun _ p => emitAll limit rest p

/-- The results of `n` successive calls of `Fetch` (R125), and the reader after them. -/
def fetchAll (m : Memory) (len : Nat) : Nat → Reader → List (Option Byte) × Reader
  | 0, r => ([], r)
  | n + 1, r => ((fetch m len r).1 :: (fetchAll m len n (fetch m len r).2).1, (fetchAll m len n (fetch m len r).2).2)

/-! ### Blocks -/

/-- The AC coefficients of a block, positions 1..63 (R35). -/
def acList (c : Config) (m : Memory) (comp k : Nat) : List Int := (List.range 63).map (fun i => cmOf c m comp k (i + 1))

/-- The AC items a block is coded as, each a symbol and the value after it: ZRL and EOB come with 0. `r` zeros are
pending (R141, R142). -/
def acItems : Nat → List Int → List (Byte × Int)
  | r, [] => if 0 < r then [(0x00, 0)] else []
  | r, v :: rest =>
    if v = 0 then acItems (r + 1) rest
    else List.replicate (r / 16) (0xF0, 0) ++ (acSymbol (r % 16) (cat v), v) :: acItems 0 rest

/-- The bits of an item: the symbol's code, then the value's pattern, which 0 has none of (R141). -/
def itemBits (t : HuffSlot) (x : Byte × Int) : List Bool :=
  codeBits t x.1 ++ natBits (cat x.2) (vliBits x.2 (cat x.2))

/-- The table has the item's code and the value a category of at most 15. -/
abbrev ItemOk (t : HuffSlot) (x : Byte × Int) : Prop := cat x.2 ≤ 15 ∧ lenAt t x.1 ≠ 0

/-- The item a DC value is coded as: its category and itself (R142). -/
def dcItem (v : Int) : Byte × Int := (BitVec.ofNat 8 (cat v), v)

/-- A DC value coded, then AC items coded. -/
def codedBits (dc ac : HuffSlot) (v : Int) (items : List (Byte × Int)) : List Bool :=
  itemBits dc (dcItem v) ++ items.flatMap (itemBits ac)

/-- A coded block: the DC category and value, then the AC part (R141, R142). -/
def blockBits (dc ac : HuffSlot) (v : Int) (l : List Int) : List Bool := codedBits dc ac v (acItems 0 l)

/-- The tables have every code the block needs, and every value has a category of at most 15. -/
abbrev Codable (dc ac : HuffSlot) (v : Int) (l : List Int) : Prop :=
  ItemOk dc (dcItem v) ∧ ∀ x ∈ acItems 0 l, ItemOk ac x

/-- R140's position `j` after AC items that a block may hold before it ends, from position `j` on: ZRLs to 64 at most,
and values of the symbol's category at 63 at most; none for any other items. -/
def acWalk : Nat → List (Byte × Int) → Option Nat
  | j, [] => some j
  | j, (x, v) :: rest =>
    if 63 < j then none
    else if symCat x = 0 then
      if symRun x = 15 ∧ v = 0 ∧ j + 16 ≤ 64 then acWalk (j + 16) rest else none
    else if cat v = symCat x ∧ j + symRun x ≤ 63 then acWalk (j + symRun x + 1) rest
    else none

/-- The coefficient such items put at position `p`: 0 where they put none. -/
def acPlaced : Nat → List (Byte × Int) → Nat → Int
  | _, [], _ => 0
  | j, (x, v) :: rest, p =>
    if symCat x = 0 then acPlaced (j + 16) rest p
    else if p = j + symRun x then v
    else acPlaced (j + symRun x + 1) rest p

/-! ### The block grid (R160, R161) -/

/-- The column of a block in its component's grid of blocks. -/
def gridX (mx comp k : Nat) : Nat := if comp = 0 then 2 * (k / 4 % mx) + k % 2 else k % mx

/-- The row of a block in its component's grid of blocks. -/
def gridY (mx comp k : Nat) : Nat := if comp = 0 then 2 * (k / 4 / mx) + k % 4 / 2 else k / mx

/-- The block at a column and a row. -/
def gridBlock (mx comp x y : Nat) : Nat :=
  if comp = 0 then 4 * (y / 2 * mx + x / 2) + (2 * (y % 2) + x % 2) else y * mx + x

/-! ### Ranges of blocks -/

/-- `a` is one of the two bytes of an entry at `e`. -/
abbrev inHalf (e a : Nat) : Prop := a = e ∨ a = e + 1

/-- The range of a range command is in range (R72, R75). -/
abbrev RangeOk (s : State) (comp : Nat) : Prop :=
  comp < 3 ∧ geomValid s = true ∧ arg0Nat s + arg1Nat s ≤ nblocks s comp

/-- The block of a block command is in range (R75). -/
abbrev BlockOk (s : State) (comp : Nat) : Prop := comp < 3 ∧ geomValid s = true ∧ arg0Nat s < nblocks s comp

/-- `k` is in the command's range. -/
abbrev inRange (s : State) (k : Nat) : Prop := arg0Nat s ≤ k ∧ k < arg0Nat s + arg1Nat s

/-- Two memories read alike but for the DC values `CM[comp][k][0]` of the command's range. -/
def SameButDc (s : State) (comp : Nat) (m m' : Memory) : Prop :=
  ∀ a, (∀ k, inRange s k → ¬ inHalf (cmAddr s.cfg comp k 0) a) → memRead m' a = memRead m a

/-! ### Invariants -/

/-- IN_LEN and OUT_LEN are within the capacities, which are legal (R8, R27). -/
abbrev LengthsOk (s : State) : Prop :=
  s.cfg.legal ∧ s.inLen.toNat ≤ s.cfg.inCap ∧ s.outLen.toNat ≤ s.cfg.outCap

/-- Memory is in canonical form and only what has storage is listed (R52, R54). -/
abbrev MemoryOk (s : State) : Prop := s.mem.wf ∧ ∀ c ∈ s.mem, backed s.cfg c.1 = true

/-- The memory invariant: lengths within capacities, memory canonical and within storage. -/
abbrev MemoryInv (s : State) : Prop := LengthsOk s ∧ MemoryOk s

/-- The cursor invariant: while no fault is recorded, R29 and R30. -/
abbrev CursorInv (s : State) : Prop := s.recorded = none → ReaderOk s.rd ∧ WriterOk s.wr

/-- The flag invariant (R22, R191, R202): in flight, neither DONE nor EOS nor FAULT; faulted, neither DONE nor EOS; EOS
only with DONE. -/
abbrev FlagInv (s : State) : Prop :=
  (s.inFlight.isSome → s.done = false ∧ s.eos = false ∧ s.recorded = none) ∧
  (s.recorded.isSome → s.done = false ∧ s.eos = false) ∧
  (s.eos = true → s.done = true)

/-- The table invariant: while no fault is recorded, every valid slot holds a built table (R31, R91). -/
abbrev TableInv (s : State) : Prop := s.recorded = none → ∀ n, n ≤ 5 → (slotOf s n).valid = true → TableOk (slotOf s n)

/-! ### What a command may change (R64) -/

/-- The command writes the reader's cursor. -/
def writesReader (i : Instr) : Bool :=
  match i with
  | .hdec _ _ | .rdinit | .getbits _ | .receive _ | .decblk _ _ _ _ => true
  | _ => false

/-- The command writes the writer's cursor. -/
def writesWriter (i : Instr) : Bool :=
  match i with
  | .henc _ _ | .wrinit | .putbits _ | .putvli | .flush | .encblk _ _ _ => true
  | _ => false

/-- The command writes RES. -/
def writesRes (i : Instr) : Bool :=
  match i with
  | .hdec _ _ | .hcode _ _ | .getbits _ | .receive _ | .putvli | .vcat | .decblk _ _ _ _ | .encblk _ _ _ | .sppred _ => true
  | _ => false

/-- The command may set EOS. -/
def setsEos (i : Instr) : Bool :=
  match i with
  | .hdec _ _ | .decblk _ _ _ _ => true
  | _ => false

/-- The slot whose derived table the command writes. -/
def writesSlot (i : Instr) (n : Nat) : Prop :=
  match i with
  | .hbuild slot | .hgen slot | .hinv slot => n = slot
  | _ => False

/-- The byte of RAM at `a` is one the command may write. -/
def writesByte (i : Instr) (s : State) (a : Nat) : Prop :=
  match i with
  | .hgen slot =>
    slot ≤ 5 ∧ ((∃ L, 1 ≤ L ∧ L ≤ 16 ∧ a = bitsAddr slot L) ∨
      ∃ j, j < (huffmanLeaves s.mem).length ∧ a = huffvalAddr slot j)
  | .fclr => ∃ x, x < 256 ∧ freqAddr x ≤ a ∧ a < freqAddr x + 4
  | .fhist comp =>
    RangeOk s comp ∧ ∃ k, inRange s k ∧ freqAddr (cat (drOf s.cfg s.mem comp k)) ≤ a ∧
      a < freqAddr (cat (drOf s.cfg s.mem comp k)) + 4
  | .finc sym => freqAddr sym.toNat ≤ a ∧ a < freqAddr sym.toNat + 4
  | .henc _ _ | .putbits _ | .putvli | .flush | .encblk _ _ _ =>
    outAddr s.wr.ptr.toNat ≤ a ∧ a < outAddr s.outLen.toNat
  | .decblk _ _ comp _ =>
    BlockOk s comp ∧ (inHalf (drAddr s.cfg comp (arg0Nat s)) a ∨
      ∃ p, 1 ≤ p ∧ p ≤ 63 ∧ inHalf (cmAddr s.cfg comp (arg0Nat s) p) a)
  | .dpcmdec comp | .spdec comp => RangeOk s comp ∧ ∃ k, inRange s k ∧ inHalf (cmAddr s.cfg comp k 0) a
  | .dpcmenc comp | .spenc comp => RangeOk s comp ∧ ∃ k, inRange s k ∧ inHalf (drAddr s.cfg comp k) a
  | _ => False

/-- What a command leaves unchanged, whether it ends normally or by a fault (R20, R41, R62, R64). -/
def Unchanged (i : Instr) (s t : State) : Prop :=
  (t.cfg = s.cfg ∧ t.arg0 = s.arg0 ∧ t.arg1 = s.arg1 ∧ t.geom = s.geom ∧ t.inLen = s.inLen ∧ t.outLen = s.outLen ∧
    t.doneIe = s.doneIe ∧ t.faultIe = s.faultIe ∧ t.host = s.host ∧ t.busData = s.busData ∧
    t.freeDraws = s.freeDraws) ∧
  (writesReader i = false → t.rd = s.rd) ∧ (writesWriter i = false → t.wr = s.wr) ∧
  (writesRes i = false → t.res = s.res) ∧ (setsEos i = false → t.eos = s.eos) ∧
  (∀ n, ¬ writesSlot i n → slotOf t n = slotOf s n) ∧
  (∀ a, ¬ writesByte i s a → memRead t.mem a = memRead s.mem a)

/-- What abandoning the command word `w` leaves unchanged: all that the command could not write (R64, R200, R211). An
illegal word could write nothing. -/
def AbandonKeeps (w : Word) (s t : State) : Prop :=
  (∀ i, decode w = .ok i →
    (writesReader i = false → t.rd = s.rd) ∧ (writesWriter i = false → t.wr = s.wr) ∧
    (writesRes i = false → t.res = s.res) ∧ (∀ n, ¬ writesSlot i n → slotOf t n = slotOf s n) ∧
    (∀ a, ¬ writesByte i s a → memRead t.mem a = memRead s.mem a)) ∧
  (∀ e, decode w = .error e → t.rd = s.rd ∧ t.wr = s.wr ∧ t.res = s.res ∧ t.slots = s.slots ∧ t.mem = s.mem)

/-! ### Operand checks (R75) -/

/-- The slot checks of one slot field. -/
def slotChecks (s : State) (slot : Nat) : List (Bool × FaultCode × Word) :=
  [(decide (5 < slot), .badSlot, word slot), (!(slotOf s slot).valid, .slotInvalid, word slot)]

/-- The component and geometry checks. -/
def compChecks (s : State) (comp : Nat) : List (Bool × FaultCode × Word) :=
  [(decide (3 ≤ comp), .badComp, word comp), (!geomValid s, .geom, s.geom)]

/-- The checks of a range command. -/
def rangeChecks (s : State) (comp : Nat) : List (Bool × FaultCode × Word) :=
  compChecks s comp ++
    [(decide (nblocks s comp < arg0Nat s + arg1Nat s), .blkRange, word (arg0Nat s + arg1Nat s))]

/-- The checks of a block command. -/
def blockChecks (s : State) (comp : Nat) : List (Bool × FaultCode × Word) :=
  compChecks s comp ++ [(decide (nblocks s comp ≤ arg0Nat s), .blkRange, s.arg0)]

/-- The operand checks of a command, each with the fault it raises, in the order of R75 items 2 to 6. -/
def operandChecks (i : Instr) (s : State) : List (Bool × FaultCode × Word) :=
  match i with
  | .nop => []
  | .hbuild slot => [(decide (5 < slot), .badSlot, word slot)]
  | .hgen slot => [(decide (5 < slot), .badSlot, word slot)]
  | .hdec slot _ => slotChecks s slot
  | .henc slot _ => slotChecks s slot
  | .hcode slot _ => slotChecks s slot
  | .hinv slot => [(decide (5 < slot), .badSlot, word slot)]
  | .fclr => []
  | .finc _ => []
  | .fhist comp => rangeChecks s comp
  | .rdinit => []
  | .getbits n => [(decide (16 < n), .badLen, word n)]
  | .receive n => [(decide (15 < n), .badLen, word n)]
  | .wrinit => []
  | .putbits n => [(decide (32 < n), .badLen, word n)]
  | .putvli => []
  | .vcat => []
  | .flush => []
  | .decblk dcs acs comp _ => slotChecks s dcs ++ slotChecks s acs ++ blockChecks s comp
  | .encblk dcs acs comp => slotChecks s dcs ++ slotChecks s acs ++ blockChecks s comp
  | .dpcmdec comp => rangeChecks s comp
  | .dpcmenc comp => rangeChecks s comp
  | .spdec comp => rangeChecks s comp
  | .spenc comp => rangeChecks s comp
  | .sppred comp => blockChecks s comp

/-- The first operand check that fails, if one does. -/
def firstOperandFault (i : Instr) (s : State) : Option (FaultCode × Word) :=
  ((operandChecks i s).find? (fun x => x.1)).map (fun x => x.2)

/-! ### The map of the host address space, entry by entry (R51, R52) -/

/-- How many blocks of a component the windows have (R52). -/
def blockCapacity (c : Config) (comp : Nat) : Nat := if comp = 0 then 4 * c.maxMcus else c.maxMcus

/-- The aligned address `a` is that of a register or of a window entry. -/
def Occupied (c : Config) (a : Nat) : Prop :=
  a < 0x58 ∨ (∃ t p, t < 2 ∧ p < 64 ∧ a = qtAddr t p) ∨ (∃ s L, s < 6 ∧ 1 ≤ L ∧ L ≤ 16 ∧ a = bitsAddr s L) ∨
  (∃ s i, s < 6 ∧ i < 256 ∧ a = huffvalAddr s i) ∨ (∃ x, x < 256 ∧ a = freqAddr x) ∨
  (∃ j, j < c.inCap ∧ a = 4 * (inAddr j / 4)) ∨ (∃ j, j < c.outCap ∧ a = 4 * (outAddr j / 4)) ∨
  (∃ comp k p, comp < 3 ∧ k < blockCapacity c comp ∧ p < 64 ∧ a = cmAddr c comp k p) ∨
  (∃ comp k, comp < 3 ∧ k < blockCapacity c comp ∧ a = drAddr c comp k)

/-- The rows of spec/opcode_table.json: match and mask. -/
def opcodeRows : List (Word × Word) :=
  [(0x00000000, 0xFFFFFFFF), (0x10000000, 0xFF0FFFFF), (0x11000000, 0xFF0FFFFF), (0x12000000, 0xFF0EFFFF),
   (0x13000000, 0xFF0FFF00), (0x14000000, 0xFF0FFF00), (0x15000000, 0xFF0FFFFF)] ++
  [(0x18000000, 0xFFFFFFFF), (0x19000000, 0xFFFFFF00), (0x1A000000, 0xFFFFFFFC)] ++
  [(0x20000000, 0xFFFFFFFF), (0x21000000, 0xFFFFFFE0), (0x22000000, 0xFFFFFFE0)] ++
  [(0x28000000, 0xFFFFFFFF), (0x29000000, 0xFFFFFFC0), (0x2A000000, 0xFFFFFFFF), (0x2B000000, 0xFFFFFFFF),
   (0x2C000000, 0xFFFFFFFF)] ++
  [(0x30000000, 0xFF00FFF8), (0x31000000, 0xFF00FFFC)] ++
  [(0x38000000, 0xFFFFFFFC), (0x39000000, 0xFFFFFFFC), (0x3A000000, 0xFFFFFFFC), (0x3B000000, 0xFFFFFFFC),
   (0x3C000000, 0xFFFFFFFC)]

/-- The numbers of R201's table. -/
def faultTable : List (FaultCode × Nat) :=
  [(.badCmd, 0x01), (.badSlot, 0x02), (.slotInvalid, 0x03), (.huffCount, 0x04), (.huffOverflow, 0x05), (.huffDup, 0x06),
   (.huffDepth, 0x07), (.huffMiss, 0x08), (.huffNocode, 0x09), (.rdEod, 0x0A)] ++
  [(.wrFull, 0x0B), (.badLen, 0x0C), (.vliRange, 0x0D), (.acRun, 0x0E), (.dcCat, 0x0F), (.badComp, 0x10),
   (.blkRange, 0x11), (.geom, 0x12), (.predRange, 0x13), (.qzero, 0x14), (.hostBusy, 0x15)]

/-- Every bit is one and at most 7 are left: the padding of the last byte (R113). -/
abbrev OnesPadding (l : List Bool) : Prop := l.length ≤ 7 ∧ ∀ b ∈ l, b = true

/-- No code of the table stands at the head of the bits. -/
abbrev NoCodeAhead (t : HuffSlot) (l : List Bool) : Prop := ∀ x ∈ registered t, ¬ codeBits t x <+: l

/-- `DR[first] + ... + DR[k]` (R170). -/
def residualSum (s : State) (comp k : Nat) : Int :=
  ((List.range (k + 1 - arg0Nat s)).map (fun i => drOf s.cfg s.mem comp (arg0Nat s + i))).sum

/-- `CM[k][0] - prev` of R171: the difference to the block before it in the range, or to 0. -/
def dcDifference (s : State) (comp k : Nat) : Int :=
  cmOf s.cfg s.mem comp k 0 - (if k = arg0Nat s then 0 else cmOf s.cfg s.mem comp (k - 1) 0)

/-- `CM[k][0] - Pred(comp, k)` of R174. -/
def spatialResidual (s : State) (comp k : Nat) : Int :=
  cmOf s.cfg s.mem comp k 0 - prediction s.cfg s.mem (mcux s) comp k

/-- The natural index `8v + u` after `n` on the diagonal walk of a block (R163): up to the right on the diagonals of even
`u + v`, down to the left on the odd ones, and along the edge of the block where one ends. -/
def zigzagNext (n : Nat) : Nat :=
  if (n / 8 + n % 8) % 2 = 0 then
    if n % 8 = 7 then n + 8 else if n / 8 = 0 then n + 1 else n - 7
  else
    if n / 8 = 7 then n + 1 else if n % 8 = 0 then n + 8 else n + 7

/-- The DC quantisation step of a component (R168, R169). -/
def dcStep (s : State) (comp : Nat) : Nat := qtOf s.mem (qtIndex comp) 0

/-- What a host reads from each register, field by field (R20, R22 to R28, R30, R33, R51). -/
def RegistersRead (s : State) : Prop :=
  ∀ addr : Word,
    (wordAddr addr = 0x004 → busRead s addr = s.arg0) ∧ (wordAddr addr = 0x008 → busRead s addr = s.arg1) ∧
    (wordAddr addr = 0x00C → busRead s addr = s.res) ∧
    (wordAddr addr = 0x010 →
      (busRead s addr).getLsbD 0 = s.inFlight.isSome ∧ (busRead s addr).getLsbD 1 = s.done ∧
      (busRead s addr).getLsbD 2 = s.recorded.isSome ∧ (busRead s addr).getLsbD 3 = s.eos ∧
      (busRead s addr).getLsbD 4 = s.rd.eod ∧ (busRead s addr).getLsbD 5 = s.rd.marker ∧
      ∀ b, 6 ≤ b → (busRead s addr).getLsbD b = false) ∧
    (wordAddr addr = 0x014 → (s.recorded = none → busRead s addr = 0) ∧
      ∀ f n, s.recorded = some f → (f.code, n) ∈ faultTable → busRead s addr = word n) ∧
    (wordAddr addr = 0x018 → (s.recorded = none → busRead s addr = 0) ∧
      ∀ f, s.recorded = some f → busRead s addr = f.info) ∧
    (wordAddr addr = 0x01C →
      (busRead s addr).getLsbD 1 = s.doneIe ∧ (busRead s addr).getLsbD 2 = s.faultIe ∧
      ∀ b, b ≠ 1 → b ≠ 2 → (busRead s addr).getLsbD b = false) ∧
    (wordAddr addr = 0x020 →
      (busRead s addr).getLsbD 0 = s.doneP ∧ (busRead s addr).getLsbD 1 = s.faultP ∧
      ∀ b, 2 ≤ b → (busRead s addr).getLsbD b = false) ∧
    (wordAddr addr = 0x024 → busRead s addr = s.geom) ∧ (wordAddr addr = 0x028 → busRead s addr = s.inLen) ∧
    (wordAddr addr = 0x02C → busRead s addr = s.outLen) ∧ (wordAddr addr = 0x030 → busRead s addr = s.rd.ptr) ∧
    (wordAddr addr = 0x034 → busRead s addr = s.rd.buf) ∧
    (wordAddr addr = 0x038 → (busRead s addr).toNat = s.rd.cnt.toNat) ∧
    (wordAddr addr = 0x03C → busRead s addr = s.wr.ptr) ∧
    (wordAddr addr = 0x040 →
      (busRead s addr).extractLsb' 0 8 = s.wr.acc ∧ (busRead s addr).extractLsb' 8 4 = s.wr.cnt ∧
      ∀ b, 12 ≤ b → (busRead s addr).getLsbD b = false) ∧
    (wordAddr addr = 0x044 →
      (∀ n, n ≤ 5 → (busRead s addr).getLsbD n = (slotOf s n).valid) ∧
      ∀ b, 6 ≤ b → (busRead s addr).getLsbD b = false)

/-- What a host reads from each window entry; bytes of IN and OUT past their capacity read 0 (R52, R55, R56). -/
def WindowsRead (s : State) : Prop :=
  ∀ addr : Word,
    (∀ x p, x < 2 → p < 64 → wordAddr addr = qtAddr x p → busRead s addr = word (qtOf s.mem x p)) ∧
    (∀ n L, n < 6 → 1 ≤ L → L ≤ 16 → wordAddr addr = bitsAddr n L → busRead s addr = word (bitsOf s.mem n L)) ∧
    (∀ n i, n < 6 → i < 256 → wordAddr addr = huffvalAddr n i →
      busRead s addr = (huffvalOf s.mem n i).setWidth 32) ∧
    (∀ x, x < 256 → wordAddr addr = freqAddr x → busRead s addr = word (freqOf s.mem x)) ∧
    (∀ j, j < 4194304 → wordAddr addr = 4 * (inAddr j / 4) →
      (busRead s addr).extractLsb' (8 * (j % 4)) 8 = if j < s.cfg.inCap then memRead s.mem (inAddr j) else 0) ∧
    (∀ j, j < 4194304 → wordAddr addr = 4 * (outAddr j / 4) →
      (busRead s addr).extractLsb' (8 * (j % 4)) 8 = if j < s.cfg.outCap then memRead s.mem (outAddr j) else 0) ∧
    (∀ comp k p, comp < 3 → k < blockCapacity s.cfg comp → p < 64 → wordAddr addr = cmAddr s.cfg comp k p →
      (busRead s addr).toInt = cmOf s.cfg s.mem comp k p) ∧
    (∀ comp k, comp < 3 → k < blockCapacity s.cfg comp → wordAddr addr = drAddr s.cfg comp k →
      (busRead s addr).toInt = drOf s.cfg s.mem comp k)

/-- The registers read as R210 gives them, and the interrupt output is low. -/
def RegistersReset (s : State) : Prop :=
  busRead s 0x010 = 0x00000010 ∧
  (∀ a : Word, a ∈ ([0x004, 0x008, 0x00C, 0x014, 0x018, 0x01C, 0x020, 0x024, 0x028, 0x02C, 0x030, 0x034, 0x038, 0x03C,
      0x040, 0x044] : List Word) → busRead s a = 0) ∧
  irqOutput s = false

/-- The event the next step performs is a reset. -/
def resetNext (s : State) : Bool :=
  match s.host with
  | .hardReset :: _ => true
  | .access a :: _ => isSoftReset a
  | .early a :: _ => isSoftReset a
  | [] => false

end Sys2Proof.Machine
end

