-- ==== Sys2Proof/Certificates/Slice0/Obligations.lean ====
section
/-! DEFINITION. The statements for the provers, from the spec's numbered rules. Each docstring names the rules. -/

open Sys2Proof Sys2Proof.Machine

/-! ### Encoding -/

/-- R70, R71, R73: decoding the word of a command that fits its fields gives the command back. -/
def Obligations.DecodeOfEncodeIsTheCommand : Prop :=
  ∀ i : Instr, WellFormed i → decode (encode i) = .ok i

/-- R70, R71, R73, R76: a word that selects a command is that command's word, and its operands fit their fields. -/
def Obligations.DecodedWordIsItsEncoding : Prop :=
  ∀ (w : Word) (i : Instr), decode w = .ok i → encode i = w ∧ WellFormed i

/-- R73, R74: a word selects a command exactly when it matches a row of the opcode table under the row's mask. -/
def Obligations.LegalWordsAreTheOpcodeTableRows : Prop :=
  ∀ w : Word, (∃ i, decode w = .ok i) ↔ ∃ r ∈ opcodeRows, w &&& r.2 = r.1

/-- R73, R77: words written in the spec decode to the commands they stand for. -/
def Obligations.SpecWordsDecode : Prop :=
  decode 0x00000000 = .ok .nop ∧ decode 0x10200000 = .ok (.hbuild 2) ∧ decode 0x12010000 = .ok (.hdec 0 true) ∧
  decode 0x13000004 = .ok (.henc 0 4) ∧ decode 0x19000041 = .ok (.finc 0x41) ∧ decode 0x2100000D = .ok (.getbits 13) ∧
  decode 0x29000018 = .ok (.putbits 24) ∧ decode 0x30120004 = .ok (.decblk 1 2 0 true) ∧
  decode 0x31420000 = .ok (.encblk 4 2 0) ∧ decode 0x38000001 = .ok (.dpcmdec 1) ∧
  decode 0x3C000001 = .ok (.sppred 1)

/-! ### The command issue protocol and the fault state -/

/-- R191, R59: with no command in flight and no fault recorded, a host write to CMD of a word that selects `i` makes one
step that accepts it (BUSY set, DONE and EOS cleared) and runs `i` to its end. -/
def Obligations.StepRunsDecodedCommand : Prop :=
  ∀ (s : State) (addr w : Word) (rest : List HostEvent) (i : Instr),
    s.inFlight = none → s.recorded = none → s.host = .access (.write addr w) :: rest → wordAddr addr = 0 →
    (∀ a more, rest ≠ .early a :: more) → decode w = .ok i →
    step s = exec i { s with host := rest, inFlight := some w, done := false, eos := false }

/-- R74, R191: an illegal word raises BAD_CMD with the word as info and changes no other state: DONE and EOS are cleared
by its acceptance. -/
def Obligations.IllegalWordRaisesBadCmd : Prop :=
  ∀ (s : State) (addr w : Word) (rest : List HostEvent) (e : DecodeError),
    s.inFlight = none → s.recorded = none → s.host = .access (.write addr w) :: rest → wordAddr addr = 0 →
    (∀ a more, rest ≠ .early a :: more) → decode w = .error e →
    step s = .next { s with host := rest, done := false, eos := false, recorded := some ⟨.badCmd, w⟩, faultP := true }

/-- R192, R200, R204: no step stops the machine; every command terminates. -/
def Obligations.EveryStepAnswersNext : Prop :=
  ∀ s : State, ∃ t, step s = .next t

/-- R191, R204: while a fault is recorded a CMD write does nothing at all, and no step but a reset changes the recorded
fault (nor records a second one). -/
def Obligations.FaultStateLeavesOnlyByReset : Prop :=
  ∀ (s : State) (f : FaultRecord), s.recorded = some f →
    (∀ addr w rest, s.inFlight = none → s.host = .access (.write addr w) :: rest → wordAddr addr = 0 →
      step s = .next { s with host := rest }) ∧
    (∀ t, step s = .next t → resetNext s = false → t.recorded = some f)

/-- R75, R202: a command whose operand checks fail raises the first one, in R75's order, with R201's info, and changes
nothing else. -/
def Obligations.OperandChecksRaiseInOrder : Prop :=
  ∀ (i : Instr) (s : State) (code : FaultCode) (info : Word),
    s.recorded = none → firstOperandFault i s = some (code, info) →
    exec i s = .next { s with recorded := some ⟨code, info⟩, faultP := true, inFlight := none }

/-- R20, R41, R62, R64: what each command leaves unchanged, whether it ends normally or by a fault. That a fault leaves the
bytes of OUT below WR_PTR or past OUT_LEN as they were is the model's choice, log entry 4. -/
def Obligations.CommandsLeaveTheRestUnchanged : Prop :=
  ∀ (i : Instr) (s t : State), exec i s = .next t → Unchanged i s t

/-- R23, R200, R201, R203: after fault entry with no fault recorded before, FAULT reads the code's number, FAULT_INFO the
info word, STATUS.FAULT is 1, STATUS.BUSY is 0, and irq is raised if FAULT_IE is set. A command that ends without fault
sets DONE and DONE_P, and one that raises a fault sets FAULT_P and leaves DONE and DONE_P. irq is high exactly when DONE_P
and DONE_IE are set or FAULT_P and FAULT_IE are, as IRQ and CTRL read them: an enable set later raises it for a bit already
pending, it is low with both enables off and with both bits cleared, and clearing FAULT_P leaves the fault recorded. -/
def Obligations.FaultRegistersReadTheFault : Prop :=
  (∀ (s : State) (code : FaultCode) (n : Nat) (info : Word), s.recorded = none → (code, n) ∈ faultTable →
    busRead (faultEntry code info s) 0x014 = word n ∧ busRead (faultEntry code info s) 0x018 = info ∧
    (busRead (faultEntry code info s) 0x010).getLsbD 2 = true ∧
    (busRead (faultEntry code info s) 0x010).getLsbD 0 = false ∧
    (busRead (faultEntry code info s) 0x020).getLsbD 1 = true ∧
    (s.faultIe = true → irqOutput (faultEntry code info s) = true)) ∧
  (∀ (i : Instr) (s t : State), exec i s = .next t →
    (t.recorded = none → t.done = true ∧ t.doneP = true ∧ (s.doneIe = true → irqOutput t = true)) ∧
    (s.recorded = none → t.recorded.isSome = true →
      t.faultP = true ∧ t.done = s.done ∧ t.doneP = s.doneP ∧ (s.faultIe = true → irqOutput t = true))) ∧
  (∀ s : State,
    (irqOutput s = true ↔
      (busRead s 0x020).getLsbD 0 = true ∧ (busRead s 0x01C).getLsbD 1 = true ∨
      (busRead s 0x020).getLsbD 1 = true ∧ (busRead s 0x01C).getLsbD 2 = true)) ∧
  (∀ (s t : State) (v : Word), t = hostAccess (.write 0x01C v) s → v.getLsbD 0 = false →
    (s.doneP = true → v.getLsbD 1 = true → irqOutput t = true) ∧
    (s.faultP = true → v.getLsbD 2 = true → irqOutput t = true) ∧
    (v.getLsbD 1 = false → v.getLsbD 2 = false → irqOutput t = false)) ∧
  (∀ (s t : State) (v : Word), t = hostAccess (.write 0x020 v) s →
    t.recorded = s.recorded ∧ (v.getLsbD 0 = true → v.getLsbD 1 = true → irqOutput t = false) ∧
    (v.getLsbD 0 = true → s.faultIe = false → irqOutput t = false) ∧
    (v.getLsbD 1 = true → s.doneIe = false → irqOutput t = false))

/-- R190: NOP does nothing beyond the protocol; its word is 0, and every other word with opcode 0x00 raises BAD_CMD when
written to CMD; while a fault is recorded NOP is ignored. -/
def Obligations.NopOnlyEndsNormally : Prop :=
  (∀ s : State, exec .nop s = .next { s with done := true, doneP := true, inFlight := none }) ∧
  (∀ (s : State) (w : Word) (rest : List HostEvent), s.inFlight = none →
    s.host = .access (.write 0x000 w) :: rest → (∀ a more, rest ≠ .early a :: more) → w.toNat < 2 ^ 24 →
    (s.recorded = none → w = 0 →
      step s = .next { s with host := rest, done := true, eos := false, doneP := true }) ∧
    (s.recorded = none → w ≠ 0 →
      step s = .next { s with host := rest, done := false, eos := false, recorded := some ⟨.badCmd, w⟩,
                              faultP := true }) ∧
    (s.recorded ≠ none → step s = .next { s with host := rest }))

/-! ### Huffman tables -/

/-- R90, R91 (b), (d): HBUILD of a wire form with at most 256 codes, no symbol twice and a Kraft sum of at most 1 ends
normally; the slot is then valid, the k-th symbol of HUFFVAL has the k-th length and the canonical code, every other
symbol is not registered, and nothing else changes. -/
def Obligations.HbuildInstallsCanonicalCodes : Prop :=
  ∀ (slot : Nat) (s : State), slot ≤ 5 → totalCodes s.mem slot ≤ 256 → (wireSymbols s.mem slot).Nodup →
    kraft s.mem slot ≤ 65536 →
    ∃ t : HuffSlot,
      exec (.hbuild slot) s = .next { s with slots := s.slots.setIfInBounds slot t, done := true, doneP := true,
                                             inFlight := none } ∧
      t.valid = true ∧
      (∀ k, k < totalCodes s.mem slot →
        lenAt t (huffvalOf s.mem slot k) = (wireLengths s.mem slot).getD k 0 ∧
        codeAt t (huffvalOf s.mem slot k) = canonicalCode (wireLengths s.mem slot) k) ∧
      (∀ x, x ∉ wireSymbols s.mem slot → lenAt t x = 0) ∧
      (∀ L, 1 ≤ L → L ≤ 16 → hasLength t L = decide (0 < bitsOf s.mem slot L))

/-- R91 (a), R31: a slot valid after an HBUILD or an HGEN of it holds a built table: lengths 1..16, codes that fit,
LENSET the lengths present, codes prefix-free. -/
def Obligations.BuiltTableIsPrefixFree : Prop :=
  ∀ (slot : Nat) (s t : State), slot ≤ 5 → (exec (.hbuild slot) s = .next t ∨ exec (.hgen slot) s = .next t) →
    (slotOf t slot).valid = true → TableOk (slotOf t slot)

/-- R90, R91 (d), R92, R202: HUFF_COUNT, HUFF_OVERFLOW, HUFF_DUP and HUFF_DEPTH, each with its info; the slot is then
invalid and nothing else has changed. Without duplicates and with a Kraft sum above 1 the overflow is at the first length
L at which the running code passes 2^L, with (L << 24) | 2^L; a wire form may have both defects, and HUFFVAL's first
symbol that has no code space left (HUFF_OVERFLOW, with its length and running code) or stands earlier too (HUFF_DUP, with
the symbol) decides, the overflow before the duplicate at one symbol. That a fault leaves the derived arrays as they were
is the model's choice, log entry 4. -/
def Obligations.TableFaultsInvalidateTheSlot : Prop :=
  ∀ (slot : Nat) (s : State), slot ≤ 5 → s.recorded = none →
    (256 < totalCodes s.mem slot →
      exec (.hbuild slot) s =
        .next { s with slots := s.slots.setIfInBounds slot { slotOf s slot with valid := false }, inFlight := none,
                       recorded := some ⟨.huffCount, word (totalCodes s.mem slot)⟩, faultP := true }) ∧
    (totalCodes s.mem slot ≤ 256 → (wireSymbols s.mem slot).Nodup → 65536 < kraft s.mem slot →
      ∃ L, 1 ≤ L ∧ L ≤ 16 ∧ 2 ^ L < codesNeeded s.mem slot L ∧
        (∀ j, 1 ≤ j → j < L → codesNeeded s.mem slot j ≤ 2 ^ j) ∧
        exec (.hbuild slot) s =
          .next { s with slots := s.slots.setIfInBounds slot { slotOf s slot with valid := false }, inFlight := none,
                         recorded := some ⟨.huffOverflow, word (L * 2 ^ 24 + 2 ^ L)⟩, faultP := true }) ∧
    (totalCodes s.mem slot ≤ 256 → ¬ (wireSymbols s.mem slot).Nodup → kraft s.mem slot ≤ 65536 →
      ∃ x : Byte, 2 ≤ (wireSymbols s.mem slot).count x ∧ exec (.hbuild slot) s =
        .next { s with slots := s.slots.setIfInBounds slot { slotOf s slot with valid := false }, inFlight := none,
                       recorded := some ⟨.huffDup, x.setWidth 32⟩, faultP := true }) ∧
    (∀ k, totalCodes s.mem slot ≤ 256 → k < totalCodes s.mem slot →
      (∀ j, j < k → canonicalCode (wireLengths s.mem slot) j < 2 ^ (wireLengths s.mem slot).getD j 0 ∧
        huffvalOf s.mem slot j ∉ (wireSymbols s.mem slot).take j) →
      (2 ^ (wireLengths s.mem slot).getD k 0 ≤ canonicalCode (wireLengths s.mem slot) k →
        exec (.hbuild slot) s =
          .next { s with slots := s.slots.setIfInBounds slot { slotOf s slot with valid := false }, inFlight := none,
                         recorded := some ⟨.huffOverflow, word ((wireLengths s.mem slot).getD k 0 * 2 ^ 24 +
                           canonicalCode (wireLengths s.mem slot) k)⟩, faultP := true }) ∧
      (canonicalCode (wireLengths s.mem slot) k < 2 ^ (wireLengths s.mem slot).getD k 0 →
        huffvalOf s.mem slot k ∈ (wireSymbols s.mem slot).take k →
        exec (.hbuild slot) s =
          .next { s with slots := s.slots.setIfInBounds slot { slotOf s slot with valid := false }, inFlight := none,
                         recorded := some ⟨.huffDup, (huffvalOf s.mem slot k).setWidth 32⟩, faultP := true })) ∧
    (16 < maxDepth (huffmanLeaves s.mem) →
      exec (.hgen slot) s =
        .next { s with slots := s.slots.setIfInBounds slot { slotOf s slot with valid := false }, inFlight := none,
                       recorded := some ⟨.huffDepth, word (maxDepth (huffmanLeaves s.mem))⟩, faultP := true })

/-- R92, R101: when no real symbol lies deeper than 16, HGEN ends normally; BITS counts the tree's leaves by depth,
HUFFVAL lists them in order, and the table installed is the one that wire form builds: valid, each leaf's symbol with its
depth as length, exactly the symbols with FREQ > 0 registered, and no code all ones. RAM changes only in the slot's wire
form, where HUFFVAL past the symbols is kept too. (What tree that is, HgenOfOneSymbolGivesCodeZero says.) -/
def Obligations.HgenTableLeavesAllOnesUnused : Prop :=
  ∀ (slot : Nat) (s : State), slot ≤ 5 → maxDepth (huffmanLeaves s.mem) ≤ 16 →
    ∃ (t : HuffSlot) (m : Memory),
      exec (.hgen slot) s = .next { s with slots := s.slots.setIfInBounds slot t, mem := m, done := true,
                                           doneP := true, inFlight := none } ∧
      (∀ L, 1 ≤ L → L ≤ 16 → bitsOf m slot L = (huffmanLeaves s.mem).countP (fun x => x.2 == L)) ∧
      (∀ j, j < (huffmanLeaves s.mem).length →
        (huffvalOf m slot j).toNat = ((huffmanLeaves s.mem).getD j (0, 0)).1) ∧
      buildTable m slot = .ok t ∧ t.valid = true ∧
      (∀ x ∈ huffmanLeaves s.mem, lenAt t (BitVec.ofNat 8 x.1) = x.2) ∧
      (∀ x : Byte, lenAt t x ≠ 0 ↔ 0 < freqOf s.mem x.toNat) ∧
      (∀ x : Byte, lenAt t x ≠ 0 → codeAt t x + 1 < 2 ^ lenAt t x) ∧
      (∀ a, (∀ L, 1 ≤ L → L ≤ 16 → a ≠ bitsAddr slot L) →
        (∀ j, j < totalCodes m slot → a ≠ huffvalAddr slot j) → memRead m a = memRead s.mem a)

/-- R92, D47: HGEN's leaves are those of the tree that merging the two least nodes gives, least by weight and then by
serial, the first as child 0, from a leaf per symbol counted and P, and they are listed breadth first. With one symbol of
nonzero frequency, HGEN gives it the code `0` of length 1 and the wire form with one code of length 1; with none, the table
is valid and empty. -/
def Obligations.HgenOfOneSymbolGivesCodeZero : Prop :=
  (∀ m : Memory, ∃ T, Merges 257 (startNodes m) T ∧ huffmanLeaves m = breadthFirst T) ∧
  ∀ (slot : Nat) (s : State), slot ≤ 5 →
    (∀ x : Byte, 0 < freqOf s.mem x.toNat → (∀ y : Byte, y ≠ x → freqOf s.mem y.toNat = 0) →
      ∃ t m, exec (.hgen slot) s = .next { s with slots := s.slots.setIfInBounds slot t, mem := m, done := true,
                                                  doneP := true, inFlight := none } ∧
        t.valid = true ∧ lenAt t x = 1 ∧ codeAt t x = 0 ∧ (∀ y, y ≠ x → lenAt t y = 0) ∧
        bitsOf m slot 1 = 1 ∧ (∀ L, 2 ≤ L → L ≤ 16 → bitsOf m slot L = 0) ∧ huffvalOf m slot 0 = x) ∧
    ((∀ y : Byte, freqOf s.mem y.toNat = 0) →
      ∃ t m, exec (.hgen slot) s = .next { s with slots := s.slots.setIfInBounds slot t, mem := m, done := true,
                                                  doneP := true, inFlight := none } ∧
        t.valid = true ∧ (∀ y, lenAt t y = 0) ∧ (∀ L, 1 ≤ L → L ≤ 16 → bitsOf m slot L = 0))

/-! ### Huffman symbols -/

/-- R93, R94: with a built table, when the code of a registered symbol stands at the head of the unconsumed bits, HDEC
returns that symbol in RES and consumes exactly its code. -/
def Obligations.HdecReturnsTheSymbolAhead : Prop :=
  ∀ (slot : Nat) (eosok : Bool) (s : State) (x : Byte),
    slot ≤ 5 → (slotOf s slot).valid = true → TableOk (slotOf s slot) → ReaderOk s.rd →
    x ∈ registered (slotOf s slot) → codeBits (slotOf s slot) x <+: streamOf s →
    ∃ r, exec (.hdec slot eosok) s = .next { s with rd := r, res := x.setWidth 32, done := true, doneP := true,
                                                    inFlight := none } ∧
      stream s.mem s.inLen.toNat r = (streamOf s).drop (lenAt (slotOf s slot) x) ∧ ReaderOk r

/-- R93, R94, R113: when no code stands at the head of the unconsumed bits, HDEC ends at end of scan if eosok is set and
at most 7 bits remain, all ones; otherwise it raises HUFF_MISS with the slot as info. -/
def Obligations.HdecMissIsEndOfScanOrFault : Prop :=
  ∀ (slot : Nat) (eosok : Bool) (s : State),
    slot ≤ 5 → (slotOf s slot).valid = true → TableOk (slotOf s slot) → ReaderOk s.rd → s.recorded = none →
    NoCodeAhead (slotOf s slot) (streamOf s) →
    (eosok = true → OnesPadding (streamOf s) →
      ∃ r, exec (.hdec slot eosok) s = .next { s with rd := r, res := 0xFFFFFFFF, eos := true, done := true,
                                                      doneP := true, inFlight := none } ∧
        r.eod = true ∧ stream s.mem s.inLen.toNat r = streamOf s) ∧
    (¬ (eosok = true ∧ OnesPadding (streamOf s)) →
      ∃ t, exec (.hdec slot eosok) s = .next t ∧ t.recorded = some ⟨.huffMiss, word slot⟩ ∧ t.faultP = true ∧
        t.done = s.done ∧ t.eos = s.eos ∧ t.inFlight = none)

/-- R95, R118, R119: HENC appends the code of a registered symbol to the stream, when OUT_LEN leaves room. -/
def Obligations.HencAppendsTheCode : Prop :=
  ∀ (slot : Nat) (sym : Byte) (s : State),
    slot ≤ 5 → (slotOf s slot).valid = true → lenAt (slotOf s slot) sym ≠ 0 → WriterOk s.wr →
    HasRoom s (codeBits (slotOf s slot) sym) →
    ∃ w m, exec (.henc slot sym) s = .next { s with wr := w, mem := m, done := true, doneP := true, inFlight := none } ∧
      Appended s.wr s.mem (codeBits (slotOf s slot) sym) w m

/-- R96: HCODE of a registered symbol: RES[20:16] = LEN, RES[15:0] = CODE, the other bits 0, and nothing else changes. -/
def Obligations.HcodeReturnsLengthAndCode : Prop :=
  ∀ (slot : Nat) (sym : Byte) (s : State),
    slot ≤ 5 → (slotOf s slot).valid = true → lenAt (slotOf s slot) sym ≠ 0 →
    ∃ v : Word, exec (.hcode slot sym) s = .next { s with res := v, done := true, doneP := true, inFlight := none } ∧
      (v.extractLsb' 16 5).toNat = lenAt (slotOf s slot) sym ∧
      (v.extractLsb' 0 16).toNat = codeAt (slotOf s slot) sym ∧ v.toNat < 2 ^ 21

/-- R95, R96, R141: HENC and HCODE of a symbol without a code raise HUFF_NOCODE with the symbol as info. So does ENCBLK of
a block whose DC category has no code, with the category, and ENCBLK of a residual -32768 raises VLI_RANGE with it. In the
AC part of a block, the first item that cannot be coded decides, when those before it fit OUT_LEN: VLI_RANGE with the value
if its category is above 15, HUFF_NOCODE with the symbol (ZRL and EOB among them) if it has no code. That the faults of the
first two sentences leave the writer, RES and RAM as they were is the model's choice, log entry 4. -/
def Obligations.MissingCodeFaults : Prop :=
  (∀ (slot : Nat) (sym : Byte) (s : State),
    slot ≤ 5 → (slotOf s slot).valid = true → lenAt (slotOf s slot) sym = 0 → s.recorded = none →
    ∀ i, i = Instr.henc slot sym ∨ i = Instr.hcode slot sym →
      exec i s = .next { s with recorded := some ⟨.huffNocode, sym.setWidth 32⟩, faultP := true, inFlight := none }) ∧
  (∀ (dcs acs comp : Nat) (s : State) (v : Int),
    dcs ≤ 5 → acs ≤ 5 → (slotOf s dcs).valid = true → (slotOf s acs).valid = true → BlockOk s comp →
    s.recorded = none → v = drOf s.cfg s.mem comp (arg0Nat s) →
    (v ≠ -32768 → lenAt (slotOf s dcs) (BitVec.ofNat 8 (cat v)) = 0 →
      exec (.encblk dcs acs comp) s =
        .next { s with recorded := some ⟨.huffNocode, word (cat v)⟩, faultP := true, inFlight := none }) ∧
    (v = -32768 →
      exec (.encblk dcs acs comp) s =
        .next { s with recorded := some ⟨.vliRange, 0xFFFF8000⟩, faultP := true, inFlight := none }) ∧
    (∀ (pre post : List (Byte × Int)) (x : Byte) (a : Int),
      LengthsOk s → WriterOk s.wr → ItemOk (slotOf s dcs) (dcItem v) →
      acItems 0 (acList s.cfg s.mem comp (arg0Nat s)) = pre ++ (x, a) :: post →
      (∀ y ∈ pre, ItemOk (slotOf s acs) y) → HasRoom s (codedBits (slotOf s dcs) (slotOf s acs) v pre) →
      (15 < cat a →
        ∃ t, exec (.encblk dcs acs comp) s = .next t ∧ t.recorded = some ⟨.vliRange, signedWord a⟩ ∧
          t.faultP = true ∧ t.done = s.done ∧ t.inFlight = none) ∧
      (cat a ≤ 15 → lenAt (slotOf s acs) x = 0 →
        ∃ t, exec (.encblk dcs acs comp) s = .next t ∧ t.recorded = some ⟨.huffNocode, x.setWidth 32⟩ ∧
          t.faultP = true ∧ t.done = s.done ∧ t.inFlight = none)))

/-- R97: HINV clears VALID_s; the wire form and the derived arrays keep their values; an invalid slot stays invalid. -/
def Obligations.HinvClearsValidOnly : Prop :=
  ∀ (slot : Nat) (s : State), slot ≤ 5 →
    ∃ t, exec (.hinv slot) s = .next t ∧ (busRead t 0x044).getLsbD slot = false ∧
      (∀ n, n ≠ slot → slotOf t n = slotOf s n) ∧
      slotOf t slot = { slotOf s slot with valid := false } ∧
      t = { s with slots := t.slots, done := true, doneP := true, inFlight := none }

/-! ### Frequency table -/

/-- R98: FCLR makes every FREQ entry 0 and changes no other byte of RAM and no other state. -/
def Obligations.FclrZeroesFrequencies : Prop :=
  ∀ s : State, ∃ m, exec .fclr s = .next { s with mem := m, done := true, doneP := true, inFlight := none } ∧
    (∀ x, x < 256 → freqOf m x = 0) ∧
    (∀ a, (∀ x, x < 256 → a < freqAddr x ∨ freqAddr x + 4 ≤ a) → memRead m a = memRead s.mem a)

/-- R99: FINC adds 1 to FREQ[sym], saturating at 0xFFFFFFFF, and changes no other byte of RAM and no other state; its word
is 0x19 in OP and sym in IMM[7:0], every other bit 0. -/
def Obligations.FincCountsSaturating : Prop :=
  ∀ (sym : Byte) (s : State),
    (∀ w : Word, decode w = .ok (.finc sym) ↔ w = (0x19 : BitVec 8) ++ (0 : BitVec 16) ++ sym) ∧
    ∃ m, exec (.finc sym) s = .next { s with mem := m, done := true, doneP := true, inFlight := none } ∧
      freqOf m sym.toNat = min (freqOf s.mem sym.toNat + 1) 0xFFFFFFFF ∧
      (∀ a, (a < freqAddr sym.toNat ∨ freqAddr sym.toNat + 4 ≤ a) → memRead m a = memRead s.mem a)

/-- R100: FHIST adds to each FREQ entry the number of residuals of the range with that category, saturating. -/
def Obligations.FhistCountsCategories : Prop :=
  ∀ (comp : Nat) (s : State), RangeOk s comp →
    ∃ m, exec (.fhist comp) s = .next { s with mem := m, done := true, doneP := true, inFlight := none } ∧
      (∀ x, x < 256 → freqOf m x =
        min (freqOf s.mem x +
          (List.range (arg1Nat s)).countP (fun i => cat (drOf s.cfg s.mem comp (arg0Nat s + i)) == x)) 0xFFFFFFFF) ∧
      (∀ a, (∀ x, x < 256 → a < freqAddr x ∨ freqAddr x + 4 ≤ a) → memRead m a = memRead s.mem a)

/-! ### Bit reader -/

/-- R110, R114: RDINIT makes the unconsumed bits those of the destuffed bytes from index ARG0 on; EOD is set exactly when
there is none, with RD_PTR at ARG0, and MARKER exactly when a marker stands there. -/
def Obligations.RdinitStartsTheStream : Prop :=
  ∀ s : State,
    ∃ r, exec .rdinit s = .next { s with rd := r, done := true, doneP := true, inFlight := none } ∧
      stream s.mem s.inLen.toNat r =
        (destuff s.mem s.inLen.toNat (s.inLen.toNat - arg0Nat s) (arg0Nat s)).flatMap (fun b => natBits 8 b.toNat) ∧
      ReaderOk r ∧
      (r.eod = true ↔ destuff s.mem s.inLen.toNat (s.inLen.toNat - arg0Nat s) (arg0Nat s) = []) ∧
      (r.eod = true → r.ptr = s.arg0) ∧
      (r.marker = true ↔ arg0Nat s + 1 < s.inLen.toNat ∧ memRead s.mem (inAddr (arg0Nat s)) = 0xFF ∧
        memRead s.mem (inAddr (arg0Nat s + 1)) ≠ 0x00)

/-- R112, R115: GETBITS n, n in 0..16, returns the next n unconsumed bits as an unsigned number and consumes them, when
there are n. -/
def Obligations.GetbitsReadsTheNextBits : Prop :=
  ∀ (n : Nat) (s : State), n ≤ 16 → ReaderOk s.rd → n ≤ (streamOf s).length →
    ∃ r, exec (.getbits n) s = .next { s with rd := r, res := word (bitsNat ((streamOf s).take n)), done := true,
                                              doneP := true, inFlight := none } ∧
      stream s.mem s.inLen.toNat r = (streamOf s).drop n ∧ ReaderOk r ∧ (n = 0 → r = s.rd)

/-- R112, R116, R117: RECEIVE n, n in 0..15, returns the signed value of the next n unconsumed bits and consumes them,
when there are n: the number itself if its top bit is 1, and `1 - 2^n + stored` otherwise. -/
def Obligations.ReceiveDecodesTheNextVli : Prop :=
  ∀ (n : Nat) (s : State), n ≤ 15 → ReaderOk s.rd → n ≤ (streamOf s).length →
    ∃ r v, exec (.receive n) s = .next { s with rd := r, res := v, done := true, doneP := true, inFlight := none } ∧
      v.toInt = (if n = 0 then 0
        else if (streamOf s).head? = some true then (bitsNat ((streamOf s).take n) : Int)
        else (bitsNat ((streamOf s).take n) : Int) + 1 - 2 ^ n) ∧
      stream s.mem s.inLen.toNat r = (streamOf s).drop n ∧ ReaderOk r

/-- R112, R115, R116: when fewer than n bits are left, GETBITS n and RECEIVE n raise RD_EOD with RD_PTR as info. That
RD_PTR and EOD stay as the command left them at the fault is the model's choice, log entry 4. -/
def Obligations.ReadingPastTheDataFaults : Prop :=
  ∀ (n : Nat) (s : State) (i : Instr), ReaderOk s.rd → s.recorded = none → (streamOf s).length < n →
    (i = .getbits n ∧ n ≤ 16 ∨ i = .receive n ∧ n ≤ 15) →
    ∃ t, exec i s = .next t ∧ t.recorded = some ⟨.rdEod, t.rd.ptr⟩ ∧ t.rd.eod = true ∧ t.faultP = true ∧
      t.done = s.done ∧ t.inFlight = none

/-! ### Bit writer and VLI -/

/-- R120: WRINIT sets WR_PTR to ARG0 and discards the pending bits; any ARG0 is accepted and RAM is as before. -/
def Obligations.WrinitDiscardsPendingBits : Prop :=
  ∀ s : State, ∃ w, exec .wrinit s = .next { s with wr := w, done := true, doneP := true, inFlight := none } ∧
    w.ptr = s.arg0 ∧ pending w = [] ∧ WriterOk w

/-- R119, R121: PUTBITS n, n in 0..32, appends the low n bits of ARG0, most significant first, when OUT_LEN leaves
room. -/
def Obligations.PutbitsAppendsLowBits : Prop :=
  ∀ (n : Nat) (s : State), n ≤ 32 → WriterOk s.wr → HasRoom s (natBits n (arg0Nat s)) →
    ∃ w m, exec (.putbits n) s = .next { s with wr := w, mem := m, done := true, doneP := true, inFlight := none } ∧
      Appended s.wr s.mem (natBits n (arg0Nat s)) w m

/-- R117, R122: PUTVLI of a value of category c at most 15 appends its c-bit pattern and returns c; a value of a greater
category raises VLI_RANGE with ARG0 as info. That this fault leaves the writer, RES and OUT as they were is the model's
choice, log entry 4. -/
def Obligations.PutvliAppendsThePattern : Prop :=
  ∀ s : State,
    (cat (arg0Int s) ≤ 15 → WriterOk s.wr →
      HasRoom s (natBits (cat (arg0Int s)) (vliBits (arg0Int s) (cat (arg0Int s)))) →
      ∃ w m, exec .putvli s = .next { s with wr := w, mem := m, res := word (cat (arg0Int s)), done := true,
                                             doneP := true, inFlight := none } ∧
        Appended s.wr s.mem (natBits (cat (arg0Int s)) (vliBits (arg0Int s) (cat (arg0Int s)))) w m) ∧
    (15 < cat (arg0Int s) → s.recorded = none →
      exec .putvli s = .next { s with recorded := some ⟨.vliRange, s.arg0⟩, faultP := true, inFlight := none })

/-- R123: VCAT returns the least c with |ARG0| < 2^c, ARG0 read as signed, in 0..32, and changes nothing else; its word is
0x2B000000 alone. -/
def Obligations.VcatReturnsTheCategory : Prop :=
  (∀ w : Word, decode w = .ok .vcat ↔ w = 0x2B000000) ∧
  ∀ s : State, ∃ c, c ≤ 32 ∧ (arg0Int s).natAbs < 2 ^ c ∧ (∀ d, (arg0Int s).natAbs < 2 ^ d → c ≤ d) ∧
    exec .vcat s = .next { s with res := word c, done := true, doneP := true, inFlight := none }

/-- R124: FLUSH completes a partial byte with one-bits and writes it (stuffed if it is 0xFF); with no pending bit it
writes nothing; no bit is pending after it. -/
def Obligations.FlushPadsWithOnes : Prop :=
  ∀ (s : State) (bits : List Bool), WriterOk s.wr →
    bits = (if s.wr.cnt = 0 then [] else List.replicate (8 - s.wr.cnt.toNat) true) → HasRoom s bits →
    ∃ w m, exec .flush s = .next { s with wr := w, mem := m, done := true, doneP := true, inFlight := none } ∧
      Appended s.wr s.mem bits w m ∧ pending w = [] ∧ (s.wr.cnt = 0 → m = s.mem ∧ w.ptr = s.wr.ptr)

/-- R118, R141, R205: a writing command (HENC, PUTBITS, PUTVLI, FLUSH) whose bytes do not fit below OUT_LEN raises WR_FULL
with WR_PTR as info, and so does ENCBLK when the bytes of its DC item and the AC items before the first it cannot code do
not fit; no byte at or past OUT_LEN is written. That WR_PTR stays as the command left it at the fault is the model's
choice, log entry 4. -/
def Obligations.WritingWithoutRoomFaults : Prop :=
  (∀ (i : Instr) (s : State) (bits : List Bool),
    firstOperandFault i s = none → bitsToWrite i s = some bits → WriterOk s.wr → s.recorded = none →
    ¬ HasRoom s bits →
    ∃ t, exec i s = .next t ∧ t.recorded = some ⟨.wrFull, t.wr.ptr⟩ ∧ t.faultP = true ∧ t.done = s.done ∧
      (∀ a, outAddr s.outLen.toNat ≤ a → memRead t.mem a = memRead s.mem a)) ∧
  (∀ (dcs acs comp : Nat) (s : State) (v : Int) (pre post : List (Byte × Int)),
    firstOperandFault (.encblk dcs acs comp) s = none → WriterOk s.wr → LengthsOk s → s.recorded = none →
    v = drOf s.cfg s.mem comp (arg0Nat s) → acItems 0 (acList s.cfg s.mem comp (arg0Nat s)) = pre ++ post →
    ItemOk (slotOf s dcs) (dcItem v) → (∀ y ∈ pre, ItemOk (slotOf s acs) y) →
    ¬ HasRoom s (codedBits (slotOf s dcs) (slotOf s acs) v pre) →
    ∃ t, exec (.encblk dcs acs comp) s = .next t ∧ t.recorded = some ⟨.wrFull, t.wr.ptr⟩ ∧ t.faultP = true ∧
      t.done = s.done ∧ (∀ a, outAddr s.outLen.toNat ≤ a → memRead t.mem a = memRead s.mem a))

/-- R125: bytes passed to EmitByte and copied from OUT to IN come back from successive calls of Fetch exactly, and then
NONE, with MARKER = 0. -/
def Obligations.StuffingRoundTrip : Prop :=
  ∀ (bytes : List Byte) (limit : Nat) (p : OutPort), limit < 2 ^ 32 →
    p.wr.ptr.toNat + (stuff bytes).length ≤ limit →
    ∃ q, emitAll limit bytes p = .ok () q ∧ q.wr.ptr.toNat = p.wr.ptr.toNat + (stuff bytes).length ∧
      ∀ (m : Memory) (r : Reader),
        (∀ j, j < (stuff bytes).length → memRead m (inAddr j) = memRead q.mem (outAddr (p.wr.ptr.toNat + j))) →
        r.ptr = 0 → r.eod = false →
        (fetchAll m (stuff bytes).length (bytes.length + 1) r).1 = bytes.map some ++ [none] ∧
        (fetchAll m (stuff bytes).length (bytes.length + 1) r).2.marker = false

/-- R117: cat(v) is the least c with |v| < 2^c, at most 32 for a 32-bit v; VliBits and VliDecode as R117 gives them; for
each c in 1..15, VliDecode(·, c) maps [0, 2^c) one to one onto the values of category c, which are
[-(2^c - 1), -2^(c-1)] and [2^(c-1), 2^c - 1], and VliBits is its inverse; category 0 is the value 0 alone. -/
def Obligations.VliIsABijection : Prop :=
  (∀ v : Int, v.natAbs < 2 ^ cat v ∧ (∀ d, v.natAbs < 2 ^ d → cat v ≤ d) ∧ (v.natAbs ≤ 2 ^ 31 → cat v ≤ 32)) ∧
  (∀ v : Int, (0 < v → (vliBits v (cat v) : Int) = v) ∧ (v < 0 → (vliBits v (cat v) : Int) = v + 2 ^ cat v - 1)) ∧
  (∀ x c : Nat, 1 ≤ c → c ≤ 15 → x < 2 ^ c →
    (2 ^ (c - 1) ≤ x → vliDecode x c = x) ∧ (x < 2 ^ (c - 1) → vliDecode x c = x + 1 - 2 ^ c)) ∧
  (∀ c, 1 ≤ c → c ≤ 15 →
    (∀ x, x < 2 ^ c → cat (vliDecode x c) = c ∧ vliBits (vliDecode x c) c = x) ∧
    (∀ v : Int, cat v = c → vliBits v c < 2 ^ c ∧ vliDecode (vliBits v c) c = v) ∧
    (∀ v : Int, cat v = c ↔
      (-(2 ^ c - 1) ≤ v ∧ v ≤ -2 ^ (c - 1)) ∨ ((2 : Int) ^ (c - 1) ≤ v ∧ v ≤ 2 ^ c - 1))) ∧
  (∀ v : Int, cat v = 0 ↔ v = 0) ∧ (∀ x, vliDecode x 0 = 0) ∧ vliBits 0 0 = 0

/-! ### Block stream -/

/-- R140, R142, R143: when the bits of a coded block stand at the head of the unconsumed bits, DECBLK reads exactly that
block: DR[k] and CM[k][1..63] get its values, RES is 0, the block's bits are consumed, and no other byte of RAM changes.
So it does for every coding R140 accepts, and not only the encoder's: any ZRLs and values that bring j to exactly 64, or
any followed by EOB. -/
def Obligations.DecblkDecodesACodedBlock : Prop :=
  ∀ (dcs acs comp : Nat) (eosok : Bool) (s : State) (v : Int),
    dcs ≤ 5 → acs ≤ 5 → (slotOf s dcs).valid = true → (slotOf s acs).valid = true →
    TableOk (slotOf s dcs) → TableOk (slotOf s acs) → BlockOk s comp → LengthsOk s → ReaderOk s.rd →
    (∀ l : List Int, l.length = 63 → Codable (slotOf s dcs) (slotOf s acs) v l →
      blockBits (slotOf s dcs) (slotOf s acs) v l <+: streamOf s →
      ∃ r m, exec (.decblk dcs acs comp eosok) s =
          .next { s with rd := r, mem := m, res := 0, done := true, doneP := true, inFlight := none } ∧
        drOf s.cfg m comp (arg0Nat s) = v ∧ acList s.cfg m comp (arg0Nat s) = l ∧
        stream m s.inLen.toNat r = (streamOf s).drop (blockBits (slotOf s dcs) (slotOf s acs) v l).length ∧
        ReaderOk r ∧
        (∀ a, ¬ inHalf (drAddr s.cfg comp (arg0Nat s)) a →
          (∀ p, 1 ≤ p → p ≤ 63 → ¬ inHalf (cmAddr s.cfg comp (arg0Nat s) p) a) → memRead m a = memRead s.mem a)) ∧
    (∀ (items eob : List (Byte × Int)) (j : Nat),
      acWalk 1 items = some j → (j = 64 ∧ eob = [] ∨ j ≤ 63 ∧ eob = [(0x00, 0)]) →
      ItemOk (slotOf s dcs) (dcItem v) → (∀ x ∈ items ++ eob, ItemOk (slotOf s acs) x) →
      codedBits (slotOf s dcs) (slotOf s acs) v (items ++ eob) <+: streamOf s →
      ∃ r m, exec (.decblk dcs acs comp eosok) s =
          .next { s with rd := r, mem := m, res := 0, done := true, doneP := true, inFlight := none } ∧
        drOf s.cfg m comp (arg0Nat s) = v ∧
        (∀ p, 1 ≤ p → p ≤ 63 → cmOf s.cfg m comp (arg0Nat s) p = acPlaced 1 items p) ∧
        stream m s.inLen.toNat r =
          (streamOf s).drop (codedBits (slotOf s dcs) (slotOf s acs) v (items ++ eob)).length ∧
        ReaderOk r ∧
        (∀ a, ¬ inHalf (drAddr s.cfg comp (arg0Nat s)) a →
          (∀ p, 1 ≤ p → p ≤ 63 → ¬ inHalf (cmAddr s.cfg comp (arg0Nat s) p) a) → memRead m a = memRead s.mem a))

/-- R113, R140, R142: when no DC code stands at the head of the unconsumed bits, DECBLK ends at end of scan if eosok is
set and at most 7 bits remain, all ones: RES is 1, EOS is set, and nothing is written; otherwise it raises HUFF_MISS with
the DC slot as info. When the code there is of a symbol above 15, it raises DC_CAT with the symbol, and when the bits end
inside the DC value, RD_EOD with RD_PTR. Past a DC value and AC items that leave j at most 63: HUFF_MISS with the AC slot
when no AC code stands next; AC_RUN with (j << 8) | symbol for a symbol (r, 0) with r in 1..14, for a ZRL that brings j
above 64 and for a run that brings j above 63, j as they leave it; RD_EOD with RD_PTR when the bits end inside a value. That
the DC faults leave RAM, and RD_EOD leaves RD_PTR, as the command had them at the fault is the model's choice, log entry
4. -/
def Obligations.DecblkMissIsEndOfScanOrFault : Prop :=
  ∀ (dcs acs comp : Nat) (eosok : Bool) (s : State),
    dcs ≤ 5 → acs ≤ 5 → (slotOf s dcs).valid = true → (slotOf s acs).valid = true → TableOk (slotOf s dcs) →
    BlockOk s comp → ReaderOk s.rd → s.recorded = none →
    (NoCodeAhead (slotOf s dcs) (streamOf s) → eosok = true → OnesPadding (streamOf s) →
      ∃ r, exec (.decblk dcs acs comp eosok) s = .next { s with rd := r, res := 1, eos := true, done := true,
                                                                doneP := true, inFlight := none } ∧ r.eod = true) ∧
    (NoCodeAhead (slotOf s dcs) (streamOf s) → ¬ (eosok = true ∧ OnesPadding (streamOf s)) →
      ∃ t, exec (.decblk dcs acs comp eosok) s = .next t ∧ t.recorded = some ⟨.huffMiss, word dcs⟩ ∧
        t.faultP = true ∧ t.mem = s.mem ∧ t.done = s.done ∧ t.inFlight = none) ∧
    (∀ x ∈ registered (slotOf s dcs), codeBits (slotOf s dcs) x <+: streamOf s → 15 < x.toNat →
      ∃ t, exec (.decblk dcs acs comp eosok) s = .next t ∧ t.recorded = some ⟨.dcCat, x.setWidth 32⟩ ∧
        t.faultP = true ∧ t.mem = s.mem ∧ t.done = s.done ∧ t.inFlight = none) ∧
    (∀ (x : Byte) (rest : List Bool), x ∈ registered (slotOf s dcs) → x.toNat ≤ 15 →
      streamOf s = codeBits (slotOf s dcs) x ++ rest → rest.length < x.toNat →
      ∃ t, exec (.decblk dcs acs comp eosok) s = .next t ∧ t.recorded = some ⟨.rdEod, t.rd.ptr⟩ ∧
        t.faultP = true ∧ t.mem = s.mem ∧ t.done = s.done ∧ t.inFlight = none) ∧
    (∀ (v : Int) (items : List (Byte × Int)) (j : Nat) (rest : List Bool),
      TableOk (slotOf s acs) → LengthsOk s → acWalk 1 items = some j → j ≤ 63 →
      ItemOk (slotOf s dcs) (dcItem v) → (∀ x ∈ items, ItemOk (slotOf s acs) x) →
      streamOf s = codedBits (slotOf s dcs) (slotOf s acs) v items ++ rest →
      (NoCodeAhead (slotOf s acs) rest →
        ∃ t, exec (.decblk dcs acs comp eosok) s = .next t ∧ t.recorded = some ⟨.huffMiss, word acs⟩ ∧
          t.faultP = true ∧ t.done = s.done ∧ t.inFlight = none) ∧
      ∀ x ∈ registered (slotOf s acs), codeBits (slotOf s acs) x <+: rest →
        (symCat x = 0 → 1 ≤ symRun x → symRun x ≤ 14 →
          ∃ t, exec (.decblk dcs acs comp eosok) s = .next t ∧ t.recorded = some ⟨.acRun, word (j * 256 + x.toNat)⟩ ∧
            t.faultP = true ∧ t.done = s.done ∧ t.inFlight = none) ∧
        (x = 0xF0 → 64 < j + 16 →
          ∃ t, exec (.decblk dcs acs comp eosok) s = .next t ∧
            t.recorded = some ⟨.acRun, word ((j + 16) * 256 + 0xF0)⟩ ∧
            t.faultP = true ∧ t.done = s.done ∧ t.inFlight = none) ∧
        (symCat x ≠ 0 → 63 < j + symRun x →
          ∃ t, exec (.decblk dcs acs comp eosok) s = .next t ∧
            t.recorded = some ⟨.acRun, word ((j + symRun x) * 256 + x.toNat)⟩ ∧
            t.faultP = true ∧ t.done = s.done ∧ t.inFlight = none) ∧
        (symCat x ≠ 0 → j + symRun x ≤ 63 → rest.length < lenAt (slotOf s acs) x + symCat x →
          ∃ t, exec (.decblk dcs acs comp eosok) s = .next t ∧ t.recorded = some ⟨.rdEod, t.rd.ptr⟩ ∧
            t.faultP = true ∧ t.done = s.done ∧ t.inFlight = none))

/-- R141, R142: ENCBLK of a block for whose symbols the tables have codes appends exactly the block's bits, when OUT_LEN
leaves room, and sets RES to 0. -/
def Obligations.EncblkAppendsTheCodedBlock : Prop :=
  ∀ (dcs acs comp : Nat) (s : State) (v : Int) (l : List Int),
    dcs ≤ 5 → acs ≤ 5 → (slotOf s dcs).valid = true → (slotOf s acs).valid = true → BlockOk s comp → LengthsOk s →
    WriterOk s.wr → v = drOf s.cfg s.mem comp (arg0Nat s) → l = acList s.cfg s.mem comp (arg0Nat s) →
    Codable (slotOf s dcs) (slotOf s acs) v l → HasRoom s (blockBits (slotOf s dcs) (slotOf s acs) v l) →
    ∃ w m, exec (.encblk dcs acs comp) s =
        .next { s with wr := w, mem := m, res := 0, done := true, doneP := true, inFlight := none } ∧
      Appended s.wr s.mem (blockBits (slotOf s dcs) (slotOf s acs) v l) w m

/-! ### Predictor -/

/-- R160, R161: the neighbours are the blocks one column to the left and one row above in the component's grid of blocks,
none at its left column and its top row; both come before the block in its scan. -/
def Obligations.NeighboursAreTheGridNeighbours : Prop :=
  ∀ mx comp k : Nat, 1 ≤ mx →
    gridBlock mx comp (gridX mx comp k) (gridY mx comp k) = k ∧
    leftOf mx comp k = (if gridX mx comp k = 0 then none
      else some (gridBlock mx comp (gridX mx comp k - 1) (gridY mx comp k))) ∧
    aboveOf mx comp k = (if gridY mx comp k = 0 then none
      else some (gridBlock mx comp (gridX mx comp k) (gridY mx comp k - 1))) ∧
    (∀ l, leftOf mx comp k = some l → l < k) ∧ (∀ a, aboveOf mx comp k = some a → a < k)

/-- R163 to R167: BQ holds round_half_up(8192·C(v)·cos((2y+1)vπ/16)); ZZ_TO_NAT walks the diagonals from natural index 0,
and ZZ is its inverse; S is 0 for the DC term and coefficient times quantisation step, at one zigzag position, for the
others, with table 0 for Y and 1 for Cb and Cr; the column estimate is the sum of BQ[y][v]·BQ[x0][u]·S(v, u), the same
number as the row estimate of that pixel, below 2^58 in magnitude. D has eight entries for each neighbour, the left one's
first: the block's column 0 less the left neighbour's column 7, and its row 0 less the above neighbour's row 7. -/
def Obligations.EdgeEstimatesAgreeOnAPixel : Prop :=
  (∀ y v : Nat, y < 8 → v < 8 →
    bq y v = ⌊(8192 * (if v = 0 then 1 / √2 else 1) * Real.cos ((2 * y + 1) * v * Real.pi / 16) + 1 / 2 : ℝ)⌋) ∧
  (zzToNat 0 = 0 ∧ (∀ p, p < 63 → zzToNat (p + 1) = zigzagNext (zzToNat p)) ∧
    (∀ p, p < 64 → zz (zzToNat p) = p) ∧ (∀ n, n < 64 → zzToNat (zz n) = n)) ∧
  (∀ (c : Config) (m : Memory) (comp x : Nat), dequantised c m comp x 0 0 = 0 ∧
    ∀ p, 1 ≤ p → p < 64 →
      dequantised c m comp x (zzToNat p / 8) (zzToNat p % 8) =
        cmOf c m comp x p * qtOf m (if comp = 0 then 0 else 1) p) ∧
  (∀ (c : Config) (m : Memory) (comp x x0 y : Nat),
    eCol c m comp x x0 y =
      ∑ v ∈ Finset.range 8, ∑ u ∈ Finset.range 8, bq y v * bq x0 u * dequantised c m comp x v u ∧
    eCol c m comp x x0 y = eRow c m comp x y x0 ∧ (eCol c m comp x x0 y).natAbs < 2 ^ 58) ∧
  (∀ (c : Config) (m : Memory) (mx comp k : Nat),
    (discontinuity c m mx comp k).length =
      (if leftOf mx comp k = none then 0 else 8) + (if aboveOf mx comp k = none then 0 else 8) ∧
    (∀ l y, leftOf mx comp k = some l → y < 8 →
      (discontinuity c m mx comp k).getD y 0 = eCol c m comp k 0 y - eCol c m comp l 7 y) ∧
    (∀ a x, aboveOf mx comp k = some a → x < 8 →
      (discontinuity c m mx comp k).getD ((if leftOf mx comp k = none then 0 else 8) + x) 0 =
        eRow c m comp k 0 x - eRow c m comp a 7 x))

/-- R168: for the 8 or 16 entries of D, M is D without its 3 least and 3 greatest entries per 8, and delta is
round_half_up(-8·(T/m)/2^28/q), T the sum of M and m its length. -/
def Obligations.DeltaIsTheRoundedTrimmedMean : Prop :=
  ∀ (d : List Int) (q : Nat), (d.length = 8 ∨ d.length = 16) → 1 ≤ q →
    (∃ lo hi : List Int, (lo ++ trimmed d ++ hi).Perm d ∧ lo.length = 3 * (d.length / 8) ∧
      hi.length = 3 * (d.length / 8) ∧ (∀ x ∈ lo, ∀ y ∈ trimmed d, x ≤ y) ∧ (∀ y ∈ trimmed d, ∀ z ∈ hi, y ≤ z)) ∧
    dcDelta d q =
      ⌊(-8 * (((trimmed d).sum : ℚ) / ((trimmed d).length : ℚ)) / 2 ^ 28 / (q : ℚ) + 1 / 2 : ℚ)⌋

/-- R170: DPCMDEC over a range whose running sums of residuals fit s16 puts the sums in CM[·][0] and changes no other byte
of RAM; otherwise it raises PRED_RANGE with the first block whose sum does not fit. -/
def Obligations.DpcmdecReconstructsRunningSums : Prop :=
  ∀ (comp : Nat) (s : State), RangeOk s comp → s.cfg.legal →
    ((∀ k, inRange s k → fitsHalf (residualSum s comp k) = true) →
      ∃ m, exec (.dpcmdec comp) s = .next { s with mem := m, done := true, doneP := true, inFlight := none } ∧
        (∀ k, inRange s k → cmOf s.cfg m comp k 0 = residualSum s comp k) ∧ SameButDc s comp s.mem m) ∧
    (∀ k, s.recorded = none → inRange s k → fitsHalf (residualSum s comp k) = false →
      (∀ j, inRange s j → j < k → fitsHalf (residualSum s comp j) = true) →
      ∃ t, exec (.dpcmdec comp) s = .next t ∧ t.recorded = some ⟨.predRange, word k⟩ ∧ t.faultP = true)

/-- R171: DPCMENC over a range whose differences are within ±32767 puts them in DR and changes no other byte of RAM;
otherwise it raises PRED_RANGE with the first block whose difference is not. -/
def Obligations.DpcmencStoresDifferences : Prop :=
  ∀ (comp : Nat) (s : State), RangeOk s comp → s.cfg.legal →
    ((∀ k, inRange s k → fitsResidual (dcDifference s comp k) = true) →
      ∃ m, exec (.dpcmenc comp) s = .next { s with mem := m, done := true, doneP := true, inFlight := none } ∧
        (∀ k, inRange s k → drOf s.cfg m comp k = dcDifference s comp k) ∧
        (∀ a, (∀ k, inRange s k → ¬ inHalf (drAddr s.cfg comp k) a) → memRead m a = memRead s.mem a)) ∧
    (∀ k, s.recorded = none → inRange s k → fitsResidual (dcDifference s comp k) = false →
      (∀ j, inRange s j → j < k → fitsResidual (dcDifference s comp j) = true) →
      ∃ t, exec (.dpcmenc comp) s = .next t ∧ t.recorded = some ⟨.predRange, word k⟩ ∧ t.faultP = true)

/-- R169, R172: with a DC quantisation step that is not 0, SPPRED returns the prediction of the block and writes nothing
else. The prediction is 0 for a block with no neighbour, and else ref + delta: ref is the DC of the one neighbour or the
floor average of the DCs of the two, delta that of DeltaIsTheRoundedTrimmedMean on the D of EdgeEstimatesAgreeOnAPixel and
the step QT[t][0], t = 0 for Y and 1 for Cb and Cr. It always fits s32, so that R172's PRED_RANGE arises on no state. A step
of 0 raises QZERO with the component, neighbours or not. That this fault leaves RES as it was is the model's choice, log
entry 4. -/
def Obligations.SppredReturnsThePrediction : Prop :=
  (∀ (comp : Nat) (s : State), BlockOk s comp →
    (dcStep s comp ≠ 0 →
      fitsWord (prediction s.cfg s.mem (mcux s) comp (arg0Nat s)) = true ∧
      ∃ v, exec (.sppred comp) s = .next { s with res := v, done := true, doneP := true, inFlight := none } ∧
        v.toInt = prediction s.cfg s.mem (mcux s) comp (arg0Nat s) ∧
        (gridX (mcux s) comp (arg0Nat s) = 0 → gridY (mcux s) comp (arg0Nat s) = 0 → v = 0)) ∧
    (dcStep s comp = 0 → s.recorded = none →
      exec (.sppred comp) s =
        .next { s with recorded := some ⟨.qzero, word comp⟩, faultP := true, inFlight := none }) ∧
    dcStep s comp = qtOf s.mem (if comp = 0 then 0 else 1) 0) ∧
  (∀ (c : Config) (m : Memory) (mx comp k : Nat) (delta : Int),
    delta = dcDelta (discontinuity c m mx comp k) (qtOf m (if comp = 0 then 0 else 1) 0) →
    (leftOf mx comp k = none → aboveOf mx comp k = none → prediction c m mx comp k = 0) ∧
    (∀ l, leftOf mx comp k = some l → aboveOf mx comp k = none →
      prediction c m mx comp k = cmOf c m comp l 0 + delta) ∧
    (∀ a, leftOf mx comp k = none → aboveOf mx comp k = some a →
      prediction c m mx comp k = cmOf c m comp a 0 + delta) ∧
    (∀ l a, leftOf mx comp k = some l → aboveOf mx comp k = some a →
      prediction c m mx comp k = ⌊((cmOf c m comp l 0 + cmOf c m comp a 0 : ℚ) / 2)⌋ + delta))

/-- R173, R205, R214: SPDEC ends with the DCs that satisfy `DC[k] = DR[k] + Pred(k)` where every Pred reads the final,
reconstructed neighbours: any memory that differs from RAM in the range's DCs only and satisfies the equations is what
SPDEC leaves. When the equations can be met up to a block whose sum does not fit s16, it raises PRED_RANGE with that
block; a DC quantisation step of 0 raises QZERO with the component. With count 0, whatever the step, it ends normally and
writes nothing. That QZERO leaves CM as it was is the model's choice, log entry 4. -/
def Obligations.SpdecReconstructsFromFinalNeighbours : Prop :=
  ∀ (comp : Nat) (s : State), RangeOk s comp → s.cfg.legal →
    (∀ m' : Memory, dcStep s comp ≠ 0 → SameButDc s comp s.mem m' →
      (∀ k, inRange s k →
        cmOf s.cfg m' comp k 0 = drOf s.cfg s.mem comp k + prediction s.cfg m' (mcux s) comp k) →
      ∃ m, exec (.spdec comp) s = .next { s with mem := m, done := true, doneP := true, inFlight := none } ∧
        ∀ a, memRead m a = memRead m' a) ∧
    (∀ (m' : Memory) (k : Nat), dcStep s comp ≠ 0 → s.recorded = none → SameButDc s comp s.mem m' → inRange s k →
      (∀ j, inRange s j → j < k →
        cmOf s.cfg m' comp j 0 = drOf s.cfg s.mem comp j + prediction s.cfg m' (mcux s) comp j) →
      fitsHalf (drOf s.cfg s.mem comp k + prediction s.cfg m' (mcux s) comp k) = false →
      ∃ t, exec (.spdec comp) s = .next t ∧ t.recorded = some ⟨.predRange, word k⟩ ∧ t.faultP = true) ∧
    (dcStep s comp = 0 → 0 < arg1Nat s → s.recorded = none →
      exec (.spdec comp) s =
        .next { s with recorded := some ⟨.qzero, word comp⟩, faultP := true, inFlight := none }) ∧
    (arg1Nat s = 0 →
      exec (.spdec comp) s = .next { s with done := true, doneP := true, inFlight := none })

/-- R174, R205: SPENC over a range whose residuals are within ±32767 puts `CM[k][0] - Pred(k)` in DR and changes no other
byte of RAM; otherwise it raises PRED_RANGE with the last block of the range whose residual is not. A DC quantisation
step of 0 raises QZERO with the component. With count 0, whatever the step, it ends normally and writes nothing. That
QZERO leaves DR as it was is the model's choice, log entry 4. -/
def Obligations.SpencStoresResiduals : Prop :=
  ∀ (comp : Nat) (s : State), RangeOk s comp → s.cfg.legal →
    (dcStep s comp ≠ 0 → (∀ k, inRange s k → fitsResidual (spatialResidual s comp k) = true) →
      ∃ m, exec (.spenc comp) s = .next { s with mem := m, done := true, doneP := true, inFlight := none } ∧
        (∀ k, inRange s k → drOf s.cfg m comp k = spatialResidual s comp k) ∧
        (∀ a, (∀ k, inRange s k → ¬ inHalf (drAddr s.cfg comp k) a) → memRead m a = memRead s.mem a)) ∧
    (∀ k, dcStep s comp ≠ 0 → s.recorded = none → inRange s k → fitsResidual (spatialResidual s comp k) = false →
      (∀ j, inRange s j → k < j → fitsResidual (spatialResidual s comp j) = true) →
      ∃ t, exec (.spenc comp) s = .next t ∧ t.recorded = some ⟨.predRange, word k⟩ ∧ t.faultP = true) ∧
    (dcStep s comp = 0 → 0 < arg1Nat s → s.recorded = none →
      exec (.spenc comp) s =
        .next { s with recorded := some ⟨.qzero, word comp⟩, faultP := true, inFlight := none }) ∧
    (arg1Nat s = 0 →
      exec (.spenc comp) s = .next { s with done := true, doneP := true, inFlight := none })

/-- R175: after SPENC (or DPCMENC) of a range succeeds, SPDEC (or DPCMDEC) of the same range, with any values put in the
range's DCs in between, succeeds and restores every DC to its value before the encoding. -/
def Obligations.PredictorRoundTrip : Prop :=
  ∀ (comp : Nat) (s t : State) (m : Memory) (enc dec : Instr),
    (enc = .spenc comp ∧ dec = .spdec comp ∨ enc = .dpcmenc comp ∧ dec = .dpcmdec comp) →
    s.cfg.legal → exec enc s = .next t → t.recorded = none → SameButDc s comp t.mem m →
    ∃ m', exec dec { t with mem := m } = .next { t with mem := m' } ∧
      (∀ k, inRange s k → cmOf s.cfg m' comp k 0 = cmOf s.cfg s.mem comp k 0) ∧
      ∀ a, memRead m' a = memRead t.mem a

/-- R162, R169: the prediction has no hidden state: what SPPRED returns or raises depends only on QT, GEOM, ARG0 and the
coefficients of the block and of its neighbours. After QZERO, RES is equal because the fault leaves it as it was, which is
the model's choice, log entry 4. -/
def Obligations.SppredDependsOnlyOnItsBlocks : Prop :=
  ∀ (comp : Nat) (s s' t t' : State),
    s'.cfg = s.cfg → s'.geom = s.geom → s'.arg0 = s.arg0 → s'.res = s.res → s'.recorded = s.recorded →
    (∀ p, p < 64 → qtOf s'.mem (qtIndex comp) p = qtOf s.mem (qtIndex comp) p) →
    (∀ k, (k = arg0Nat s ∨ leftOf (mcux s) comp (arg0Nat s) = some k ∨ aboveOf (mcux s) comp (arg0Nat s) = some k) →
      ∀ p, p < 64 → cmOf s.cfg s'.mem comp k p = cmOf s.cfg s.mem comp k p) →
    exec (.sppred comp) s = .next t → exec (.sppred comp) s' = .next t' →
    t'.res = t.res ∧ t'.recorded = t.recorded

/-! ### Invariants -/

/-- R27, R52, R54, R64: every step keeps the lengths within the capacities and RAM canonical and within storage. -/
def Obligations.MemoryInvKeptByStep : Prop :=
  ∀ s t : State, MemoryInv s → step s = .next t → MemoryInv t

/-- R29, R30: every step keeps the reader's and the writer's invariant, while no fault is recorded. -/
def Obligations.CursorInvKeptByStep : Prop :=
  ∀ s t : State, CursorInv s → step s = .next t → CursorInv t

/-- R22, R191, R202: every step keeps the flag invariant: BUSY excludes DONE, EOS and FAULT; FAULT excludes DONE and EOS;
EOS comes with DONE. -/
def Obligations.FlagInvKeptByStep : Prop :=
  ∀ s t : State, FlagInv s → step s = .next t → FlagInv t

/-- R31, R91: every step keeps the table invariant: while no fault is recorded, every valid slot holds a built,
prefix-free table. -/
def Obligations.TableInvKeptByStep : Prop :=
  ∀ s t : State, TableInv s → step s = .next t → TableInv t

/-- R40, R210: right after power-on the four invariants hold and the registers read as R210 gives them, whatever the
(legal) capacities. Asserting the reset input later, with no command in flight, sets the same registers and invalidates
the slots. ID and the three capability registers read their constants in every state. That memory lists nothing after
power-on is the model's choice, log entry 1; that the host's list is kept, log entry 10. -/
def Obligations.InvariantsHoldAtReset : Prop :=
  (∀ c : Config, c.legal →
    MemoryInv (State.resetWith c) ∧ CursorInv (State.resetWith c) ∧ FlagInv (State.resetWith c) ∧
    TableInv (State.resetWith c) ∧ RegistersReset (State.resetWith c)) ∧
  (∀ (s : State) (rest : List HostEvent), s.inFlight = none → s.host = .hardReset :: rest →
    ∃ t, step s = .next t ∧ RegistersReset t ∧ t.inFlight = none ∧ t.recorded = none ∧ t.rd = Reader.atReset ∧
      t.wr = Writer.atReset ∧ (∀ n, n ≤ 5 → (slotOf t n).valid = false) ∧ t.cfg = s.cfg ∧ t.host = rest) ∧
  (∀ s : State, busRead s 0x048 = 0x48434A31 ∧ busRead s 0x04C = word s.cfg.maxMcus ∧
    busRead s 0x050 = word s.cfg.inCap ∧ busRead s 0x054 = word s.cfg.outCap)

/-! ### The host's side -/

/-- R54: a host read of an address that no register or window entry occupies returns 0 and a host write there is
ignored; no fault is raised. -/
def Obligations.UnmappedAddressesReadZero : Prop :=
  ∀ (s : State) (addr v : Word), ¬ Occupied s.cfg (wordAddr addr) →
    hostAccess (.read addr) s = { s with busData := 0 } ∧ hostAccess (.write addr v) s = s

/-- R20, R22 to R28, R30, R33, R51 to R57: a host read returns the register it addresses, field by field (RegistersRead), or
the window entry in its format (WindowsRead); a step performs it when no command is in flight, and it changes nothing else.
A host write to a register stores the fields its rule defines and changes nothing else:
ARG0, ARG1 and GEOM whole, IN_LEN and OUT_LEN at most the capacity, the two enables of a CTRL write without SRST, and an IRQ
write clears the pending bits written 1; what is stored reads back; a write to a register marked R or to a reserved offset
changes nothing, and CMD reads 0. A host write to a window entry stores the entry's format, reads back in it, and changes
no other word of RAM, no byte past a capacity and no register. A step performs such a write when no command is in flight. -/
def Obligations.HostWritesReachTheArrays : Prop :=
  (∀ s : State, RegistersRead s ∧ (s.cfg.legal → WindowsRead s)) ∧
  (∀ (s : State) (addr : Word) (ev : HostEvent) (rest : List HostEvent),
    s.inFlight = none → s.host = ev :: rest → (ev = .access (.read addr) ∨ ev = .early (.read addr)) →
    step s = .next { s with host := rest, busData := busRead s addr }) ∧
  (∀ (s : State) (addr v : Word) (ev : HostEvent) (rest : List HostEvent),
    s.inFlight = none → s.host = ev :: rest → (ev = .access (.write addr v) ∨ ev = .early (.write addr v)) →
    wordAddr addr ≠ 0x000 → ¬ (wordAddr addr = 0x01C ∧ v.getLsbD 0 = true) →
    step s = .next (hostAccess (.write addr v) { s with host := rest })) ∧
  (∀ (s t : State) (addr v : Word), t = hostAccess (.write addr v) s →
    (wordAddr addr = 0x004 → t = { s with arg0 := v } ∧ busRead t addr = v) ∧
    (wordAddr addr = 0x008 → t = { s with arg1 := v } ∧ busRead t addr = v) ∧
    (wordAddr addr = 0x024 → t = { s with geom := v } ∧ busRead t addr = v) ∧
    (wordAddr addr = 0x028 → s.cfg.legal →
      t = { s with inLen := t.inLen } ∧ t.inLen.toNat = min v.toNat s.cfg.inCap ∧ busRead t addr = t.inLen) ∧
    (wordAddr addr = 0x02C → s.cfg.legal →
      t = { s with outLen := t.outLen } ∧ t.outLen.toNat = min v.toNat s.cfg.outCap ∧ busRead t addr = t.outLen) ∧
    (wordAddr addr = 0x01C → v.getLsbD 0 = false →
      t = { s with doneIe := v.getLsbD 1, faultIe := v.getLsbD 2 } ∧ busRead t addr = v &&& 0x00000006) ∧
    (wordAddr addr = 0x020 →
      t = { s with doneP := s.doneP && !v.getLsbD 0, faultP := s.faultP && !v.getLsbD 1 } ∧
      busRead t addr = busRead s addr &&& ~~~v) ∧
    (wordAddr addr ∈ ([0x00C, 0x010, 0x014, 0x018, 0x030, 0x034, 0x038, 0x03C, 0x040, 0x044, 0x048, 0x04C, 0x050,
      0x054] : List Nat) ∨ 0x058 ≤ wordAddr addr ∧ wordAddr addr < 0x1000 → t = s) ∧
    (wordAddr addr = 0x000 → busRead s addr = 0)) ∧
  (∀ (s t : State) (addr v : Word), s.cfg.legal → 0x1000 ≤ wordAddr addr → t = hostAccess (.write addr v) s →
    t = { s with mem := t.mem } ∧
      (∀ b, (b < wordAddr addr ∨ wordAddr addr + 4 ≤ b) → memRead t.mem b = memRead s.mem b) ∧
      (∀ j, s.cfg.inCap ≤ j → j < 4194304 → memRead t.mem (inAddr j) = memRead s.mem (inAddr j)) ∧
      (∀ j, s.cfg.outCap ≤ j → j < 4194304 → memRead t.mem (outAddr j) = memRead s.mem (outAddr j)) ∧
      (∀ x p, x < 2 → p < 64 → wordAddr addr = qtAddr x p →
        qtOf t.mem x p = v.toNat % 256 ∧ busRead t addr = word (v.toNat % 256)) ∧
      (∀ n L, n < 6 → 1 ≤ L → L ≤ 16 → wordAddr addr = bitsAddr n L →
        bitsOf t.mem n L = v.toNat % 256 ∧ busRead t addr = word (v.toNat % 256)) ∧
      (∀ n i, n < 6 → i < 256 → wordAddr addr = huffvalAddr n i →
        (huffvalOf t.mem n i).toNat = v.toNat % 256 ∧ busRead t addr = word (v.toNat % 256)) ∧
      (∀ x, x < 256 → wordAddr addr = freqAddr x → freqOf t.mem x = v.toNat ∧ busRead t addr = v) ∧
      (∀ j, j < s.cfg.inCap → wordAddr addr = 4 * (inAddr j / 4) →
        memRead t.mem (inAddr j) = v.extractLsb' (8 * (j % 4)) 8 ∧
        (busRead t addr).extractLsb' (8 * (j % 4)) 8 = v.extractLsb' (8 * (j % 4)) 8) ∧
      (∀ j, j < s.cfg.outCap → wordAddr addr = 4 * (outAddr j / 4) →
        memRead t.mem (outAddr j) = v.extractLsb' (8 * (j % 4)) 8 ∧
        (busRead t addr).extractLsb' (8 * (j % 4)) 8 = v.extractLsb' (8 * (j % 4)) 8) ∧
      (∀ comp k p, comp < 3 → k < blockCapacity s.cfg comp → p < 64 → wordAddr addr = cmAddr s.cfg comp k p →
        cmOf s.cfg t.mem comp k p = (v.setWidth 16).toInt ∧ busRead t addr = (v.setWidth 16).signExtend 32) ∧
      (∀ comp k, comp < 3 → k < blockCapacity s.cfg comp → wordAddr addr = drAddr s.cfg comp k →
        drOf s.cfg t.mem comp k = (v.setWidth 16).toInt ∧ busRead t addr = (v.setWidth 16).signExtend 32))

/-- R58, R200, R201: an access that arrives while a command is in flight, other than a read of STATUS, FAULT, FAULT_INFO
or IRQ or a soft reset, records HOST_BUSY and ends the command; a write is dropped: the registers the host can write keep
their values, and so do the bytes of RAM, the slots, the cursors and RES that the command could not write. Those four reads
return their register and leave the command in flight and everything else as it was. That the access comes before the
command's effects is log entry 6's choice, that the info word is the address as the host gives it log entry 7's, and that
the command ends there with DONE as it was log entry 19's reading. -/
def Obligations.AccessWhileBusyIsHostBusy : Prop :=
  ∀ (s : State) (w addr : Word) (a : Access) (rest : List HostEvent),
    s.inFlight = some w → s.host = .early a :: rest →
    (∀ v : Word, s.recorded = none →
      (a = .read addr ∧ wordAddr addr ≠ 0x010 ∧ wordAddr addr ≠ 0x014 ∧ wordAddr addr ≠ 0x018 ∧ wordAddr addr ≠ 0x020 ∨
        a = .write addr v ∧ ¬ (wordAddr addr = 0x01C ∧ v.getLsbD 0 = true)) →
      ∃ t, step s = .next t ∧ t.recorded = some ⟨.hostBusy, addr⟩ ∧ t.faultP = true ∧ t.inFlight = none ∧
        t.done = s.done ∧ t.host = rest ∧ t.arg0 = s.arg0 ∧ t.arg1 = s.arg1 ∧ t.geom = s.geom ∧ t.inLen = s.inLen ∧
        t.outLen = s.outLen ∧ t.doneIe = s.doneIe ∧ t.faultIe = s.faultIe ∧ t.doneP = s.doneP ∧ t.cfg = s.cfg ∧
        AbandonKeeps w s t ∧ (a = .write addr v → t.busData = s.busData)) ∧
    (a = .read addr → wordAddr addr ∈ ([0x010, 0x014, 0x018, 0x020] : List Nat) →
      step s = .next { s with host := rest, busData := busRead s addr })

/-- R211: a host write to CTRL with bit 0 set, in the fault state or not, with a command in flight or not, puts every
register, cursor and slot in its reset state and keeps GEOM, IN_LEN and OUT_LEN; RAM is kept, but for the bytes that a
command in flight could write. -/
def Obligations.SoftResetSetsTheBlock : Prop :=
  ∀ (s : State) (addr v : Word) (ev : HostEvent) (rest : List HostEvent),
    s.host = ev :: rest → wordAddr addr = 0x01C → v.getLsbD 0 = true →
    (ev = .early (.write addr v) ∨ s.inFlight = none ∧ ev = .access (.write addr v)) →
    ∃ t, step s = .next t ∧ t.arg0 = 0 ∧ t.arg1 = 0 ∧ t.res = 0 ∧ busRead t 0x010 = 0x00000010 ∧ t.recorded = none ∧
      t.doneIe = false ∧ t.faultIe = false ∧ t.doneP = false ∧ t.faultP = false ∧ t.rd = Reader.atReset ∧
      t.wr = Writer.atReset ∧ (∀ n, n ≤ 5 → (slotOf t n).valid = false) ∧ t.geom = s.geom ∧ t.inLen = s.inLen ∧
      t.outLen = s.outLen ∧ t.cfg = s.cfg ∧ t.host = rest ∧ (s.inFlight = none → t.mem = s.mem) ∧
      (∀ w i, s.inFlight = some w → decode w = .ok i →
        ∀ a, ¬ writesByte i s a → memRead t.mem a = memRead s.mem a) ∧
      (∀ w e, s.inFlight = some w → decode w = .error e → t.mem = s.mem)
end

