-- ==== Sys2Proof/Laws/Basis.lean ====
section
/-! SUPPORT. The cosines behind the basis of 43_predictor.md R165, each between two decimals that round alike: what its
formula needs to be compared with its table. -/

namespace Sys2Proof.Machine

open Real

theorem between_of_sq {a lo hi : ℝ} (ha : 0 < a) (hh : 0 < hi) (h1 : lo ^ 2 < a ^ 2) (h2 : a ^ 2 < hi ^ 2) :
    lo < a ∧ a < hi :=
  ⟨lt_of_pow_lt_pow_left₀ 2 ha.le h1, lt_of_pow_lt_pow_left₀ 2 hh.le h2⟩

/-- The cosine of `k` thirty-seconds of a turn. -/
noncomputable def cosTurn (k : ℕ) : ℝ := cos (k * π / 16)

theorem cosTurn_pos {k : ℕ} (h : k < 8) : 0 < cosTurn k := by
  have hk : (k : ℝ) < 8 := by exact_mod_cast h
  have h0 : (0 : ℝ) ≤ k := Nat.cast_nonneg k
  exact cos_pos_of_mem_Ioo ⟨by nlinarith [pi_pos], by nlinarith [pi_pos]⟩

theorem cosTurn_sq (k : ℕ) : cosTurn k ^ 2 = (1 + cosTurn (2 * k)) / 2 := by
  unfold cosTurn; rw [cos_sq]; push_cast; ring_nf

@[simp] theorem cosTurn_zero : cosTurn 0 = 1 := by simp [cosTurn]

@[simp] theorem cosTurn_eight : cosTurn 8 = 0 := by
  unfold cosTurn; rw [show ((8 : ℕ) : ℝ) * π / 16 = π / 2 by push_cast; ring, cos_pi_div_two]

/-- The second quarter of the turn mirrors the first. -/
theorem cosTurn_sub {k : ℕ} (h : k ≤ 16) : cosTurn (16 - k) = -cosTurn k := by
  unfold cosTurn; rw [Nat.cast_sub h, ← cos_pi_sub]; congr 1; push_cast; ring

/-- Half a turn on, the sign changes. -/
theorem cosTurn_add_half (k : ℕ) : cosTurn (k + 16) = -cosTurn k := by
  unfold cosTurn; rw [← cos_add_pi]; congr 1; push_cast; ring

theorem cosTurn_4 : 0.707106 < cosTurn 4 ∧ cosTurn 4 < 0.707108 := by
  have h := cosTurn_sq 4
  rw [cosTurn_eight] at h
  exact between_of_sq (cosTurn_pos (by norm_num)) (by norm_num) (by rw [h]; norm_num) (by rw [h]; norm_num)

/-- The cosine of half an angle lies between the bounds whose squares the angle's cosine gives. -/
theorem cosTurn_half {k : ℕ} {lo hi l h : ℝ} (hk : k < 8) (hb : l < cosTurn (2 * k) ∧ cosTurn (2 * k) < h)
    (hh : 0 < hi) (h1 : lo ^ 2 ≤ (1 + l) / 2) (h2 : (1 + h) / 2 ≤ hi ^ 2) : lo < cosTurn k ∧ cosTurn k < hi :=
  between_of_sq (cosTurn_pos hk) hh (by rw [cosTurn_sq]; linarith [hb.1]) (by rw [cosTurn_sq]; linarith [hb.2])

/-- The same past the quarter turn, where the angle's cosine is that of its mirror, negated. -/
theorem cosTurn_half_mirror {k j : ℕ} {lo hi l h : ℝ} (hk : k < 8) (hj : 2 * k = 16 - j) (hj16 : j ≤ 16)
    (hb : l < cosTurn j ∧ cosTurn j < h) (hh : 0 < hi) (h1 : lo ^ 2 ≤ (1 - h) / 2) (h2 : (1 - l) / 2 ≤ hi ^ 2) :
    lo < cosTurn k ∧ cosTurn k < hi := by
  refine cosTurn_half (l := -h) (h := -l) hk ?_ hh (by linarith) (by linarith)
  rw [hj, cosTurn_sub hj16]; exact ⟨by linarith [hb.2], by linarith [hb.1]⟩

theorem cosTurn_2 : 0.923879 < cosTurn 2 ∧ cosTurn 2 < 0.923881 :=
  cosTurn_half (by norm_num) cosTurn_4 (by norm_num) (by norm_num) (by norm_num)

theorem cosTurn_6 : 0.382680 < cosTurn 6 ∧ cosTurn 6 < 0.382688 :=
  cosTurn_half_mirror (j := 4) (by norm_num) rfl (by norm_num) cosTurn_4 (by norm_num) (by norm_num) (by norm_num)

theorem cosTurn_1 : 0.980784 < cosTurn 1 ∧ cosTurn 1 < 0.980787 :=
  cosTurn_half (by norm_num) cosTurn_2 (by norm_num) (by norm_num) (by norm_num)

theorem cosTurn_3 : 0.831465 < cosTurn 3 ∧ cosTurn 3 < 0.831475 :=
  cosTurn_half (by norm_num) cosTurn_6 (by norm_num) (by norm_num) (by norm_num)

theorem cosTurn_5 : 0.555560 < cosTurn 5 ∧ cosTurn 5 < 0.555580 :=
  cosTurn_half_mirror (j := 6) (by norm_num) rfl (by norm_num) cosTurn_6 (by norm_num) (by norm_num) (by norm_num)

theorem cosTurn_7 : 0.195080 < cosTurn 7 ∧ cosTurn 7 < 0.195100 :=
  cosTurn_half_mirror (j := 2) (by norm_num) rfl (by norm_num) cosTurn_2 (by norm_num) (by norm_num) (by norm_num)

end Sys2Proof.Machine
end

