-- ==== Sys2Proof/Laws/Memory.lean ====
section
/-! SUPPORT. What the memory operations do: a read after a write, and that every one keeps the canonical form. -/

namespace Sys2Proof.Machine

/-! ### Reading what was stored -/

theorem memRead_memErase (m : Memory) (a b : Nat) :
    memRead (memErase m a) b = if b = a then unwritten else memRead m b := by
  induction m with
  | nil => simp [memErase, memRead]
  | cons c m ih =>
    obtain ⟨x, v⟩ := c
    have ih' : memRead (List.filter (fun c => c.1 != a) m) b = if b = a then unwritten else memRead m b := ih
    by_cases hx : x = a
    · subst hx
      by_cases hb : x = b
      · subst hb; simp [memErase, ih']
      · simp [memErase, memRead, ih', hb]
    · by_cases hb : x = b
      · subst hb; simp [memErase, memRead, hx]
      · simp [memErase, memRead, ih', hx, hb]

/-- Where nothing is listed at `a`, an insertion there shows at `a` alone. -/
theorem memRead_memInsert (m : Memory) (a : Nat) (v : Byte) (b : Nat) (h : ∀ c ∈ m, c.1 ≠ a) :
    memRead (memInsert m a v) b = if b = a then v else memRead m b := by
  induction m with
  | nil => by_cases hb : a = b <;> simp [memInsert, memRead, hb, eq_comm]
  | cons c m ih =>
    have ha : c.1 ≠ a := h c (by simp)
    have ih' := ih fun d hd => h d (by simp [hd])
    by_cases hc : a < c.1
    · by_cases hb : a = b
      · subst hb; simp [memInsert, memRead, hc]
      · simp [memInsert, memRead, hc, hb, Ne.symm hb]
    · by_cases hb : b = a
      · subst hb; simp [memInsert, memRead, hc, ih', ha]
      · simp [memInsert, memRead, hc, ih', hb]

theorem memErase_absent (m : Memory) (a : Nat) : ∀ c ∈ memErase m a, c.1 ≠ a := by
  intro c hc; simpa [memErase] using (List.mem_filter.mp hc).2

/-- A write shows at its address and nowhere else. -/
@[simp] theorem memRead_memWrite (m : Memory) (a : Nat) (v : Byte) (b : Nat) :
    memRead (memWrite m a v) b = if b = a then v else memRead m b := by
  unfold memWrite
  by_cases hv : v = unwritten
  · rw [if_pos hv, memRead_memErase, hv]
  · rw [if_neg hv, memRead_memInsert _ _ _ _ (memErase_absent m a), memRead_memErase]
    split <;> rfl

theorem memRead_memWrite_same (m : Memory) (a : Nat) (v : Byte) : memRead (memWrite m a v) a = v := by simp

theorem memRead_memWrite_other (m : Memory) {a b : Nat} (v : Byte) (h : b ≠ a) :
    memRead (memWrite m a v) b = memRead m b := by simp [h]

/-- An `s16` store shows at its two bytes and nowhere else. -/
theorem memRead_memWrite16 (m : Memory) (a : Nat) (v : Half) (b : Nat) :
    memRead (memWrite16 m a v) b =
      if b = a + 1 then v.extractLsb' 8 8 else if b = a then v.extractLsb' 0 8 else memRead m b := by
  simp [memWrite16]

theorem memRead_memWrite16_other (m : Memory) {a b : Nat} (v : Half) (h : b < a ∨ a + 2 ≤ b) :
    memRead (memWrite16 m a v) b = memRead m b := by
  rw [memRead_memWrite16, if_neg (by omega), if_neg (by omega)]

/-- An `s16` entry reads back as stored. -/
@[simp] theorem memRead16_memWrite16_same (m : Memory) (a : Nat) (v : Half) : memRead16 (memWrite16 m a v) a = v := by
  unfold memRead16
  rw [memRead_memWrite16, memRead_memWrite16, if_pos rfl, if_neg (by omega), if_pos rfl]
  ext i hi
  simp only [BitVec.getElem_append, BitVec.getElem_extractLsb']
  split
  · simp [BitVec.getLsbD_eq_getElem (show i < 16 by omega)]
  · rw [show 8 + (i - 8) = i by omega]; simp [BitVec.getLsbD_eq_getElem, hi]

theorem memRead16_memWrite16_other (m : Memory) {a b : Nat} (v : Half) (h : b + 2 ≤ a ∨ a + 2 ≤ b) :
    memRead16 (memWrite16 m a v) b = memRead16 m b := by
  unfold memRead16
  rw [memRead_memWrite16_other m v (by omega), memRead_memWrite16_other m v (by omega)]

/-- A `u32` store shows at its four bytes and nowhere else. -/
theorem memRead_memWrite32 (m : Memory) (a : Nat) (v : Word) (b : Nat) :
    memRead (memWrite32 m a v) b =
      if b = a + 3 then v.extractLsb' 24 8 else if b = a + 2 then v.extractLsb' 16 8
      else if b = a + 1 then v.extractLsb' 8 8 else if b = a then v.extractLsb' 0 8 else memRead m b := by
  simp [memWrite32]

theorem memRead_memWrite32_other (m : Memory) {a b : Nat} (v : Word) (h : b < a ∨ a + 4 ≤ b) :
    memRead (memWrite32 m a v) b = memRead m b := by
  rw [memRead_memWrite32, if_neg (by omega), if_neg (by omega), if_neg (by omega), if_neg (by omega)]

theorem word_of_bytes (v : Word) :
    v.extractLsb' 24 8 ++ v.extractLsb' 16 8 ++ v.extractLsb' 8 8 ++ v.extractLsb' 0 8 = v := by
  ext i hi
  simp only [BitVec.getElem_append, BitVec.getElem_extractLsb']
  split
  · simp [BitVec.getLsbD_eq_getElem (show i < 32 by omega)]
  · split
    · rw [show 8 + (i - 8) = i by omega]; simp [BitVec.getLsbD_eq_getElem, hi]
    · split
      · rw [show 16 + (i - 8 - 8) = i by omega]; simp [BitVec.getLsbD_eq_getElem, hi]
      · rw [show 24 + (i - 8 - 8 - 8) = i by omega]; simp [BitVec.getLsbD_eq_getElem, hi]

/-- A `u32` entry reads back as stored. -/
@[simp] theorem memRead32_memWrite32_same (m : Memory) (a : Nat) (v : Word) : memRead32 (memWrite32 m a v) a = v := by
  unfold memRead32
  rw [memRead_memWrite32, memRead_memWrite32, memRead_memWrite32, memRead_memWrite32,
    if_pos rfl, if_neg (by omega), if_pos rfl, if_neg (by omega), if_neg (by omega), if_pos rfl,
    if_neg (by omega), if_neg (by omega), if_neg (by omega), if_pos rfl]
  exact word_of_bytes v

theorem memRead32_memWrite32_other (m : Memory) {a b : Nat} (v : Word) (h : b + 4 ≤ a ∨ a + 4 ≤ b) :
    memRead32 (memWrite32 m a v) b = memRead32 m b := by
  unfold memRead32
  rw [memRead_memWrite32_other m v (by omega), memRead_memWrite32_other m v (by omega),
    memRead_memWrite32_other m v (by omega), memRead_memWrite32_other m v (by omega)]

/-- A stored coefficient in the range of s16 reads back as the same number. -/
theorem cmOf_setCm_same (c : Config) (m : Memory) (comp k p : Nat) {v : Int} (h : -32768 ≤ v ∧ v ≤ 32767) :
    cmOf c (setCm c m comp k p v) comp k p = v := by
  simp only [cmOf, setCm, memRead16_memWrite16_same, BitVec.toInt_ofInt]
  rw [Int.bmod_eq_of_le] <;> omega

/-- A stored residual in the range of s16 reads back as the same number. -/
theorem drOf_setDr_same (c : Config) (m : Memory) (comp k : Nat) {v : Int} (h : -32768 ≤ v ∧ v ≤ 32767) :
    drOf c (setDr c m comp k v) comp k = v := by
  simp only [drOf, setDr, memRead16_memWrite16_same, BitVec.toInt_ofInt]
  rw [Int.bmod_eq_of_le] <;> omega

/-! ### The canonical form -/

theorem wf_memErase {m : Memory} (h : m.wf) (a : Nat) : (memErase m a).wf :=
  ⟨h.1.filter _, fun c hc => h.2 c (List.mem_of_mem_filter hc)⟩

/-- What an insertion lists. -/
theorem mem_memInsert {m : Memory} {a : Nat} {v : Byte} {c : Host.Cell} :
    c ∈ memInsert m a v ↔ c = (a, v) ∨ c ∈ m := by
  induction m with
  | nil => simp [memInsert]
  | cons d m ih =>
    by_cases hd : a < d.1
    · simp [memInsert, hd]
    · simp only [memInsert, if_neg hd, List.mem_cons, ih]; tauto

theorem wf_memInsert {m : Memory} (h : m.wf) {a : Nat} {v : Byte} (ha : ∀ c ∈ m, c.1 ≠ a) (hv : v ≠ unwritten) :
    (memInsert m a v).wf := by
  refine ⟨?_, fun c hc => (mem_memInsert.mp hc).elim (fun e => e ▸ hv) (h.2 c)⟩
  induction m with
  | nil => simp [memInsert]
  | cons d m ih =>
    obtain ⟨hd, hm⟩ := List.pairwise_cons.mp h.1
    by_cases hc : a < d.1
    · simp only [memInsert, if_pos hc]
      refine List.pairwise_cons.mpr ⟨fun c hcm => ?_, h.1⟩
      rcases List.mem_cons.mp hcm with rfl | hcm
      · exact hc
      · exact Nat.lt_trans hc (hd c hcm)
    · simp only [memInsert, if_neg hc]
      refine List.pairwise_cons.mpr ⟨fun c hcm => ?_, ih ⟨hm, fun c hc => h.2 c (by simp [hc])⟩ fun c hc => ha c (by simp [hc])⟩
      rcases mem_memInsert.mp hcm with rfl | hcm
      · have := ha d (by simp); simp only; omega
      · exact hd c hcm

theorem wf_memWrite {m : Memory} (h : m.wf) (a : Nat) (v : Byte) : (memWrite m a v).wf := by
  unfold memWrite; split
  · exact wf_memErase h a
  · next hv => exact wf_memInsert (wf_memErase h a) (memErase_absent m a) hv

theorem wf_memWrite16 {m : Memory} (h : m.wf) (a : Nat) (v : Half) : (memWrite16 m a v).wf :=
  wf_memWrite (wf_memWrite h _ _) _ _

theorem wf_memWrite32 {m : Memory} (h : m.wf) (a : Nat) (v : Word) : (memWrite32 m a v).wf :=
  wf_memWrite (wf_memWrite (wf_memWrite (wf_memWrite h _ _) _ _) _ _) _ _

/-- The memory after power-on is canonical. -/
theorem wf_reset (c : Config) : (State.resetWith c).mem.wf :=
  ⟨List.Pairwise.nil, fun _ h => nomatch h⟩

/-- What a write lists: what was listed, or the byte written. -/
theorem mem_memWrite {m : Memory} {a : Nat} {v : Byte} {c : Host.Cell} (h : c ∈ memWrite m a v) :
    c = (a, v) ∨ c ∈ m := by
  unfold memWrite at h; split at h
  · exact .inr (List.mem_of_mem_filter h)
  · exact (mem_memInsert.mp h).imp id List.mem_of_mem_filter

/-- A property of addresses that every listed byte has, a write to an address that has it keeps. -/
theorem forall_mem_memWrite {P : Nat → Prop} {m : Memory} {a : Nat} {v : Byte} (h : ∀ c ∈ m, P c.1) (ha : P a) :
    ∀ c ∈ memWrite m a v, P c.1 := by
  intro c hc
  rcases mem_memWrite hc with rfl | hc
  · exact ha
  · exact h c hc

/-! ### Equal memories are equal data -/

/-- Two canonical memories that read alike everywhere are the same list. -/
theorem ext_of_wf {m n : Memory} (hm : m.wf) (hn : n.wf) (h : ∀ a, memRead m a = memRead n a) : m = n := by
  have reads : ∀ {l : Memory} (_ : l.Pairwise (fun x y => x.1 < y.1)) {c : Host.Cell}, c ∈ l → memRead l c.1 = c.2 := by
    intro l hl c hc
    induction l with
    | nil => cases hc
    | cons d l ih =>
      obtain ⟨hd, hl⟩ := List.pairwise_cons.mp hl
      rcases List.mem_cons.mp hc with rfl | hc
      · simp [memRead]
      · have := hd c hc; simp [memRead, show d.1 ≠ c.1 by omega, ih hl hc]
  have listed : ∀ {l : Memory} {a : Nat}, memRead l a ≠ unwritten → (a, memRead l a) ∈ l := by
    intro l a ha
    induction l with
    | nil => simp [memRead] at ha
    | cons d l ih =>
      obtain ⟨x, v⟩ := d
      by_cases hx : x = a
      · subst hx; simp [memRead]
      · simp only [memRead, if_neg hx] at ha ⊢; exact List.mem_cons_of_mem _ (ih ha)
  have sub : ∀ {l k : Memory}, l.wf → (∀ a, memRead l a = memRead k a) → ∀ c ∈ l, c ∈ k := by
    intro l k hl hlk c hc
    have hv := reads hl.1 hc
    have hne : memRead k c.1 ≠ unwritten := by rw [← hlk, hv]; exact hl.2 c hc
    have := listed hne; rwa [← hlk, hv] at this
  have nodup : ∀ {l : Memory}, l.wf → l.Nodup := fun hl => hl.1.imp fun {x y} hxy he => by subst he; omega
  exact List.Perm.eq_of_pairwise (le := fun x y : Host.Cell => x.1 < y.1)
    (fun x y _ _ h1 h2 => by omega) hm.1 hn.1
    ((List.perm_ext_iff_of_nodup (nodup hm) (nodup hn)).mpr fun c =>
      ⟨sub hm h c, sub hn (fun a => (h a).symm) c⟩)

end Sys2Proof.Machine
end

