-- ==== Sys2Proof/Laws/State.lean ====
section
/-! SUPPORT. One lemma per field per state update, so that no later proof unfolds a record update. -/

namespace Sys2Proof.Machine

/-! ### The normal end of a command -/

@[simp] theorem commandDone_cfg (s : State) : (commandDone s).cfg = s.cfg := rfl
@[simp] theorem commandDone_arg0 (s : State) : (commandDone s).arg0 = s.arg0 := rfl
@[simp] theorem commandDone_arg1 (s : State) : (commandDone s).arg1 = s.arg1 := rfl
@[simp] theorem commandDone_res (s : State) : (commandDone s).res = s.res := rfl
@[simp] theorem commandDone_inFlight (s : State) : (commandDone s).inFlight = none := rfl
@[simp] theorem commandDone_done (s : State) : (commandDone s).done = true := rfl
@[simp] theorem commandDone_eos (s : State) : (commandDone s).eos = s.eos := rfl
@[simp] theorem commandDone_recorded (s : State) : (commandDone s).recorded = s.recorded := rfl
@[simp] theorem commandDone_doneIe (s : State) : (commandDone s).doneIe = s.doneIe := rfl
@[simp] theorem commandDone_faultIe (s : State) : (commandDone s).faultIe = s.faultIe := rfl
@[simp] theorem commandDone_doneP (s : State) : (commandDone s).doneP = true := rfl
@[simp] theorem commandDone_faultP (s : State) : (commandDone s).faultP = s.faultP := rfl
@[simp] theorem commandDone_geom (s : State) : (commandDone s).geom = s.geom := rfl
@[simp] theorem commandDone_inLen (s : State) : (commandDone s).inLen = s.inLen := rfl
@[simp] theorem commandDone_outLen (s : State) : (commandDone s).outLen = s.outLen := rfl
@[simp] theorem commandDone_rd (s : State) : (commandDone s).rd = s.rd := rfl
@[simp] theorem commandDone_wr (s : State) : (commandDone s).wr = s.wr := rfl
@[simp] theorem commandDone_slots (s : State) : (commandDone s).slots = s.slots := rfl
@[simp] theorem commandDone_mem (s : State) : (commandDone s).mem = s.mem := rfl
@[simp] theorem commandDone_host (s : State) : (commandDone s).host = s.host := rfl
@[simp] theorem commandDone_busData (s : State) : (commandDone s).busData = s.busData := rfl
@[simp] theorem commandDone_freeDraws (s : State) : (commandDone s).freeDraws = s.freeDraws := rfl

/-! ### Fault entry: what it leaves -/

@[simp] theorem recordFault_cfg (code : FaultCode) (info : Word) (s : State) :
    (recordFault code info s).cfg = s.cfg := by
  unfold recordFault; split <;> rfl
@[simp] theorem recordFault_arg0 (code : FaultCode) (info : Word) (s : State) :
    (recordFault code info s).arg0 = s.arg0 := by
  unfold recordFault; split <;> rfl
@[simp] theorem recordFault_arg1 (code : FaultCode) (info : Word) (s : State) :
    (recordFault code info s).arg1 = s.arg1 := by
  unfold recordFault; split <;> rfl
@[simp] theorem recordFault_res (code : FaultCode) (info : Word) (s : State) :
    (recordFault code info s).res = s.res := by
  unfold recordFault; split <;> rfl
@[simp] theorem recordFault_inFlight (code : FaultCode) (info : Word) (s : State) :
    (recordFault code info s).inFlight = s.inFlight := by
  unfold recordFault; split <;> rfl
@[simp] theorem recordFault_done (code : FaultCode) (info : Word) (s : State) :
    (recordFault code info s).done = s.done := by
  unfold recordFault; split <;> rfl
@[simp] theorem recordFault_eos (code : FaultCode) (info : Word) (s : State) :
    (recordFault code info s).eos = s.eos := by
  unfold recordFault; split <;> rfl
@[simp] theorem recordFault_doneIe (code : FaultCode) (info : Word) (s : State) :
    (recordFault code info s).doneIe = s.doneIe := by
  unfold recordFault; split <;> rfl
@[simp] theorem recordFault_faultIe (code : FaultCode) (info : Word) (s : State) :
    (recordFault code info s).faultIe = s.faultIe := by
  unfold recordFault; split <;> rfl
@[simp] theorem recordFault_doneP (code : FaultCode) (info : Word) (s : State) :
    (recordFault code info s).doneP = s.doneP := by
  unfold recordFault; split <;> rfl
@[simp] theorem recordFault_geom (code : FaultCode) (info : Word) (s : State) :
    (recordFault code info s).geom = s.geom := by
  unfold recordFault; split <;> rfl
@[simp] theorem recordFault_inLen (code : FaultCode) (info : Word) (s : State) :
    (recordFault code info s).inLen = s.inLen := by
  unfold recordFault; split <;> rfl
@[simp] theorem recordFault_outLen (code : FaultCode) (info : Word) (s : State) :
    (recordFault code info s).outLen = s.outLen := by
  unfold recordFault; split <;> rfl
@[simp] theorem recordFault_rd (code : FaultCode) (info : Word) (s : State) :
    (recordFault code info s).rd = s.rd := by
  unfold recordFault; split <;> rfl
@[simp] theorem recordFault_wr (code : FaultCode) (info : Word) (s : State) :
    (recordFault code info s).wr = s.wr := by
  unfold recordFault; split <;> rfl
@[simp] theorem recordFault_slots (code : FaultCode) (info : Word) (s : State) :
    (recordFault code info s).slots = s.slots := by
  unfold recordFault; split <;> rfl
@[simp] theorem recordFault_mem (code : FaultCode) (info : Word) (s : State) :
    (recordFault code info s).mem = s.mem := by
  unfold recordFault; split <;> rfl
@[simp] theorem recordFault_host (code : FaultCode) (info : Word) (s : State) :
    (recordFault code info s).host = s.host := by
  unfold recordFault; split <;> rfl
@[simp] theorem recordFault_busData (code : FaultCode) (info : Word) (s : State) :
    (recordFault code info s).busData = s.busData := by
  unfold recordFault; split <;> rfl
@[simp] theorem recordFault_freeDraws (code : FaultCode) (info : Word) (s : State) :
    (recordFault code info s).freeDraws = s.freeDraws := by
  unfold recordFault; split <;> rfl

@[simp] theorem faultEntry_cfg (code : FaultCode) (info : Word) (s : State) :
    (faultEntry code info s).cfg = s.cfg := recordFault_cfg code info s
@[simp] theorem faultEntry_arg0 (code : FaultCode) (info : Word) (s : State) :
    (faultEntry code info s).arg0 = s.arg0 := recordFault_arg0 code info s
@[simp] theorem faultEntry_arg1 (code : FaultCode) (info : Word) (s : State) :
    (faultEntry code info s).arg1 = s.arg1 := recordFault_arg1 code info s
@[simp] theorem faultEntry_res (code : FaultCode) (info : Word) (s : State) :
    (faultEntry code info s).res = s.res := recordFault_res code info s
@[simp] theorem faultEntry_done (code : FaultCode) (info : Word) (s : State) :
    (faultEntry code info s).done = s.done := recordFault_done code info s
@[simp] theorem faultEntry_eos (code : FaultCode) (info : Word) (s : State) :
    (faultEntry code info s).eos = s.eos := recordFault_eos code info s
@[simp] theorem faultEntry_doneIe (code : FaultCode) (info : Word) (s : State) :
    (faultEntry code info s).doneIe = s.doneIe := recordFault_doneIe code info s
@[simp] theorem faultEntry_faultIe (code : FaultCode) (info : Word) (s : State) :
    (faultEntry code info s).faultIe = s.faultIe := recordFault_faultIe code info s
@[simp] theorem faultEntry_doneP (code : FaultCode) (info : Word) (s : State) :
    (faultEntry code info s).doneP = s.doneP := recordFault_doneP code info s
@[simp] theorem faultEntry_geom (code : FaultCode) (info : Word) (s : State) :
    (faultEntry code info s).geom = s.geom := recordFault_geom code info s
@[simp] theorem faultEntry_inLen (code : FaultCode) (info : Word) (s : State) :
    (faultEntry code info s).inLen = s.inLen := recordFault_inLen code info s
@[simp] theorem faultEntry_outLen (code : FaultCode) (info : Word) (s : State) :
    (faultEntry code info s).outLen = s.outLen := recordFault_outLen code info s
@[simp] theorem faultEntry_rd (code : FaultCode) (info : Word) (s : State) :
    (faultEntry code info s).rd = s.rd := recordFault_rd code info s
@[simp] theorem faultEntry_wr (code : FaultCode) (info : Word) (s : State) :
    (faultEntry code info s).wr = s.wr := recordFault_wr code info s
@[simp] theorem faultEntry_slots (code : FaultCode) (info : Word) (s : State) :
    (faultEntry code info s).slots = s.slots := recordFault_slots code info s
@[simp] theorem faultEntry_mem (code : FaultCode) (info : Word) (s : State) :
    (faultEntry code info s).mem = s.mem := recordFault_mem code info s
@[simp] theorem faultEntry_host (code : FaultCode) (info : Word) (s : State) :
    (faultEntry code info s).host = s.host := recordFault_host code info s
@[simp] theorem faultEntry_busData (code : FaultCode) (info : Word) (s : State) :
    (faultEntry code info s).busData = s.busData := recordFault_busData code info s
@[simp] theorem faultEntry_freeDraws (code : FaultCode) (info : Word) (s : State) :
    (faultEntry code info s).freeDraws = s.freeDraws := recordFault_freeDraws code info s
@[simp] theorem faultEntry_inFlight (code : FaultCode) (info : Word) (s : State) :
    (faultEntry code info s).inFlight = none := rfl

/-! ### Fault entry: the first fault wins -/

theorem faultEntry_of_none {s : State} (code : FaultCode) (info : Word) (h : s.recorded = none) :
    faultEntry code info s =
      { s with recorded := some { code := code, info := info }, faultP := true, inFlight := none } := by
  unfold faultEntry recordFault; rw [h]

theorem faultEntry_of_some {s : State} {r : FaultRecord} (code : FaultCode) (info : Word) (h : s.recorded = some r) :
    faultEntry code info s = { s with inFlight := none } := by
  have hr : recordFault code info s = s := by unfold recordFault; rw [h]
  unfold faultEntry; rw [hr]

theorem faultEntry_recorded_isSome (code : FaultCode) (info : Word) (s : State) :
    (faultEntry code info s).recorded.isSome = true := by
  cases h : s.recorded with
  | none => rw [faultEntry_of_none code info h]; rfl
  | some r => rw [faultEntry_of_some code info h]; simp [h]

/-! ### Acceptance of a command -/

@[simp] theorem acceptCommand_cfg (w : Word) (s : State) : (acceptCommand w s).cfg = s.cfg := rfl
@[simp] theorem acceptCommand_arg0 (w : Word) (s : State) : (acceptCommand w s).arg0 = s.arg0 := rfl
@[simp] theorem acceptCommand_arg1 (w : Word) (s : State) : (acceptCommand w s).arg1 = s.arg1 := rfl
@[simp] theorem acceptCommand_res (w : Word) (s : State) : (acceptCommand w s).res = s.res := rfl
@[simp] theorem acceptCommand_inFlight (w : Word) (s : State) : (acceptCommand w s).inFlight = some w := rfl
@[simp] theorem acceptCommand_done (w : Word) (s : State) : (acceptCommand w s).done = false := rfl
@[simp] theorem acceptCommand_eos (w : Word) (s : State) : (acceptCommand w s).eos = false := rfl
@[simp] theorem acceptCommand_recorded (w : Word) (s : State) : (acceptCommand w s).recorded = s.recorded := rfl
@[simp] theorem acceptCommand_doneIe (w : Word) (s : State) : (acceptCommand w s).doneIe = s.doneIe := rfl
@[simp] theorem acceptCommand_faultIe (w : Word) (s : State) : (acceptCommand w s).faultIe = s.faultIe := rfl
@[simp] theorem acceptCommand_doneP (w : Word) (s : State) : (acceptCommand w s).doneP = s.doneP := rfl
@[simp] theorem acceptCommand_faultP (w : Word) (s : State) : (acceptCommand w s).faultP = s.faultP := rfl
@[simp] theorem acceptCommand_geom (w : Word) (s : State) : (acceptCommand w s).geom = s.geom := rfl
@[simp] theorem acceptCommand_inLen (w : Word) (s : State) : (acceptCommand w s).inLen = s.inLen := rfl
@[simp] theorem acceptCommand_outLen (w : Word) (s : State) : (acceptCommand w s).outLen = s.outLen := rfl
@[simp] theorem acceptCommand_rd (w : Word) (s : State) : (acceptCommand w s).rd = s.rd := rfl
@[simp] theorem acceptCommand_wr (w : Word) (s : State) : (acceptCommand w s).wr = s.wr := rfl
@[simp] theorem acceptCommand_slots (w : Word) (s : State) : (acceptCommand w s).slots = s.slots := rfl
@[simp] theorem acceptCommand_mem (w : Word) (s : State) : (acceptCommand w s).mem = s.mem := rfl
@[simp] theorem acceptCommand_host (w : Word) (s : State) : (acceptCommand w s).host = s.host := rfl
@[simp] theorem acceptCommand_busData (w : Word) (s : State) : (acceptCommand w s).busData = s.busData := rfl
@[simp] theorem acceptCommand_freeDraws (w : Word) (s : State) : (acceptCommand w s).freeDraws = s.freeDraws := rfl

/-! ### One slot replaced -/

@[simp] theorem withSlot_cfg (n : Nat) (t : HuffSlot) (s : State) : (withSlot s n t).cfg = s.cfg := rfl
@[simp] theorem withSlot_arg0 (n : Nat) (t : HuffSlot) (s : State) : (withSlot s n t).arg0 = s.arg0 := rfl
@[simp] theorem withSlot_arg1 (n : Nat) (t : HuffSlot) (s : State) : (withSlot s n t).arg1 = s.arg1 := rfl
@[simp] theorem withSlot_res (n : Nat) (t : HuffSlot) (s : State) : (withSlot s n t).res = s.res := rfl
@[simp] theorem withSlot_inFlight (n : Nat) (t : HuffSlot) (s : State) : (withSlot s n t).inFlight = s.inFlight := rfl
@[simp] theorem withSlot_done (n : Nat) (t : HuffSlot) (s : State) : (withSlot s n t).done = s.done := rfl
@[simp] theorem withSlot_eos (n : Nat) (t : HuffSlot) (s : State) : (withSlot s n t).eos = s.eos := rfl
@[simp] theorem withSlot_recorded (n : Nat) (t : HuffSlot) (s : State) : (withSlot s n t).recorded = s.recorded := rfl
@[simp] theorem withSlot_doneIe (n : Nat) (t : HuffSlot) (s : State) : (withSlot s n t).doneIe = s.doneIe := rfl
@[simp] theorem withSlot_faultIe (n : Nat) (t : HuffSlot) (s : State) : (withSlot s n t).faultIe = s.faultIe := rfl
@[simp] theorem withSlot_doneP (n : Nat) (t : HuffSlot) (s : State) : (withSlot s n t).doneP = s.doneP := rfl
@[simp] theorem withSlot_faultP (n : Nat) (t : HuffSlot) (s : State) : (withSlot s n t).faultP = s.faultP := rfl
@[simp] theorem withSlot_geom (n : Nat) (t : HuffSlot) (s : State) : (withSlot s n t).geom = s.geom := rfl
@[simp] theorem withSlot_inLen (n : Nat) (t : HuffSlot) (s : State) : (withSlot s n t).inLen = s.inLen := rfl
@[simp] theorem withSlot_outLen (n : Nat) (t : HuffSlot) (s : State) : (withSlot s n t).outLen = s.outLen := rfl
@[simp] theorem withSlot_rd (n : Nat) (t : HuffSlot) (s : State) : (withSlot s n t).rd = s.rd := rfl
@[simp] theorem withSlot_wr (n : Nat) (t : HuffSlot) (s : State) : (withSlot s n t).wr = s.wr := rfl
@[simp] theorem withSlot_slots (n : Nat) (t : HuffSlot) (s : State) : (withSlot s n t).slots = s.slots.setIfInBounds n t := rfl
@[simp] theorem withSlot_mem (n : Nat) (t : HuffSlot) (s : State) : (withSlot s n t).mem = s.mem := rfl
@[simp] theorem withSlot_host (n : Nat) (t : HuffSlot) (s : State) : (withSlot s n t).host = s.host := rfl
@[simp] theorem withSlot_busData (n : Nat) (t : HuffSlot) (s : State) : (withSlot s n t).busData = s.busData := rfl
@[simp] theorem withSlot_freeDraws (n : Nat) (t : HuffSlot) (s : State) : (withSlot s n t).freeDraws = s.freeDraws := rfl

/-! ### The writer's part replaced -/

@[simp] theorem withOutPort_cfg (p : OutPort) (s : State) : (withOutPort s p).cfg = s.cfg := rfl
@[simp] theorem withOutPort_arg0 (p : OutPort) (s : State) : (withOutPort s p).arg0 = s.arg0 := rfl
@[simp] theorem withOutPort_arg1 (p : OutPort) (s : State) : (withOutPort s p).arg1 = s.arg1 := rfl
@[simp] theorem withOutPort_res (p : OutPort) (s : State) : (withOutPort s p).res = s.res := rfl
@[simp] theorem withOutPort_inFlight (p : OutPort) (s : State) : (withOutPort s p).inFlight = s.inFlight := rfl
@[simp] theorem withOutPort_done (p : OutPort) (s : State) : (withOutPort s p).done = s.done := rfl
@[simp] theorem withOutPort_eos (p : OutPort) (s : State) : (withOutPort s p).eos = s.eos := rfl
@[simp] theorem withOutPort_recorded (p : OutPort) (s : State) : (withOutPort s p).recorded = s.recorded := rfl
@[simp] theorem withOutPort_doneIe (p : OutPort) (s : State) : (withOutPort s p).doneIe = s.doneIe := rfl
@[simp] theorem withOutPort_faultIe (p : OutPort) (s : State) : (withOutPort s p).faultIe = s.faultIe := rfl
@[simp] theorem withOutPort_doneP (p : OutPort) (s : State) : (withOutPort s p).doneP = s.doneP := rfl
@[simp] theorem withOutPort_faultP (p : OutPort) (s : State) : (withOutPort s p).faultP = s.faultP := rfl
@[simp] theorem withOutPort_geom (p : OutPort) (s : State) : (withOutPort s p).geom = s.geom := rfl
@[simp] theorem withOutPort_inLen (p : OutPort) (s : State) : (withOutPort s p).inLen = s.inLen := rfl
@[simp] theorem withOutPort_outLen (p : OutPort) (s : State) : (withOutPort s p).outLen = s.outLen := rfl
@[simp] theorem withOutPort_rd (p : OutPort) (s : State) : (withOutPort s p).rd = s.rd := rfl
@[simp] theorem withOutPort_wr (p : OutPort) (s : State) : (withOutPort s p).wr = p.wr := rfl
@[simp] theorem withOutPort_slots (p : OutPort) (s : State) : (withOutPort s p).slots = s.slots := rfl
@[simp] theorem withOutPort_mem (p : OutPort) (s : State) : (withOutPort s p).mem = p.mem := rfl
@[simp] theorem withOutPort_host (p : OutPort) (s : State) : (withOutPort s p).host = s.host := rfl
@[simp] theorem withOutPort_busData (p : OutPort) (s : State) : (withOutPort s p).busData = s.busData := rfl
@[simp] theorem withOutPort_freeDraws (p : OutPort) (s : State) : (withOutPort s p).freeDraws = s.freeDraws := rfl

@[simp] theorem outPort_wr (s : State) : (outPort s).wr = s.wr := rfl
@[simp] theorem outPort_mem (s : State) : (outPort s).mem = s.mem := rfl
@[simp] theorem withOutPort_outPort (s : State) : withOutPort s (outPort s) = s := rfl

/-! ### The part both resets share -/

@[simp] theorem resetRegisters_cfg (s : State) : (resetRegisters s).cfg = s.cfg := rfl
@[simp] theorem resetRegisters_arg0 (s : State) : (resetRegisters s).arg0 = 0 := rfl
@[simp] theorem resetRegisters_arg1 (s : State) : (resetRegisters s).arg1 = 0 := rfl
@[simp] theorem resetRegisters_res (s : State) : (resetRegisters s).res = 0 := rfl
@[simp] theorem resetRegisters_inFlight (s : State) : (resetRegisters s).inFlight = none := rfl
@[simp] theorem resetRegisters_done (s : State) : (resetRegisters s).done = false := rfl
@[simp] theorem resetRegisters_eos (s : State) : (resetRegisters s).eos = false := rfl
@[simp] theorem resetRegisters_recorded (s : State) : (resetRegisters s).recorded = none := rfl
@[simp] theorem resetRegisters_doneIe (s : State) : (resetRegisters s).doneIe = false := rfl
@[simp] theorem resetRegisters_faultIe (s : State) : (resetRegisters s).faultIe = false := rfl
@[simp] theorem resetRegisters_doneP (s : State) : (resetRegisters s).doneP = false := rfl
@[simp] theorem resetRegisters_faultP (s : State) : (resetRegisters s).faultP = false := rfl
@[simp] theorem resetRegisters_geom (s : State) : (resetRegisters s).geom = s.geom := rfl
@[simp] theorem resetRegisters_inLen (s : State) : (resetRegisters s).inLen = s.inLen := rfl
@[simp] theorem resetRegisters_outLen (s : State) : (resetRegisters s).outLen = s.outLen := rfl
@[simp] theorem resetRegisters_rd (s : State) : (resetRegisters s).rd = Reader.atReset := rfl
@[simp] theorem resetRegisters_wr (s : State) : (resetRegisters s).wr = Writer.atReset := rfl
@[simp] theorem resetRegisters_slots (s : State) : (resetRegisters s).slots = s.slots.map invalidate := rfl
@[simp] theorem resetRegisters_mem (s : State) : (resetRegisters s).mem = s.mem := rfl
@[simp] theorem resetRegisters_host (s : State) : (resetRegisters s).host = s.host := rfl
@[simp] theorem resetRegisters_busData (s : State) : (resetRegisters s).busData = s.busData := rfl
@[simp] theorem resetRegisters_freeDraws (s : State) : (resetRegisters s).freeDraws = s.freeDraws := rfl

/-! ### Register writes -/

@[simp] theorem setCtrl_cfg (v : Word) (s : State) : (setCtrl v s).cfg = s.cfg := rfl
@[simp] theorem setCtrl_arg0 (v : Word) (s : State) : (setCtrl v s).arg0 = s.arg0 := rfl
@[simp] theorem setCtrl_arg1 (v : Word) (s : State) : (setCtrl v s).arg1 = s.arg1 := rfl
@[simp] theorem setCtrl_res (v : Word) (s : State) : (setCtrl v s).res = s.res := rfl
@[simp] theorem setCtrl_inFlight (v : Word) (s : State) : (setCtrl v s).inFlight = s.inFlight := rfl
@[simp] theorem setCtrl_done (v : Word) (s : State) : (setCtrl v s).done = s.done := rfl
@[simp] theorem setCtrl_eos (v : Word) (s : State) : (setCtrl v s).eos = s.eos := rfl
@[simp] theorem setCtrl_recorded (v : Word) (s : State) : (setCtrl v s).recorded = s.recorded := rfl
@[simp] theorem setCtrl_doneIe (v : Word) (s : State) : (setCtrl v s).doneIe = v.getLsbD 1 := rfl
@[simp] theorem setCtrl_faultIe (v : Word) (s : State) : (setCtrl v s).faultIe = v.getLsbD 2 := rfl
@[simp] theorem setCtrl_doneP (v : Word) (s : State) : (setCtrl v s).doneP = s.doneP := rfl
@[simp] theorem setCtrl_faultP (v : Word) (s : State) : (setCtrl v s).faultP = s.faultP := rfl
@[simp] theorem setCtrl_geom (v : Word) (s : State) : (setCtrl v s).geom = s.geom := rfl
@[simp] theorem setCtrl_inLen (v : Word) (s : State) : (setCtrl v s).inLen = s.inLen := rfl
@[simp] theorem setCtrl_outLen (v : Word) (s : State) : (setCtrl v s).outLen = s.outLen := rfl
@[simp] theorem setCtrl_rd (v : Word) (s : State) : (setCtrl v s).rd = s.rd := rfl
@[simp] theorem setCtrl_wr (v : Word) (s : State) : (setCtrl v s).wr = s.wr := rfl
@[simp] theorem setCtrl_slots (v : Word) (s : State) : (setCtrl v s).slots = s.slots := rfl
@[simp] theorem setCtrl_mem (v : Word) (s : State) : (setCtrl v s).mem = s.mem := rfl
@[simp] theorem setCtrl_host (v : Word) (s : State) : (setCtrl v s).host = s.host := rfl
@[simp] theorem setCtrl_busData (v : Word) (s : State) : (setCtrl v s).busData = s.busData := rfl
@[simp] theorem setCtrl_freeDraws (v : Word) (s : State) : (setCtrl v s).freeDraws = s.freeDraws := rfl

@[simp] theorem clearIrq_cfg (v : Word) (s : State) : (clearIrq v s).cfg = s.cfg := rfl
@[simp] theorem clearIrq_arg0 (v : Word) (s : State) : (clearIrq v s).arg0 = s.arg0 := rfl
@[simp] theorem clearIrq_arg1 (v : Word) (s : State) : (clearIrq v s).arg1 = s.arg1 := rfl
@[simp] theorem clearIrq_res (v : Word) (s : State) : (clearIrq v s).res = s.res := rfl
@[simp] theorem clearIrq_inFlight (v : Word) (s : State) : (clearIrq v s).inFlight = s.inFlight := rfl
@[simp] theorem clearIrq_done (v : Word) (s : State) : (clearIrq v s).done = s.done := rfl
@[simp] theorem clearIrq_eos (v : Word) (s : State) : (clearIrq v s).eos = s.eos := rfl
@[simp] theorem clearIrq_recorded (v : Word) (s : State) : (clearIrq v s).recorded = s.recorded := rfl
@[simp] theorem clearIrq_doneIe (v : Word) (s : State) : (clearIrq v s).doneIe = s.doneIe := rfl
@[simp] theorem clearIrq_faultIe (v : Word) (s : State) : (clearIrq v s).faultIe = s.faultIe := rfl
@[simp] theorem clearIrq_doneP (v : Word) (s : State) : (clearIrq v s).doneP = (s.doneP && !v.getLsbD 0) := rfl
@[simp] theorem clearIrq_faultP (v : Word) (s : State) : (clearIrq v s).faultP = (s.faultP && !v.getLsbD 1) := rfl
@[simp] theorem clearIrq_geom (v : Word) (s : State) : (clearIrq v s).geom = s.geom := rfl
@[simp] theorem clearIrq_inLen (v : Word) (s : State) : (clearIrq v s).inLen = s.inLen := rfl
@[simp] theorem clearIrq_outLen (v : Word) (s : State) : (clearIrq v s).outLen = s.outLen := rfl
@[simp] theorem clearIrq_rd (v : Word) (s : State) : (clearIrq v s).rd = s.rd := rfl
@[simp] theorem clearIrq_wr (v : Word) (s : State) : (clearIrq v s).wr = s.wr := rfl
@[simp] theorem clearIrq_slots (v : Word) (s : State) : (clearIrq v s).slots = s.slots := rfl
@[simp] theorem clearIrq_mem (v : Word) (s : State) : (clearIrq v s).mem = s.mem := rfl
@[simp] theorem clearIrq_host (v : Word) (s : State) : (clearIrq v s).host = s.host := rfl
@[simp] theorem clearIrq_busData (v : Word) (s : State) : (clearIrq v s).busData = s.busData := rfl
@[simp] theorem clearIrq_freeDraws (v : Word) (s : State) : (clearIrq v s).freeDraws = s.freeDraws := rfl

/-! ### A window word written -/

@[simp] theorem writeWindow_cfg (a : Nat) (v : Word) (s : State) : (writeWindow a v s).cfg = s.cfg := rfl
@[simp] theorem writeWindow_arg0 (a : Nat) (v : Word) (s : State) : (writeWindow a v s).arg0 = s.arg0 := rfl
@[simp] theorem writeWindow_arg1 (a : Nat) (v : Word) (s : State) : (writeWindow a v s).arg1 = s.arg1 := rfl
@[simp] theorem writeWindow_res (a : Nat) (v : Word) (s : State) : (writeWindow a v s).res = s.res := rfl
@[simp] theorem writeWindow_inFlight (a : Nat) (v : Word) (s : State) : (writeWindow a v s).inFlight = s.inFlight := rfl
@[simp] theorem writeWindow_done (a : Nat) (v : Word) (s : State) : (writeWindow a v s).done = s.done := rfl
@[simp] theorem writeWindow_eos (a : Nat) (v : Word) (s : State) : (writeWindow a v s).eos = s.eos := rfl
@[simp] theorem writeWindow_recorded (a : Nat) (v : Word) (s : State) : (writeWindow a v s).recorded = s.recorded := rfl
@[simp] theorem writeWindow_doneIe (a : Nat) (v : Word) (s : State) : (writeWindow a v s).doneIe = s.doneIe := rfl
@[simp] theorem writeWindow_faultIe (a : Nat) (v : Word) (s : State) : (writeWindow a v s).faultIe = s.faultIe := rfl
@[simp] theorem writeWindow_doneP (a : Nat) (v : Word) (s : State) : (writeWindow a v s).doneP = s.doneP := rfl
@[simp] theorem writeWindow_faultP (a : Nat) (v : Word) (s : State) : (writeWindow a v s).faultP = s.faultP := rfl
@[simp] theorem writeWindow_geom (a : Nat) (v : Word) (s : State) : (writeWindow a v s).geom = s.geom := rfl
@[simp] theorem writeWindow_inLen (a : Nat) (v : Word) (s : State) : (writeWindow a v s).inLen = s.inLen := rfl
@[simp] theorem writeWindow_outLen (a : Nat) (v : Word) (s : State) : (writeWindow a v s).outLen = s.outLen := rfl
@[simp] theorem writeWindow_rd (a : Nat) (v : Word) (s : State) : (writeWindow a v s).rd = s.rd := rfl
@[simp] theorem writeWindow_wr (a : Nat) (v : Word) (s : State) : (writeWindow a v s).wr = s.wr := rfl
@[simp] theorem writeWindow_slots (a : Nat) (v : Word) (s : State) : (writeWindow a v s).slots = s.slots := rfl
@[simp] theorem writeWindow_host (a : Nat) (v : Word) (s : State) : (writeWindow a v s).host = s.host := rfl
@[simp] theorem writeWindow_busData (a : Nat) (v : Word) (s : State) : (writeWindow a v s).busData = s.busData := rfl
@[simp] theorem writeWindow_freeDraws (a : Nat) (v : Word) (s : State) : (writeWindow a v s).freeDraws = s.freeDraws := rfl

/-! ### Free values -/

@[simp] theorem freeRam_cfg (p : Nat → Bool) (s : State) : (freeRam p s).cfg = s.cfg := rfl
@[simp] theorem freeRam_arg0 (p : Nat → Bool) (s : State) : (freeRam p s).arg0 = s.arg0 := rfl
@[simp] theorem freeRam_arg1 (p : Nat → Bool) (s : State) : (freeRam p s).arg1 = s.arg1 := rfl
@[simp] theorem freeRam_res (p : Nat → Bool) (s : State) : (freeRam p s).res = s.res := rfl
@[simp] theorem freeRam_inFlight (p : Nat → Bool) (s : State) : (freeRam p s).inFlight = s.inFlight := rfl
@[simp] theorem freeRam_done (p : Nat → Bool) (s : State) : (freeRam p s).done = s.done := rfl
@[simp] theorem freeRam_eos (p : Nat → Bool) (s : State) : (freeRam p s).eos = s.eos := rfl
@[simp] theorem freeRam_recorded (p : Nat → Bool) (s : State) : (freeRam p s).recorded = s.recorded := rfl
@[simp] theorem freeRam_doneIe (p : Nat → Bool) (s : State) : (freeRam p s).doneIe = s.doneIe := rfl
@[simp] theorem freeRam_faultIe (p : Nat → Bool) (s : State) : (freeRam p s).faultIe = s.faultIe := rfl
@[simp] theorem freeRam_doneP (p : Nat → Bool) (s : State) : (freeRam p s).doneP = s.doneP := rfl
@[simp] theorem freeRam_faultP (p : Nat → Bool) (s : State) : (freeRam p s).faultP = s.faultP := rfl
@[simp] theorem freeRam_geom (p : Nat → Bool) (s : State) : (freeRam p s).geom = s.geom := rfl
@[simp] theorem freeRam_inLen (p : Nat → Bool) (s : State) : (freeRam p s).inLen = s.inLen := rfl
@[simp] theorem freeRam_outLen (p : Nat → Bool) (s : State) : (freeRam p s).outLen = s.outLen := rfl
@[simp] theorem freeRam_rd (p : Nat → Bool) (s : State) : (freeRam p s).rd = s.rd := rfl
@[simp] theorem freeRam_wr (p : Nat → Bool) (s : State) : (freeRam p s).wr = s.wr := rfl
@[simp] theorem freeRam_slots (p : Nat → Bool) (s : State) : (freeRam p s).slots = s.slots := rfl
@[simp] theorem freeRam_host (p : Nat → Bool) (s : State) : (freeRam p s).host = s.host := rfl
@[simp] theorem freeRam_busData (p : Nat → Bool) (s : State) : (freeRam p s).busData = s.busData := rfl
@[simp] theorem freeRam_freeDraws (p : Nat → Bool) (s : State) : (freeRam p s).freeDraws = s.freeDraws := rfl

@[simp] theorem freeRes_cfg (s : State) : (freeRes s).cfg = s.cfg := rfl
@[simp] theorem freeRes_arg0 (s : State) : (freeRes s).arg0 = s.arg0 := rfl
@[simp] theorem freeRes_arg1 (s : State) : (freeRes s).arg1 = s.arg1 := rfl
@[simp] theorem freeRes_inFlight (s : State) : (freeRes s).inFlight = s.inFlight := rfl
@[simp] theorem freeRes_done (s : State) : (freeRes s).done = s.done := rfl
@[simp] theorem freeRes_eos (s : State) : (freeRes s).eos = s.eos := rfl
@[simp] theorem freeRes_recorded (s : State) : (freeRes s).recorded = s.recorded := rfl
@[simp] theorem freeRes_doneIe (s : State) : (freeRes s).doneIe = s.doneIe := rfl
@[simp] theorem freeRes_faultIe (s : State) : (freeRes s).faultIe = s.faultIe := rfl
@[simp] theorem freeRes_doneP (s : State) : (freeRes s).doneP = s.doneP := rfl
@[simp] theorem freeRes_faultP (s : State) : (freeRes s).faultP = s.faultP := rfl
@[simp] theorem freeRes_geom (s : State) : (freeRes s).geom = s.geom := rfl
@[simp] theorem freeRes_inLen (s : State) : (freeRes s).inLen = s.inLen := rfl
@[simp] theorem freeRes_outLen (s : State) : (freeRes s).outLen = s.outLen := rfl
@[simp] theorem freeRes_rd (s : State) : (freeRes s).rd = s.rd := rfl
@[simp] theorem freeRes_wr (s : State) : (freeRes s).wr = s.wr := rfl
@[simp] theorem freeRes_slots (s : State) : (freeRes s).slots = s.slots := rfl
@[simp] theorem freeRes_mem (s : State) : (freeRes s).mem = s.mem := rfl
@[simp] theorem freeRes_host (s : State) : (freeRes s).host = s.host := rfl
@[simp] theorem freeRes_busData (s : State) : (freeRes s).busData = s.busData := rfl
@[simp] theorem freeRes_freeDraws (s : State) : (freeRes s).freeDraws = s.freeDraws := rfl

@[simp] theorem freeReader_cfg (s : State) : (freeReader s).cfg = s.cfg := rfl
@[simp] theorem freeReader_arg0 (s : State) : (freeReader s).arg0 = s.arg0 := rfl
@[simp] theorem freeReader_arg1 (s : State) : (freeReader s).arg1 = s.arg1 := rfl
@[simp] theorem freeReader_res (s : State) : (freeReader s).res = s.res := rfl
@[simp] theorem freeReader_inFlight (s : State) : (freeReader s).inFlight = s.inFlight := rfl
@[simp] theorem freeReader_done (s : State) : (freeReader s).done = s.done := rfl
@[simp] theorem freeReader_eos (s : State) : (freeReader s).eos = s.eos := rfl
@[simp] theorem freeReader_recorded (s : State) : (freeReader s).recorded = s.recorded := rfl
@[simp] theorem freeReader_doneIe (s : State) : (freeReader s).doneIe = s.doneIe := rfl
@[simp] theorem freeReader_faultIe (s : State) : (freeReader s).faultIe = s.faultIe := rfl
@[simp] theorem freeReader_doneP (s : State) : (freeReader s).doneP = s.doneP := rfl
@[simp] theorem freeReader_faultP (s : State) : (freeReader s).faultP = s.faultP := rfl
@[simp] theorem freeReader_geom (s : State) : (freeReader s).geom = s.geom := rfl
@[simp] theorem freeReader_inLen (s : State) : (freeReader s).inLen = s.inLen := rfl
@[simp] theorem freeReader_outLen (s : State) : (freeReader s).outLen = s.outLen := rfl
@[simp] theorem freeReader_wr (s : State) : (freeReader s).wr = s.wr := rfl
@[simp] theorem freeReader_slots (s : State) : (freeReader s).slots = s.slots := rfl
@[simp] theorem freeReader_mem (s : State) : (freeReader s).mem = s.mem := rfl
@[simp] theorem freeReader_host (s : State) : (freeReader s).host = s.host := rfl
@[simp] theorem freeReader_busData (s : State) : (freeReader s).busData = s.busData := rfl
@[simp] theorem freeReader_freeDraws (s : State) : (freeReader s).freeDraws = s.freeDraws := rfl

@[simp] theorem freeWriter_cfg (s : State) : (freeWriter s).cfg = s.cfg := rfl
@[simp] theorem freeWriter_arg0 (s : State) : (freeWriter s).arg0 = s.arg0 := rfl
@[simp] theorem freeWriter_arg1 (s : State) : (freeWriter s).arg1 = s.arg1 := rfl
@[simp] theorem freeWriter_res (s : State) : (freeWriter s).res = s.res := rfl
@[simp] theorem freeWriter_inFlight (s : State) : (freeWriter s).inFlight = s.inFlight := rfl
@[simp] theorem freeWriter_done (s : State) : (freeWriter s).done = s.done := rfl
@[simp] theorem freeWriter_eos (s : State) : (freeWriter s).eos = s.eos := rfl
@[simp] theorem freeWriter_recorded (s : State) : (freeWriter s).recorded = s.recorded := rfl
@[simp] theorem freeWriter_doneIe (s : State) : (freeWriter s).doneIe = s.doneIe := rfl
@[simp] theorem freeWriter_faultIe (s : State) : (freeWriter s).faultIe = s.faultIe := rfl
@[simp] theorem freeWriter_doneP (s : State) : (freeWriter s).doneP = s.doneP := rfl
@[simp] theorem freeWriter_faultP (s : State) : (freeWriter s).faultP = s.faultP := rfl
@[simp] theorem freeWriter_geom (s : State) : (freeWriter s).geom = s.geom := rfl
@[simp] theorem freeWriter_inLen (s : State) : (freeWriter s).inLen = s.inLen := rfl
@[simp] theorem freeWriter_outLen (s : State) : (freeWriter s).outLen = s.outLen := rfl
@[simp] theorem freeWriter_rd (s : State) : (freeWriter s).rd = s.rd := rfl
@[simp] theorem freeWriter_slots (s : State) : (freeWriter s).slots = s.slots := rfl
@[simp] theorem freeWriter_mem (s : State) : (freeWriter s).mem = s.mem := rfl
@[simp] theorem freeWriter_host (s : State) : (freeWriter s).host = s.host := rfl
@[simp] theorem freeWriter_busData (s : State) : (freeWriter s).busData = s.busData := rfl
@[simp] theorem freeWriter_freeDraws (s : State) : (freeWriter s).freeDraws = s.freeDraws := rfl

@[simp] theorem freeSlot_cfg (n : Nat) (s : State) : (freeSlot n s).cfg = s.cfg := rfl
@[simp] theorem freeSlot_arg0 (n : Nat) (s : State) : (freeSlot n s).arg0 = s.arg0 := rfl
@[simp] theorem freeSlot_arg1 (n : Nat) (s : State) : (freeSlot n s).arg1 = s.arg1 := rfl
@[simp] theorem freeSlot_res (n : Nat) (s : State) : (freeSlot n s).res = s.res := rfl
@[simp] theorem freeSlot_inFlight (n : Nat) (s : State) : (freeSlot n s).inFlight = s.inFlight := rfl
@[simp] theorem freeSlot_done (n : Nat) (s : State) : (freeSlot n s).done = s.done := rfl
@[simp] theorem freeSlot_eos (n : Nat) (s : State) : (freeSlot n s).eos = s.eos := rfl
@[simp] theorem freeSlot_recorded (n : Nat) (s : State) : (freeSlot n s).recorded = s.recorded := rfl
@[simp] theorem freeSlot_doneIe (n : Nat) (s : State) : (freeSlot n s).doneIe = s.doneIe := rfl
@[simp] theorem freeSlot_faultIe (n : Nat) (s : State) : (freeSlot n s).faultIe = s.faultIe := rfl
@[simp] theorem freeSlot_doneP (n : Nat) (s : State) : (freeSlot n s).doneP = s.doneP := rfl
@[simp] theorem freeSlot_faultP (n : Nat) (s : State) : (freeSlot n s).faultP = s.faultP := rfl
@[simp] theorem freeSlot_geom (n : Nat) (s : State) : (freeSlot n s).geom = s.geom := rfl
@[simp] theorem freeSlot_inLen (n : Nat) (s : State) : (freeSlot n s).inLen = s.inLen := rfl
@[simp] theorem freeSlot_outLen (n : Nat) (s : State) : (freeSlot n s).outLen = s.outLen := rfl
@[simp] theorem freeSlot_rd (n : Nat) (s : State) : (freeSlot n s).rd = s.rd := rfl
@[simp] theorem freeSlot_wr (n : Nat) (s : State) : (freeSlot n s).wr = s.wr := rfl
@[simp] theorem freeSlot_mem (n : Nat) (s : State) : (freeSlot n s).mem = s.mem := rfl
@[simp] theorem freeSlot_host (n : Nat) (s : State) : (freeSlot n s).host = s.host := rfl
@[simp] theorem freeSlot_busData (n : Nat) (s : State) : (freeSlot n s).busData = s.busData := rfl
@[simp] theorem freeSlot_freeDraws (n : Nat) (s : State) : (freeSlot n s).freeDraws = s.freeDraws := rfl

@[simp] theorem freeValid_cfg (n : Nat) (s : State) : (freeValid n s).cfg = s.cfg := rfl
@[simp] theorem freeValid_arg0 (n : Nat) (s : State) : (freeValid n s).arg0 = s.arg0 := rfl
@[simp] theorem freeValid_arg1 (n : Nat) (s : State) : (freeValid n s).arg1 = s.arg1 := rfl
@[simp] theorem freeValid_res (n : Nat) (s : State) : (freeValid n s).res = s.res := rfl
@[simp] theorem freeValid_inFlight (n : Nat) (s : State) : (freeValid n s).inFlight = s.inFlight := rfl
@[simp] theorem freeValid_done (n : Nat) (s : State) : (freeValid n s).done = s.done := rfl
@[simp] theorem freeValid_eos (n : Nat) (s : State) : (freeValid n s).eos = s.eos := rfl
@[simp] theorem freeValid_recorded (n : Nat) (s : State) : (freeValid n s).recorded = s.recorded := rfl
@[simp] theorem freeValid_doneIe (n : Nat) (s : State) : (freeValid n s).doneIe = s.doneIe := rfl
@[simp] theorem freeValid_faultIe (n : Nat) (s : State) : (freeValid n s).faultIe = s.faultIe := rfl
@[simp] theorem freeValid_doneP (n : Nat) (s : State) : (freeValid n s).doneP = s.doneP := rfl
@[simp] theorem freeValid_faultP (n : Nat) (s : State) : (freeValid n s).faultP = s.faultP := rfl
@[simp] theorem freeValid_geom (n : Nat) (s : State) : (freeValid n s).geom = s.geom := rfl
@[simp] theorem freeValid_inLen (n : Nat) (s : State) : (freeValid n s).inLen = s.inLen := rfl
@[simp] theorem freeValid_outLen (n : Nat) (s : State) : (freeValid n s).outLen = s.outLen := rfl
@[simp] theorem freeValid_rd (n : Nat) (s : State) : (freeValid n s).rd = s.rd := rfl
@[simp] theorem freeValid_wr (n : Nat) (s : State) : (freeValid n s).wr = s.wr := rfl
@[simp] theorem freeValid_mem (n : Nat) (s : State) : (freeValid n s).mem = s.mem := rfl
@[simp] theorem freeValid_host (n : Nat) (s : State) : (freeValid n s).host = s.host := rfl
@[simp] theorem freeValid_busData (n : Nat) (s : State) : (freeValid n s).busData = s.busData := rfl
@[simp] theorem freeValid_freeDraws (n : Nat) (s : State) : (freeValid n s).freeDraws = s.freeDraws := rfl

/-! ### The slots of a state -/

theorem slotOf_withSlot (s : State) (n k : Nat) (t : HuffSlot) (hn : n ≤ 5) :
    slotOf (withSlot s n t) k = if n = k then t else slotOf s k := by
  simp only [slotOf, withSlot, Vector.getD, Vector.setIfInBounds]
  by_cases hk : k < 6
  · by_cases hnk : n = k
    · subst hnk; simp [hk]
    · simp [hk, hnk]
  · have : n ≠ k := by omega
    simp [hk, this]

/-- A slot number above 5 reaches no slot. -/
theorem withSlot_of_above {s : State} {n : Nat} (t : HuffSlot) (hn : 5 < n) : withSlot s n t = s := by
  have h : s.slots.setIfInBounds n t = s.slots := by
    apply Vector.ext; intro i hi
    have : n ≠ i := by omega
    simp [this]
  simp [withSlot, h]

/-- Both resets leave every slot invalid (R210, R211). -/
theorem slotOf_resetRegisters_valid (s : State) (n : Nat) : (slotOf (resetRegisters s) n).valid = false := by
  by_cases hn : n < 6
  · simp [slotOf, resetRegisters, Vector.getD, hn, invalidate]
  · simp [slotOf, resetRegisters, Vector.getD, hn, HuffSlot.atReset]

end Sys2Proof.Machine
end

