-- ==== Sys2Proof/Laws/Run.lean ====
section
/-! SUPPORT. How a command's pieces compose and end: one lemma per shared operation of Machine/Ops.lean that runs,
checks or ends. -/

namespace Sys2Proof.Machine

variable {σ τ α β : Type}

/-! ### Sequencing -/

@[simp] theorem andThen_ok (a : α) (st : σ) (f : α → σ → Run σ β) : (Run.ok a st).andThen f = f a st := rfl

@[simp] theorem andThen_raise (code : FaultCode) (info : Word) (st : σ) (f : α → σ → Run σ β) :
    (Run.raise code info st : Run σ α).andThen f = .raise code info st := rfl

@[simp] theorem lift_ok (a : α) (st : σ) (put : σ → τ) : (Run.ok a st).lift put = .ok a (put st) := rfl

@[simp] theorem lift_raise (code : FaultCode) (info : Word) (st : σ) (put : σ → τ) :
    (Run.raise code info st : Run σ α).lift put = .raise code info (put st) := rfl

/-- A sequence ends well exactly when both parts do. -/
theorem andThen_eq_ok_iff {r : Run σ α} {f : α → σ → Run σ β} {b : β} {st' : σ} :
    r.andThen f = .ok b st' ↔ ∃ a st, r = .ok a st ∧ f a st = .ok b st' := by
  cases r <;> simp

/-- A sequence raises what its first part raises, or what its second does. -/
theorem andThen_eq_raise_iff {r : Run σ α} {f : α → σ → Run σ β} {code : FaultCode} {info : Word} {st' : σ} :
    r.andThen f = .raise code info st' ↔
      r = .raise code info st' ∨ ∃ a st, r = .ok a st ∧ f a st = .raise code info st' := by
  cases r <;> simp

/-! ### What every end of a run satisfies -/

/-- The state a run ends in, by either end, satisfies `P`. -/
def Run.Ends (P : σ → Prop) : Run σ α → Prop
  | .ok _ st => P st
  | .raise _ _ st => P st

@[simp] theorem ends_ok {P : σ → Prop} {a : α} {st : σ} : (Run.ok a st).Ends P ↔ P st := Iff.rfl

@[simp] theorem ends_raise {P : σ → Prop} {code : FaultCode} {info : Word} {st : σ} :
    (Run.raise code info st : Run σ α).Ends P ↔ P st := Iff.rfl

theorem ends_andThen {P : σ → Prop} {r : Run σ α} {f : α → σ → Run σ β} (hr : r.Ends P)
    (hf : ∀ a st, P st → (f a st).Ends P) : (r.andThen f).Ends P := by
  cases r with
  | ok a st => exact hf a st hr
  | raise code info st => exact hr

theorem ends_lift {P : τ → Prop} {r : Run σ α} {put : σ → τ} (hr : r.Ends (fun st => P (put st))) :
    (r.lift put).Ends P := by
  cases r <;> exact hr

theorem ends_mono {P Q : σ → Prop} {r : Run σ α} (hr : r.Ends P) (h : ∀ st, P st → Q st) : r.Ends Q := by
  cases r <;> exact h _ hr

/-! ### The end of a command -/

/-- A command's end is a next state: by the normal end of R191, or by the fault entry of R200. -/
theorem endCommand_cases (r : Run State Unit) :
    (∃ s, r = .ok () s ∧ endCommand r = .next (commandDone s)) ∨
    (∃ code info s, r = .raise code info s ∧ endCommand r = .next (faultEntry code info s)) := by
  cases r with
  | ok _ s => exact .inl ⟨s, rfl, rfl⟩
  | raise code info s => exact .inr ⟨code, info, s, rfl, rfl⟩

@[simp] theorem endCommand_ok (s : State) : endCommand (.ok () s) = .next (commandDone s) := rfl

@[simp] theorem endCommand_raise (code : FaultCode) (info : Word) (s : State) :
    endCommand (.raise code info s) = .next (faultEntry code info s) := rfl

/-- What every end of the body satisfies and both ends of a command keep, the command's next state satisfies. -/
theorem endCommand_next_of_ends {P : State → Prop} {r : Run State Unit} {t : State} (h : endCommand r = .next t)
    (hr : r.Ends P) (hdone : ∀ s, P s → P (commandDone s)) (hfault : ∀ code info s, P s → P (faultEntry code info s)) :
    P t := by
  rcases endCommand_cases r with ⟨s, rfl, he⟩ | ⟨code, info, s, rfl, he⟩
  · rw [he] at h; cases h; exact hdone s hr
  · rw [he] at h; cases h; exact hfault code info s hr

/-! ### Operand checks (R75) -/

/-- A check goes on, or raises its fault and has changed nothing. -/
theorem check_cases (ok : Bool) (code : FaultCode) (info : Word) (s : State) (k : Run State Unit) :
    (ok = true ∧ check ok code info s k = k) ∨ (ok = false ∧ check ok code info s k = .raise code info s) := by
  cases ok
  · exact .inr ⟨rfl, rfl⟩
  · exact .inl ⟨rfl, rfl⟩

@[simp] theorem check_true (code : FaultCode) (info : Word) (s : State) (k : Run State Unit) :
    check true code info s k = k := rfl

@[simp] theorem check_false (code : FaultCode) (info : Word) (s : State) (k : Run State Unit) :
    check false code info s k = .raise code info s := rfl

theorem ends_check {P : State → Prop} {ok : Bool} {code : FaultCode} {info : Word} {s : State} {k : Run State Unit}
    (hs : P s) (hk : ok = true → k.Ends P) : (check ok code info s k).Ends P := by
  cases ok
  · exact hs
  · exact hk rfl

theorem checkSlot_of_le {slot : Nat} (s : State) (k : Run State Unit) (h : slot ≤ 5) : checkSlot slot s k = k := by
  simp [checkSlot, h]

theorem checkSlot_of_above {slot : Nat} (s : State) (k : Run State Unit) (h : 5 < slot) :
    checkSlot slot s k = .raise .badSlot (word slot) s := by
  have : ¬ slot ≤ 5 := by omega
  simp [checkSlot, this]

theorem checkBuilt_of_valid {slot : Nat} {s : State} (k : Run State Unit) (h : slot ≤ 5)
    (hv : (slotOf s slot).valid = true) : checkBuilt slot s k = k := by
  simp [checkBuilt, checkSlot_of_le s _ h, hv]

theorem checkBuilt_of_invalid {slot : Nat} {s : State} (k : Run State Unit) (h : slot ≤ 5)
    (hv : (slotOf s slot).valid = false) : checkBuilt slot s k = .raise .slotInvalid (word slot) s := by
  simp [checkBuilt, checkSlot_of_le s _ h, hv]

theorem checkLen_of_le {n limit : Nat} (s : State) (k : Run State Unit) (h : n ≤ limit) : checkLen n limit s k = k := by
  simp [checkLen, h]

theorem checkLen_of_above {n limit : Nat} (s : State) (k : Run State Unit) (h : limit < n) :
    checkLen n limit s k = .raise .badLen (word n) s := by
  have : ¬ n ≤ limit := by omega
  simp [checkLen, this]

theorem checkComp_of {comp : Nat} {s : State} (k : Run State Unit) (hc : comp < 3) (hg : geomValid s = true) :
    checkComp comp s k = k := by
  simp [checkComp, hc, hg]

theorem checkBlock_of {comp k : Nat} {s : State} (body : Run State Unit) (hc : comp < 3) (hg : geomValid s = true)
    (hk : k < nblocks s comp) : checkBlock comp k s body = body := by
  simp [checkBlock, checkComp_of _ hc hg, hk]

theorem checkRange_of {comp first count : Nat} {s : State} (body : Run State Unit) (hc : comp < 3)
    (hg : geomValid s = true) (hr : first + count ≤ nblocks s comp) : checkRange comp first count s body = body := by
  simp [checkRange, checkComp_of _ hc hg, hr]

theorem ends_checkSlot {P : State → Prop} {slot : Nat} {s : State} {k : Run State Unit} (hs : P s)
    (hk : slot ≤ 5 → k.Ends P) : (checkSlot slot s k).Ends P :=
  ends_check hs fun h => hk (by simpa using h)

theorem ends_checkBuilt {P : State → Prop} {slot : Nat} {s : State} {k : Run State Unit} (hs : P s)
    (hk : slot ≤ 5 → (slotOf s slot).valid = true → k.Ends P) : (checkBuilt slot s k).Ends P :=
  ends_checkSlot hs fun h => ends_check hs fun hv => hk h hv

theorem ends_checkLen {P : State → Prop} {n limit : Nat} {s : State} {k : Run State Unit} (hs : P s)
    (hk : n ≤ limit → k.Ends P) : (checkLen n limit s k).Ends P :=
  ends_check hs fun h => hk (by simpa using h)

theorem ends_checkComp {P : State → Prop} {comp : Nat} {s : State} {k : Run State Unit} (hs : P s)
    (hk : comp < 3 → geomValid s = true → k.Ends P) : (checkComp comp s k).Ends P :=
  ends_check hs fun hc => ends_check hs fun hg => hk (by simpa using hc) hg

theorem ends_checkBlock {P : State → Prop} {comp k : Nat} {s : State} {body : Run State Unit} (hs : P s)
    (hk : comp < 3 → geomValid s = true → k < nblocks s comp → body.Ends P) : (checkBlock comp k s body).Ends P :=
  ends_checkComp hs fun hc hg => ends_check hs fun hr => hk hc hg (by simpa using hr)

theorem ends_checkRange {P : State → Prop} {comp first count : Nat} {s : State} {body : Run State Unit} (hs : P s)
    (hk : comp < 3 → geomValid s = true → first + count ≤ nblocks s comp → body.Ends P) :
    (checkRange comp first count s body).Ends P :=
  ends_checkComp hs fun hc hg => ends_check hs fun hr => hk hc hg (by simpa using hr)

end Sys2Proof.Machine
end

