-- ==== Sys2Proof/Laws/Writer.lean ====
section
/-! SUPPORT. What the writer's primitives do (41_bitio.md R118, R119), each said once. -/

namespace Sys2Proof.Machine

/-- `EmitByte` raises WR_FULL and has changed nothing, or stores the byte (with its stuffing) and moves WR_PTR by the
bytes stored, within the limit. -/
theorem emitByte_cases (limit : Nat) (b : Byte) (p : OutPort) (hlim : limit < 2 ^ 32) :
    (limit < p.wr.ptr.toNat + stuffedSize b ∧ emitByte limit b p = .raise .wrFull p.wr.ptr p) ∨
    (∃ q, emitByte limit b p = .ok () q ∧ q.wr.ptr.toNat = p.wr.ptr.toNat + stuffedSize b ∧
      q.wr.ptr.toNat ≤ limit ∧ q.wr.acc = p.wr.acc ∧ q.wr.cnt = p.wr.cnt ∧
      q.mem = storeStuffed p.mem p.wr.ptr.toNat b) := by
  by_cases h : limit < p.wr.ptr.toNat + stuffedSize b
  · exact .inl ⟨h, by simp [emitByte, h]⟩
  · have hs : stuffedSize b ≤ 2 := by unfold stuffedSize; split <;> omega
    have hw : (p.wr.ptr + word (stuffedSize b)).toNat = p.wr.ptr.toNat + stuffedSize b := by
      rw [BitVec.toNat_add, BitVec.toNat_ofNat]; omega
    refine .inr ⟨{ wr := { p.wr with ptr := p.wr.ptr + word (stuffedSize b) },
                   mem := storeStuffed p.mem p.wr.ptr.toNat b }, ?_, hw, ?_, rfl, rfl, rfl⟩
    · simp only [emitByte, if_neg h]
    · simp only [hw]; omega

/-- A stuffed store shows at its one or two bytes and nowhere else. -/
theorem memRead_storeStuffed (m : Memory) (j : Nat) (b : Byte) (a : Nat) :
    memRead (storeStuffed m j b) a =
      if a = outAddr j then b else if b = 0xFF ∧ a = outAddr (j + 1) then 0x00 else memRead m a := by
  have hne : outAddr j ≠ outAddr (j + 1) := by simp [outAddr]
  by_cases hb : b = 0xFF
  · by_cases h0 : a = outAddr j
    · subst h0; simp [storeStuffed, hb, hne]
    · simp [storeStuffed, hb, h0]
  · rw [storeStuffed, if_neg hb, memRead_memWrite, if_neg (show ¬ (b = 0xFF ∧ a = outAddr (j + 1)) from fun h => hb h.1)]

theorem memRead_storeStuffed_other (m : Memory) {j : Nat} {b : Byte} {a : Nat}
    (h : a < outAddr j ∨ outAddr (j + stuffedSize b) ≤ a) : memRead (storeStuffed m j b) a = memRead m a := by
  have hs : stuffedSize b = if b = 0xFF then 2 else 1 := rfl
  rw [memRead_storeStuffed]
  split
  · next h0 => simp only [outAddr] at h h0; split at hs <;> omega
  · split
    · next h0 h1 => rw [if_pos h1.1] at hs; simp only [outAddr] at h h1; omega
    · rfl

theorem wf_storeStuffed {m : Memory} (h : m.wf) (j : Nat) (b : Byte) : (storeStuffed m j b).wf := by
  unfold storeStuffed; split
  · exact wf_memWrite (wf_memWrite h _ _) _ _
  · exact wf_memWrite h _ _

/-- What appending bits can do to the writer's part, ended either way: WR_PTR does not go back, nor past the limit, RAM
changes only between WR_PTR and the limit, and the canonical form stays. -/
def AppendFrame (limit : Nat) (p q : OutPort) : Prop :=
  p.wr.ptr.toNat ≤ q.wr.ptr.toNat ∧ q.wr.ptr.toNat ≤ max p.wr.ptr.toNat limit ∧ (p.mem.wf → q.mem.wf) ∧
    ∀ a, (a < outAddr p.wr.ptr.toNat ∨ outAddr limit ≤ a) → memRead q.mem a = memRead p.mem a

theorem appendFrame_refl (limit : Nat) (p : OutPort) : AppendFrame limit p p :=
  ⟨Nat.le_refl _, Nat.le_max_left _ _, id, fun _ _ => rfl⟩

theorem appendFrame_trans {limit : Nat} {p q r : OutPort} (h : AppendFrame limit p q) (h' : AppendFrame limit q r) :
    AppendFrame limit p r := by
  refine ⟨Nat.le_trans h.1 h'.1, ?_, h'.2.2.1 ∘ h.2.2.1, fun a ha => ?_⟩
  · have := h.2.1; have := h'.2.1; omega
  · rw [h'.2.2.2 a (ha.imp (fun hlt => by have := h.1; simp only [outAddr] at hlt ⊢; omega) id), h.2.2.2 a ha]

/-- Two pieces that each append, one after the other. -/
theorem appendFrame_andThen {α β : Type} {limit : Nat} {p : OutPort} {r : Run OutPort α}
    {f : α → OutPort → Run OutPort β} (hr : r.Ends (AppendFrame limit p))
    (hf : ∀ a q, (f a q).Ends (AppendFrame limit q)) : (r.andThen f).Ends (AppendFrame limit p) :=
  ends_andThen hr fun a q hq => ends_mono (hf a q) fun _ h => appendFrame_trans hq h

theorem emitByte_frame (limit : Nat) (hlim : limit < 2 ^ 32) (b : Byte) (p : OutPort) :
    (emitByte limit b p).Ends (AppendFrame limit p) := by
  rcases emitByte_cases limit b p hlim with ⟨-, h⟩ | ⟨q, h, hp, hl, -, -, hm⟩
  · rw [h]; exact appendFrame_refl limit p
  · rw [h]
    refine ⟨by omega, by omega, fun hw => hm ▸ wf_storeStuffed hw _ _, fun a ha => ?_⟩
    rw [hm]; exact memRead_storeStuffed_other p.mem (ha.imp id fun hge => by simp only [outAddr] at hge ⊢; omega)

theorem putBit_frame (limit : Nat) (hlim : limit < 2 ^ 32) (bit : Bool) (p : OutPort) :
    (putBit limit bit p).Ends (AppendFrame limit p) := by
  unfold putBit; split
  · exact ends_andThen (P := AppendFrame limit p) (emitByte_frame limit hlim _ _) fun _ q hq => hq
  · exact appendFrame_refl limit p

/-- `PutBits` moves WR_PTR forward and touches RAM only between WR_PTR and the limit. -/
theorem putBits_frame (limit : Nat) (hlim : limit < 2 ^ 32) : ∀ (n v : Nat) (p : OutPort),
    (putBits limit n v p).Ends (AppendFrame limit p)
  | 0, _, p => appendFrame_refl limit p
  | n + 1, v, p => by
    unfold putBits
    exact appendFrame_andThen (putBit_frame limit hlim _ p) fun _ q => putBits_frame limit hlim n v q

/-- FLUSH appends, too. -/
theorem flushBits_frame (limit : Nat) (hlim : limit < 2 ^ 32) (p : OutPort) :
    (flushBits limit p).Ends (AppendFrame limit p) := by
  unfold flushBits; split
  · exact appendFrame_refl limit p
  · exact putBits_frame limit hlim _ _ p

@[simp] theorem putBits_zero (limit v : Nat) (p : OutPort) : putBits limit 0 v p = .ok () p := rfl

/-- The bit counter of a pushed bit. -/
theorem pushBit_cnt (w : Writer) (bit : Bool) (h : w.cnt.toNat ≤ 7) : (pushBit w bit).cnt.toNat = w.cnt.toNat + 1 := by
  simp only [pushBit, BitVec.toNat_add]; simp; omega

end Sys2Proof.Machine
end

