-- ==== Sys2Proof/Laws/Block.lean ====
section
/-! SUPPORT. What the block encoder's pieces can do (42_block.md R141): each appends to the writer and no more. -/

namespace Sys2Proof.Machine

theorem hencSym_frame (t : HuffSlot) (limit : Nat) (hlim : limit < 2 ^ 32) (x : Byte) (p : OutPort) :
    (hencSym t limit x p).Ends (AppendFrame limit p) := by
  unfold hencSym; split
  · exact appendFrame_refl limit p
  · exact putBits_frame limit hlim _ _ p

theorem encodeZrls_frame (t : HuffSlot) (limit : Nat) (hlim : limit < 2 ^ 32) : ∀ (n : Nat) (p : OutPort),
    (encodeZrls t limit n p).Ends (AppendFrame limit p)
  | 0, p => appendFrame_refl limit p
  | n + 1, p => appendFrame_andThen (hencSym_frame t limit hlim _ p) fun _ q => encodeZrls_frame t limit hlim n q

theorem encodeValue_frame (t : HuffSlot) (limit : Nat) (hlim : limit < 2 ^ 32) (r : Nat) (v : Int) (p : OutPort) :
    (encodeValue t limit r v p).Ends (AppendFrame limit p) := by
  unfold encodeValue; split
  · exact appendFrame_refl limit p
  · exact appendFrame_andThen (hencSym_frame t limit hlim _ p) fun _ q => putBits_frame limit hlim _ _ q

theorem encodeAc_frame (c : Config) (limit : Nat) (hlim : limit < 2 ^ 32) (t : HuffSlot) (comp k : Nat) :
    ∀ (n j r : Nat) (p : OutPort), (encodeAc c limit t comp k n j r p).Ends (AppendFrame limit p)
  | 0, _, r, p => by
    unfold encodeAc; split
    · exact hencSym_frame t limit hlim _ p
    · exact appendFrame_refl limit p
  | n + 1, j, r, p => by
    unfold encodeAc; split
    · exact encodeAc_frame c limit hlim t comp k n _ _ p
    · exact appendFrame_andThen (encodeZrls_frame t limit hlim _ p) fun _ q =>
        appendFrame_andThen (encodeValue_frame t limit hlim _ _ q) fun _ q =>
          encodeAc_frame c limit hlim t comp k n _ _ q

/-- ENCBLK's body moves WR_PTR forward and touches RAM only between WR_PTR and OUT_LEN. -/
theorem encodeBlock_frame (dcs acs comp : Nat) (s : State) (p : OutPort) :
    (encodeBlock dcs acs comp s p).Ends (AppendFrame s.outLen.toNat p) :=
  appendFrame_andThen (encodeValue_frame _ _ s.outLen.isLt _ _ p) fun _ q =>
    encodeAc_frame _ _ s.outLen.isLt _ _ _ _ _ _ q

end Sys2Proof.Machine
end

