-- ==== Sys2Proof/Laws/Huffman.lean ====
section
/-! SUPPORT. What table lookup and table building do at the level of one operation (40_huffman.md R90, R93). -/

namespace Sys2Proof.Machine

theorem mem_allSymbols (x : Byte) : x ∈ allSymbols :=
  List.mem_map.mpr ⟨x.toNat, List.mem_range.mpr x.isLt, by simp⟩

/-- A match has the length and the code looked for. -/
theorem matchCode_some {t : HuffSlot} {L top : Nat} {x : Byte} (h : matchCode t L top = some x) :
    lenAt t x = L ∧ codeAt t x = top := by
  simpa using List.find?_some h

/-- No match means that no symbol has this length and code. -/
theorem matchCode_none {t : HuffSlot} {L top : Nat} (h : matchCode t L top = none) (x : Byte) (hl : lenAt t x = L) :
    codeAt t x ≠ top := by
  have := List.find?_eq_none.mp h x (mem_allSymbols x)
  simpa [hl] using this

/-- Building a slot installs a table in that slot or clears its validity, and changes nothing else. -/
theorem buildSlot_cases (slot : Nat) (s : State) :
    (∃ t, buildTable s.mem slot = .ok t ∧ t.valid = true ∧ buildSlot slot s = .ok () (withSlot s slot t)) ∨
    (∃ code info, buildTable s.mem slot = .error (code, info) ∧
      buildSlot slot s = .raise code info (withSlot s slot (invalidate (slotOf s slot)))) := by
  cases h : buildTable s.mem slot with
  | error e => exact .inr ⟨e.1, e.2, rfl, by simp [buildSlot, h]⟩
  | ok t =>
    refine .inl ⟨t, rfl, ?_, by simp [buildSlot, h]⟩
    unfold buildTable at h
    split at h
    · cases h
    · split at h
      · cases h
      · cases h; rfl

/-- One code added: the running code fits its length, the symbol was not registered, and only its entries change. -/
theorem buildCode_ok {m : Memory} {s L : Nat} {b b' : Builder} (h : buildCode m s L b = .ok b') :
    b.next < 2 ^ L ∧ b.len.getD (huffvalOf m s b.k).toNat 0 = 0 ∧ b'.next = b.next + 1 ∧ b'.k = b.k + 1 ∧
      b'.len = b.len.setIfInBounds (huffvalOf m s b.k).toNat (BitVec.ofNat 5 L) ∧
      b'.code = b.code.setIfInBounds (huffvalOf m s b.k).toNat (BitVec.ofNat 16 b.next) := by
  unfold buildCode at h
  split at h
  · cases h
  · split at h
    · cases h
    · next hlt hz => cases h; exact ⟨by omega, Decidable.of_not_not hz, rfl, rfl, rfl, rfl⟩

end Sys2Proof.Machine
end

