-- ==== Sys2Proof/Laws/PerInstr.lean ====
section
/-! SUPPORT. The family `Fields`: the word of a command that fits its fields holds exactly the fields R73 and R77 give
it; no field reaches into its neighbour (30_encoding.md R70, R71). One lemma per command. -/

namespace Sys2Proof.Laws.Fields

/-- The fields of the command's word are the command's fields. -/
def Statement (i : Instr) : Prop := WellFormed i → fieldsOf (encode i) = encodeFields i

/-- The fields of the number four fields within their widths make. -/
theorem fields_of_number (op a b imm : Nat) (hop : op < 256) (ha : a < 16) (hb : b < 16) (hi : imm < 65536) :
    (op * 2 ^ 24 + a * 2 ^ 20 + b * 2 ^ 16 + imm) % 2 ^ 32 / 2 ^ 24 % 2 ^ 8 = op ∧
    (op * 2 ^ 24 + a * 2 ^ 20 + b * 2 ^ 16 + imm) % 2 ^ 32 / 2 ^ 20 % 2 ^ 4 = a ∧
    (op * 2 ^ 24 + a * 2 ^ 20 + b * 2 ^ 16 + imm) % 2 ^ 32 / 2 ^ 16 % 2 ^ 4 = b ∧
    (op * 2 ^ 24 + a * 2 ^ 20 + b * 2 ^ 16 + imm) % 2 ^ 32 / 2 ^ 0 % 2 ^ 16 = imm := by
  refine ⟨?_, ?_, ?_, ?_⟩ <;> omega

/-- A bit field of a word made of a number. -/
theorem field_of_word (n start len : Nat) :
    ((word n).extractLsb' start len).toNat = n % 2 ^ 32 / 2 ^ start % 2 ^ len := by
  rw [BitVec.extractLsb'_toNat, Nat.shiftRight_eq_div_pow, BitVec.toNat_ofNat]

/-- Fields within their widths come back from the word they make (R70, R71). -/
theorem fieldsOf_wordOf (f : Fields) (hop : f.op < 256) (ha : f.a < 16) (hb : f.b < 16) (hi : f.imm < 65536) :
    fieldsOf (wordOf f) = f := by
  obtain ⟨h1, h2, h3, h4⟩ := fields_of_number f.op f.a f.b f.imm hop ha hb hi
  unfold fieldsOf wordOf
  rw [field_of_word, field_of_word, field_of_word, field_of_word, h1, h2, h3, h4]

theorem nop : Statement .nop := by
  intro _
  apply fieldsOf_wordOf <;> simp only [encodeFields] <;> omega

theorem hbuild (slot : Nat) : Statement (.hbuild slot) := by
  intro h
  simp only [WellFormed, slotFits] at h
  apply fieldsOf_wordOf <;> simp only [encodeFields] <;> omega

theorem hgen (slot : Nat) : Statement (.hgen slot) := by
  intro h
  simp only [WellFormed, slotFits] at h
  apply fieldsOf_wordOf <;> simp only [encodeFields] <;> omega

theorem hdec (slot : Nat) (eosok : Bool) : Statement (.hdec slot eosok) := by
  intro h
  simp only [WellFormed, slotFits] at h
  have : flagBit eosok ≤ 1 := by cases eosok <;> simp [flagBit]
  apply fieldsOf_wordOf <;> simp only [encodeFields] <;> omega

theorem henc (slot : Nat) (sym : Byte) : Statement (.henc slot sym) := by
  intro h
  simp only [WellFormed, slotFits] at h
  have := sym.isLt
  apply fieldsOf_wordOf <;> simp only [encodeFields] <;> omega

theorem hcode (slot : Nat) (sym : Byte) : Statement (.hcode slot sym) := by
  intro h
  simp only [WellFormed, slotFits] at h
  have := sym.isLt
  apply fieldsOf_wordOf <;> simp only [encodeFields] <;> omega

theorem hinv (slot : Nat) : Statement (.hinv slot) := by
  intro h
  simp only [WellFormed, slotFits] at h
  apply fieldsOf_wordOf <;> simp only [encodeFields] <;> omega

theorem fclr : Statement .fclr := by
  intro _
  apply fieldsOf_wordOf <;> simp only [encodeFields] <;> omega

theorem finc (sym : Byte) : Statement (.finc sym) := by
  intro _
  have := sym.isLt
  apply fieldsOf_wordOf <;> simp only [encodeFields] <;> omega

theorem fhist (comp : Nat) : Statement (.fhist comp) := by
  intro h
  simp only [WellFormed, compFits] at h
  apply fieldsOf_wordOf <;> simp only [encodeFields] <;> omega

theorem rdinit : Statement .rdinit := by
  intro _
  apply fieldsOf_wordOf <;> simp only [encodeFields] <;> omega

theorem getbits (n : Nat) : Statement (.getbits n) := by
  intro h
  simp only [WellFormed] at h
  apply fieldsOf_wordOf <;> simp only [encodeFields] <;> omega

theorem receive (n : Nat) : Statement (.receive n) := by
  intro h
  simp only [WellFormed] at h
  apply fieldsOf_wordOf <;> simp only [encodeFields] <;> omega

theorem wrinit : Statement .wrinit := by
  intro _
  apply fieldsOf_wordOf <;> simp only [encodeFields] <;> omega

theorem putbits (n : Nat) : Statement (.putbits n) := by
  intro h
  simp only [WellFormed] at h
  apply fieldsOf_wordOf <;> simp only [encodeFields] <;> omega

theorem putvli : Statement .putvli := by
  intro _
  apply fieldsOf_wordOf <;> simp only [encodeFields] <;> omega

theorem vcat : Statement .vcat := by
  intro _
  apply fieldsOf_wordOf <;> simp only [encodeFields] <;> omega

theorem flush : Statement .flush := by
  intro _
  apply fieldsOf_wordOf <;> simp only [encodeFields] <;> omega

theorem decblk (dcs : Nat) (acs : Nat) (comp : Nat) (eosok : Bool) : Statement (.decblk dcs acs comp eosok) := by
  intro h
  simp only [WellFormed, slotFits, compFits] at h
  have : flagBit eosok ≤ 1 := by cases eosok <;> simp [flagBit]
  apply fieldsOf_wordOf <;> simp only [encodeFields] <;> omega

theorem encblk (dcs : Nat) (acs : Nat) (comp : Nat) : Statement (.encblk dcs acs comp) := by
  intro h
  simp only [WellFormed, slotFits, compFits] at h
  apply fieldsOf_wordOf <;> simp only [encodeFields] <;> omega

theorem dpcmdec (comp : Nat) : Statement (.dpcmdec comp) := by
  intro h
  simp only [WellFormed, compFits] at h
  apply fieldsOf_wordOf <;> simp only [encodeFields] <;> omega

theorem dpcmenc (comp : Nat) : Statement (.dpcmenc comp) := by
  intro h
  simp only [WellFormed, compFits] at h
  apply fieldsOf_wordOf <;> simp only [encodeFields] <;> omega

theorem spdec (comp : Nat) : Statement (.spdec comp) := by
  intro h
  simp only [WellFormed, compFits] at h
  apply fieldsOf_wordOf <;> simp only [encodeFields] <;> omega

theorem spenc (comp : Nat) : Statement (.spenc comp) := by
  intro h
  simp only [WellFormed, compFits] at h
  apply fieldsOf_wordOf <;> simp only [encodeFields] <;> omega

theorem sppred (comp : Nat) : Statement (.sppred comp) := by
  intro h
  simp only [WellFormed, compFits] at h
  apply fieldsOf_wordOf <;> simp only [encodeFields] <;> omega

end Sys2Proof.Laws.Fields
end

