-- ==== Sys2Proof/Laws/Reader.lean ====
section
/-! SUPPORT. What the reader's primitives do (41_bitio.md R110 to R113), each said once. -/

namespace Sys2Proof.Machine

/-! ### Fetch (R110) -/

/-- A fetch that finds no byte sets EOD and leaves the buffer and RD_PTR. -/
theorem fetch_none {m : Memory} {len : Nat} {r r' : Reader} (h : fetch m len r = (none, r')) :
    r'.eod = true ∧ r'.ptr = r.ptr ∧ r'.buf = r.buf ∧ r'.cnt = r.cnt ∧ bytesAhead m len r = [] := by
  have hd : ∀ fuel, len ≤ r.ptr.toNat → destuff m len fuel r.ptr.toNat = [] := by
    intro fuel hl; cases fuel <;> simp [destuff, hl]
  unfold fetch at h
  split at h
  · next he => cases h; simp [he, bytesAhead]
  · next he =>
    split at h
    · next hl => cases h; simp [bytesAhead, he, hd _ hl]
    · next hl =>
      split at h
      · cases h
      · next hb =>
        split at h
        · next hl2 =>
          cases h
          have hx : len - r.ptr.toNat = 1 := by omega
          have hb' := Decidable.of_not_not hb
          simp [bytesAhead, he, hx, destuff, hl, hb', hl2]
        · next hl2 =>
          split at h
          · cases h
          · next hm =>
            cases h
            obtain ⟨n, hx⟩ : ∃ n, len - r.ptr.toNat = n + 1 := ⟨len - r.ptr.toNat - 1, by omega⟩
            have hb' := Decidable.of_not_not hb
            have he' : r.eod = false := by simpa using he
            refine ⟨rfl, rfl, rfl, rfl, ?_⟩
            simp only [bytesAhead, he', hx, Bool.false_eq_true, if_false]
            rw [destuff, if_neg hl, if_neg (by simp [hb']), if_neg hl2, if_neg hm]

/-- More fuel than bytes left makes no difference. -/
theorem destuff_fuel (m : Memory) (len : Nat) : ∀ (a b p : Nat), len - p ≤ a → len - p ≤ b →
    destuff m len a p = destuff m len b p := by
  intro a
  induction a with
  | zero =>
    intro b p ha _
    have : len ≤ p := by omega
    cases b <;> simp [destuff, this]
  | succ a ih =>
    intro b p ha hb
    cases b with
    | zero =>
      have : len ≤ p := by omega
      simp [destuff, this]
    | succ b =>
      simp only [destuff]
      split
      · rfl
      · split
        · rw [ih b (p + 1) (by omega) (by omega)]
        · split
          · rfl
          · split
            · rw [ih b (p + 2) (by omega) (by omega)]
            · rfl

/-- A fetch that finds a byte takes the first of the bytes ahead, moves RD_PTR within IN_LEN, and leaves the rest. -/
theorem fetch_some {m : Memory} {len : Nat} {r r' : Reader} {b : Byte} (hlen : len < 2 ^ 32)
    (h : fetch m len r = (some b, r')) :
    r.eod = false ∧ r'.eod = false ∧ r'.marker = r.marker ∧ r'.buf = r.buf ∧ r'.cnt = r.cnt ∧
      r.ptr.toNat < r'.ptr.toNat ∧ r'.ptr.toNat ≤ len ∧ bytesAhead m len r = b :: bytesAhead m len r' := by
  unfold fetch at h
  split at h
  · cases h
  · next he =>
    have he' : r.eod = false := by simpa using he
    split at h
    · cases h
    · next hl =>
      obtain ⟨n, hx⟩ : ∃ n, len - r.ptr.toNat = n + 1 := ⟨len - r.ptr.toNat - 1, by omega⟩
      have p1 : (r.ptr + 1).toNat = r.ptr.toNat + 1 := by
        rw [BitVec.toNat_add]; simp; omega
      split at h
      · next hb =>
        cases h
        refine ⟨he', he', rfl, rfl, rfl, by simp only [p1]; omega, by simp only [p1]; omega, ?_⟩
        simp only [bytesAhead, he', hx, p1, Bool.false_eq_true, if_false]
        rw [destuff, if_neg hl, if_pos hb, destuff_fuel m len n (len - (r.ptr.toNat + 1)) (r.ptr.toNat + 1) (by omega) (by omega)]
      · next hb =>
        split at h
        · cases h
        · next hl2 =>
          split at h
          · next hm =>
            cases h
            have p2 : (r.ptr + 2).toNat = r.ptr.toNat + 2 := by
              rw [BitVec.toNat_add]; simp; omega
            have hb' := Decidable.of_not_not hb
            refine ⟨he', he', rfl, rfl, rfl, by simp only [p2]; omega, by simp only [p2]; omega, ?_⟩
            simp only [bytesAhead, he', hx, p2, Bool.false_eq_true, if_false]
            rw [destuff, if_neg hl, if_neg (by simp [hb']), if_neg hl2, if_pos hm, destuff_fuel m len n (len - (r.ptr.toNat + 2)) (r.ptr.toNat + 2) (by omega) (by omega)]
          · cases h

/-! ### The buffer -/

theorem pushByte_cnt (r : Reader) (b : Byte) (h : r.cnt.toNat ≤ 23) : (pushByte r b).cnt.toNat = r.cnt.toNat + 8 := by
  simp [pushByte]; omega

/-- A pushed byte extends the number the buffer holds by eight bits. -/
theorem pushByte_buf (r : Reader) (b : Byte) (h : r.buf.toNat < 2 ^ 24) :
    (pushByte r b).buf.toNat = r.buf.toNat * 2 ^ 8 + b.toNat := by
  have hb := b.isLt
  have hs : (r.buf <<< 8).toNat = r.buf.toNat * 2 ^ 8 := by
    rw [BitVec.toNat_shiftLeft, Nat.shiftLeft_eq, Nat.mod_eq_of_lt (by omega)]
  simp only [pushByte, BitVec.toNat_or, hs, BitVec.toNat_setWidth]
  rw [Nat.mod_eq_of_lt (by omega), Nat.mul_comm, ← Nat.two_pow_add_eq_or_of_lt hb]

/-- Only the buffer and its count change. -/
@[simp] theorem pushByte_ptr (r : Reader) (b : Byte) : (pushByte r b).ptr = r.ptr := rfl
@[simp] theorem pushByte_eod (r : Reader) (b : Byte) : (pushByte r b).eod = r.eod := rfl
@[simp] theorem pushByte_marker (r : Reader) (b : Byte) : (pushByte r b).marker = r.marker := rfl

/-- Taking no bits does nothing (R112). -/
@[simp] theorem takeBits_zero (m : Memory) (len : Nat) (r : Reader) : takeBits m len 0 r = .ok 0 r := rfl

/-- A pull that falls short has reached the end of data; one that succeeds has buffered `n` bits. -/
theorem pullTo_spec {m : Memory} {len n : Nat} : ∀ {fuel : Nat} {r r' : Reader} {ok : Bool},
    r.cnt.toNat ≤ 31 → n ≤ 24 → n ≤ r.cnt.toNat + 8 * fuel → pullTo m len n fuel r = (ok, r') →
    (ok = true → n ≤ r'.cnt.toNat) ∧ (ok = false → r'.eod = true ∧ r'.cnt.toNat < n) := by
  intro fuel
  induction fuel with
  | zero =>
    intro r r' ok _ _ hf h
    simp only [pullTo, Prod.mk.injEq] at h
    obtain ⟨rfl, rfl⟩ := h
    have hn' : n ≤ r.cnt.toNat := by omega
    simp [hn']
  | succ fuel ih =>
    intro r r' ok hc hn hf h
    simp only [pullTo] at h
    split at h
    · cases h; simpa
    · next hlt =>
      split at h
      · next r1 hfe =>
        cases h
        obtain ⟨he, -, -, hcnt, -⟩ := fetch_none hfe
        simp only [he, hcnt, Bool.false_eq_true, false_implies, true_and]; omega
      · next b r1 hfe =>
        have hcnt : r1.cnt = r.cnt := by
          unfold fetch at hfe
          repeat' split at hfe
          all_goals first | (cases hfe; rfl) | cases hfe
        have h8 : (pushByte r1 b).cnt.toNat = r.cnt.toNat + 8 := by
          rw [pushByte_cnt r1 b (by rw [hcnt]; omega), hcnt]
        exact ih (by omega) hn (by omega) h

end Sys2Proof.Machine
end

