-- ==== Sys2Proof/Laws/Reset.lean ====
section
/-! SUPPORT. What an abandoned command frees (20_memory.md R64; 70_reset_and_hazards.md R211): the bytes it could write
are those of `writesByte`, and everything else is as before. -/

namespace Sys2Proof.Machine

/-! ### Free contents of RAM -/

theorem memRead_filter_other (region : Nat → Bool) {a : Nat} (h : region a = false) : ∀ m : Memory,
    memRead (m.filter (fun x => !region x.1)) a = memRead m a
  | [] => rfl
  | (x, v) :: m => by
    have ih := memRead_filter_other region h m
    by_cases hx : x = a
    · subst hx; simp [memRead, h]
    · cases hr : region x <;> simp [memRead, hr, hx, ih]

/-- Free contents show inside the region only. -/
theorem memRead_freeRam_other {region : Nat → Bool} {a : Nat} (s : State) (h : region a = false) :
    memRead (freeRam region s).mem a = memRead s.mem a := by
  have key : ∀ (l : List Host.Cell) (m : Memory),
      memRead (l.foldl (fun m x => if region x.1 && backed s.cfg x.1 then memWrite m x.1 x.2 else m) m) a =
        memRead m a := by
    intro l
    induction l with
    | nil => intro m; rfl
    | cons c l ih =>
      intro m
      rw [List.foldl_cons, ih]
      split
      · next hc =>
        refine memRead_memWrite_other m c.2 fun he => ?_
        rw [← he, h] at hc; simp at hc
      · rfl
  simp only [freeRam, key, memRead_filter_other region h]

/-- Free contents keep memory canonical. -/
theorem wf_freeRam (region : Nat → Bool) {s : State} (h : s.mem.wf) : (freeRam region s).mem.wf := by
  have key : ∀ (l : List Host.Cell) (m : Memory), m.wf →
      (l.foldl (fun m x => if region x.1 && backed s.cfg x.1 then memWrite m x.1 x.2 else m) m).wf := by
    intro l
    induction l with
    | nil => exact fun m hm => hm
    | cons c l ih =>
      intro m hm
      rw [List.foldl_cons]
      refine ih _ ?_
      split
      · exact wf_memWrite hm _ _
      · exact hm
  exact key _ _ ⟨h.1.filter _, fun c hc => h.2 c (List.mem_of_mem_filter hc)⟩

/-! ### Free registers -/

/-- Registers and cursors freed for a command are the cursors, RES and the slots. -/
theorem freeRegisters_eq (i : Instr) (s : State) :
    freeRegisters i s = { s with rd := (freeRegisters i s).rd, wr := (freeRegisters i s).wr,
                                 res := (freeRegisters i s).res, slots := (freeRegisters i s).slots } := by
  cases i <;> simp only [freeRegisters] <;> first | rfl | (split <;> rfl)

theorem freeRegisters_rd {i : Instr} (s : State) (h : writesReader i = false) : (freeRegisters i s).rd = s.rd := by
  cases i <;> first | (simp [writesReader] at h; done) | rfl | (simp only [freeRegisters]; split <;> rfl)

theorem freeRegisters_wr {i : Instr} (s : State) (h : writesWriter i = false) : (freeRegisters i s).wr = s.wr := by
  cases i <;> first | (simp [writesWriter] at h; done) | rfl | (simp only [freeRegisters]; split <;> rfl)

theorem freeRegisters_res {i : Instr} (s : State) (h : writesRes i = false) : (freeRegisters i s).res = s.res := by
  cases i <;> first | (simp [writesRes] at h; done) | rfl | (simp only [freeRegisters]; split <;> rfl)

theorem slotOf_withSlot_other (s : State) {n k : Nat} (t : HuffSlot) (h : k ≠ n) :
    slotOf (withSlot s n t) k = slotOf s k := by
  simp [slotOf, withSlot, Vector.getD, Ne.symm h]

theorem freeRegisters_slotOf {i : Instr} {n : Nat} (s : State) (h : ¬ writesSlot i n) :
    slotOf (freeRegisters i s) n = slotOf s n := by
  cases i <;> first
    | rfl
    | exact slotOf_withSlot_other s _ h
    | (simp only [freeRegisters]; split <;> exact slotOf_withSlot_other s _ h)

/-! ### Operand checks, both ways -/

/-- A check that fails raises one of the operand checks' faults and has changed nothing. -/
def Stops (r : Run State Unit) (s : State) : Prop := ∃ code info, code ∈ checkCodes ∧ r = .raise code info s

theorem check_or_stops {ok : Bool} {code : FaultCode} {info : Word} {s : State} {k : Run State Unit}
    (hc : code ∈ checkCodes) : (ok = true ∧ check ok code info s k = k) ∨ Stops (check ok code info s k) s := by
  rcases check_cases ok code info s k with h | h
  · exact .inl h
  · exact .inr ⟨code, info, hc, h.2⟩

theorem checkSlot_or_stops (slot : Nat) (s : State) (k : Run State Unit) :
    (slot ≤ 5 ∧ checkSlot slot s k = k) ∨ Stops (checkSlot slot s k) s :=
  (check_or_stops (by decide)).imp (fun h => ⟨by simpa using h.1, h.2⟩) id

theorem checkBuilt_or_stops (slot : Nat) (s : State) (k : Run State Unit) :
    checkBuilt slot s k = k ∨ Stops (checkBuilt slot s k) s := by
  rcases checkSlot_or_stops slot s (check (slotOf s slot).valid .slotInvalid (word slot) s k) with ⟨-, h⟩ | h
  · unfold checkBuilt; rw [h]
    exact (check_or_stops (by decide)).imp (fun h => h.2) id
  · exact .inr h

theorem checkComp_or_stops (comp : Nat) (s : State) (k : Run State Unit) :
    (comp < 3 ∧ geomValid s = true ∧ checkComp comp s k = k) ∨ Stops (checkComp comp s k) s := by
  unfold checkComp
  rcases check_or_stops (ok := decide (comp < 3)) (info := word comp) (s := s)
    (k := check (geomValid s) .geom s.geom s k) (show FaultCode.badComp ∈ checkCodes by decide) with ⟨hc, h⟩ | h
  · rw [h]
    exact (check_or_stops (by decide)).imp (fun h => ⟨by simpa using hc, h⟩) id
  · exact .inr h

theorem checkBlock_or_stops (comp k : Nat) (s : State) (body : Run State Unit) :
    (comp < 3 ∧ geomValid s = true ∧ k < nblocks s comp ∧ checkBlock comp k s body = body) ∨
      Stops (checkBlock comp k s body) s := by
  unfold checkBlock
  rcases checkComp_or_stops comp s (check (decide (k < nblocks s comp)) .blkRange (word k) s body) with ⟨hc, hg, h⟩ | h
  · rw [h]
    exact (check_or_stops (by decide)).imp (fun h => ⟨hc, hg, by simpa using h.1, h.2⟩) id
  · exact .inr h

theorem checkRange_or_stops (comp first count : Nat) (s : State) (body : Run State Unit) :
    (comp < 3 ∧ geomValid s = true ∧ first + count ≤ nblocks s comp ∧ checkRange comp first count s body = body) ∨
      Stops (checkRange comp first count s body) s := by
  unfold checkRange
  rcases checkComp_or_stops comp s
    (check (decide (first + count ≤ nblocks s comp)) .blkRange (word (first + count)) s body) with ⟨hc, hg, h⟩ | h
  · rw [h]
    exact (check_or_stops (by decide)).imp (fun h => ⟨hc, hg, by simpa using h.1, h.2⟩) id
  · exact .inr h

/-! ### The bytes an abandoned command could write -/

/-- The state `endOf` runs the command in. -/
abbrev undecided (s : State) : State := { s with eos := false, recorded := none }

/-- A command whose run is stopped by an operand check ends at one. -/
theorem endsAtCheck_of_stops {i : Instr} {s : State} {r : Run State Unit} (hx : exec i (undecided s) = endCommand r)
    (h : Stops r (undecided s)) : endsAtCheck i s = true := by
  obtain ⟨code, info, hc, rfl⟩ := h
  simp only [endsAtCheck, endOf]
  rw [hx, endCommand_raise, faultEntry_of_none code info rfl]
  simpa using hc

/-- What the writer's commands leave of WR_PTR: not past OUT_LEN, unless it was. -/
theorem endOf_wr_le {i : Instr} {s : State} {r : Run State Unit} (hx : exec i (undecided s) = endCommand r)
    (h : r.Ends fun t => t.wr.ptr.toNat ≤ max s.wr.ptr.toNat s.outLen.toNat) :
    (endOf i s).wr.ptr.toNat ≤ max s.wr.ptr.toNat s.outLen.toNat := by
  simp only [endOf]
  rw [hx]
  rcases endCommand_cases r with ⟨t, rfl, he⟩ | ⟨code, info, t, rfl, he⟩
  · rw [he]; simpa using h
  · rw [he]; simpa using h

theorem ends_withOutPort {s : State} {r : Run OutPort Unit} (h : r.Ends (AppendFrame s.outLen.toNat (outPort s))) :
    (r.lift (withOutPort s)).Ends fun t => t.wr.ptr.toNat ≤ max s.wr.ptr.toNat s.outLen.toNat :=
  ends_lift (ends_mono h fun _ hq => hq.2.1)

theorem inOut_writes {s : State} {a upto : Nat} (h : inOut s.wr.ptr.toNat upto a = true)
    (hu : upto ≤ max s.wr.ptr.toNat s.outLen.toNat) :
    outAddr s.wr.ptr.toNat ≤ a ∧ a < outAddr s.outLen.toNat := by
  simp only [inOut, Bool.and_eq_true, decide_eq_true_iff] at h
  simp only [outAddr] at h ⊢
  omega

theorem inSpan_iff {lo size a : Nat} : inSpan lo size a = true ↔ lo ≤ a ∧ a < lo + size := by simp [inSpan]

theorem inWireForm_writes {slot count a : Nat} (h : inWireForm slot count a = true) :
    (∃ L, 1 ≤ L ∧ L ≤ 16 ∧ a = bitsAddr slot L) ∨ ∃ j, j < count ∧ a = huffvalAddr slot j := by
  simp only [inWireForm, Bool.and_eq_true, Bool.or_eq_true, inSpan_iff, decide_eq_true_iff] at h
  simp only [bitsAddr, huffvalAddr] at h ⊢
  rcases h with ⟨h | h, h4⟩
  · exact .inl ⟨(a - (0x2000 + 0x800 * slot)) / 4 + 1, by omega, by omega, by omega⟩
  · exact .inr ⟨(a - (0x2000 + 0x800 * slot + 0x40)) / 4, by omega, by omega⟩

theorem inBlock_writes {c : Config} {comp k a : Nat} (h : inBlock c comp k a = true) :
    inHalf (drAddr c comp k) a ∨ ∃ p, 1 ≤ p ∧ p ≤ 63 ∧ inHalf (cmAddr c comp k p) a := by
  simp only [inBlock, Bool.and_eq_true, Bool.or_eq_true, inSpan_iff, decide_eq_true_iff] at h
  simp only [cmAddr, drAddr, inHalf] at h ⊢
  generalize cbase c comp = b at h ⊢
  rcases h with ⟨h | h, h4⟩
  · exact .inr ⟨(a - (0x1000000 + 4 * (64 * (b + k)))) / 4, by omega, by omega, by omega⟩
  · exact .inl (by omega)

theorem inDcRange_writes {c : Config} {comp first count a : Nat} (h : inDcRange c comp first count a = true) :
    ∃ k, (first ≤ k ∧ k < first + count) ∧ inHalf (cmAddr c comp k 0) a := by
  simp only [inDcRange, Bool.and_eq_true, inSpan_iff, decide_eq_true_iff] at h
  simp only [cmAddr, inHalf] at h ⊢
  generalize cbase c comp = b at h ⊢
  exact ⟨first + (a - (0x1000000 + 4 * (64 * (b + first)))) / 256, by omega, by omega⟩

theorem inDrRange_writes {c : Config} {comp first count a : Nat} (h : inDrRange c comp first count a = true) :
    ∃ k, (first ≤ k ∧ k < first + count) ∧ inHalf (drAddr c comp k) a := by
  simp only [inDrRange, Bool.and_eq_true, inSpan_iff, decide_eq_true_iff] at h
  simp only [drAddr, inHalf] at h ⊢
  generalize cbase c comp = b at h ⊢
  exact ⟨first + (a - (0x2000000 + 4 * (b + first))) / 4, by omega, by omega⟩

/-- A range command that does not end at an operand check has its range in range. -/
theorem rangeOk_of {i : Instr} {s : State} {comp : Nat} {body : Run State Unit} (hn : endsAtCheck i s = false)
    (hx : exec i (undecided s) =
      endCommand (checkRange comp (arg0Nat (undecided s)) (arg1Nat (undecided s)) (undecided s) body)) :
    RangeOk s comp := by
  rcases checkRange_or_stops comp (arg0Nat (undecided s)) (arg1Nat (undecided s)) (undecided s) body with h | h
  · exact ⟨h.1, h.2.1, h.2.2.1⟩
  · rw [endsAtCheck_of_stops hx h] at hn; cases hn

/-- What an abandoned command frees in RAM it could write (R64). -/
theorem couldWrite_writesByte {i : Instr} {s : State} {a : Nat} (hn : endsAtCheck i s = false)
    (hw : couldWrite i s a = true) : writesByte i s a := by
  cases i with
  | nop | hbuild | hdec | hcode | hinv | rdinit | getbits | receive | wrinit | vcat | sppred => simp [couldWrite] at hw
  | hgen slot =>
    rcases checkSlot_or_stops slot (undecided s) (generateSlot slot (undecided s)) with ⟨hs, -⟩ | h
    · refine ⟨hs, ?_⟩
      simp only [couldWrite] at hw
      split at hw
      · cases hw
      · exact inWireForm_writes hw
    · rw [endsAtCheck_of_stops (i := .hgen slot) rfl h] at hn; cases hn
  | fclr =>
    simp only [couldWrite, inSpan_iff, freqAddr] at hw
    simp only [writesByte, freqAddr]
    exact ⟨(a - 0x6000) / 4, by omega, by omega, by omega⟩
  | finc sym => exact inSpan_iff.mp hw
  | fhist comp =>
    refine ⟨rangeOk_of hn rfl, ?_⟩
    simp only [couldWrite, inHistogram, List.any_eq_true, List.mem_range, inSpan_iff] at hw
    obtain ⟨j, hj, h⟩ := hw
    exact ⟨arg0Nat s + j, ⟨by omega, by omega⟩, h⟩
  | henc slot sym =>
    refine inOut_writes hw (endOf_wr_le rfl ?_)
    exact ends_checkBuilt (Nat.le_max_left _ _) fun _ _ =>
      ends_withOutPort (s := undecided s) (hencSym_frame _ _ s.outLen.isLt _ _)
  | putbits n =>
    refine inOut_writes hw (endOf_wr_le rfl ?_)
    exact ends_checkLen (Nat.le_max_left _ _) fun _ =>
      ends_withOutPort (s := undecided s) (putBits_frame _ s.outLen.isLt _ _ _)
  | putvli =>
    refine inOut_writes hw (endOf_wr_le rfl ?_)
    exact ends_check (Nat.le_max_left _ _) fun _ =>
      ends_andThen (ends_withOutPort (s := undecided s) (putBits_frame _ s.outLen.isLt _ _ _)) fun _ _ h => h
  | flush =>
    exact inOut_writes hw (endOf_wr_le rfl
      (ends_withOutPort (s := undecided s) (flushBits_frame _ s.outLen.isLt _)))
  | encblk dcs acs comp =>
    refine inOut_writes hw (endOf_wr_le rfl ?_)
    exact ends_checkBuilt (Nat.le_max_left _ _) fun _ _ => ends_checkBuilt (Nat.le_max_left _ _) fun _ _ =>
      ends_checkBlock (Nat.le_max_left _ _) fun _ _ _ =>
        ends_andThen (ends_withOutPort (s := undecided s) (encodeBlock_frame dcs acs comp (undecided s) _)) fun _ _ h => h
  | decblk dcs acs comp eosok =>
    simp only [couldWrite] at hw
    split at hw
    · cases hw
    · refine ⟨?_, inBlock_writes hw⟩
      rcases checkBuilt_or_stops dcs (undecided s) (checkBuilt acs (undecided s)
        (checkBlock comp (arg0Nat (undecided s)) (undecided s) (decodeBlock dcs acs comp eosok (undecided s)))) with h | h
      · rcases checkBuilt_or_stops acs (undecided s)
          (checkBlock comp (arg0Nat (undecided s)) (undecided s) (decodeBlock dcs acs comp eosok (undecided s))) with h' | h'
        · rcases checkBlock_or_stops comp (arg0Nat (undecided s)) (undecided s)
            (decodeBlock dcs acs comp eosok (undecided s)) with hb | hb
          · exact ⟨hb.1, hb.2.1, hb.2.2.1⟩
          · rw [endsAtCheck_of_stops (i := .decblk dcs acs comp eosok) rfl (by rw [h, h']; exact hb)] at hn; cases hn
        · rw [endsAtCheck_of_stops (i := .decblk dcs acs comp eosok) rfl (by rw [h]; exact h')] at hn; cases hn
      · rw [endsAtCheck_of_stops (i := .decblk dcs acs comp eosok) rfl h] at hn; cases hn
  | dpcmdec comp => exact ⟨rangeOk_of hn rfl, inDcRange_writes hw⟩
  | dpcmenc comp => exact ⟨rangeOk_of hn rfl, inDrRange_writes hw⟩
  | spdec comp => exact ⟨rangeOk_of hn rfl, inDcRange_writes hw⟩
  | spenc comp => exact ⟨rangeOk_of hn rfl, inDrRange_writes hw⟩

/-- An abandoned command leaves every byte as it was that it could not write. -/
theorem memRead_freeWrites_other {i : Instr} {s : State} {a : Nat} (h : ¬ writesByte i s a) :
    memRead (freeWrites i s).mem a = memRead s.mem a := by
  unfold freeWrites
  split
  · rfl
  · next hn =>
    rw [memRead_freeRam_other, freeRegisters_eq]
    cases hw : couldWrite i s a with
    | false => rfl
    | true => exact absurd (couldWrite_writesByte (by simpa using hn) hw) h

end Sys2Proof.Machine
end

