-- ==== Sys2Proof/Laws/Step.lean ====
section
/-! SUPPORT. What a step can do, said once: later proofs about every step go by these cases. -/

namespace Sys2Proof.Machine

/-- Every meaning is a body that runs on the state and ends as R191 says. -/
theorem exec_eq_endCommand (i : Instr) (s : State) : ∃ r, exec i s = endCommand r := by
  cases i <;> simp only [exec] <;>
    simp only [execNop, execHbuild, execHgen, execHdec, execHenc, execHcode, execHinv, execFclr, execFinc, execFhist,
      execRdinit, execGetbits, execReceive, execWrinit, execPutbits, execPutvli, execVcat, execFlush, execDecblk,
      execEncblk, execDpcmdec, execDpcmenc, execSpdec, execSpenc, execSppred] <;>
    exact ⟨_, rfl⟩

/-- A command that is run is a legal word's meaning, or BAD_CMD. -/
theorem runCommand_cases (w : Word) (s : State) :
    (∃ i, decode w = .ok i ∧ runCommand w s = exec i s) ∨
    (∃ e, decode w = .error e ∧ runCommand w s = .next (faultEntry .badCmd w s)) := by
  cases h : decode w with
  | ok i => exact .inl ⟨i, rfl, by simp [runCommand, h]⟩
  | error e => exact .inr ⟨e, rfl, by simp [runCommand, h]⟩

theorem finishInFlight_of_none {s : State} (h : s.inFlight = none) : finishInFlight s = .next s := by
  simp [finishInFlight, h]

theorem finishInFlight_of_some {s : State} {w : Word} (h : s.inFlight = some w) : finishInFlight s = runCommand w s := by
  simp [finishInFlight, h]

/-- A step is an early access to a block with a command in flight, the end of the command in flight, nothing when the
host does nothing, or the host's next event with what follows it. -/
theorem step_cases (s : State) :
    (∃ w a rest, s.inFlight = some w ∧ s.host = .early a :: rest ∧
      step s = .next (earlyAccess a { s with host := rest })) ∨
    (∃ w, s.inFlight = some w ∧ earlyNext s = false ∧ step s = runCommand w s) ∨
    (s.inFlight = none ∧ s.host = [] ∧ step s = .next s) ∨
    (∃ ev rest, s.inFlight = none ∧ s.host = ev :: rest ∧
      step s = afterEvent (hostEvent ev { s with host := rest })) := by
  cases hw : s.inFlight with
  | none =>
    cases hh : s.host with
    | nil => exact .inr (.inr (.inl ⟨rfl, rfl, by simp [step, nextEvent, hw, hh]⟩))
    | cons ev rest => exact .inr (.inr (.inr ⟨ev, rest, rfl, rfl, by simp [step, nextEvent, hw, hh]⟩))
  | some w =>
    cases hh : s.host with
    | nil =>
      exact .inr (.inl ⟨w, rfl, by simp [earlyNext, hh], by simp [step, nextEvent, hw, hh, finishInFlight]⟩)
    | cons ev rest =>
      cases ev with
      | early a => exact .inl ⟨w, a, rest, rfl, rfl, by simp [step, nextEvent, hw, hh]⟩
      | access a =>
        exact .inr (.inl ⟨w, rfl, by simp [earlyNext, hh], by simp [step, nextEvent, hw, hh, finishInFlight]⟩)
      | hardReset =>
        exact .inr (.inl ⟨w, rfl, by simp [earlyNext, hh], by simp [step, nextEvent, hw, hh, finishInFlight]⟩)

/-- After an event the block waits for an early access, is idle, or runs the command the event issued. -/
theorem afterEvent_cases (s : State) :
    (afterEvent s = .next s ∧ (earlyNext s = true ∨ s.inFlight = none)) ∨
    (∃ w, s.inFlight = some w ∧ earlyNext s = false ∧ afterEvent s = runCommand w s) := by
  cases he : earlyNext s with
  | true => exact .inl ⟨by simp [afterEvent, he], .inl rfl⟩
  | false =>
    cases hw : s.inFlight with
    | none => exact .inl ⟨by simp [afterEvent, he, finishInFlight, hw], .inr rfl⟩
    | some w => exact .inr ⟨w, rfl, rfl, by simp [afterEvent, he, finishInFlight, hw]⟩

/-- A host access reads, resets, issues a command, or stores. -/
theorem hostAccess_cases (a : Access) (s : State) :
    (∃ addr, a = .read addr ∧ hostAccess a s = { s with busData := busRead s addr }) ∨
    (∃ addr v, a = .write addr v ∧
      (isSoftReset a = true ∧ hostAccess a s = softReset s ∨
        isSoftReset a = false ∧ wordAddr addr = 0x000 ∧ hostAccess a s = issueCommand v s ∨
        isSoftReset a = false ∧ wordAddr addr ≠ 0x000 ∧ hostAccess a s = busWrite addr v s)) := by
  cases a with
  | read addr => exact .inl ⟨addr, rfl, rfl⟩
  | write addr v =>
    refine .inr ⟨addr, v, rfl, ?_⟩
    cases hr : isSoftReset (.write addr v) with
    | true => exact .inl ⟨rfl, by simp [hostAccess, hr]⟩
    | false =>
      by_cases ha : wordAddr addr = 0
      · exact .inr (.inl ⟨rfl, ha, by simp [hostAccess, hr, ha]⟩)
      · exact .inr (.inr ⟨rfl, ha, by simp [hostAccess, hr, ha]⟩)

/-- A CMD write is ignored in the fault state and accepted otherwise (R191). -/
theorem issueCommand_cases (w : Word) (s : State) :
    (s.recorded.isSome = true ∧ issueCommand w s = s) ∨
    (s.recorded = none ∧ issueCommand w s = acceptCommand w s) := by
  cases h : s.recorded with
  | none => exact .inr ⟨rfl, by simp [issueCommand, faulted, h]⟩
  | some r => exact .inl ⟨rfl, by simp [issueCommand, faulted, h]⟩

end Sys2Proof.Machine
end

