-- ==== Sys2Proof/Tests/Slice0.lean ====
section
/-! SUPPORT. Tests. Expected results are the spec's own: its encoding tables (30_encoding.md R70 to R77), its worked
examples and the vectors of 95_test_vectors.md, named beside each test. The last part gives, for every statement of the
obligations with hypotheses, states and operands that meet them. -/

namespace Sys2Proof.Tests

open Sys2Proof.Machine

-- One test at a time: tests evaluated side by side would each hold a thread's whole stack.
set_option Elab.async false

/-! ### WellFormed refuses each ill-formed operand (R71, R73) -/

theorem test_wf_slot_fits : WellFormed (.hbuild 15) ∧ ¬ WellFormed (.hbuild 16) := by decide
theorem test_wf_hgen_slot : ¬ WellFormed (.hgen 16) := by decide
theorem test_wf_hdec_slot : ¬ WellFormed (.hdec 16 true) := by decide
theorem test_wf_henc_slot : ¬ WellFormed (.henc 16 0) := by decide
theorem test_wf_hcode_slot : ¬ WellFormed (.hcode 16 0) := by decide
theorem test_wf_hinv_slot : ¬ WellFormed (.hinv 16) := by decide
theorem test_wf_comp_fits : WellFormed (.fhist 3) ∧ ¬ WellFormed (.fhist 4) := by decide
theorem test_wf_getbits_field : WellFormed (.getbits 31) ∧ ¬ WellFormed (.getbits 32) := by decide
theorem test_wf_receive_field : WellFormed (.receive 31) ∧ ¬ WellFormed (.receive 32) := by decide
theorem test_wf_putbits_field : WellFormed (.putbits 63) ∧ ¬ WellFormed (.putbits 64) := by decide
theorem test_wf_decblk_fields :
    ¬ WellFormed (.decblk 16 0 0 false) ∧ ¬ WellFormed (.decblk 0 16 0 false) ∧ ¬ WellFormed (.decblk 0 0 4 false) := by
  decide
theorem test_wf_encblk_fields :
    ¬ WellFormed (.encblk 16 0 0) ∧ ¬ WellFormed (.encblk 0 16 0) ∧ ¬ WellFormed (.encblk 0 0 4) := by decide
theorem test_wf_predictor_comps :
    ¬ WellFormed (.dpcmdec 4) ∧ ¬ WellFormed (.dpcmenc 4) ∧ ¬ WellFormed (.spdec 4) ∧ ¬ WellFormed (.spenc 4) ∧
      ¬ WellFormed (.sppred 4) := by decide

/-! ### Words written out from R70 and R73: OP, A, B, IMM -/

/-- The word `{OP, A, B, IMM}` of R77. -/
abbrev bits (op : BitVec 8) (a b : BitVec 4) (imm : BitVec 16) : Word := op ++ a ++ b ++ imm

theorem test_decode_nop : decode (bits 0b00000000 0b0000 0b0000 0b0000000000000000) = .ok .nop := by rfl
theorem test_decode_hbuild : decode (bits 0b00010000 0b0101 0b0000 0b0000000000000000) = .ok (.hbuild 5) := by rfl
theorem test_decode_hgen : decode (bits 0b00010001 0b0100 0b0000 0b0000000000000000) = .ok (.hgen 4) := by rfl
theorem test_decode_hdec : decode (bits 0b00010010 0b0010 0b0000 0b0000000000000000) = .ok (.hdec 2 false) := by rfl
theorem test_decode_hdec_eos : decode (bits 0b00010010 0b0011 0b0001 0b0000000000000000) = .ok (.hdec 3 true) := by rfl
theorem test_decode_henc : decode (bits 0b00010011 0b0001 0b0000 0b0000000010100101) = .ok (.henc 1 0xA5) := by rfl
theorem test_decode_hcode : decode (bits 0b00010100 0b0010 0b0000 0b0000000000001110) = .ok (.hcode 2 0x0E) := by rfl
theorem test_decode_hinv : decode (bits 0b00010101 0b0011 0b0000 0b0000000000000000) = .ok (.hinv 3) := by rfl
theorem test_decode_fclr : decode (bits 0b00011000 0b0000 0b0000 0b0000000000000000) = .ok .fclr := by rfl
theorem test_decode_finc : decode (bits 0b00011001 0b0000 0b0000 0b0000000001000001) = .ok (.finc 0x41) := by rfl
theorem test_decode_fhist : decode (bits 0b00011010 0b0000 0b0000 0b0000000000000010) = .ok (.fhist 2) := by rfl
theorem test_decode_rdinit : decode (bits 0b00100000 0b0000 0b0000 0b0000000000000000) = .ok .rdinit := by rfl
theorem test_decode_getbits : decode (bits 0b00100001 0b0000 0b0000 0b0000000000010001) = .ok (.getbits 17) := by rfl
theorem test_decode_receive : decode (bits 0b00100010 0b0000 0b0000 0b0000000000001011) = .ok (.receive 11) := by rfl
theorem test_decode_wrinit : decode (bits 0b00101000 0b0000 0b0000 0b0000000000000000) = .ok .wrinit := by rfl
theorem test_decode_putbits : decode (bits 0b00101001 0b0000 0b0000 0b0000000000100001) = .ok (.putbits 33) := by rfl
theorem test_decode_putvli : decode (bits 0b00101010 0b0000 0b0000 0b0000000000000000) = .ok .putvli := by rfl
theorem test_decode_vcat : decode (bits 0b00101011 0b0000 0b0000 0b0000000000000000) = .ok .vcat := by rfl
theorem test_decode_flush : decode (bits 0b00101100 0b0000 0b0000 0b0000000000000000) = .ok .flush := by rfl
theorem test_decode_decblk :
    decode (bits 0b00110000 0b0001 0b0011 0b0000000000000110) = .ok (.decblk 1 3 2 true) := by rfl
theorem test_decode_encblk : decode (bits 0b00110001 0b0100 0b0010 0b0000000000000001) = .ok (.encblk 4 2 1) := by rfl
theorem test_decode_dpcmdec : decode (bits 0b00111000 0b0000 0b0000 0b0000000000000001) = .ok (.dpcmdec 1) := by rfl
theorem test_decode_dpcmenc : decode (bits 0b00111001 0b0000 0b0000 0b0000000000000010) = .ok (.dpcmenc 2) := by rfl
theorem test_decode_spdec : decode (bits 0b00111010 0b0000 0b0000 0b0000000000000011) = .ok (.spdec 3) := by rfl
theorem test_decode_spenc : decode (bits 0b00111011 0b0000 0b0000 0b0000000000000001) = .ok (.spenc 1) := by rfl
theorem test_decode_sppred : decode (bits 0b00111100 0b0000 0b0000 0b0000000000000010) = .ok (.sppred 2) := by rfl

/-- Vectors 2.1.11, 2.1.27, 2.2.7 and R141: reserved bits. -/
theorem test_decode_reserved :
    decode 0x10000001 = .error .reservedBit ∧ decode 0x19000100 = .error .reservedBit ∧
    decode 0x19100001 = .error .reservedBit ∧ decode 0x21000020 = .error .reservedBit ∧
    decode 0x31000004 = .error .reservedBit ∧ decode 0x00000001 = .error .reservedBit := ⟨rfl, rfl, rfl, rfl, rfl, rfl⟩

/-- R74: unassigned opcodes. -/
theorem test_decode_unassigned :
    decode 0x01000000 = .error .unassignedOpcode ∧ decode 0x16000000 = .error .unassignedOpcode ∧
    decode 0x3D000000 = .error .unassignedOpcode ∧ decode 0xFF000000 = .error .unassignedOpcode := ⟨rfl, rfl, rfl, rfl⟩

/-! ### States for the tests -/

/-- The state a command leaves. -/
def after (i : Instr) (s : State) : State :=
  match exec i s with
  | .next t => t
  | .fault _ => s
  | .refused _ => s

/-- The state a step leaves. -/
def stepped (s : State) : State :=
  match step s with
  | .next t => t
  | .fault _ => s
  | .refused _ => s

/-- A block with small capacities, after power-on. -/
def blank : State := State.resetWith { maxMcus := 4, inCap := 16, outCap := 64 }

/-- Bytes put in RAM. -/
def withBytes (l : List (Nat × Byte)) (s : State) : State :=
  { s with mem := l.foldl (fun m c => memWrite m c.1 c.2) s.mem }

/-- A wire form put in a slot: the counts of lengths 1, 2, … and the symbols. -/
def loaded (slot : Nat) (counts symbols : List Byte) (s : State) : State :=
  withBytes (counts.mapIdx (fun i c => (bitsAddr slot (i + 1), c)) ++
    symbols.mapIdx (fun i x => (huffvalAddr slot i, x))) s

/-- The table T1 of 40_huffman.md in the slot's wire form. -/
def t1Wire (slot : Nat) (s : State) : State := loaded slot [0, 3, 1, 1] [0, 1, 2, 3, 4] s

/-- T1 built in slot 0. -/
def t1 : State := after (.hbuild 0) (t1Wire 0 blank)

/-- T1 in slot 0 and the table TA of 42_block.md in slot 2, both built, with `GEOM 1, 1`. -/
def t1ta : State :=
  { after (.hbuild 2) (loaded 2 [0, 2, 3, 1, 1, 1] [0x00, 0x01, 0x02, 0x11, 0xF0, 0xD1, 0x21, 0x50] t1) with
      geom := 0x00010001 }

/-- Scan data in IN, its length in IN_LEN, and RDINIT at 0. -/
def reading (data : List Byte) (s : State) : State :=
  after .rdinit { withBytes (data.mapIdx fun i b => (inAddr i, b)) s with inLen := word data.length, arg0 := 0 }

/-- OUT_LEN written and WRINIT at 0. -/
def writing (limit : Nat) (s : State) : State := after .wrinit { s with outLen := word limit, arg0 := 0 }

/-- Coefficients put in CM: component, block, position, value. -/
def withCoefs (comp : Nat) (l : List (Nat × Nat × Int)) (s : State) : State :=
  { s with mem := l.foldl (fun m x => setCm s.cfg m comp x.1 x.2.1 x.2.2) s.mem }

/-- Residuals put in DR from block 0 on. -/
def withResiduals (comp : Nat) (l : List Int) (s : State) : State :=
  { s with mem := (l.mapIdx fun i v => (i, v)).foldl (fun m x => setDr s.cfg m comp x.1 x.2) s.mem }

/-- The operands of a range command. -/
def withArgs (a b : Nat) (s : State) : State := { s with arg0 := word a, arg1 := word b }

/-- `GEOM 1, 1`: four Y blocks. -/
def grid : State := { blank with geom := 0x00010001 }

/-- A quantisation table 0 with 4 at position 0 and 2 elsewhere (43_predictor.md R169's example). -/
def withQuant (s : State) : State :=
  withBytes ((List.range 64).map fun p => (qtAddr 0 p, if p = 0 then 4 else 2)) s

/-- R169's worked example. -/
def piped : State :=
  withCoefs 0 [(0, 0, 10), (0, 1, 3), (1, 0, 12), (1, 1, -2), (1, 2, 1), (2, 0, 8), (2, 2, 2), (3, 0, 11)] (withQuant grid)

/-- A state whose host writes a word to CMD next. -/
def commanded (w : Word) (s : State) : State := { s with host := [.access (.write 0x000 w)] }

/-! ### One command on a small state -/

/-- R190's example. -/
theorem test_nop_status : busRead (after .nop blank) 0x010 = 0x00000012 := by decide +kernel

/-- R90's example: T1's codes and LENSET. -/
theorem test_hbuild_t1 :
    (slotOf t1 0).valid = true ∧ (slotOf t1 0).lenset = 0x000E ∧
    (lenAt (slotOf t1 0) 4, codeAt (slotOf t1 0) 4) = (4, 0b1110) ∧
    (lenAt (slotOf t1 0) 2, codeAt (slotOf t1 0) 2) = (2, 0b10) := by decide +kernel

/-- Vectors 2.1.4 and 2.1.6: HUFF_OVERFLOW and HUFF_DUP. -/
theorem test_hbuild_faults :
    (after (.hbuild 0) (loaded 0 [0, 3, 2, 1] [0, 1, 2, 3, 4, 5] blank)).recorded = some ⟨.huffOverflow, 0x04000010⟩ ∧
    (after (.hbuild 0) (loaded 0 [0, 2] [7, 7] blank)).recorded = some ⟨.huffDup, 7⟩ := by decide +kernel

/-- R90: a wire form with a symbol twice and a Kraft sum above 1 raises what its pseudocode meets first. -/
theorem test_hbuild_both_faults :
    (after (.hbuild 0) (loaded 0 [3] [0, 0, 1] blank)).recorded = some ⟨.huffDup, 0⟩ ∧
    (after (.hbuild 0) (loaded 0 [3] [0, 1, 0] blank)).recorded = some ⟨.huffOverflow, 0x01000002⟩ := by decide +kernel

/-- Vector 2.1.33: breadth-first order puts 3 before 2. -/
theorem test_hgen_order :
    (fun s : State => ((List.range 4).map fun L => bitsOf s.mem 4 (L + 1), (List.range 4).map (huffvalOf s.mem 4),
        (slotOf s 4).valid))
      (after (.hgen 4) (withBytes [(freqAddr 0, 5), (freqAddr 1, 3), (freqAddr 2, 1), (freqAddr 3, 1)] blank)) =
    ([1, 1, 1, 1], [0, 1, 3, 2], true) := by decide +kernel

/-- Vector 2.1.12: the last code of 6E, 1110, before the marker FF D9. -/
theorem test_hdec_symbol :
    (fun s : State => (s.res, s.rd.ptr, s.rd.eod, s.rd.marker))
      (after (.hdec 0 true) { reading [0x6E, 0xFF, 0xD9] t1 with
        rd := { ptr := 1, buf := 0b1110, cnt := 4, eod := false, marker := false } }) = (4, 1, true, true) := by
  decide +kernel

/-- Vector 2.1.13: six one-bits before a marker end the scan. -/
theorem test_hdec_end_of_scan :
    (fun s : State => (s.res, s.eos, s.rd.marker))
      (after (.hdec 0 true) { reading [0x7F, 0xFF, 0xD0] t1 with
        rd := { ptr := 1, buf := 0x3F, cnt := 6, eod := false, marker := false } }) = (0xFFFFFFFF, true, true) := by
  decide +kernel

/-- Vector 2.1.19. -/
theorem test_henc_codes :
    (fun s : State => (s.wr.acc, s.wr.cnt)) (after (.henc 0 4) (after (.henc 0 3) (writing 16 t1))) = (0x6E, 7) := by
  decide +kernel

/-- Vectors 2.1.2 and 2.1.3. -/
theorem test_hcode :
    (after (.hcode 0 4) t1).res = 0x0004000E ∧ (after (.hcode 0 5) t1).recorded = some ⟨.huffNocode, 5⟩ := by
  decide +kernel

/-- R97's example. -/
theorem test_hinv :
    busRead (after (.hinv 0) t1) 0x044 = 0 ∧
    (after (.hdec 0 false) (after (.hinv 0) t1)).recorded = some ⟨.slotInvalid, 0⟩ := by decide +kernel

/-- Vector 2.1.25. -/
theorem test_fclr_finc :
    (fun s : State => (freqOf s.mem 0x41, freqOf s.mem 7))
      (after (.finc 0x41) (after (.finc 0x41) (after .fclr (withBytes [(freqAddr 7, 9)] blank)))) = (2, 0) := by
  decide +kernel

/-- Vector 2.1.26: saturation. -/
theorem test_finc_saturates :
    freqOf (after (.finc 7) { blank with mem := memWrite32 [] (freqAddr 7) 0xFFFFFFFF }).mem 7 = 0xFFFFFFFF := by
  decide +kernel

/-- R100's example. -/
theorem test_fhist :
    (fun s : State => [0, 1, 2, 3, 9].map (freqOf s.mem))
      (after (.fhist 0) (withArgs 0 4 (withResiduals 0 [0, -1, 5, 300] grid))) = [1, 1, 0, 1, 1] := by decide +kernel

/-- Vector 2.1.29: 1 + 4 > 4. -/
theorem test_fhist_range : (after (.fhist 0) (withArgs 1 4 grid)).recorded = some ⟨.blkRange, 5⟩ := by decide +kernel

/-- Vectors 2.2.1 and 2.2.8. -/
theorem test_rdinit :
    (reading [0xA5, 0xFF, 0x00, 0x3C] blank).rd = { ptr := 1, buf := 0xA5, cnt := 8, eod := false, marker := false } ∧
    (reading [0xFF, 0xD9] blank).rd = { ptr := 0, buf := 0, cnt := 0, eod := true, marker := true } := by decide +kernel

/-- R115's example: 13 bits across a destuffed 0xFF. -/
theorem test_getbits :
    (fun s : State => (s.res, s.rd.ptr, s.rd.buf, s.rd.cnt))
      (after (.getbits 13) (after (.getbits 3) (reading [0xA5, 0xFF, 0x00, 0x3C] blank))) = (0x05FF, 4, 0x3C, 8) := by
  decide +kernel

/-- R116's example: 0011 is -12. -/
theorem test_receive :
    (after (.receive 4) (reading [0x3C] blank)).res = 0xFFFFFFF4 ∧
    (after (.receive 4) (after (.receive 4) (reading [0x3C] blank))).res = 0x0000000C := by decide +kernel

/-- R112: bits past the end of data. -/
theorem test_getbits_past_the_data :
    (after (.getbits 9) (reading [0x12] blank)).recorded = some ⟨.rdEod, 1⟩ := by decide +kernel

/-- R120. -/
theorem test_wrinit :
    (after .wrinit { blank with arg0 := 5, wr := { ptr := 9, acc := 3, cnt := 2 } }).wr =
      { ptr := 5, acc := 0, cnt := 0 } := by decide +kernel

/-- R121's example. -/
theorem test_putbits :
    (fun s : State => (memRead s.mem (outAddr 0), memRead s.mem (outAddr 1), s.wr))
      (after (.putbits 9) { writing 16 blank with arg0 := 0x1FF }) = (0xFF, 0x00, { ptr := 2, acc := 1, cnt := 1 }) := by
  decide +kernel

/-- R122's example. -/
theorem test_putvli :
    (fun s : State => (s.res, s.wr.acc, s.wr.cnt)) (after .putvli { writing 16 blank with arg0 := 0xFFFFFFFB }) =
      (3, 0b010, 3) ∧
    (after .putvli { writing 16 blank with arg0 := 0x00008000 }).recorded = some ⟨.vliRange, 0x00008000⟩ := by
  decide +kernel

/-- R123's corner cases. -/
theorem test_vcat :
    (after .vcat { blank with arg0 := 0x80000000 }).res = 32 ∧ (after .vcat { blank with arg0 := 0xFFFF8000 }).res = 16 ∧
    (after .vcat { blank with arg0 := 0xFFFFFFFF }).res = 1 := by decide +kernel

/-- R124's example, and a padded byte that is 0xFF. -/
theorem test_flush :
    memRead (after .flush { writing 16 blank with wr := { ptr := 0, acc := 0x6E, cnt := 7 } }).mem (outAddr 0) = 0xDD ∧
    (after .flush { writing 16 blank with wr := { ptr := 0, acc := 1, cnt := 1 } }).wr.ptr = 2 := by decide +kernel

/-- R118: a stuffed pair is never split across the limit. -/
theorem test_flush_without_room :
    (after .flush { writing 1 blank with wr := { ptr := 0, acc := 1, cnt := 1 } }).recorded = some ⟨.wrFull, 0⟩ := by
  decide +kernel

/-- R140's example: block 2 is 01 0 00, DC symbol 1 and its bit 0, then EOB. -/
theorem test_decblk :
    (fun s : State => (drOf s.cfg s.mem 0 2, cmOf s.cfg s.mem 0 2 1, s.res, s.rd.cnt))
      (after (.decblk 0 2 0 true) (withArgs 2 0 (withCoefs 0 [(2, 1, 9)] { reading [0xB7] t1ta with
        rd := { ptr := 1, buf := 0b0100011, cnt := 7, eod := false, marker := false } }))) = (-1, 0, 0, 2) := by
  decide +kernel

/-- R140, D21: DC 0, values 1 at positions 14 and 15, then three ZRLs that bring j to exactly 64, with no EOB. -/
theorem test_decblk_zrl_to_64 :
    (fun s : State => ((drOf s.cfg s.mem 0 0, [13, 14, 15, 16].map (cmOf s.cfg s.mem 0 0)), s.res, s.done))
      (after (.decblk 0 2 0 false) (withArgs 0 0 (reading [0x3A, 0xF6, 0xC0] t1ta))) = ((0, [0, 1, 1, 0]), 0, true) := by
  decide +kernel

/-- R140: AC_RUN for the symbol 0x50 at j = 1, and for a fourth ZRL, which brings j to 65. -/
theorem test_decblk_ac_run :
    (after (.decblk 0 2 0 false) (withArgs 0 0 (reading [0x3E] t1ta))).recorded = some ⟨.acRun, 0x150⟩ ∧
    (after (.decblk 0 2 0 false) (withArgs 0 0 (reading [0x36, 0xD8] t1ta))).recorded = some ⟨.acRun, 0x41F0⟩ := by
  decide +kernel

/-- R140: the pad 111111 before the end of data is end of scan, and nothing is written. -/
theorem test_decblk_end_of_scan :
    (fun s : State => (s.res, s.eos, s.rd.eod)) (after (.decblk 0 2 0 true) { reading [0x3F] t1ta with
      rd := { ptr := 1, buf := 0x3F, cnt := 6, eod := false, marker := false } }) = (1, true, true) := by decide +kernel

/-- R141's example: block 0 is 10 11 01 1 100 01 101 1 00. -/
theorem test_encblk :
    (fun s : State => (memRead s.mem (outAddr 0), memRead s.mem (outAddr 1), s.wr.acc, s.wr.cnt, s.res))
      (after (.encblk 0 2 0) (withArgs 0 0 (withResiduals 0 [3]
        (withCoefs 0 [(0, 1, 1), (0, 2, -2), (0, 4, 1)] (writing 16 t1ta))))) = (0xB7, 0x1B, 0, 2, 0) := by decide +kernel

/-- R141: CM[4] = 1 alone needs symbol 0x31, which TA lacks. -/
theorem test_encblk_no_code :
    (after (.encblk 0 2 0) (withArgs 0 0 (withCoefs 0 [(0, 4, 1)] (writing 16 t1ta)))).recorded =
      some ⟨.huffNocode, 0x31⟩ := by decide +kernel

/-- R170's example. -/
theorem test_dpcmdec :
    (fun s : State => (List.range 4).map fun k => cmOf s.cfg s.mem 0 k 0)
      (after (.dpcmdec 0) (withArgs 0 4 (withResiduals 0 [5, -3, 0, 7] grid))) = [5, 2, 2, 9] := by decide +kernel

/-- R171's example over (1, 3), and its fault: 32767 then -2. -/
theorem test_dpcmenc :
    (fun s : State => (List.range 4).map (drOf s.cfg s.mem 0))
      (after (.dpcmenc 0) (withArgs 1 3 (withCoefs 0 [(0, 0, 5), (1, 0, 2), (2, 0, 2), (3, 0, 9)] grid))) = [0, 2, 0, 7] ∧
    (after (.dpcmenc 0) (withArgs 0 2 (withCoefs 0 [(0, 0, 32767), (1, 0, -2)] grid))).recorded =
      some ⟨.predRange, 1⟩ := by decide +kernel

/-- R172's example. -/
theorem test_sppred :
    (after (.sppred 0) (withArgs 1 0 piped)).res = 9 ∧
    (after (.sppred 0) (withArgs 0 0 grid)).recorded = some ⟨.qzero, 0⟩ := by decide +kernel

/-- R173's example, its first two blocks. -/
theorem test_spdec :
    (fun s : State => (List.range 2).map fun k => cmOf s.cfg s.mem 0 k 0)
      (after (.spdec 0) (withArgs 0 2 (withResiduals 0 [10, 3] (withCoefs 0 [(0, 0, 0), (1, 0, 0)] piped)))) = [10, 12] := by decide +kernel

/-- R174's example, its first two blocks. -/
theorem test_spenc :
    (fun s : State => (List.range 2).map (drOf s.cfg s.mem 0)) (after (.spenc 0) (withArgs 0 2 piped)) = [10, 3] := by decide +kernel

/-! ### Protocol, fault state, reset and the host's side (95_test_vectors.md section 3) -/

/-- Vector 3.3: an illegal word. -/
theorem test_bad_cmd :
    (fun s : State => (s.recorded, busRead s 0x010, busRead s 0x020)) (stepped (commanded 0x00000001 blank)) =
      (some ⟨.badCmd, 0x00000001⟩, 0x14, 0x2) := by decide +kernel

/-- Vectors 3.4 and 3.5: an unbuilt slot, the interrupt, and an ignored command. -/
theorem test_fault_is_sticky :
    (fun s : State => (faultWord s, faultInfoWord s, irqOutput s))
      (stepped (commanded 0x10600000 (stepped (commanded 0x12100000 { blank with faultIe := true })))) =
        (0x03, 0x1, true) := by decide +kernel

/-- Vector 3.7: soft reset out of the fault state. -/
theorem test_soft_reset :
    (fun s : State => (busRead s 0x010, faultWord s, busRead s 0x044, bitsOf s.mem 0 2))
      (hostAccess (.write 0x01C 1) (after (.hdec 1 false) t1)) = (0x10, 0, 0, 3) := by decide +kernel

/-- Vectors 3.8 and 3.9. -/
theorem test_register_limits :
    busRead (hostAccess (.write 0x028 0xFFFFFFFF) blank) 0x028 = 16 ∧
    (hostAccess (.write 0x058 5) blank).mem = [] ∧ busRead (hostAccess (.write 0x058 5) blank) 0x058 = 0 := by decide +kernel

/-- Vectors 3.10 and 3.11: byte order, ignored address bits, sign extension. -/
theorem test_windows :
    busRead (hostAccess (.write 0x400000 0x44332211) blank) 0x400003 = 0x44332211 ∧
    memRead (hostAccess (.write 0x400000 0x44332211) blank).mem (inAddr 0) = 0x11 ∧
    busRead (hostAccess (.write 0x1000000 0x00018000) blank) 0x1000000 = 0xFFFF8000 := by decide +kernel

/-- R22, R28, R30, R33: each read-only register from its own state. -/
theorem test_register_reads :
    [0x010, 0x00C, 0x030, 0x034, 0x038, 0x03C, 0x040, 0x044].map (busRead { t1 with
      done := true, eos := false, res := 7, rd := { ptr := 3, buf := 0x1F, cnt := 5, eod := false, marker := false },
      wr := { ptr := 9, acc := 0x2A, cnt := 6 } }) = [0x02, 7, 3, 0x1F, 5, 9, 0x62A, 0x01] := by decide +kernel

/-- R203: DONE_IE written after NOP raises irq for the DONE_P pending, and clearing DONE_P lowers it. -/
theorem test_irq_enabled_later :
    (fun s : State => (irqOutput s, irqOutput (hostAccess (.write 0x01C 2) s),
        irqOutput (hostAccess (.write 0x020 1) (hostAccess (.write 0x01C 2) s)))) (after .nop blank) =
      (false, true, false) := by decide +kernel

/-- R58: a write while BUSY is dropped and recorded. -/
theorem test_host_busy :
    (fun s : State => (s.recorded, s.arg0, s.inFlight))
      (stepped { blank with inFlight := some 0, host := [.early (.write 0x004 7)] }) =
        (some ⟨.hostBusy, 0x004⟩, 0, none) := by decide +kernel

/-- R64, R92, I26, R118: HGEN of two symbols could write HUFFVAL[0..1] and no further, and HENC no byte of OUT below
WR_PTR nor past the byte it completes. -/
theorem test_abandoned_command_writes :
    [0, 1, 2, 255].map (fun j => couldWrite (.hgen 4) (withBytes [(freqAddr 0, 1), (freqAddr 1, 1)] blank) (huffvalAddr 4 j)) =
      [true, true, false, false] ∧
    [2, 3, 4].map (fun j => couldWrite (.henc 0 4)
      { writing 16 t1 with wr := { ptr := 3, acc := 0xE, cnt := 4 } } (outAddr j)) = [false, true, false] := by
  decide +kernel

/-- R202: an abandoned command that an operand check would have ended could write nothing. -/
theorem test_abandoned_at_check :
    endsAtCheck (.dpcmdec 0) (withArgs 1 4 grid) = true ∧ endsAtCheck (.dpcmdec 0) (withArgs 0 4 grid) = false := by
  decide +kernel

/-- The next step runs the word that is placed. -/
theorem test_withFetchWord : (stepped (State.reset.withFetchWord 32 0x2B000000)).done = true := by decide +kernel

/-! ### Witnesses: states and operands that meet each statement's hypotheses, clause by clause -/

/-- The reader's cursor set to buffered bits, before the byte at `ptr`. -/
def withCursor (ptr buf : Word) (cnt : BitVec 5) (s : State) : State :=
  { s with rd := { ptr := ptr, buf := buf, cnt := cnt, eod := false, marker := false } }

/-- A block with a fault recorded. -/
def faulty : State := { blank with recorded := some ⟨.badCmd, 1⟩ }

/-- FREQ[i] = F(i+1), the Fibonacci numbers, for the first entries of `l`. -/
def withFreqs (l : List Nat) (s : State) : State :=
  { s with mem := (l.mapIdx fun i n => (i, n)).foldl (fun m x => memWrite32 m (freqAddr x.1) (word x.2)) s.mem }

/-- The first 16 Fibonacci numbers. -/
def fibonacci : List Nat := [1, 1, 2, 3, 5, 8, 13, 21, 34, 55, 89, 144, 233, 377, 610, 987]

theorem witness_DecodeOfEncodeIsTheCommand : WellFormed (.decblk 15 15 3 true) ∧ WellFormed (.putbits 63) := by decide

theorem witness_DecodedWordIsItsEncoding : decode 0x30FF0007 = .ok (.decblk 15 15 3 true) := by rfl

theorem witness_StepRunsDecodedCommand :
    (commanded 0x2B000000 blank).inFlight = none ∧ (commanded 0x2B000000 blank).recorded = none ∧
    (commanded 0x2B000000 blank).host = .access (.write 0x000 0x2B000000) :: [] ∧ wordAddr 0x003 = 0 ∧
    (∀ a more, ([] : List HostEvent) ≠ .early a :: more) ∧ decode 0x2B000000 = .ok .vcat :=
  ⟨rfl, rfl, rfl, rfl, by simp, rfl⟩

theorem witness_IllegalWordRaisesBadCmd :
    (commanded 0xFF000000 blank).inFlight = none ∧ (commanded 0xFF000000 blank).recorded = none ∧
    (commanded 0xFF000000 blank).host = .access (.write 0x000 0xFF000000) :: [] ∧ wordAddr 0x000 = 0 ∧
    (∀ a more, ([] : List HostEvent) ≠ .early a :: more) ∧ decode 0xFF000000 = .error .unassignedOpcode :=
  ⟨rfl, rfl, rfl, rfl, by simp, rfl⟩

theorem witness_FaultStateLeavesOnlyByReset :
    (commanded 0 faulty).recorded = some ⟨.badCmd, 1⟩ ∧ (commanded 0 faulty).inFlight = none ∧
    (commanded 0 faulty).host = .access (.write 0x000 0) :: [] ∧ wordAddr 0x000 = 0 ∧
    step (commanded 0 faulty) = .next faulty ∧ resetNext (commanded 0 faulty) = false :=
  ⟨rfl, rfl, rfl, rfl, rfl, rfl⟩

/-- Each check of R75 at the first value it refuses. -/
theorem witness_OperandChecksRaiseInOrder :
    blank.recorded = none ∧
    firstOperandFault (.hbuild 6) blank = some (.badSlot, 6) ∧
    firstOperandFault (.hdec 5 false) blank = some (.slotInvalid, 5) ∧
    firstOperandFault (.getbits 17) blank = some (.badLen, 17) ∧
    firstOperandFault (.receive 16) blank = some (.badLen, 16) ∧
    firstOperandFault (.putbits 33) blank = some (.badLen, 33) ∧
    firstOperandFault (.fhist 3) grid = some (.badComp, 3) ∧
    firstOperandFault (.spdec 0) blank = some (.geom, 0) ∧
    firstOperandFault (.sppred 0) (withArgs 4 0 grid) = some (.blkRange, 4) ∧
    firstOperandFault (.dpcmenc 0) (withArgs 1 4 grid) = some (.blkRange, 5) := by decide +kernel

theorem witness_CommandsLeaveTheRestUnchanged : exec .vcat blank = .next (after .vcat blank) := by rfl

theorem witness_FaultRegistersReadTheFault :
    { blank with faultIe := true }.recorded = none ∧ (FaultCode.hostBusy, 0x15) ∈ faultTable ∧
    ({ blank with faultIe := true } : State).faultIe = true := by decide +kernel

/-- A command that ends normally and one that faults; an enabling, a masking and a clearing write. -/
theorem witness_FaultRegistersReadTheFault_irq :
    (exec .vcat blank = .next (after .vcat blank) ∧ (after .vcat { blank with doneIe := true }).recorded = none) ∧
    (blank.recorded = none ∧ (after (.getbits 17) blank).recorded.isSome = true) ∧
    ((2 : Word).getLsbD 0 = false ∧ (2 : Word).getLsbD 1 = true ∧ (4 : Word).getLsbD 2 = true ∧
      (0 : Word).getLsbD 1 = false ∧ (0 : Word).getLsbD 2 = false) ∧
    ((after .vcat blank).doneP = true ∧ (after (.getbits 17) blank).faultP = true) ∧
    ((3 : Word).getLsbD 0 = true ∧ (3 : Word).getLsbD 1 = true) :=
  ⟨⟨rfl, by decide +kernel⟩, by decide +kernel, by decide +kernel, by decide +kernel, by decide +kernel⟩

theorem witness_NopOnlyEndsNormally :
    ((commanded 0 blank).inFlight = none ∧ (commanded 0 blank).host = .access (.write 0x000 0) :: [] ∧
      (commanded 0 blank).recorded = none ∧ (0 : Word).toNat < 2 ^ 24) ∧
    ((commanded 0x00FFFFFF blank).recorded = none ∧ (0x00FFFFFF : Word) ≠ 0 ∧ (0x00FFFFFF : Word).toNat < 2 ^ 24) ∧
    (commanded 0 faulty).recorded ≠ none :=
  ⟨⟨rfl, rfl, rfl, by decide⟩, ⟨rfl, by decide, by decide⟩, by decide⟩

/-- T1, and a full table: Kraft sum 1. -/
theorem witness_HbuildInstallsCanonicalCodes :
    (totalCodes (t1Wire 0 blank).mem 0 ≤ 256 ∧ (wireSymbols (t1Wire 0 blank).mem 0).Nodup ∧
      kraft (t1Wire 0 blank).mem 0 ≤ 65536) ∧
    (totalCodes (loaded 5 [2] [0, 1] blank).mem 5 ≤ 256 ∧ (wireSymbols (loaded 5 [2] [0, 1] blank).mem 5).Nodup ∧
      kraft (loaded 5 [2] [0, 1] blank).mem 5 = 65536) := by decide +kernel

theorem witness_BuiltTableIsPrefixFree :
    exec (.hbuild 0) (t1Wire 0 blank) = .next t1 ∧ (slotOf t1 0).valid = true ∧
    exec (.hgen 5) blank = .next (after (.hgen 5) blank) ∧ (slotOf (after (.hgen 5) blank) 5).valid = true := by
  refine ⟨?_, by decide +kernel, ?_, by decide +kernel⟩
  · rcases endCommand_cases (checkSlot 0 (t1Wire 0 blank) (buildSlot 0 (t1Wire 0 blank))) with ⟨s, -, h⟩ | ⟨c, n, s, -, h⟩
    all_goals simp only [t1, after, exec, execHbuild, h]
  · rcases endCommand_cases (checkSlot 5 blank (generateSlot 5 blank)) with ⟨s, -, h⟩ | ⟨c, n, s, -, h⟩
    all_goals simp only [after, exec, execHgen, h]

/-- Vectors 2.1.7, 2.1.5, 2.1.6 and 2.1.37: 257 codes, a Kraft sum above 1, a symbol twice, depth 17. -/
theorem witness_TableFaultsInvalidateTheSlot :
    totalCodes (loaded 0 [0, 0, 0, 0, 0, 0, 0, 0, 0, 0, 0, 0, 0, 0, 2, 255] [] blank).mem 0 = 257 ∧
    (totalCodes (loaded 0 [3] [0, 1, 2] blank).mem 0 ≤ 256 ∧ (wireSymbols (loaded 0 [3] [0, 1, 2] blank).mem 0).Nodup ∧
      65536 < kraft (loaded 0 [3] [0, 1, 2] blank).mem 0) ∧
    (totalCodes (loaded 0 [0, 2] [7, 7] blank).mem 0 ≤ 256 ∧ ¬ (wireSymbols (loaded 0 [0, 2] [7, 7] blank).mem 0).Nodup ∧
      kraft (loaded 0 [0, 2] [7, 7] blank).mem 0 ≤ 65536) ∧
    maxDepth (huffmanLeaves (withFreqs (fibonacci ++ [1597]) blank).mem) = 17 := by decide +kernel

/-- A symbol twice before the code space ends, and at the symbol that has none left. -/
theorem witness_TableFaultsInvalidateTheSlot_both :
    (fun m : Memory => totalCodes m 0 = 3 ∧
        (∀ j, j < 1 → canonicalCode (wireLengths m 0) j < 2 ^ (wireLengths m 0).getD j 0 ∧
          huffvalOf m 0 j ∉ (wireSymbols m 0).take j) ∧
        canonicalCode (wireLengths m 0) 1 < 2 ^ (wireLengths m 0).getD 1 0 ∧ huffvalOf m 0 1 ∈ (wireSymbols m 0).take 1)
      (loaded 0 [3] [0, 0, 1] blank).mem ∧
    (fun m : Memory => totalCodes m 0 = 3 ∧
        (∀ j, j < 2 → canonicalCode (wireLengths m 0) j < 2 ^ (wireLengths m 0).getD j 0 ∧
          huffvalOf m 0 j ∉ (wireSymbols m 0).take j) ∧
        2 ^ (wireLengths m 0).getD 2 0 ≤ canonicalCode (wireLengths m 0) 2)
      (loaded 0 [3] [0, 1, 0] blank).mem := by decide +kernel

/-- Vector 2.1.36: depth 16. -/
theorem witness_HgenTableLeavesAllOnesUnused :
    maxDepth (huffmanLeaves (withFreqs fibonacci blank).mem) = 16 := by decide +kernel

theorem witness_HgenOfOneSymbolGivesCodeZero :
    0 < freqOf (withFreqs [10] blank).mem (0 : Byte).toNat ∧
    (∀ y : Byte, y ≠ 0 → freqOf (withFreqs [10] blank).mem y.toNat = 0) ∧
    ∀ y : Byte, freqOf blank.mem y.toNat = 0 := by decide +kernel

/-- T1 before the bits 01101110 of 2.1.12. -/
theorem witness_HdecReturnsTheSymbolAhead :
    (slotOf (reading [0x6E] t1) 0).valid = true ∧ TableOk (slotOf (reading [0x6E] t1) 0) ∧
    ReaderOk (reading [0x6E] t1).rd ∧ 1 ∈ registered (slotOf (reading [0x6E] t1) 0) ∧
    codeBits (slotOf (reading [0x6E] t1) 0) 1 <+: streamOf (reading [0x6E] t1) :=
  ⟨by decide +kernel, by decide +kernel, by decide +kernel⟩

/-- No code of T1 stands before six ones at the end of data, nor before eight. -/
theorem witness_HdecMissIsEndOfScanOrFault :
    (NoCodeAhead (slotOf t1 0) (streamOf (withCursor 1 0x3F 6 (reading [0x7F] t1))) ∧
      OnesPadding (streamOf (withCursor 1 0x3F 6 (reading [0x7F] t1))) ∧
      ReaderOk (withCursor 1 0x3F 6 (reading [0x7F] t1)).rd ∧ (reading [0x7F] t1).recorded = none) ∧
    (NoCodeAhead (slotOf t1 0) (streamOf (reading [0xFF, 0x00] t1)) ∧
      ¬ OnesPadding (streamOf (reading [0xFF, 0x00] t1)) ∧ ReaderOk (reading [0xFF, 0x00] t1).rd) := by decide +kernel

/-- A code that completes a byte, with room for exactly that byte. -/
theorem witness_HencAppendsTheCode :
    lenAt (slotOf t1 0) 4 ≠ 0 ∧ WriterOk { ptr := 0, acc := 0xE, cnt := 4 } ∧
    HasRoom { writing 1 t1 with wr := { ptr := 0, acc := 0xE, cnt := 4 } } (codeBits (slotOf t1 0) 4) := by decide +kernel

theorem witness_HcodeReturnsLengthAndCode : (slotOf t1 0).valid = true ∧ lenAt (slotOf t1 0) 4 ≠ 0 := by decide +kernel

theorem witness_MissingCodeFaults :
    ((slotOf t1ta 0).valid = true ∧ lenAt (slotOf t1ta 0) 5 = 0 ∧ t1ta.recorded = none) ∧
    ((slotOf t1ta 2).valid = true ∧ BlockOk t1ta 0) ∧
    (drOf t1ta.cfg (withResiduals 0 [1000] t1ta).mem 0 0 = 1000 ∧ lenAt (slotOf t1ta 0) (BitVec.ofNat 8 (cat 1000)) = 0) ∧
    drOf t1ta.cfg (withResiduals 0 [-32768] t1ta).mem 0 0 = -32768 := by decide +kernel

/-- An AC value -32768; a value after 19 zeros, whose symbol 0x31 has no code after a ZRL that has one; and an EOB without
a code. -/
theorem witness_MissingCodeFaults_ac :
    (fun s : State => LengthsOk s ∧ WriterOk s.wr ∧ ItemOk (slotOf s 0) (dcItem 0) ∧ drOf s.cfg s.mem 0 0 = 0 ∧
        acItems 0 (acList s.cfg s.mem 0 0) = [] ++ (0x10, -32768) :: [(0x00, 0)] ∧
        HasRoom s (codedBits (slotOf s 0) (slotOf s 2) 0 []) ∧ 15 < cat (-32768))
      (withCoefs 0 [(0, 1, -32768)] (writing 1 t1ta)) ∧
    (fun s : State => acItems 0 (acList s.cfg s.mem 0 0) = [(0xF0, 0)] ++ (0x31, 1) :: [(0x00, 0)] ∧
        ItemOk (slotOf s 2) (0xF0, 0) ∧ HasRoom s (codedBits (slotOf s 0) (slotOf s 2) 0 [(0xF0, 0)]) ∧
        cat 1 ≤ 15 ∧ lenAt (slotOf s 2) 0x31 = 0)
      (withCoefs 0 [(0, 20, 1)] (writing 1 t1ta)) ∧
    (fun s : State => acItems 0 (acList s.cfg s.mem 0 0) = [] ++ (0x00, 0) :: [] ∧ cat 0 ≤ 15 ∧
        lenAt (slotOf s 1) 0x00 = 0)
      (writing 1 (after (.hbuild 1) (loaded 1 [1] [16] t1ta))) :=
  ⟨by decide +kernel, by decide +kernel, by decide +kernel⟩

/-- The whole range, and the empty range at its end. -/
theorem witness_FhistCountsCategories : RangeOk (withArgs 0 4 grid) 0 ∧ RangeOk (withArgs 1 0 grid) 2 := by decide +kernel

theorem witness_GetbitsReadsTheNextBits :
    ReaderOk (reading [0xA5, 0x3C] blank).rd ∧ 16 ≤ (streamOf (reading [0xA5, 0x3C] blank)).length := by decide +kernel

theorem witness_ReceiveDecodesTheNextVli :
    ReaderOk (reading [0xA5, 0x3C] blank).rd ∧ 15 ≤ (streamOf (reading [0xA5, 0x3C] blank)).length := by decide +kernel

theorem witness_ReadingPastTheDataFaults :
    ReaderOk (reading [0x12] blank).rd ∧ (reading [0x12] blank).recorded = none ∧
    (streamOf (reading [0x12] blank)).length < 9 := by decide +kernel

/-- 32 bits of which the first byte is 0xFF, with room for exactly five bytes. -/
theorem witness_PutbitsAppendsLowBits :
    WriterOk (writing 5 blank).wr ∧
    HasRoom (withArgs 0xFF010203 0 (writing 5 blank)) (natBits 32 0xFF010203) ∧
    ¬ HasRoom (withArgs 0xFF010203 0 (writing 4 blank)) (natBits 32 0xFF010203) := by decide +kernel

theorem witness_PutvliAppendsThePattern :
    (cat (arg0Int { blank with arg0 := 0x00007FFF }) = 15 ∧ WriterOk (writing 4 blank).wr ∧
      HasRoom (writing 4 blank) (natBits 15 (vliBits 32767 15))) ∧
    15 < cat (arg0Int { blank with arg0 := 0x00008000 }) ∧ 15 < cat (arg0Int { blank with arg0 := 0x80000000 }) := by
  decide +kernel

/-- One pending one-bit: the padded byte is 0xFF and takes two bytes; and no pending bit. -/
theorem witness_FlushPadsWithOnes :
    WriterOk { ptr := 0, acc := 1, cnt := 1 } ∧
    HasRoom { writing 2 blank with wr := { ptr := 0, acc := 1, cnt := 1 } } (List.replicate 7 true) ∧
    WriterOk (writing 0 blank).wr ∧ HasRoom (writing 0 blank) [] := by decide +kernel

theorem witness_WritingWithoutRoomFaults :
    firstOperandFault .flush { writing 1 blank with wr := { ptr := 0, acc := 1, cnt := 1 } } = none ∧
    bitsToWrite .flush { writing 1 blank with wr := { ptr := 0, acc := 1, cnt := 1 } } =
      some (List.replicate 7 true) ∧
    ¬ HasRoom { writing 1 blank with wr := { ptr := 0, acc := 1, cnt := 1 } } (List.replicate 7 true) ∧
    firstOperandFault (.putbits 8) (writing 0 blank) = none ∧
    bitsToWrite (.putbits 8) (writing 0 blank) = some (natBits 8 0) ∧ ¬ HasRoom (writing 0 blank) (natBits 8 0) := by
  decide +kernel

/-- A block of five bits with four pending completes a byte that has no room. -/
theorem witness_WritingWithoutRoomFaults_block :
    (fun s : State => firstOperandFault (.encblk 0 2 0) s = none ∧ WriterOk s.wr ∧ LengthsOk s ∧ s.recorded = none ∧
        drOf s.cfg s.mem 0 0 = -1 ∧ acItems 0 (acList s.cfg s.mem 0 0) = [(0x00, 0)] ++ [] ∧
        ItemOk (slotOf s 0) (dcItem (-1)) ∧ ItemOk (slotOf s 2) (0x00, 0) ∧
        ¬ HasRoom s (codedBits (slotOf s 0) (slotOf s 2) (-1) [(0x00, 0)]))
      { withResiduals 0 [-1] (writing 0 t1ta) with wr := { ptr := 0, acc := 5, cnt := 4 } } := by decide +kernel

/-- FF 01 written at 0 with room for exactly FF 00 01, and copied to IN. -/
theorem witness_StuffingRoundTrip :
    (writing 3 blank).wr.ptr.toNat + (stuff [0xFF, 0x01]).length ≤ 3 ∧
    ∃ q, emitAll 3 [0xFF, 0x01] (outPort (writing 3 blank)) = .ok () q ∧
      ∀ j, j < 3 → memRead [(inAddr 0, 0xFF), (inAddr 2, 0x01)] (inAddr j) = memRead q.mem (outAddr (0 + j)) := by
  refine ⟨by decide +kernel, _, rfl, ?_⟩
  decide +kernel

theorem witness_VliIsABijection : cat (-1) = 1 ∧ cat 1 = 1 ∧ cat (-32767) = 15 ∧ cat 16384 = 15 := by decide +kernel

/-- A block with residual -1 and no AC value: the bits 01 0 00 of R140's example. -/
theorem witness_DecblkDecodesACodedBlock :
    (slotOf (reading [0x43] t1ta) 0).valid = true ∧ (slotOf (reading [0x43] t1ta) 2).valid = true ∧
    TableOk (slotOf t1ta 0) ∧ TableOk (slotOf t1ta 2) ∧ BlockOk (reading [0x43] t1ta) 0 ∧
    LengthsOk (reading [0x43] t1ta) ∧ ReaderOk (reading [0x43] t1ta).rd ∧
    Codable (slotOf t1ta 0) (slotOf t1ta 2) (-1) (List.replicate 63 0) ∧
    blockBits (slotOf t1ta 0) (slotOf t1ta 2) (-1) (List.replicate 63 0) <+: streamOf (reading [0x43] t1ta) :=
  ⟨by decide +kernel, by decide +kernel, by decide +kernel, by decide +kernel, by decide +kernel⟩

/-- test_decblk_zrl_to_64's block, and a ZRL before EOB (00, 110, 00). -/
theorem witness_DecblkDecodesACodedBlock_codings :
    (acWalk 1 [(0xD1, 1), (0x01, 1), (0xF0, 0), (0xF0, 0), (0xF0, 0)] = some 64 ∧
      ItemOk (slotOf t1ta 0) (dcItem 0) ∧
      (∀ x ∈ [(0xD1, 1), (0x01, 1), (0xF0, 0), (0xF0, 0), (0xF0, 0)] ++ [], ItemOk (slotOf t1ta 2) x) ∧
      codedBits (slotOf t1ta 0) (slotOf t1ta 2) 0 ([(0xD1, 1), (0x01, 1), (0xF0, 0), (0xF0, 0), (0xF0, 0)] ++ []) <+:
        streamOf (reading [0x3A, 0xF6, 0xC0] t1ta)) ∧
    (acWalk 1 [(0xF0, 0)] = some 17 ∧ (∀ x ∈ [(0xF0, 0)] ++ [(0x00, 0)], ItemOk (slotOf t1ta 2) x) ∧
      codedBits (slotOf t1ta 0) (slotOf t1ta 2) 0 ([(0xF0, 0)] ++ [(0x00, 0)]) <+: streamOf (reading [0x30] t1ta)) :=
  ⟨by decide +kernel, by decide +kernel⟩

/-- As for HDEC; and a table whose only symbol is 16, with code 0, before a zero bit. -/
theorem witness_DecblkMissIsEndOfScanOrFault :
    (BlockOk (withCursor 1 0x3F 6 (reading [0x3F] t1ta)) 0 ∧
      NoCodeAhead (slotOf t1ta 0) (streamOf (withCursor 1 0x3F 6 (reading [0x3F] t1ta))) ∧
      OnesPadding (streamOf (withCursor 1 0x3F 6 (reading [0x3F] t1ta)))) ∧
    (NoCodeAhead (slotOf t1ta 0) (streamOf (reading [0xFF, 0x00] t1ta)) ∧
      ¬ OnesPadding (streamOf (reading [0xFF, 0x00] t1ta))) ∧
    (fun s : State => (slotOf s 1).valid = true ∧ TableOk (slotOf s 1) ∧ BlockOk s 0 ∧ ReaderOk s.rd ∧
        16 ∈ registered (slotOf s 1) ∧ codeBits (slotOf s 1) 16 <+: streamOf s)
      (reading [0x00] (after (.hbuild 1) (loaded 1 [1] [16] t1ta))) :=
  ⟨by decide +kernel, by decide +kernel, by decide +kernel, by decide +kernel, by decide +kernel⟩

/-- The bits end inside the DC value of category 4. -/
theorem witness_DecblkMissIsEndOfScanOrFault_dc_value :
    4 ∈ registered (slotOf t1ta 0) ∧ streamOf (withCursor 1 0xE 4 (reading [0x00] t1ta)) = codeBits (slotOf t1ta 0) 4 ++ [] ∧
    ([] : List Bool).length < (4 : Byte).toNat := by decide +kernel

/-- Past a DC value 0 (code 00): six ones; 0x50 at j = 1; a ZRL at j = 49; a run of 13 at j = 51; and a value of category
2 with one bit left. -/
theorem witness_DecblkMissIsEndOfScanOrFault_ac :
    (LengthsOk (reading [0x3F] t1ta) ∧ acWalk 1 [] = some 1 ∧ NoCodeAhead (slotOf t1ta 2) (List.replicate 6 true) ∧
      streamOf (reading [0x3F] t1ta) = codedBits (slotOf t1ta 0) (slotOf t1ta 2) 0 [] ++ List.replicate 6 true) ∧
    (streamOf (reading [0x3E] t1ta) =
        codedBits (slotOf t1ta 0) (slotOf t1ta 2) 0 [] ++ codeBits (slotOf t1ta 2) 0x50 ∧
      0x50 ∈ registered (slotOf t1ta 2) ∧ symCat 0x50 = 0 ∧ symRun 0x50 = 5) ∧
    (acWalk 1 [(0xF0, 0), (0xF0, 0), (0xF0, 0)] = some 49 ∧
      streamOf (reading [0x36, 0xD8] t1ta) =
        codedBits (slotOf t1ta 0) (slotOf t1ta 2) 0 [(0xF0, 0), (0xF0, 0), (0xF0, 0)] ++
          (codeBits (slotOf t1ta 2) 0xF0 ++ [false, false])) ∧
    (acWalk 1 [(0xF0, 0), (0xF0, 0), (0xF0, 0), (0x01, 1), (0x01, 1)] = some 51 ∧ symCat 0xD1 = 1 ∧ symRun 0xD1 = 13 ∧
      streamOf (reading [0x36, 0xCD, 0xF0] t1ta) =
        codedBits (slotOf t1ta 0) (slotOf t1ta 2) 0 [(0xF0, 0), (0xF0, 0), (0xF0, 0), (0x01, 1), (0x01, 1)] ++
          (codeBits (slotOf t1ta 2) 0xD1 ++ [false, false, false])) ∧
    (streamOf (withCursor 1 0b001001 6 (reading [0x00] t1ta)) =
        codedBits (slotOf t1ta 0) (slotOf t1ta 2) 0 [] ++ (codeBits (slotOf t1ta 2) 0x02 ++ [true]) ∧
      symCat 0x02 = 2 ∧ symRun 0x02 = 0) :=
  ⟨by decide +kernel, by decide +kernel, by decide +kernel, by decide +kernel, by decide +kernel⟩

/-- The block of R140's example with residual -1, with room for the byte it completes with three bits pending. -/
theorem witness_EncblkAppendsTheCodedBlock :
    (fun s : State => BlockOk s 0 ∧ LengthsOk s ∧ WriterOk s.wr ∧
        drOf s.cfg s.mem 0 0 = -1 ∧ acList s.cfg s.mem 0 0 = List.replicate 63 0 ∧
        Codable (slotOf s 0) (slotOf s 2) (-1) (List.replicate 63 0) ∧
        HasRoom s (blockBits (slotOf s 0) (slotOf s 2) (-1) (List.replicate 63 0)))
      { withResiduals 0 [-1] (writing 1 t1ta) with wr := { ptr := 0, acc := 5, cnt := 3 } } := by decide +kernel

/-- GEOM 2, 2 of R160's example: blocks 12 and 6. -/
theorem witness_NeighboursAreTheGridNeighbours :
    (leftOf 2 0 12, aboveOf 2 0 12) = (some 9, some 6) ∧ (leftOf 2 0 6, aboveOf 2 0 6) = (some 3, some 4) ∧
    (leftOf 3 1 3, aboveOf 3 1 3) = (none, some 0) := by decide

/-- GEOM 1, 1: block 1 has a left neighbour only, block 2 one above only, block 3 both; each index at its last value. -/
theorem witness_EdgeEstimatesAgreeOnAPixel :
    (leftOf 1 0 1, aboveOf 1 0 1) = (some 0, none) ∧ (leftOf 1 0 2, aboveOf 1 0 2) = (none, some 0) ∧
    (leftOf 1 0 3, aboveOf 1 0 3) = (some 2, some 1) ∧ (leftOf 1 0 0, aboveOf 1 0 0) = (none, none) ∧
    bq 7 7 = -1598 ∧ zzToNat 63 = 63 ∧ zz 62 = 62 := by decide

/-- R169's D for block 1: M and T as the spec gives them, and delta -1. -/
theorem witness_DeltaIsTheRoundedTrimmedMean :
    trimmed [186187020, 172005756, 145821396, 111607938, 74579082, 40365624, 14181264, 0] = [74579082, 111607938] ∧
    dcDelta [186187020, 172005756, 145821396, 111607938, 74579082, 40365624, 14181264, 0] 4 = -1 ∧
    ([186187020, 172005756, 145821396, 111607938, 74579082, 40365624, 14181264, 0] : List Int).length = 8 := by
  decide +kernel

/-- A range whose sums fit; 32767 + 1 at block 1 does not. -/
theorem witness_DpcmdecReconstructsRunningSums :
    (RangeOk (withArgs 0 4 grid) 0 ∧ grid.cfg.legal ∧
      ∀ k, k < 4 → fitsHalf (residualSum (withArgs 0 4 (withResiduals 0 [5, -3, 0, 7] grid)) 0 k) = true) ∧
    (fun s : State => inRange s 1 ∧ fitsHalf (residualSum s 0 1) = false ∧ fitsHalf (residualSum s 0 0) = true)
      (withArgs 0 2 (withResiduals 0 [32767, 1] grid)) := by decide +kernel

/-- R171's examples: a range whose differences fit; 32767 then -2. -/
theorem witness_DpcmencStoresDifferences :
    (∀ k, k < 4 → fitsResidual (dcDifference (withArgs 0 4
      (withCoefs 0 [(0, 0, 5), (1, 0, 2), (2, 0, 2), (3, 0, 9)] grid)) 0 k) = true) ∧
    (fun s : State => RangeOk s 0 ∧ inRange s 1 ∧ fitsResidual (dcDifference s 0 1) = false ∧
        fitsResidual (dcDifference s 0 0) = true)
      (withArgs 0 2 (withCoefs 0 [(0, 0, 32767), (1, 0, -2)] grid)) := by decide +kernel

theorem witness_SppredReturnsThePrediction :
    (fun s : State => BlockOk s 0 ∧ dcStep s 0 ≠ 0) (withArgs 1 0 piped) ∧
    (BlockOk (withArgs 0 0 grid) 0 ∧ dcStep grid 0 = 0 ∧ grid.recorded = none) := by decide +kernel

/-- Blocks 0 and 1 with no AC value: the first sum is 20000, and 20000 + 20000 at block 1 does not fit s16. -/
def steep : State :=
  withArgs 0 2 (withCoefs 0 [(0, 0, 20000)] (withResiduals 0 [20000, 20000] (withQuant grid)))

/-- The reconstruction of block 0 alone meets the equations; block 1's sum does not fit; a step of 0. -/
theorem witness_SpdecReconstructsFromFinalNeighbours :
    (RangeOk steep 0 ∧ steep.cfg.legal ∧ dcStep steep 0 ≠ 0 ∧ steep.recorded = none) ∧
    SameButDc steep 0 steep.mem steep.mem ∧
    (∀ k, inRange { steep with arg1 := 1 } k →
      cmOf steep.cfg steep.mem 0 k 0 = drOf steep.cfg steep.mem 0 k + prediction steep.cfg steep.mem (mcux steep) 0 k) ∧
    (inRange steep 1 ∧
      fitsHalf (drOf steep.cfg steep.mem 0 1 + prediction steep.cfg steep.mem (mcux steep) 0 1) = false) ∧
    (dcStep grid 0 = 0 ∧ 0 < arg1Nat (withArgs 0 1 grid)) ∧
    (RangeOk (withArgs 4 0 grid) 0 ∧ arg1Nat (withArgs 4 0 grid) = 0) := by
  refine ⟨by decide +kernel, fun _ _ => rfl, fun k hk => ?_, by decide +kernel, by decide +kernel, by decide +kernel⟩
  have h1 : k < 0 + 1 := hk.2
  obtain rfl : k = 0 := by omega
  decide +kernel

/-- R169's blocks 0 and 1; a DC of -32768 at block 0, which has no neighbour. -/
theorem witness_SpencStoresResiduals :
    (fun s : State => RangeOk s 0 ∧ s.cfg.legal ∧ dcStep s 0 ≠ 0 ∧ ∀ k, k < 2 → fitsResidual (spatialResidual s 0 k) = true)
      (withArgs 0 2 piped) ∧
    (fun s : State => inRange s 0 ∧ fitsResidual (spatialResidual s 0 0) = false)
      (withArgs 0 1 (withCoefs 0 [(0, 0, -32768)] piped)) ∧
    (RangeOk (withArgs 0 0 grid) 0 ∧ arg1Nat (withArgs 0 0 grid) = 0 ∧ dcStep grid 0 = 0) := by decide +kernel

/-- R171's example, encoded; the values in between are those of RAM. -/
theorem witness_PredictorRoundTrip :
    (fun s : State => s.cfg.legal ∧ (after (.dpcmenc 0) s).recorded = none ∧
        SameButDc s 0 (after (.dpcmenc 0) s).mem (after (.dpcmenc 0) s).mem ∧
        exec (.dpcmenc 0) s = .next (after (.dpcmenc 0) s))
      (withArgs 0 4 (withCoefs 0 [(0, 0, 5), (1, 0, 2), (2, 0, 2), (3, 0, 9)] grid)) := by
  refine ⟨by decide +kernel, by decide +kernel, fun _ _ => rfl, ?_⟩
  generalize withArgs 0 4 (withCoefs 0 [(0, 0, 5), (1, 0, 2), (2, 0, 2), (3, 0, 9)] grid) = s
  rcases endCommand_cases (checkRange 0 (arg0Nat s) (arg1Nat s) s
    ((dpcmEncode s.cfg 0 (arg1Nat s) (arg0Nat s) 0 s.mem).lift fun m => { s with mem := m })) with ⟨u, -, h⟩ | ⟨c, n, u, -, h⟩
  all_goals simp only [after, exec, execDpcmenc, h]

/-- R174's example, its first two blocks, encoded spatially; the DCs are cleared in between. -/
theorem witness_PredictorRoundTrip_spatial :
    (fun s t : State => s.cfg.legal ∧ t.recorded = none ∧ exec (.spenc 0) s = .next t ∧
        SameButDc s 0 t.mem (setCm s.cfg (setCm s.cfg t.mem 0 0 0 0) 0 1 0 0))
      (withArgs 0 2 piped) (after (.spenc 0) (withArgs 0 2 piped)) := by
  refine ⟨by decide +kernel, by decide +kernel, ?_, fun a h => ?_⟩
  · generalize withArgs 0 2 piped = s
    rcases endCommand_cases (checkRange 0 (arg0Nat s) (arg1Nat s) s
      ((spatialEncode s.cfg (mcux s) 0 (arg0Nat s) (arg1Nat s) s.mem).lift fun m => { s with mem := m })) with
      ⟨u, -, h⟩ | ⟨c, n, u, -, h⟩
    all_goals simp only [after, exec, execSpenc, h]
  · have h0 := h 0 ⟨by decide, by decide⟩
    have h1 := h 1 ⟨by decide, by decide⟩
    simp only [inHalf] at h0 h1
    rw [setCm, setCm, memRead_memWrite16, if_neg (by tauto), if_neg (by tauto), memRead_memWrite16, if_neg (by tauto),
      if_neg (by tauto)]

/-- Two states that differ in an array the prediction does not read. -/
theorem witness_SppredDependsOnlyOnItsBlocks :
    (fun s s' : State => s'.cfg = s.cfg ∧ s'.geom = s.geom ∧ s'.arg0 = s.arg0 ∧ s'.res = s.res ∧
        s'.recorded = s.recorded ∧ (∀ p, p < 64 → qtOf s'.mem (qtIndex 0) p = qtOf s.mem (qtIndex 0) p) ∧
        ∀ p, p < 64 → cmOf s.cfg s'.mem 0 0 p = cmOf s.cfg s.mem 0 0 p)
      (withQuant grid) (withBytes [(outAddr 0, 7)] (withQuant grid)) := by decide +kernel

theorem witness_MemoryInvKeptByStep : MemoryInv (commanded 0 blank) ∧ step (commanded 0 blank) = .next (stepped (commanded 0 blank)) :=
  ⟨by decide +kernel, rfl⟩

theorem witness_CursorInvKeptByStep : CursorInv (reading [0x6E] blank) ∧ (reading [0x6E] blank).recorded = none := by
  decide +kernel

theorem witness_FlagInvKeptByStep :
    FlagInv { blank with inFlight := some 0 } ∧ FlagInv faulty ∧ FlagInv { blank with done := true, eos := true } := by
  decide +kernel

theorem witness_TableInvKeptByStep : TableInv t1 ∧ (slotOf t1 0).valid = true ∧ t1.recorded = none := by
  refine ⟨fun _ n hn hv => ?_, by decide +kernel, by decide +kernel⟩
  obtain rfl | rfl | rfl | rfl | rfl | rfl : n = 0 ∨ n = 1 ∨ n = 2 ∨ n = 3 ∨ n = 4 ∨ n = 5 := by omega
  · decide +kernel
  all_goals exact absurd hv (by decide +kernel)

theorem witness_InvariantsHoldAtReset :
    (({ maxMcus := 1, inCap := 1, outCap := 1 } : Config).legal ∧ Config.greatest.legal) ∧
    ({ t1ta with host := [.hardReset] } : State).inFlight = none ∧
    ({ t1ta with host := [.hardReset] } : State).host = .hardReset :: [] := by decide +kernel

/-- The first reserved register offset. -/
theorem witness_UnmappedAddressesReadZero : ¬ Occupied blank.cfg (wordAddr 0x058) := by
  have h : wordAddr 0x058 = 88 := by decide
  rw [h]
  rintro (h | ⟨t, p, -, -, h⟩ | ⟨s, L, -, -, -, h⟩ | ⟨s, i, -, -, h⟩ | ⟨x, -, h⟩ | ⟨j, -, h⟩ | ⟨j, -, h⟩ |
      ⟨comp, k, p, -, -, -, h⟩ | ⟨comp, k, -, -, h⟩)
  all_goals first
    | omega
    | (simp only [qtAddr, bitsAddr, huffvalAddr, freqAddr, inAddr, outAddr, cmAddr, drAddr] at h; omega)

/-- The last entry of each window. -/
theorem witness_HostWritesReachTheArrays :
    blank.cfg.legal ∧ wordAddr (word (qtAddr 1 63)) = qtAddr 1 63 ∧ wordAddr (word (bitsAddr 5 16)) = bitsAddr 5 16 ∧
    wordAddr (word (huffvalAddr 5 255)) = huffvalAddr 5 255 ∧ wordAddr (word (freqAddr 255)) = freqAddr 255 ∧
    wordAddr (word (inAddr 15)) = 4 * (inAddr 15 / 4) ∧ wordAddr (word (outAddr 63)) = 4 * (outAddr 63 / 4) ∧
    wordAddr (word (cmAddr blank.cfg 2 3 63)) = cmAddr blank.cfg 2 3 63 ∧ 3 < blockCapacity blank.cfg 2 ∧
    wordAddr (word (drAddr blank.cfg 2 3)) = drAddr blank.cfg 2 3 ∧ 0x1000 ≤ wordAddr (word (qtAddr 1 63)) := by
  decide +kernel

/-- Each writable register at its own offset, with address bits 1:0 set; the first and last reserved offsets; and a state
whose next event is such a write. -/
theorem witness_HostWritesReachTheArrays_registers :
    [0x007, 0x00B, 0x01F, 0x023, 0x027, 0x02B, 0x02F, 0x003].map wordAddr =
      [0x004, 0x008, 0x01C, 0x020, 0x024, 0x028, 0x02C, 0x000] ∧
    wordAddr 0x057 = 0x054 ∧ wordAddr 0x058 = 0x058 ∧ wordAddr 0xFFF = 0xFFC ∧ blank.cfg.legal ∧
    (6 : Word).getLsbD 0 = false ∧
    ({ blank with host := [.access (.write 0x01C 6)] } : State).inFlight = none ∧
    ({ blank with host := [.access (.write 0x01C 6)] } : State).host = .access (.write 0x01C 6) :: [] := by
  decide +kernel

/-- The read-only registers' offsets; a fault recorded, and none; a read that waits and one that comes early; and bytes of
IN and OUT past the capacities (16 and 64). -/
theorem witness_HostWritesReachTheArrays_reads :
    [0x00F, 0x010, 0x014, 0x018, 0x030, 0x034, 0x038, 0x03C, 0x040, 0x047].map wordAddr =
      [0x00C, 0x010, 0x014, 0x018, 0x030, 0x034, 0x038, 0x03C, 0x040, 0x044] ∧
    (faulty.recorded = some ⟨.badCmd, 1⟩ ∧ (FaultCode.badCmd, 0x01) ∈ faultTable ∧ blank.recorded = none) ∧
    (({ faulty with host := [.access (.read 0x030)] } : State).inFlight = none ∧
      ({ faulty with host := [.access (.read 0x030)] } : State).host = .access (.read 0x030) :: [] ∧
      ({ faulty with host := [.early (.read 0x030)] } : State).host = .early (.read 0x030) :: []) ∧
    (wordAddr (word (inAddr 16)) = 4 * (inAddr 16 / 4) ∧ wordAddr (word (outAddr 4194303)) = 4 * (outAddr 4194303 / 4) ∧
      blank.cfg.inCap ≤ 16 ∧ blank.cfg.outCap ≤ 4194303) := by decide +kernel

/-- A read of CMD and a write of CTRL without SRST, with a command in flight; and a read of STATUS. -/
theorem witness_AccessWhileBusyIsHostBusy :
    wordAddr 0x013 ∈ ([0x010, 0x014, 0x018, 0x020] : List Nat) ∧ decode 0x11000000 = .ok (.hgen 0) ∧
    ({ blank with inFlight := some 0, host := [.early (.read 0x000)] } : State).recorded = none ∧
    ({ blank with inFlight := some 0, host := [.early (.read 0x000)] } : State).inFlight = some 0 ∧
    wordAddr 0x000 ≠ 0x010 ∧ wordAddr 0x000 ≠ 0x014 ∧ wordAddr 0x000 ≠ 0x018 ∧ wordAddr 0x000 ≠ 0x020 ∧
    ¬ (wordAddr 0x01C = 0x01C ∧ (0x6 : Word).getLsbD 0 = true) := by decide +kernel

/-- With no command in flight and in the fault state; and with a command in flight. -/
theorem witness_SoftResetSetsTheBlock :
    ({ faulty with host := [.access (.write 0x01F 7)] } : State).inFlight = none ∧ wordAddr 0x01F = 0x01C ∧
    (7 : Word).getLsbD 0 = true ∧
    ({ blank with inFlight := some 0, host := [.early (.write 0x01C 1)] } : State).host =
      .early (.write 0x01C 1) :: [] := by decide +kernel

end Sys2Proof.Tests
end

section
/-! PROOF. What a piece of a command may touch of RAM: one notion, kept by every store and by every loop of the
meanings (20_memory.md R64). -/

namespace Sys2Proof.Machine

/-- Memory `m'` reads as `m` outside `W`, and is canonical if `m` is. -/
structure Touches (W : Nat → Prop) (m m' : Memory) : Prop where
  wf : m.wf → m'.wf
  frame : ∀ a, ¬ W a → memRead m' a = memRead m a

/-- A run's every end satisfies what every state satisfies. -/
theorem ends_of_forall {σ α : Type} {P : σ → Prop} (h : ∀ st, P st) (r : Run σ α) : r.Ends P := by
  cases r <;> exact h _

section
variable {W V : Nat → Prop} {m m' : Memory}

theorem Touches.refl (W : Nat → Prop) (m : Memory) : Touches W m m := ⟨id, fun _ _ => rfl⟩

theorem Touches.mono (h : Touches V m m') (hV : ∀ a, V a → W a) : Touches W m m' :=
  ⟨h.wf, fun a ha => h.frame a fun hv => ha (hV a hv)⟩

/-! ### Stores -/

theorem Touches.write (h : Touches W m m') {a : Nat} (ha : W a) (v : Byte) : Touches W m (memWrite m' a v) :=
  ⟨fun hm => wf_memWrite (h.wf hm) a v, fun b hb => by
    have hne : b ≠ a := fun he => hb (he ▸ ha)
    rw [memRead_memWrite_other m' v hne, h.frame b hb]⟩

theorem Touches.write16 (h : Touches W m m') {a : Nat} (ha : ∀ b, inHalf a b → W b) (v : Half) :
    Touches W m (memWrite16 m' a v) :=
  (h.write (ha _ (.inl rfl)) _).write (ha _ (.inr rfl)) _

theorem Touches.write32 (h : Touches W m m') {a : Nat} (ha : ∀ b, a ≤ b → b < a + 4 → W b) (v : Word) :
    Touches W m (memWrite32 m' a v) :=
  (((h.write (ha _ (by omega) (by omega)) _).write (ha _ (by omega) (by omega)) _).write
    (ha _ (by omega) (by omega)) _).write (ha _ (by omega) (by omega)) _

theorem Touches.setCm (h : Touches W m m') {c : Config} {comp k p : Nat}
    (hW : ∀ a, inHalf (cmAddr c comp k p) a → W a) (v : Int) : Touches W m (setCm c m' comp k p v) :=
  h.write16 hW _

theorem Touches.setDr (h : Touches W m m') {c : Config} {comp k : Nat}
    (hW : ∀ a, inHalf (drAddr c comp k) a → W a) (v : Int) : Touches W m (setDr c m' comp k v) :=
  h.write16 hW _

/-! ### The frequency table (R98 to R100) -/

theorem Touches.clearFreq (h : Touches W m m') : ∀ {n : Nat},
    (∀ x, x < n → ∀ a, freqAddr x ≤ a → a < freqAddr x + 4 → W a) → Touches W m (clearFreq n m')
  | 0, _ => h
  | n + 1, hW => (h.clearFreq fun x hx => hW x (by omega)).write32 (hW n (by omega)) 0

theorem Touches.countSymbol (h : Touches W m m') {sym : Nat}
    (hW : ∀ a, freqAddr sym ≤ a → a < freqAddr sym + 4 → W a) : Touches W m (countSymbol m' sym) :=
  h.write32 hW _

/-- A residual's category is at most 16. -/
theorem cat_drOf_le (c : Config) (m : Memory) (comp k : Nat) : cat (drOf c m comp k) ≤ 16 := by
  have hv : (drOf c m comp k).natAbs < 2 ^ 16 := by
    have h1 := BitVec.toInt_lt (x := memRead16 m (drAddr c comp k))
    have h2 := BitVec.le_toInt (x := memRead16 m (drAddr c comp k))
    simp only [drOf]; omega
  unfold cat bitlen
  split
  · omega
  · next h0 => have := (Nat.log2_lt h0).mpr hv; omega

/-- The frequency table holds no residual. -/
theorem drOf_countSymbol (c : Config) (m : Memory) (comp k : Nat) {sym : Nat} (hs : sym ≤ 16) :
    drOf c (countSymbol m sym) comp k = drOf c m comp k := by
  have hd : 0x2000000 ≤ drAddr c comp k := by simp only [drAddr]; omega
  simp only [drOf, countSymbol, memRead16]
  rw [memRead_memWrite32_other _ _ (by simp only [freqAddr]; omega),
    memRead_memWrite32_other _ _ (by simp only [freqAddr]; omega)]

/-- FHIST's loop touches the counters of the categories its residuals have at the start. -/
theorem Touches.countCategories {c : Config} {comp : Nat} : ∀ {count k : Nat} {m' : Memory}, Touches W m m' →
    (∀ j, k ≤ j → j < k + count → ∀ a, freqAddr (cat (drOf c m' comp j)) ≤ a →
      a < freqAddr (cat (drOf c m' comp j)) + 4 → W a) →
    Touches W m (countCategories c comp count k m')
  | 0, _, _, h, _ => h
  | count + 1, k, m', h, hW => by
    refine (h.countSymbol (hW k (by omega) (by omega))).countCategories fun j hj hj' => ?_
    rw [drOf_countSymbol c m' comp j (cat_drOf_le c m' comp k)]
    exact hW j (by omega) (by omega)

/-! ### The writer (R118) -/

theorem touches_of_appendFrame {limit : Nat} {p q : OutPort} (h : AppendFrame limit p q) :
    Touches (fun a => outAddr p.wr.ptr.toNat ≤ a ∧ a < outAddr limit) p.mem q.mem :=
  ⟨h.2.2.1, fun a ha => h.2.2.2 a (by omega)⟩

/-! ### The wire form of a table (R92) -/

theorem touches_foldl_write {α : Type} (addr : α → Nat) (val : α → Byte) : ∀ {l : List α} {m' : Memory},
    Touches W m m' → (∀ x ∈ l, W (addr x)) → Touches W m (l.foldl (fun m x => memWrite m (addr x) (val x)) m')
  | [], _, h, _ => h
  | x :: l, m', h, hW =>
    touches_foldl_write addr val (m' := memWrite m' (addr x) (val x)) (h.write (hW x (by simp)) _)
      fun y hy => hW y (by simp [hy])

theorem mem_codeLengths {L : Nat} : L ∈ codeLengths ↔ 1 ≤ L ∧ L ≤ 16 := by
  simp only [codeLengths, List.mem_cons, List.not_mem_nil, or_false]; omega

theorem Touches.storeBits (h : Touches W m m') {s : Nat} (leaves : List (Nat × Nat))
    (hW : ∀ L, 1 ≤ L → L ≤ 16 → W (bitsAddr s L)) : Touches W m (storeBits s leaves m') :=
  touches_foldl_write (bitsAddr s) _ h fun L hL => hW L (mem_codeLengths.mp hL).1 (mem_codeLengths.mp hL).2

theorem Touches.storeHuffval {s : Nat} : ∀ {leaves : List (Nat × Nat)} {i : Nat} {m' : Memory}, Touches W m m' →
    (∀ j, i ≤ j → j < i + leaves.length → W (huffvalAddr s j)) → Touches W m (storeHuffval s i leaves m')
  | [], _, _, h, _ => h
  | x :: rest, i, _, h, hW =>
    (h.write (hW i (by omega) (by simp)) _).storeHuffval fun j hj hj' => hW j (by omega) (by simp; omega)

theorem Touches.storeWireForm (h : Touches W m m') {s : Nat} {leaves : List (Nat × Nat)}
    (hB : ∀ L, 1 ≤ L → L ≤ 16 → W (bitsAddr s L)) (hV : ∀ j, j < leaves.length → W (huffvalAddr s j)) :
    Touches W m (storeWireForm s leaves m') :=
  (h.storeBits leaves hB).storeHuffval fun j _ hj => hV j (by omega)

/-! ### Blocks (R140) -/

theorem Touches.clearAc (h : Touches W m m') {c : Config} {comp k : Nat} : ∀ {n : Nat},
    (∀ p, 1 ≤ p → p ≤ n → ∀ a, inHalf (cmAddr c comp k p) a → W a) → Touches W m (clearAc c comp k n m')
  | 0, _ => h
  | n + 1, hW => (h.clearAc fun p h1 hp => hW p h1 (by omega)).setCm (hW (n + 1) (by omega) (by omega)) 0

/-- The AC symbols touch the coefficients 1..63 of the block. -/
theorem decodeAc_touches {c : Config} {len : Nat} {t : HuffSlot} {acs comp k : Nat}
    (hW : ∀ p, 1 ≤ p → p ≤ 63 → ∀ a, inHalf (cmAddr c comp k p) a → W a) : ∀ (fuel j : Nat) (p : InPort),
    1 ≤ j → Touches W m p.mem → (decodeAc c len t acs comp k fuel j p).Ends fun q => Touches W m q.mem
  | 0, _, _, _, h => h
  | fuel + 1, j, p, hj, h => by
    unfold decodeAc
    split
    · exact h
    · split
      · exact h
      · next x r _ =>
        split
        · split
          · exact h
          · split
            · split
              · exact h
              · exact decodeAc_touches hW fuel (j + 16) _ (by omega) h
            · exact h
        · split
          · exact h
          · next hpos =>
            refine ends_andThen (P := fun q : InPort => Touches W m q.mem)
              (ends_lift (ends_of_forall (fun _ => h) _)) fun v q hq => ?_
            exact decodeAc_touches hW fuel _ _ (by omega) (hq.setCm (hW _ (by omega) (by omega)) _)

theorem decodeBlockFrom_touches {s : State} {acs comp : Nat} {x : Byte} {p : InPort}
    (hD : ∀ a, inHalf (drAddr s.cfg comp (arg0Nat s)) a → W a)
    (hW : ∀ p, 1 ≤ p → p ≤ 63 → ∀ a, inHalf (cmAddr s.cfg comp (arg0Nat s) p) a → W a) (h : Touches W m p.mem) :
    (decodeBlockFrom s acs comp x p).Ends fun q => Touches W m q.mem := by
  unfold decodeBlockFrom
  split
  · exact h
  · refine ends_andThen (P := fun q : InPort => Touches W m q.mem)
      (ends_lift (ends_of_forall (fun _ => h) _)) fun v q hq => ?_
    refine decodeAc_touches hW 64 1 _ (Nat.le_refl 1) ?_
    dsimp only
    exact (hq.setDr hD _).clearAc hW

/-! ### Ranges of blocks (R170 to R174) -/

theorem dpcmDecode_touches {c : Config} {comp : Nat} : ∀ (n k : Nat) (prev : Int) {m' : Memory}, Touches W m m' →
    (∀ j, k ≤ j → j < k + n → ∀ a, inHalf (cmAddr c comp j 0) a → W a) →
    (dpcmDecode c comp n k prev m').Ends (Touches W m)
  | 0, _, _, _, h, _ => h
  | n + 1, k, prev, m', h, hW => by
    unfold dpcmDecode
    split
    · exact dpcmDecode_touches n (k + 1) _ (h.setCm (hW k (by omega) (by omega)) _)
        fun j hj hj' => hW j (by omega) (by omega)
    · exact h

theorem dpcmEncode_touches {c : Config} {comp : Nat} : ∀ (n k : Nat) (prev : Int) {m' : Memory}, Touches W m m' →
    (∀ j, k ≤ j → j < k + n → ∀ a, inHalf (drAddr c comp j) a → W a) →
    (dpcmEncode c comp n k prev m').Ends (Touches W m)
  | 0, _, _, _, h, _ => h
  | n + 1, k, prev, m', h, hW => by
    unfold dpcmEncode
    split
    · exact dpcmEncode_touches n (k + 1) _ (h.setDr (hW k (by omega) (by omega)) _)
        fun j hj hj' => hW j (by omega) (by omega)
    · exact h

/-- The prediction reads RAM and changes none of it. -/
theorem pred_ends {P : Memory → Prop} {c : Config} {mx comp k : Nat} {m : Memory} (h : P m) :
    (pred c mx comp k m).Ends P := by
  unfold pred; split <;> exact h

theorem spatialDecode_touches {c : Config} {mx comp : Nat} : ∀ (n k : Nat) {m' : Memory}, Touches W m m' →
    (∀ j, k ≤ j → j < k + n → ∀ a, inHalf (cmAddr c comp j 0) a → W a) →
    (spatialDecode c mx comp n k m').Ends (Touches W m)
  | 0, _, _, h, _ => h
  | n + 1, k, m', h, hW => by
    refine ends_andThen (ends_andThen (pred_ends h) fun p u hu => ?_) fun _ u hu =>
      spatialDecode_touches n (k + 1) hu fun j hj hj' => hW j (by omega) (by omega)
    split
    · exact hu.setCm (hW k (by omega) (by omega)) _
    · exact hu

theorem spatialEncode_touches {c : Config} {mx comp first : Nat} : ∀ (n : Nat) {m' : Memory}, Touches W m m' →
    (∀ j, first ≤ j → j < first + n → ∀ a, inHalf (drAddr c comp j) a → W a) →
    (spatialEncode c mx comp first n m').Ends (Touches W m)
  | 0, _, h, _ => h
  | n + 1, m', h, hW => by
    refine ends_andThen (ends_andThen (pred_ends h) fun p u hu => ?_) fun _ u hu =>
      spatialEncode_touches n hu fun j hj hj' => hW j (by omega) (by omega)
    split
    · exact hu.setDr (hW _ (by omega) (by omega)) _
    · exact hu

end

end Sys2Proof.Machine
end

section
/-! PROOF. What every end of a command keeps (20_memory.md R64): the command's body, its frame, and the frame of the
whole command. -/

namespace Sys2Proof.Machine

/-! ### The body of a command -/

/-- The body of a command: what runs before R191's end. -/
def body (i : Instr) (s : State) : Run State Unit :=
  match i with
  | .nop => .ok () s
  | .hbuild slot => checkSlot slot s (buildSlot slot s)
  | .hgen slot => checkSlot slot s (generateSlot slot s)
  | .hdec slot eosok => checkBuilt slot s (decodeSymbol slot eosok s)
  | .henc slot sym =>
    checkBuilt slot s ((hencSym (slotOf s slot) s.outLen.toNat sym (outPort s)).lift (withOutPort s))
  | .hcode slot sym =>
    checkBuilt slot s
      (if lenAt (slotOf s slot) sym = 0 then .raise .huffNocode (sym.setWidth 32) s
       else .ok () { s with res := codeWord (slotOf s slot) sym })
  | .hinv slot => checkSlot slot s (.ok () (withSlot s slot (invalidate (slotOf s slot))))
  | .fclr => .ok () { s with mem := clearFreq 256 s.mem }
  | .finc sym => .ok () { s with mem := countSymbol s.mem sym.toNat }
  | .fhist comp =>
    checkRange comp (arg0Nat s) (arg1Nat s) s
      (.ok () { s with mem := countCategories s.cfg comp (arg1Nat s) (arg0Nat s) s.mem })
  | .rdinit => .ok () { s with rd := readerStart s.mem s.inLen.toNat s.arg0 }
  | .getbits n =>
    checkLen n 16 s (((takeBits s.mem s.inLen.toNat n s.rd).lift (fun r => { s with rd := r })).andThen
      fun x s => .ok () { s with res := word x })
  | .receive n =>
    checkLen n 15 s (((takeBits s.mem s.inLen.toNat n s.rd).lift (fun r => { s with rd := r })).andThen
      fun x s => .ok () { s with res := signedWord (vliDecode x n) })
  | .wrinit => .ok () { s with wr := { ptr := s.arg0, acc := 0, cnt := 0 } }
  | .putbits n => checkLen n 32 s ((putBits s.outLen.toNat n (arg0Nat s) (outPort s)).lift (withOutPort s))
  | .putvli =>
    check (decide (cat (arg0Int s) ≤ 15)) .vliRange s.arg0 s
      (((putBits s.outLen.toNat (cat (arg0Int s)) (vliBits (arg0Int s) (cat (arg0Int s))) (outPort s)).lift
          (withOutPort s)).andThen
        fun _ u => .ok () { u with res := word (cat (arg0Int s)) })
  | .vcat => .ok () { s with res := word (cat (arg0Int s)) }
  | .flush => (flushBits s.outLen.toNat (outPort s)).lift (withOutPort s)
  | .decblk dcs acs comp eosok =>
    checkBuilt dcs s (checkBuilt acs s (checkBlock comp (arg0Nat s) s (decodeBlock dcs acs comp eosok s)))
  | .encblk dcs acs comp =>
    checkBuilt dcs s (checkBuilt acs s (checkBlock comp (arg0Nat s) s
      (((encodeBlock dcs acs comp s (outPort s)).lift (withOutPort s)).andThen
        fun _ u => .ok () { u with res := 0 })))
  | .dpcmdec comp =>
    checkRange comp (arg0Nat s) (arg1Nat s) s
      ((dpcmDecode s.cfg comp (arg1Nat s) (arg0Nat s) 0 s.mem).lift (fun m => { s with mem := m }))
  | .dpcmenc comp =>
    checkRange comp (arg0Nat s) (arg1Nat s) s
      ((dpcmEncode s.cfg comp (arg1Nat s) (arg0Nat s) 0 s.mem).lift (fun m => { s with mem := m }))
  | .spdec comp =>
    checkRange comp (arg0Nat s) (arg1Nat s) s
      ((spatialDecode s.cfg (mcux s) comp (arg1Nat s) (arg0Nat s) s.mem).lift (fun m => { s with mem := m }))
  | .spenc comp =>
    checkRange comp (arg0Nat s) (arg1Nat s) s
      ((spatialEncode s.cfg (mcux s) comp (arg0Nat s) (arg1Nat s) s.mem).lift (fun m => { s with mem := m }))
  | .sppred comp =>
    checkBlock comp (arg0Nat s) s
      (((pred s.cfg (mcux s) comp (arg0Nat s) s.mem).lift (fun m => { s with mem := m })).andThen fun p u =>
        if fitsWord p then .ok () { u with res := signedWord p }
        else .raise .predRange (word (arg0Nat u)) u)

/-- A command's meaning is its body, ended as R191 says. -/
theorem exec_eq_body (i : Instr) (s : State) : exec i s = endCommand (body i s) := by cases i <;> rfl

/-- A command's next state comes from its body's end, normal or by a fault. -/
theorem exec_next_cases {i : Instr} {s t : State} (h : exec i s = .next t) :
    (∃ u, body i s = .ok () u ∧ t = commandDone u) ∨
    (∃ code info u, body i s = .raise code info u ∧ t = faultEntry code info u) := by
  rw [exec_eq_body] at h
  rcases endCommand_cases (body i s) with ⟨u, hb, he⟩ | ⟨code, info, u, hb, he⟩
  · rw [he] at h; cases h; exact .inl ⟨u, hb, rfl⟩
  · rw [he] at h; cases h; exact .inr ⟨code, info, u, hb, rfl⟩

/-- What both ends of a body satisfy, the end it came to satisfies. -/
theorem ends_of_eq_ok {σ α : Type} {P : σ → Prop} {r : Run σ α} {a : α} {u : σ} (h : r.Ends P) (e : r = .ok a u) :
    P u := by
  subst e; exact h

theorem ends_of_eq_raise {σ α : Type} {P : σ → Prop} {r : Run σ α} {code : FaultCode} {info : Word} {u : σ}
    (h : r.Ends P) (e : r = .raise code info u) : P u := by
  subst e; exact h

/-! ### The frame of a body -/

/-- What the body of `i` keeps, whichever way it ends: every field but the cursors, RES, EOS, the slots and RAM, and of
these all that R64 does not list for `i`. -/
structure Frame (i : Instr) (s t : State) : Prop where
  rest : t = { s with rd := t.rd, wr := t.wr, res := t.res, eos := t.eos, slots := t.slots, mem := t.mem }
  rd : writesReader i = false → t.rd = s.rd
  wr : writesWriter i = false → t.wr = s.wr
  res : writesRes i = false → t.res = s.res
  eos : setsEos i = false → t.eos = s.eos
  slot : ∀ n, ¬ writesSlot i n → slotOf t n = slotOf s n
  mem : Touches (writesByte i s) s.mem t.mem

section
variable {i : Instr} {s t : State}

theorem Frame.refl (i : Instr) (s : State) : Frame i s s :=
  ⟨rfl, fun _ => rfl, fun _ => rfl, fun _ => rfl, fun _ => rfl, fun _ _ => rfl, .refl _ _⟩

theorem Frame.setRes (h : Frame i s t) (hr : writesRes i = true) (x : Word) : Frame i s { t with res := x } :=
  { h with rest := by rw [h.rest], res := by simp [hr] }

theorem Frame.setSlot (h : Frame i s t) {n : Nat} (hn : ∀ k, k = n → writesSlot i k) (x : HuffSlot) :
    Frame i s (withSlot t n x) :=
  { h with
    rest := by rw [h.rest]; rfl
    slot := fun k hk => by rw [slotOf_withSlot_other t x fun e => hk (hn k e), h.slot k hk] }

theorem frame_rd (hw : writesReader i = true) (r : Reader) : Frame i s { s with rd := r } :=
  { Frame.refl i s with rest := rfl, rd := by simp [hw] }

theorem frame_rd_mem (hw : writesReader i = true) (r : Reader) {m : Memory} (hm : Touches (writesByte i s) s.mem m) :
    Frame i s { s with rd := r, mem := m } :=
  { Frame.refl i s with rest := rfl, rd := by simp [hw], mem := hm }

theorem frame_rd_res (hw : writesReader i = true) (hr : writesRes i = true) (r : Reader) (x : Word) :
    Frame i s { s with rd := r, res := x } :=
  { Frame.refl i s with rest := rfl, rd := by simp [hw], res := by simp [hr] }

theorem frame_rd_eos_res (hw : writesReader i = true) (he : setsEos i = true) (hr : writesRes i = true) (r : Reader)
    (b : Bool) (x : Word) : Frame i s { s with rd := r, eos := b, res := x } :=
  { Frame.refl i s with rest := rfl, rd := by simp [hw], eos := by simp [he], res := by simp [hr] }

theorem frame_wr (hw : writesWriter i = true) (w : Writer) : Frame i s { s with wr := w } :=
  { Frame.refl i s with rest := rfl, wr := by simp [hw] }

theorem frame_mem {m : Memory} (hm : Touches (writesByte i s) s.mem m) : Frame i s { s with mem := m } :=
  { Frame.refl i s with rest := rfl, mem := hm }

theorem frame_withOutPort (hw : writesWriter i = true) {p : OutPort} (hm : Touches (writesByte i s) s.mem p.mem) :
    Frame i s (withOutPort s p) :=
  { Frame.refl i s with rest := rfl, wr := by simp [hw], mem := hm }

end

/-! ### The frame of each body -/

/-- A writing command's body that appends and no more. -/
theorem frame_of_append {i : Instr} {s : State} {r : Run OutPort Unit} (hw : writesWriter i = true)
    (hm : ∀ a, outAddr s.wr.ptr.toNat ≤ a ∧ a < outAddr s.outLen.toNat → writesByte i s a)
    (h : r.Ends (AppendFrame s.outLen.toNat (outPort s))) : (r.lift (withOutPort s)).Ends (Frame i s) := by
  refine ends_lift (ends_mono h fun q hq => ?_)
  exact frame_withOutPort hw ((touches_of_appendFrame hq).mono hm)

/-- Both ends of building a slot. The run is named apart, so that no tactic evaluates the table. -/
theorem buildSlot_ends {P : State → Prop} {slot : Nat} {t : State} {r : Run State Unit} (hr : buildSlot slot t = r)
    (hok : ∀ x, buildTable t.mem slot = .ok x → P (withSlot t slot x))
    (hno : P (withSlot t slot (invalidate (slotOf t slot)))) : r.Ends P := by
  have h := buildSlot_cases slot t
  rw [hr] at h
  rcases h with ⟨x, hx, -, rfl⟩ | ⟨code, info, -, rfl⟩
  · exact hok x hx
  · exact hno

/-- Both ends of generating a slot, for what building it from the wire form written keeps. -/
theorem generateSlot_ends {P : State → Prop} {slot : Nat} {s : State} {r : Run State Unit}
    (hr : generateSlot slot s = r)
    (hok : ∀ x, buildTable (storeWireForm slot (huffmanLeaves s.mem) s.mem) slot = .ok x →
      P (withSlot { s with mem := storeWireForm slot (huffmanLeaves s.mem) s.mem } slot x))
    (hno : P (withSlot { s with mem := storeWireForm slot (huffmanLeaves s.mem) s.mem } slot
      (invalidate (slotOf s slot))))
    (hdeep : P (withSlot s slot (invalidate (slotOf s slot)))) : r.Ends P := by
  unfold generateSlot at hr
  split at hr
  · subst hr; exact hdeep
  · exact buildSlot_ends hr hok hno

/-- A table built in the command's slot. -/
theorem buildSlot_frame {i : Instr} {s : State} {slot : Nat} {r : Run State Unit} (hr : buildSlot slot s = r)
    (hn : ∀ k, k = slot → writesSlot i k) : r.Ends (Frame i s) :=
  buildSlot_ends hr (fun x _ => (Frame.refl i s).setSlot hn x) ((Frame.refl i s).setSlot hn _)

theorem generateSlot_frame {slot : Nat} {s : State} {r : Run State Unit} (hs : slot ≤ 5)
    (hr : generateSlot slot s = r) : r.Ends (Frame (.hgen slot) s) := by
  have hn : ∀ k, k = slot → writesSlot (.hgen slot) k := fun _ h => h
  have hm : Touches (writesByte (.hgen slot) s) s.mem (storeWireForm slot (huffmanLeaves s.mem) s.mem) :=
    (Touches.refl _ _).storeWireForm (fun L h1 h2 => ⟨hs, .inl ⟨L, h1, h2, rfl⟩⟩)
      fun j hj => ⟨hs, .inr ⟨j, hj, rfl⟩⟩
  have hf := frame_mem hm
  exact generateSlot_ends hr (fun x _ => hf.setSlot hn x) (hf.setSlot hn _) ((Frame.refl _ s).setSlot hn _)

theorem decodeSymbol_frame (slot : Nat) (eosok : Bool) (s : State) :
    (decodeSymbol slot eosok s).Ends (Frame (.hdec slot eosok) s) := by
  unfold decodeSymbol
  split
  · exact ends_ok.mpr (frame_rd_res rfl rfl _ _)
  · split
    · split
      · exact ends_ok.mpr (frame_rd_eos_res rfl rfl rfl _ _ _)
      · exact ends_raise.mpr (frame_rd rfl _)
    · exact ends_raise.mpr (frame_rd rfl _)

theorem decodeBlock_frame {dcs acs comp : Nat} {eosok : Bool} {s : State} (hb : BlockOk s comp) :
    (decodeBlock dcs acs comp eosok s).Ends (Frame (.decblk dcs acs comp eosok) s) := by
  unfold decodeBlock
  split
  · split
    · split
      · exact ends_ok.mpr (frame_rd_eos_res rfl rfl rfl _ _ _)
      · exact ends_raise.mpr (frame_rd rfl _)
    · exact ends_raise.mpr (frame_rd rfl _)
  · next x r _ =>
    have ht := decodeBlockFrom_touches (W := writesByte (.decblk dcs acs comp eosok) s) (s := s) (acs := acs)
      (x := x) (p := { rd := r, mem := s.mem }) (fun a ha => ⟨hb, .inl ha⟩)
      (fun p h1 h2 a ha => ⟨hb, .inr ⟨p, h1, h2, ha⟩⟩) (.refl _ _)
    exact ends_andThen (ends_lift (ends_mono ht fun p hp => frame_rd_mem rfl p.rd hp)) fun _ u hu => hu.setRes rfl _

/-- Bits taken from the reader, and a result in RES. -/
theorem takeBits_frame {i : Instr} {s : State} (n : Nat) (f : Nat → Word) (hw : writesReader i = true)
    (hr : writesRes i = true) :
    (((takeBits s.mem s.inLen.toNat n s.rd).lift (fun r => { s with rd := r })).andThen
      fun x s => .ok () { s with res := f x }).Ends (Frame i s) :=
  ends_andThen (ends_lift (ends_of_forall (frame_rd hw) _)) fun x _ hu => hu.setRes hr (f x)

/-- A range command's loop over RAM. -/
theorem frame_of_touches {i : Instr} {s : State} {r : Run Memory Unit} (h : r.Ends (Touches (writesByte i s) s.mem)) :
    (r.lift (fun m => { s with mem := m })).Ends (Frame i s) :=
  ends_lift (ends_mono h fun _ hm => frame_mem hm)

/-- Every body keeps its command's frame. -/
theorem body_frame (i : Instr) (s : State) : (body i s).Ends (Frame i s) := by
  have h0 := Frame.refl i s
  cases i with
  | nop => exact h0
  | hbuild slot =>
    refine ends_checkSlot h0 ?_
    generalize hr : buildSlot slot s = r
    exact fun _ => buildSlot_frame hr fun _ h => h
  | hgen slot =>
    refine ends_checkSlot h0 ?_
    generalize hr : generateSlot slot s = r
    exact fun hs => generateSlot_frame hs hr
  | hdec slot eosok => exact ends_checkBuilt h0 fun _ _ => decodeSymbol_frame slot eosok s
  | henc slot sym =>
    exact ends_checkBuilt h0 fun _ _ => frame_of_append rfl (fun _ h => h) (hencSym_frame _ _ s.outLen.isLt _ _)
  | hcode slot sym =>
    refine ends_checkBuilt h0 fun _ _ => ?_
    split
    · exact h0
    · exact h0.setRes rfl _
  | hinv slot => exact ends_checkSlot h0 fun _ => h0.setSlot (fun _ h => h) _
  | fclr => exact frame_mem ((Touches.refl _ _).clearFreq fun x hx a h1 h2 => ⟨x, hx, h1, h2⟩)
  | finc sym => exact frame_mem ((Touches.refl _ _).countSymbol fun a h1 h2 => ⟨h1, h2⟩)
  | fhist comp =>
    exact ends_checkRange h0 fun hc hg hr => frame_mem
      ((Touches.refl _ _).countCategories fun k h1 h2 a h3 h4 => ⟨⟨hc, hg, hr⟩, k, ⟨h1, h2⟩, h3, h4⟩)
  | rdinit => exact frame_rd rfl _
  | getbits n => exact ends_checkLen h0 fun _ => takeBits_frame n _ rfl rfl
  | receive n => exact ends_checkLen h0 fun _ => takeBits_frame n _ rfl rfl
  | wrinit => exact frame_wr rfl _
  | putbits n =>
    exact ends_checkLen h0 fun _ => frame_of_append rfl (fun _ h => h) (putBits_frame _ s.outLen.isLt _ _ _)
  | putvli =>
    exact ends_check h0 fun _ => ends_andThen (frame_of_append rfl (fun _ h => h) (putBits_frame _ s.outLen.isLt _ _ _))
      fun _ _ hu => hu.setRes rfl _
  | vcat => exact h0.setRes rfl _
  | flush => exact frame_of_append rfl (fun _ h => h) (flushBits_frame _ s.outLen.isLt _)
  | decblk dcs acs comp eosok =>
    exact ends_checkBuilt h0 fun _ _ => ends_checkBuilt h0 fun _ _ => ends_checkBlock h0 fun hc hg hk =>
      decodeBlock_frame ⟨hc, hg, hk⟩
  | encblk dcs acs comp =>
    exact ends_checkBuilt h0 fun _ _ => ends_checkBuilt h0 fun _ _ => ends_checkBlock h0 fun _ _ _ =>
      ends_andThen (frame_of_append rfl (fun _ h => h) (encodeBlock_frame dcs acs comp s _))
        fun _ _ hu => hu.setRes rfl _
  | dpcmdec comp =>
    exact ends_checkRange h0 fun hc hg hr => frame_of_touches
      (dpcmDecode_touches _ _ _ (.refl _ _) fun k h1 h2 a ha => ⟨⟨hc, hg, hr⟩, k, ⟨h1, h2⟩, ha⟩)
  | dpcmenc comp =>
    exact ends_checkRange h0 fun hc hg hr => frame_of_touches
      (dpcmEncode_touches _ _ _ (.refl _ _) fun k h1 h2 a ha => ⟨⟨hc, hg, hr⟩, k, ⟨h1, h2⟩, ha⟩)
  | spdec comp =>
    exact ends_checkRange h0 fun hc hg hr => frame_of_touches
      (spatialDecode_touches _ _ (.refl _ _) fun k h1 h2 a ha => ⟨⟨hc, hg, hr⟩, k, ⟨h1, h2⟩, ha⟩)
  | spenc comp =>
    exact ends_checkRange h0 fun hc hg hr => frame_of_touches
      (spatialEncode_touches _ (.refl _ _) fun k h1 h2 a ha => ⟨⟨hc, hg, hr⟩, k, ⟨h1, h2⟩, ha⟩)
  | sppred comp =>
    refine ends_checkBlock h0 fun _ _ _ => ends_andThen (P := Frame (.sppred comp) s)
      (ends_lift (pred_ends h0)) fun p u hu => ?_
    split
    · exact hu.setRes rfl _
    · exact hu

/-! ### The frame of a command -/

section
variable {i : Instr} {s t : State}

/-- The fields R64 lists for no command. -/
theorem Frame.unchanged (h : Frame i s t) : Unchanged i s t :=
  ⟨by rw [h.rest]; exact ⟨rfl, rfl, rfl, rfl, rfl, rfl, rfl, rfl, rfl, rfl, rfl⟩,
    h.rd, h.wr, h.res, h.eos, h.slot, h.mem.frame⟩

theorem Frame.recorded (h : Frame i s t) : t.recorded = s.recorded := by rw [h.rest]
theorem Frame.done (h : Frame i s t) : t.done = s.done := by rw [h.rest]
theorem Frame.doneP (h : Frame i s t) : t.doneP = s.doneP := by rw [h.rest]
theorem Frame.doneIe (h : Frame i s t) : t.doneIe = s.doneIe := by rw [h.rest]
theorem Frame.faultIe (h : Frame i s t) : t.faultIe = s.faultIe := by rw [h.rest]

end

/-- The normal end writes no field that `Unchanged` speaks of. -/
theorem unchanged_commandDone {i : Instr} {s t : State} (h : Unchanged i s t) : Unchanged i s (commandDone t) := h

/-- Nor does fault entry. -/
theorem unchanged_faultEntry {i : Instr} {s t : State} (code : FaultCode) (info : Word) (h : Unchanged i s t) :
    Unchanged i s (faultEntry code info t) := by
  simpa [Unchanged, slotOf] using h

/-- A command leaves unchanged what R64 does not list for it. -/
theorem exec_unchanged {i : Instr} {s t : State} (h : exec i s = .next t) : Unchanged i s t := by
  rw [exec_eq_body] at h
  exact endCommand_next_of_ends h (ends_mono (body_frame i s) fun _ hu => hu.unchanged)
    (fun _ => unchanged_commandDone) fun code info _ => unchanged_faultEntry code info

end Sys2Proof.Machine
end

section
open Sys2Proof Sys2Proof.Machine

/-- Settles O10, from the frame of each command's body, which both ends of a command keep. -/
theorem commandsLeaveTheRestUnchanged : Obligations.CommandsLeaveTheRestUnchanged :=
  fun _ _ _ h => exec_unchanged h

end

section
/-! PROOF. What a step keeps: a property that every piece of a step keeps, every step keeps. The pieces are those of
20_memory.md R57 to R59 and 44_control.md R191. -/

namespace Sys2Proof.Machine

/-- Every piece a step is made of keeps `P`. -/
structure StepClosed (P : State → Prop) : Prop where
  host : ∀ {s : State} (l : List HostEvent), P s → P { s with host := l }
  run : ∀ {i : Instr} {s t : State}, P s → s.inFlight.isSome = true → exec i s = .next t → P t
  badCmd : ∀ {s : State} (w : Word), P s → s.inFlight.isSome = true → P (faultEntry .badCmd w s)
  violation : ∀ {s : State} (a : Access), P s → s.inFlight.isSome = true → P (busyViolation a s)
  read : ∀ {s : State} (x : Word), P s → P { s with busData := x }
  write : ∀ {s : State} (addr v : Word), P s → P (busWrite addr v s)
  accept : ∀ {s : State} (w : Word), P s → s.recorded = none → P (acceptCommand w s)
  soft : ∀ {s : State}, P s → P (softReset s)
  hard : ∀ {s : State}, P s → P (hardReset s)

section
variable {P : State → Prop} {s t : State}

theorem StepClosed.hostAccess (h : StepClosed P) (hs : P s) (a : Access) : P (hostAccess a s) := by
  rcases hostAccess_cases a s with ⟨addr, -, e⟩ | ⟨addr, v, -, ⟨-, e⟩ | ⟨-, -, e⟩ | ⟨-, -, e⟩⟩
  · rw [e]; exact h.read _ hs
  · rw [e]; exact h.soft hs
  · rcases issueCommand_cases v s with ⟨-, ei⟩ | ⟨hn, ei⟩
    · rw [e, ei]; exact hs
    · rw [e, ei]; exact h.accept v hs hn
  · rw [e]; exact h.write addr v hs

theorem StepClosed.runCommand (h : StepClosed P) {w : Word} (hs : P s) (hw : s.inFlight.isSome = true)
    (ht : runCommand w s = .next t) : P t := by
  rcases runCommand_cases w s with ⟨i, -, e⟩ | ⟨_, -, e⟩
  · exact h.run hs hw (e ▸ ht)
  · rw [e] at ht; cases ht; exact h.badCmd w hs hw

theorem StepClosed.earlyAccess (h : StepClosed P) (hs : P s) (hw : s.inFlight.isSome = true) (a : Access) :
    P (earlyAccess a s) := by
  unfold Machine.earlyAccess
  split
  · exact h.hostAccess hs a
  · exact h.violation a hs hw

theorem StepClosed.hostEvent (h : StepClosed P) (hs : P s) (ev : HostEvent) : P (hostEvent ev s) := by
  cases ev with
  | access a => exact h.hostAccess hs a
  | early a => exact h.hostAccess hs a
  | hardReset => exact h.hard hs

theorem StepClosed.afterEvent (h : StepClosed P) (hs : P s) (ht : afterEvent s = .next t) : P t := by
  rcases afterEvent_cases s with ⟨e, -⟩ | ⟨w, hw, -, e⟩
  · rw [e] at ht; cases ht; exact hs
  · exact h.runCommand hs (by simp [hw]) (e ▸ ht)

/-- What every piece keeps, a step keeps. -/
theorem StepClosed.step (h : StepClosed P) (hs : P s) (ht : step s = .next t) : P t := by
  rcases step_cases s with ⟨w, a, rest, hw, -, e⟩ | ⟨w, hw, -, e⟩ | ⟨-, -, e⟩ | ⟨ev, rest, -, -, e⟩
  · rw [e] at ht; cases ht; exact h.earlyAccess (h.host rest hs) (by simp [hw]) a
  · exact h.runCommand hs (by simp [hw]) (e ▸ ht)
  · rw [e] at ht; cases ht; exact hs
  · exact h.afterEvent (h.hostEvent (h.host rest hs) ev) (e ▸ ht)

end

/-! ### What abandoning a command keeps (R200, R211) -/

/-- Only the locations of R64's column "writes" become free; the command is gone. -/
theorem abandon_eq (s : State) :
    abandon s = { s with rd := (abandon s).rd, wr := (abandon s).wr, res := (abandon s).res,
                         slots := (abandon s).slots, mem := (abandon s).mem, inFlight := (abandon s).inFlight,
                         freeDraws := (abandon s).freeDraws } := by
  unfold abandon
  split
  · rfl
  · split
    · rfl
    · next i _ =>
      unfold freeWrites
      split
      · rfl
      · rw [freeRegisters_eq i s]; rfl

@[simp] theorem abandon_done (s : State) : (abandon s).done = s.done := by rw [abandon_eq]
@[simp] theorem abandon_eos (s : State) : (abandon s).eos = s.eos := by rw [abandon_eq]

/-- A violation records a fault: the first one of the two, if one is recorded already. -/
theorem busyViolation_eq (a : Access) (s : State) :
    ∃ u, busyViolation a s = faultEntry .hostBusy (accessAddr a) (abandon u) ∧
      (u = s ∨ u = { s with busData := Config.freeValue 32 s.freeDraws 4, freeDraws := s.freeDraws + 1 }) := by
  cases a with
  | read addr => exact ⟨_, rfl, .inr rfl⟩
  | write addr v => exact ⟨_, rfl, .inl rfl⟩

theorem busyViolation_recorded (a : Access) (s : State) : (busyViolation a s).recorded.isSome = true := by
  obtain ⟨u, e, -⟩ := busyViolation_eq a s
  rw [e]; exact faultEntry_recorded_isSome _ _ _

/-- A host write that only stores reaches ARG0, ARG1, GEOM, the two lengths, CTRL, IRQ and RAM (R57). -/
theorem busWrite_eq (addr v : Word) (s : State) :
    busWrite addr v s =
      { s with arg0 := (busWrite addr v s).arg0, arg1 := (busWrite addr v s).arg1, geom := (busWrite addr v s).geom,
               inLen := (busWrite addr v s).inLen, outLen := (busWrite addr v s).outLen,
               doneIe := (busWrite addr v s).doneIe, faultIe := (busWrite addr v s).faultIe,
               doneP := (busWrite addr v s).doneP, faultP := (busWrite addr v s).faultP,
               mem := (busWrite addr v s).mem } := by
  unfold busWrite
  split
  · unfold writeRegister; split <;> rfl
  · rfl

@[simp] theorem busWrite_inFlight (addr v : Word) (s : State) : (busWrite addr v s).inFlight = s.inFlight := by
  rw [busWrite_eq]
@[simp] theorem busWrite_done (addr v : Word) (s : State) : (busWrite addr v s).done = s.done := by rw [busWrite_eq]
@[simp] theorem busWrite_eos (addr v : Word) (s : State) : (busWrite addr v s).eos = s.eos := by rw [busWrite_eq]
@[simp] theorem busWrite_recorded (addr v : Word) (s : State) : (busWrite addr v s).recorded = s.recorded := by
  rw [busWrite_eq]
@[simp] theorem busWrite_rd (addr v : Word) (s : State) : (busWrite addr v s).rd = s.rd := by rw [busWrite_eq]
@[simp] theorem busWrite_wr (addr v : Word) (s : State) : (busWrite addr v s).wr = s.wr := by rw [busWrite_eq]
@[simp] theorem busWrite_slots (addr v : Word) (s : State) : (busWrite addr v s).slots = s.slots := by rw [busWrite_eq]

end Sys2Proof.Machine
end

section
/-! PROOF. The flags (10_state.md R22, R25; 60_exceptions.md R200 to R203): what each end of a command makes of them, how
the host reads them, and their invariant. -/

namespace Sys2Proof.Machine

/-! ### Flags as register bits -/

theorem getLsbD_bitAt (b : Bool) {k : Nat} (j : Nat) (hk : k < 32) : (bitAt b k).getLsbD j = (b && decide (j = k)) := by
  cases b with
  | false => simp [bitAt]
  | true =>
    simp only [bitAt, if_true, BitVec.getLsbD_ofNat, Nat.testBit_two_pow, Bool.true_and]
    by_cases h : k = j
    · subst h; simp [hk]
    · simp [h, Ne.symm h]

/-- The number R201's table gives a code is the code's number. -/
theorem faultNumber_of_mem {code : FaultCode} {n : Nat} (h : (code, n) ∈ faultTable) :
    (faultNumber code).setWidth 32 = word n := by
  have hall : ∀ x ∈ faultTable, (faultNumber x.1).setWidth 32 = word x.2 := by decide
  exact hall _ h

section
variable (s : State)

theorem getLsbD_irqWord (b : Nat) :
    (irqWord s).getLsbD b = ((s.doneP && decide (b = 0)) || (s.faultP && decide (b = 1))) := by
  simp [irqWord, getLsbD_bitAt]

theorem getLsbD_ctrlWord (b : Nat) :
    (ctrlWord s).getLsbD b = ((s.doneIe && decide (b = 1)) || (s.faultIe && decide (b = 2))) := by
  simp [ctrlWord, getLsbD_bitAt]

theorem getLsbD_statusWord (b : Nat) :
    (statusWord s).getLsbD b =
      ((s.inFlight.isSome && decide (b = 0)) || (s.done && decide (b = 1)) || (s.recorded.isSome && decide (b = 2)) ||
        (s.eos && decide (b = 3)) || (s.rd.eod && decide (b = 4)) || (s.rd.marker && decide (b = 5))) := by
  simp [statusWord, getLsbD_bitAt, busy, faulted]

/-- A host read of the register block goes to the register at the word's offset. -/
theorem busRead_of_lt {addr : Word} (h : wordAddr addr < 0x1000) : busRead s addr = readRegister (wordAddr addr) s := by
  simp [busRead, h]

theorem busRead_of_eq {addr : Word} {off : Nat} (h : wordAddr addr = off) (hl : off < 0x1000) :
    busRead s addr = readRegister off s := by
  subst h; exact busRead_of_lt s hl

theorem busRead_status : busRead s 0x010 = statusWord s := busRead_of_eq s (off := 0x010) rfl (by decide)
theorem busRead_fault : busRead s 0x014 = faultWord s := busRead_of_eq s (off := 0x014) rfl (by decide)
theorem busRead_faultInfo : busRead s 0x018 = faultInfoWord s := busRead_of_eq s (off := 0x018) rfl (by decide)
theorem busRead_ctrl : busRead s 0x01C = ctrlWord s := busRead_of_eq s (off := 0x01C) rfl (by decide)
theorem busRead_irq : busRead s 0x020 = irqWord s := busRead_of_eq s (off := 0x020) rfl (by decide)

end

/-! ### Register writes by a host access -/

/-- A host write to a register but CMD, and to CTRL without SRST, stores. -/
theorem hostAccess_write_register {s : State} {addr v : Word} {off : Nat} (h : wordAddr addr = off) (h0 : off ≠ 0x000)
    (hl : off < 0x1000) (hr : off = 0x01C → v.getLsbD 0 = false) :
    hostAccess (.write addr v) s = writeRegister off v s := by
  have hs : isSoftReset (.write addr v) = false := by
    by_cases hc : off = 0x01C
    · simp only [isSoftReset, hr hc, Bool.and_false]
    · simp [isSoftReset, h, hc]
  simp [hostAccess, hs, busWrite, h, h0, hl]

theorem hostAccess_write_ctrl {s : State} {v : Word} (hr : v.getLsbD 0 = false) :
    hostAccess (.write 0x01C v) s = setCtrl v s :=
  hostAccess_write_register (off := 0x01C) rfl (by decide) (by decide) fun _ => hr

theorem hostAccess_write_irq {s : State} {v : Word} : hostAccess (.write 0x020 v) s = clearIrq v s :=
  hostAccess_write_register (off := 0x020) rfl (by decide) (by decide) (by simp)

/-! ### The ends of a command -/

/-- After fault entry with no fault recorded before. -/
theorem faultEntry_registers {s : State} {code : FaultCode} {n : Nat} {info : Word} (hs : s.recorded = none)
    (hn : (code, n) ∈ faultTable) :
    busRead (faultEntry code info s) 0x014 = word n ∧ busRead (faultEntry code info s) 0x018 = info ∧
    (busRead (faultEntry code info s) 0x010).getLsbD 2 = true ∧
    (busRead (faultEntry code info s) 0x010).getLsbD 0 = false ∧
    (busRead (faultEntry code info s) 0x020).getLsbD 1 = true ∧
    (s.faultIe = true → irqOutput (faultEntry code info s) = true) := by
  rw [faultEntry_of_none code info hs, busRead_fault, busRead_faultInfo, busRead_status, busRead_irq,
    getLsbD_statusWord, getLsbD_statusWord, getLsbD_irqWord]
  exact ⟨faultNumber_of_mem hn, rfl, by simp, by simp, by simp, fun hf => by simp [irqOutput, hf]⟩

/-- A command that leaves no fault recorded has ended normally. -/
theorem exec_done {i : Instr} {s t : State} (h : exec i s = .next t) (ht : t.recorded = none) :
    t.done = true ∧ t.doneP = true ∧ (s.doneIe = true → irqOutput t = true) := by
  rcases exec_next_cases h with ⟨u, hb, rfl⟩ | ⟨code, info, u, -, rfl⟩
  · have hf := ends_of_eq_ok (body_frame i s) hb
    exact ⟨rfl, rfl, fun hd => by simp [irqOutput, hf.doneIe, hd]⟩
  · have := faultEntry_recorded_isSome code info u
    simp [ht] at this

/-- A command that leaves a fault recorded, where none was, has raised it. -/
theorem exec_faulted {i : Instr} {s t : State} (h : exec i s = .next t) (hs : s.recorded = none)
    (ht : t.recorded.isSome = true) :
    t.faultP = true ∧ t.done = s.done ∧ t.doneP = s.doneP ∧ (s.faultIe = true → irqOutput t = true) := by
  rcases exec_next_cases h with ⟨u, hb, rfl⟩ | ⟨code, info, u, hb, rfl⟩
  · have hf := ends_of_eq_ok (body_frame i s) hb
    simp [hf.recorded, hs] at ht
  · have hf := ends_of_eq_raise (body_frame i s) hb
    rw [faultEntry_of_none code info (hf.recorded.trans hs)]
    exact ⟨rfl, hf.done, hf.doneP, fun hi => by simp [irqOutput, hf.faultIe, hi]⟩

/-- irq is high exactly when a pending bit and its enable are both set, as IRQ and CTRL read them (R25, R203). -/
theorem irqOutput_iff (s : State) :
    irqOutput s = true ↔
      (busRead s 0x020).getLsbD 0 = true ∧ (busRead s 0x01C).getLsbD 1 = true ∨
      (busRead s 0x020).getLsbD 1 = true ∧ (busRead s 0x01C).getLsbD 2 = true := by
  rw [busRead_irq, busRead_ctrl, getLsbD_irqWord, getLsbD_irqWord, getLsbD_ctrlWord, getLsbD_ctrlWord]
  simp [irqOutput]

/-! ### The flag invariant -/

/-- A fault raised by a body leaves EOS: only a normal end sets it (R202). -/
theorem decodeSymbol_raise_eos {slot : Nat} {eosok : Bool} {s u : State} {code : FaultCode} {info : Word}
    (h : decodeSymbol slot eosok s = .raise code info u) : u.eos = s.eos := by
  unfold decodeSymbol at h
  split at h
  · cases h
  · split at h
    · split at h
      · cases h
      · cases h; rfl
    · cases h; rfl

theorem decodeBlock_raise_eos {dcs acs comp : Nat} {eosok : Bool} {s u : State} {code : FaultCode} {info : Word}
    (h : decodeBlock dcs acs comp eosok s = .raise code info u) : u.eos = s.eos := by
  unfold decodeBlock at h
  split at h
  · split at h
    · split at h
      · cases h
      · cases h; rfl
    · cases h; rfl
  · next x r _ =>
    rcases andThen_eq_raise_iff.mp h with hl | ⟨_, _, -, hl⟩
    · generalize decodeBlockFrom s acs comp x { rd := r, mem := s.mem } = q at hl
      cases q with
      | ok => cases hl
      | raise => cases hl; rfl
    · cases hl

theorem body_raise_eos {i : Instr} {s u : State} {code : FaultCode} {info : Word}
    (h : body i s = .raise code info u) : u.eos = s.eos := by
  cases he : setsEos i with
  | false => exact (ends_of_eq_raise (body_frame i s) h).eos he
  | true =>
    cases i with
    | hdec slot eosok =>
      simp only [body] at h
      rcases checkBuilt_or_stops slot s (decodeSymbol slot eosok s) with e | ⟨_, _, -, e⟩
      · exact decodeSymbol_raise_eos (e ▸ h)
      · rw [e] at h; cases h; rfl
    | decblk dcs acs comp eosok =>
      simp only [body] at h
      rcases checkBuilt_or_stops dcs s (checkBuilt acs s (checkBlock comp (arg0Nat s) s
        (decodeBlock dcs acs comp eosok s))) with e | ⟨_, _, -, e⟩
      · rw [e] at h
        rcases checkBuilt_or_stops acs s (checkBlock comp (arg0Nat s) s (decodeBlock dcs acs comp eosok s))
          with e | ⟨_, _, -, e⟩
        · rw [e] at h
          rcases checkBlock_or_stops comp (arg0Nat s) s (decodeBlock dcs acs comp eosok s)
            with ⟨-, -, -, e⟩ | ⟨_, _, -, e⟩
          · exact decodeBlock_raise_eos (e ▸ h)
          · rw [e] at h; cases h; rfl
        · rw [e] at h; cases h; rfl
      · rw [e] at h; cases h; rfl
    | _ => cases he

/-- Fault entry from a state with a command in flight: neither DONE nor EOS. -/
theorem flagInv_faultEntry {s : State} (code : FaultCode) (info : Word) (hd : s.done = false) (he : s.eos = false) :
    FlagInv (faultEntry code info s) := by
  simp [FlagInv, hd, he]

theorem flagInv_exec {i : Instr} {s t : State} (h : FlagInv s) (hw : s.inFlight.isSome = true)
    (ht : exec i s = .next t) : FlagInv t := by
  obtain ⟨hd, he, hr⟩ := h.1 hw
  rcases exec_next_cases ht with ⟨u, hb, rfl⟩ | ⟨code, info, u, hb, rfl⟩
  · have hf := ends_of_eq_ok (body_frame i s) hb
    simp [FlagInv, hf.recorded, hr]
  · have hf := ends_of_eq_raise (body_frame i s) hb
    exact flagInv_faultEntry code info (hf.done.trans hd) ((body_raise_eos hb).trans he)

theorem flagInv_stepClosed : StepClosed FlagInv where
  host _ h := h
  run h hw ht := flagInv_exec h hw ht
  badCmd w h hw := flagInv_faultEntry _ w (h.1 hw).1 (h.1 hw).2.1
  violation {s} a h hw := by
    obtain ⟨hd, he, -⟩ := h.1 hw
    obtain ⟨u, e, hu⟩ := busyViolation_eq a s
    rw [e]
    refine flagInv_faultEntry _ _ ?_ ?_ <;> rcases hu with rfl | rfl <;> simp [hd, he]
  read _ h := h
  write addr v h := by simpa [FlagInv] using h
  accept w h hr := by simp [FlagInv, hr]
  soft h := by simp [FlagInv, softReset]
  hard h := by simp [FlagInv, hardReset]

end Sys2Proof.Machine

open Sys2Proof Sys2Proof.Machine

/-- Settles O54: every piece of a step keeps the flag invariant. -/
theorem flagInvKeptByStep : Obligations.FlagInvKeptByStep :=
  fun _ _ hs ht => flagInv_stepClosed.step hs ht

/-- Settles O11: fault entry and the two ends of a command as the registers show them, irq as IRQ and CTRL read, and
what the host's writes to CTRL and IRQ make of it. -/
theorem faultRegistersReadTheFault : Obligations.FaultRegistersReadTheFault := by
  refine ⟨fun s code n info hs hn => faultEntry_registers hs hn,
    fun i s t h => ⟨exec_done h, exec_faulted h⟩, irqOutput_iff, ?_, ?_⟩
  · rintro s t v rfl hr
    rw [hostAccess_write_ctrl hr]
    exact ⟨fun hp he => by simp [irqOutput, hp, he], fun hp he => by simp [irqOutput, hp, he],
      fun h1 h2 => by simp only [irqOutput, setCtrl_doneIe, setCtrl_faultIe, h1, h2, Bool.and_false, Bool.or_false]⟩
  · rintro s t v rfl
    rw [hostAccess_write_irq]
    exact ⟨rfl, fun h0 h1 => by simp [irqOutput, h0, h1], fun h0 hf => by simp [irqOutput, h0, hf],
      fun h1 hd => by simp [irqOutput, h1, hd]⟩

end

section
/-! PROOF. RAM stays canonical and within storage (20_memory.md R52, R54, R64). Storage is a property of what reads back:
a canonical memory lists only storage exactly when every byte without storage reads as unwritten, so a frame is enough. -/

namespace Sys2Proof.Machine

/-! ### Listed bytes and bytes read -/

theorem mem_of_memRead_ne {m : Memory} {a : Nat} (h : memRead m a ≠ unwritten) : (a, memRead m a) ∈ m := by
  induction m with
  | nil => exact absurd rfl h
  | cons d m ih =>
    obtain ⟨x, v⟩ := d
    by_cases hx : x = a
    · subst hx; simp [memRead]
    · simp only [memRead, if_neg hx] at h ⊢; exact List.mem_cons_of_mem _ (ih h)

theorem memRead_of_mem {m : Memory} (hm : m.wf) {c : Host.Cell} (hc : c ∈ m) : memRead m c.1 = c.2 := by
  obtain ⟨hp, -⟩ := hm
  induction m with
  | nil => cases hc
  | cons d m ih =>
    obtain ⟨hd, hp⟩ := List.pairwise_cons.mp hp
    rcases List.mem_cons.mp hc with rfl | hc
    · simp [memRead]
    · have := hd c hc
      simp [memRead, show d.1 ≠ c.1 by omega, ih hc hp]

theorem memoryOk_iff {s : State} :
    MemoryOk s ↔ s.mem.wf ∧ ∀ a, backed s.cfg a = false → memRead s.mem a = unwritten := by
  refine and_congr_right fun hw => ⟨fun h a ha => ?_, fun h c hc => ?_⟩
  · by_contra hne
    simp [h _ (mem_of_memRead_ne hne)] at ha
  · by_contra hb
    exact hw.2 c hc ((memRead_of_mem hw hc).symm.trans (h c.1 (by simpa using hb)))

/-- A piece that touches only storage keeps memory in order. -/
theorem memoryOk_of_touches {W : Nat → Prop} {s t : State} (h : MemoryOk s) (hm : Touches W s.mem t.mem)
    (hc : t.cfg = s.cfg) (hW : ∀ a, W a → backed s.cfg a = true) : MemoryOk t := by
  obtain ⟨hw, hz⟩ := memoryOk_iff.mp h
  refine memoryOk_iff.mpr ⟨hm.wf hw, fun a ha => ?_⟩
  rw [hc] at ha
  rw [hm.frame a fun hwa => by simp [hW a hwa] at ha, hz a ha]

/-! ### What a command may write is storage -/

theorem backed_byteEntry {c : Config} {a : Nat} (h : inByteWindow a = true) (h4 : a % 4 = 0) : backed c a = true := by
  simp [backed, h, h4]

theorem inByteWindow_iff {a : Nat} :
    inByteWindow a = true ↔
      (0x1000 ≤ a ∧ a < 0x1200) ∨ (0x2000 ≤ a ∧ a < 0x5000) ∧ (a - 0x2000) % 0x800 < 0x440 := by
  simp [inByteWindow, inSpan]

theorem backed_bits (c : Config) {slot L : Nat} (hs : slot ≤ 5) (h1 : 1 ≤ L) (h2 : L ≤ 16) :
    backed c (bitsAddr slot L) = true := by
  unfold bitsAddr
  exact backed_byteEntry (inByteWindow_iff.mpr (by omega)) (by omega)

theorem backed_huffval (c : Config) {slot j : Nat} (hs : slot ≤ 5) (hj : j < 256) :
    backed c (huffvalAddr slot j) = true := by
  unfold huffvalAddr
  exact backed_byteEntry (inByteWindow_iff.mpr (by omega)) (by omega)

theorem backed_freq (c : Config) {x a : Nat} (hx : x < 256) (h1 : freqAddr x ≤ a) (h2 : a < freqAddr x + 4) :
    backed c a = true := by
  have : inSpan 0x6000 0x400 a = true := inSpan_iff.mpr (by simp only [freqAddr] at h1 h2; omega)
  simp [backed, this]

theorem backed_out {c : Config} {a : Nat} {p : Nat} (h1 : outAddr p ≤ a) (h2 : a < outAddr c.outCap) :
    backed c a = true := by
  have : inSpan 0x800000 c.outCap a = true := inSpan_iff.mpr (by simp only [outAddr] at h1 h2; omega)
  simp [backed, this]

/-- A block the windows have. -/
theorem cbase_add_lt_of_capacity {c : Config} {comp k : Nat} (hk : k < blockCapacity c comp) :
    cbase c comp + k < 6 * c.maxMcus := by
  unfold blockCapacity at hk
  unfold cbase
  split_ifs at hk ⊢ <;> omega

/-- A block in range has its entries in the windows. -/
theorem cbase_add_lt {s : State} {comp k : Nat} (hg : geomValid s = true) (hk : k < nblocks s comp) :
    cbase s.cfg comp + k < 6 * s.cfg.maxMcus := by
  have hm : mcux s * mcuy s ≤ s.cfg.maxMcus := by
    simp only [geomValid, Bool.and_eq_true, decide_eq_true_iff] at hg; exact hg.2
  have hn : nblocks s comp ≤ blockCapacity s.cfg comp := by
    unfold nblocks blockCapacity
    split
    · exact Nat.mul_le_mul_left 4 hm
    · exact hm
  exact cbase_add_lt_of_capacity (hk.trans_le hn)

theorem backed_half {c : Config} {e a : Nat} (h : inHalf e a) (h4 : e % 4 = 0)
    (hw : inHalfWindow c a = true) : backed c a = true := by
  have ha : a % 4 < 2 := by rcases h with rfl | rfl <;> omega
  simp [backed, hw, ha]

theorem backed_cm {c : Config} {comp k p a : Nat} (hk : cbase c comp + k < 6 * c.maxMcus) (hp : p ≤ 63)
    (ha : inHalf (cmAddr c comp k p) a) : backed c a = true := by
  refine backed_half ha (by simp only [cmAddr]; omega) ?_
  simp only [inHalfWindow, Bool.or_eq_true, inSpan_iff]
  simp only [inHalf, cmAddr] at ha
  omega

theorem backed_dr {c : Config} {comp k a : Nat} (hk : cbase c comp + k < 6 * c.maxMcus)
    (ha : inHalf (drAddr c comp k) a) : backed c a = true := by
  refine backed_half ha (by simp only [drAddr]; omega) ?_
  simp only [inHalfWindow, Bool.or_eq_true, inSpan_iff]
  simp only [inHalf, drAddr] at ha
  omega

/-! ### HGEN lists at most 256 symbols (R92) -/

/-- How many real symbols a tree holds. -/
def realLeaves : HuffTree → Nat
  | .leaf sym => if sym.isSome then 1 else 0
  | .node a b => realLeaves a + realLeaves b

/-- How many real symbols a forest holds. -/
def forestLeaves (H : List HuffNode) : Nat := (H.map fun x => realLeaves x.tree).sum

@[simp] theorem forestLeaves_cons (x : HuffNode) (H : List HuffNode) :
    forestLeaves (x :: H) = realLeaves x.tree + forestLeaves H := by simp [forestLeaves]

theorem forestLeaves_insertNode (x : HuffNode) (H : List HuffNode) :
    forestLeaves (insertNode x H) = realLeaves x.tree + forestLeaves H := by
  induction H with
  | nil => simp [insertNode]
  | cons y H ih =>
    unfold insertNode
    split
    · simp
    · simp only [forestLeaves_cons, ih]; omega

/-- Merging loses or keeps real symbols, and makes none. -/
theorem realLeaves_mergeForest (fuel next : Nat) (H : List HuffNode) :
    realLeaves (mergeForest fuel next H) ≤ forestLeaves H := by
  induction fuel, next, H using mergeForest.induct with
  | case1 next fuel a b rest ih =>
    rw [mergeForest]
    rw [forestLeaves_insertNode, realLeaves] at ih
    simp only [forestLeaves_cons]
    omega
  | case2 fuel next a rest _ => rw [mergeForest.eq_2 _ _ _ _ ‹_›]; simp
  | case3 fuel next => simp [mergeForest, realLeaves]

/-- The leaves collected are real symbols of the trees in the queue. -/
theorem length_collectLeaves (fuel : Nat) (q : List (HuffTree × Nat)) :
    (collectLeaves fuel q).length ≤ (q.map fun x => realLeaves x.1).sum := by
  induction fuel, q using collectLeaves.induct with
  | case1 => simp [collectLeaves]
  | case2 => simp [collectLeaves]
  | case3 fuel d q ih => simpa [collectLeaves, realLeaves] using ih
  | case4 fuel sym d q ih => simpa [collectLeaves, realLeaves, Nat.add_comm] using ih
  | case5 fuel a b d q ih =>
    simp only [List.map_append, List.map_cons, List.map_nil, List.sum_append, List.sum_cons, List.sum_nil] at ih
    simp only [collectLeaves, List.map_cons, List.sum_cons, realLeaves]
    omega

theorem forestLeaves_initialForest (m : Memory) : forestLeaves (initialForest m) ≤ 256 := by
  have key : ∀ l : List Nat, forestLeaves (l.foldr
      (fun sym h => insertNode { weight := freqOf m sym, serial := sym, tree := .leaf (some sym) } h)
      [{ weight := 0, serial := 256, tree := .leaf none }]) = l.length := by
    intro l
    induction l with
    | nil => rfl
    | cons x l ih =>
      rw [List.foldr_cons, forestLeaves_insertNode, ih, List.length_cons]
      simp [realLeaves, Nat.add_comm]
  rw [initialForest, key]
  exact (List.length_filter_le _ _).trans (by simp)

theorem length_huffmanLeaves (m : Memory) : (huffmanLeaves m).length ≤ 256 := by
  have h := length_collectLeaves (treeSize (mergeForest (initialForest m).length 257 (initialForest m)))
    [(mergeForest (initialForest m).length 257 (initialForest m), 0)]
  have h1 := realLeaves_mergeForest (initialForest m).length 257 (initialForest m)
  have h2 := forestLeaves_initialForest m
  simp only [List.map_cons, List.map_nil, List.sum_cons, List.sum_nil] at h
  unfold huffmanLeaves
  omega

/-- Every byte R64 lets a command write has storage. -/
theorem backed_of_writesByte {i : Instr} {s : State} {a : Nat} (hl : LengthsOk s) (h : writesByte i s a) :
    backed s.cfg a = true := by
  have hout : outAddr s.wr.ptr.toNat ≤ a ∧ a < outAddr s.outLen.toNat → backed s.cfg a = true := fun h =>
    backed_out h.1 (by have := hl.2.2; simp only [outAddr] at h ⊢; omega)
  have hrange : ∀ {comp k}, RangeOk s comp → inRange s k → cbase s.cfg comp + k < 6 * s.cfg.maxMcus :=
    fun hr hk => cbase_add_lt hr.2.1 (by have := hr.2.2; have := hk.2; omega)
  cases i with
  | nop | hbuild | hdec | hcode | hinv | rdinit | getbits | receive | wrinit | vcat | sppred => exact h.elim
  | hgen slot =>
    obtain ⟨hs, ⟨L, h1, h2, rfl⟩ | ⟨j, hj, rfl⟩⟩ := h
    · exact backed_bits _ hs h1 h2
    · exact backed_huffval _ hs (lt_of_lt_of_le hj (length_huffmanLeaves s.mem))
  | henc | putbits | putvli | flush | encblk => exact hout h
  | fclr => obtain ⟨x, hx, h1, h2⟩ := h; exact backed_freq _ hx h1 h2
  | finc sym => exact backed_freq _ sym.isLt h.1 h.2
  | fhist comp =>
    obtain ⟨-, k, -, h1, h2⟩ := h
    exact backed_freq _ (lt_of_le_of_lt (cat_drOf_le _ _ _ _) (by decide)) h1 h2
  | decblk dcs acs comp eosok =>
    obtain ⟨⟨-, hg, hk⟩, ha | ⟨p, -, hp, ha⟩⟩ := h
    · exact backed_dr (cbase_add_lt hg hk) ha
    · exact backed_cm (cbase_add_lt hg hk) hp ha
  | dpcmdec comp | spdec comp =>
    obtain ⟨hr, k, hk, ha⟩ := h; exact backed_cm (hrange hr hk) (by omega) ha
  | dpcmenc comp | spenc comp =>
    obtain ⟨hr, k, hk, ha⟩ := h; exact backed_dr (hrange hr hk) ha

/-! ### The memory invariant, piece by piece -/

theorem memoryInv_faultEntry {s : State} (code : FaultCode) (info : Word) (h : MemoryInv s) :
    MemoryInv (faultEntry code info s) := by simpa [MemoryInv, LengthsOk, MemoryOk] using h

theorem Frame.memoryInv {i : Instr} {s t : State} (hf : Frame i s t) (h : MemoryInv s) : MemoryInv t := by
  obtain ⟨hl, hm⟩ := h
  have hc : t.cfg = s.cfg := by rw [hf.rest]
  refine ⟨?_, memoryOk_of_touches hm hf.mem hc fun a => backed_of_writesByte hl⟩
  rw [hf.rest]; exact hl

theorem memoryInv_exec {i : Instr} {s t : State} (h : MemoryInv s) (ht : exec i s = .next t) : MemoryInv t := by
  rw [exec_eq_body] at ht
  exact endCommand_next_of_ends ht (ends_mono (body_frame i s) fun _ hf => hf.memoryInv h)
    (fun _ hu => hu) fun code info _ hu => memoryInv_faultEntry code info hu

/-- Free contents are storage. -/
theorem memoryOk_freeRam (region : Nat → Bool) {s : State} (h : MemoryOk s) : MemoryOk (freeRam region s) := by
  have key : ∀ (l : List Host.Cell) (m : Memory), (∀ c ∈ m, backed s.cfg c.1 = true) →
      ∀ c ∈ l.foldl (fun m x => if region x.1 && backed s.cfg x.1 then memWrite m x.1 x.2 else m) m,
        backed s.cfg c.1 = true := by
    intro l
    induction l with
    | nil => exact fun m hm => hm
    | cons x l ih =>
      intro m hm
      rw [List.foldl_cons]
      refine ih _ ?_
      split
      · next hx =>
        obtain ⟨-, hb⟩ := Bool.and_eq_true_iff.mp hx
        exact forall_mem_memWrite (P := fun a => backed s.cfg a = true) hm hb
      · exact hm
  exact ⟨wf_freeRam region h.1, key _ _ fun c hc => h.2 c (List.mem_of_mem_filter hc)⟩

theorem memoryInv_abandon {s : State} (h : MemoryInv s) : MemoryInv (abandon s) := by
  unfold abandon
  split
  · exact h
  · split
    · exact h
    · next i _ =>
      have hw : MemoryInv (freeWrites i s) := by
        unfold freeWrites
        split
        · exact h
        · have hf : MemoryInv (freeRegisters i s) := by rw [freeRegisters_eq]; exact h
          exact ⟨hf.1, memoryOk_freeRam _ hf.2⟩
      exact hw

/-- A byte lane is stored where there is storage. -/
theorem writeLane_touches {m m' : Memory} (c : Config) (a : Nat) (b : Byte)
    (h : Touches (fun a => backed c a = true) m m') : Touches (fun a => backed c a = true) m (writeLane c a b m') := by
  unfold writeLane
  split
  · next hb => exact h.write hb b
  · exact h

theorem clampLen_le {cap : Nat} (v : Word) : (clampLen cap v).toNat ≤ cap := by
  unfold clampLen
  split
  · assumption
  · rw [BitVec.toNat_ofNat]; exact Nat.mod_le _ _

theorem memoryInv_busWrite {s : State} (addr v : Word) (h : MemoryInv s) : MemoryInv (busWrite addr v s) := by
  obtain ⟨⟨hc, hin, hout⟩, hm⟩ := h
  unfold busWrite
  split
  · unfold writeRegister
    split
    case h_6 => exact ⟨⟨hc, clampLen_le v, hout⟩, hm⟩
    case h_7 => exact ⟨⟨hc, hin, clampLen_le v⟩, hm⟩
    all_goals exact ⟨⟨hc, hin, hout⟩, hm⟩
  · refine ⟨⟨hc, hin, hout⟩, memoryOk_of_touches hm (W := fun a => backed s.cfg a = true) ?_ rfl fun _ h => h⟩
    exact writeLane_touches _ _ _ (writeLane_touches _ _ _ (writeLane_touches _ _ _
      (writeLane_touches _ _ _ (.refl _ _))))

theorem memoryInv_stepClosed : StepClosed MemoryInv where
  host _ h := h
  run h _ ht := memoryInv_exec h ht
  badCmd w h _ := memoryInv_faultEntry _ w h
  violation {s} a h _ := by
    obtain ⟨u, e, hu⟩ := busyViolation_eq a s
    have hu' : MemoryInv u := by rcases hu with rfl | rfl <;> exact h
    rw [e]; exact memoryInv_faultEntry _ _ (memoryInv_abandon hu')
  read _ h := h
  write addr v h := memoryInv_busWrite addr v h
  accept _ h _ := h
  soft h := memoryInv_abandon h
  hard {s} h := ⟨⟨h.1.1, Nat.zero_le _, Nat.zero_le _⟩, memoryOk_freeRam (fun _ => true) h.2⟩

end Sys2Proof.Machine

open Sys2Proof Sys2Proof.Machine

/-- Settles O52: every piece of a step keeps the memory invariant; a command by its frame, since every byte that R64 lets
it write has storage. -/
theorem memoryInvKeptByStep : Obligations.MemoryInvKeptByStep :=
  fun _ _ hs ht => memoryInv_stepClosed.step hs ht

end

section
/-! PROOF. Built tables (40_huffman.md R90 to R92, 10_state.md R31): what one code, one length class and the whole
construction keep of the table under construction; the table invariant. -/

namespace Sys2Proof.Machine

/-! ### The table under construction -/

/-- The table a builder holds so far. LENSET comes last (R90). -/
def Builder.table (b : Builder) : HuffSlot := { valid := true, lenset := 0, len := b.len, code := b.code }

theorem getD_setIfInBounds {α : Type} (v : Vector α 256) (x y : Byte) (a d : α) :
    (v.setIfInBounds x.toNat a).getD y.toNat d = if y = x then a else v.getD y.toNat d := by
  have hx := x.isLt
  have hy := y.isLt
  by_cases h : y = x
  · subst h; simp [Vector.getD, hy]
  · have hne : x.toNat ≠ y.toNat := fun e => h (BitVec.eq_of_toNat_eq e.symm)
    simp [Vector.getD, hy, hne, h]

/-- While length `L` is built: every code so far has a length up to `L`, fits it, and lies below the running code, which
counts in units of length `L`; no code heads another's (R91 (a)). -/
structure BuilderOk (L : Nat) (b : Builder) : Prop where
  below : ∀ x, lenAt b.table x ≠ 0 →
    lenAt b.table x ≤ L ∧ codeAt b.table x < 2 ^ lenAt b.table x ∧
      (codeAt b.table x + 1) * 2 ^ (L - lenAt b.table x) ≤ b.next
  free : ∀ x y, x ≠ y → lenAt b.table x ≠ 0 → lenAt b.table y ≠ 0 → lenAt b.table x ≤ lenAt b.table y →
    codeAt b.table y / 2 ^ (lenAt b.table y - lenAt b.table x) ≠ codeAt b.table x

/-- The entries of `b` are those of `b'`, and the lengths new in `b'` are in `S`. -/
structure Grows (S : Nat → Prop) (b b' : Builder) : Prop where
  old : ∀ x, lenAt b.table x ≠ 0 → lenAt b'.table x = lenAt b.table x
  new : ∀ x, lenAt b'.table x ≠ 0 → lenAt b.table x ≠ 0 ∨ S (lenAt b'.table x)

theorem Grows.refl (S : Nat → Prop) (b : Builder) : Grows S b b := ⟨fun _ _ => rfl, fun _ h => .inl h⟩

theorem Grows.trans {S : Nat → Prop} {b c d : Builder} (h : Grows S b c) (h' : Grows S c d) : Grows S b d := by
  refine ⟨fun x hx => ?_, fun x hx => ?_⟩
  · have hc := h.old x hx
    rw [h'.old x (hc ▸ hx), hc]
  · rcases h'.new x hx with hc | hS
    · exact (h.new x hc).imp id fun hS => (h'.old x hc).symm ▸ hS
    · exact .inr hS

theorem Grows.mono {S T : Nat → Prop} {b c : Builder} (h : Grows S b c) (hST : ∀ L, S L → T L) : Grows T b c :=
  ⟨h.old, fun x hx => (h.new x hx).imp id (hST _)⟩

/-- The running code is no entry. -/
theorem Grows.of_next {S : Nat → Prop} {b c : Builder} {k : Nat} (h : Grows S { b with next := k } c) : Grows S b c :=
  ⟨h.old, h.new⟩

/-! ### One code -/

section
variable {m : Memory} {s L : Nat} {b b' : Builder}

/-- The entries after one code. -/
theorem buildCode_entries (hL : L ≤ 16) (h : buildCode m s L b = .ok b') (x : Byte) :
    lenAt b'.table x = (if x = huffvalOf m s b.k then L else lenAt b.table x) ∧
    codeAt b'.table x = if x = huffvalOf m s b.k then b.next else codeAt b.table x := by
  obtain ⟨hlt, -, -, -, hlen, hcode⟩ := buildCode_ok h
  have hn : b.next < 65536 := lt_of_lt_of_le hlt (Nat.pow_le_pow_right (by decide) hL : 2 ^ L ≤ 2 ^ 16)
  have h5 : (BitVec.ofNat 5 L).toNat = L := by rw [BitVec.toNat_ofNat]; omega
  have h16 : (BitVec.ofNat 16 b.next).toNat = b.next := by rw [BitVec.toNat_ofNat]; omega
  simp only [lenAt, codeAt, Builder.table, hlen, hcode, getD_setIfInBounds, apply_ite BitVec.toNat, h5, h16, and_self]

/-- The symbol a code is added for had none. -/
theorem buildCode_unregistered (h : buildCode m s L b = .ok b') : lenAt b.table (huffvalOf m s b.k) = 0 := by
  have hz := (buildCode_ok h).2.1
  simp only [lenAt, Builder.table, hz]; rfl

theorem buildCode_grows (hL : L ≤ 16) (h : buildCode m s L b = .ok b') : Grows (· = L) b b' := by
  have hz := buildCode_unregistered h
  refine ⟨fun x hx => ?_, fun x hx => ?_⟩
  · have hne : x ≠ huffvalOf m s b.k := fun e => hx (e.symm ▸ hz)
    rw [(buildCode_entries hL h x).1, if_neg hne]
  · rw [(buildCode_entries hL h x).1] at hx ⊢
    split
    · exact .inr rfl
    · next hne => rw [if_neg hne] at hx; exact .inl hx

/-- One code added: the new code is the running code, above every code so far. -/
theorem buildCode_keeps (hL : L ≤ 16) (hb : BuilderOk L b) (h : buildCode m s L b = .ok b') : BuilderOk L b' := by
  obtain ⟨hlt, -, hnext, -, -, -⟩ := buildCode_ok h
  have hent := buildCode_entries hL h
  refine ⟨fun x hx => ?_, fun x y hxy hx hy hle => ?_⟩
  · obtain ⟨hl, hc⟩ := hent x
    rw [hl] at hx
    rw [hl, hc, hnext]
    by_cases hs : x = huffvalOf m s b.k
    · simp [hs, hlt]
    · simp only [if_neg hs] at hx ⊢
      obtain ⟨h1, h2, h3⟩ := hb.below x hx
      exact ⟨h1, h2, by omega⟩
  · obtain ⟨hlx, hcx⟩ := hent x
    obtain ⟨hly, hcy⟩ := hent y
    rw [hlx] at hx; rw [hly] at hy; rw [hlx, hly] at hle ⊢; rw [hcx, hcy]
    by_cases hsx : x = huffvalOf m s b.k
    · have hsy : y ≠ huffvalOf m s b.k := fun e => hxy (hsx.trans e.symm)
      simp only [if_pos hsx, if_neg hsy] at hy hle ⊢
      obtain ⟨h1, -, h3⟩ := hb.below y hy
      have he : lenAt b.table y = L := by omega
      rw [he, Nat.sub_self] at h3 ⊢
      omega
    · by_cases hsy : y = huffvalOf m s b.k
      · simp only [if_neg hsx, if_pos hsy] at hx hle ⊢
        obtain ⟨-, -, h3⟩ := hb.below x hx
        have := (Nat.le_div_iff_mul_le (Nat.two_pow_pos _)).mpr h3
        omega
      · simp only [if_neg hsx, if_neg hsy] at hx hy hle ⊢
        exact hb.free x y hxy hx hy hle

/-! ### A length class -/

/-- A class of `count` codes of length `L`: the invariant stays, the entries grow by length `L`, and there is one if
the class is not empty. -/
theorem buildClass_keeps (hL1 : 1 ≤ L) (hL : L ≤ 16) : ∀ {count : Nat} {b b' : Builder}, BuilderOk L b →
    buildClass m s L count b = .ok b' →
    BuilderOk L b' ∧ Grows (fun l => l = L ∧ 0 < count) b b' ∧ (0 < count → ∃ x, lenAt b'.table x = L)
  | 0, b, b', hb, h => by
    cases h; exact ⟨hb, .refl _ _, fun h => absurd h (by decide)⟩
  | count + 1, b, b', hb, h => by
    unfold buildClass at h
    split at h
    · cases h
    · next c hc =>
      obtain ⟨hok, hg, -⟩ := buildClass_keeps hL1 hL (buildCode_keeps hL hb hc) h
      have hx : lenAt c.table (huffvalOf m s b.k) = L := by rw [(buildCode_entries hL hc _).1, if_pos rfl]
      refine ⟨hok, ?_, fun _ => ⟨huffvalOf m s b.k, ?_⟩⟩
      · exact ((buildCode_grows hL hc).mono fun l hl => ⟨hl, by omega⟩).trans (hg.mono fun l hl => ⟨hl.1, by omega⟩)
      · rw [hg.old _ (by omega), hx]

/-- The shift after a class: the running code counts in units of the next length. -/
theorem builderOk_shift (hb : BuilderOk L b) : BuilderOk (L + 1) { b with next := 2 * b.next } := by
  refine ⟨fun x hx => ?_, hb.free⟩
  obtain ⟨h1, h2, h3⟩ := hb.below x hx
  refine ⟨Nat.le_succ_of_le h1, h2, ?_⟩
  calc (codeAt b.table x + 1) * 2 ^ (L + 1 - lenAt b.table x)
      = 2 * ((codeAt b.table x + 1) * 2 ^ (L - lenAt b.table x)) := by
        rw [Nat.succ_sub h1, Nat.pow_succ]; ac_rfl
    _ ≤ 2 * b.next := Nat.mul_le_mul_left 2 h3

end

/-! ### All classes -/

/-- The classes of lengths `L` to `L + n - 1`. -/
theorem buildClasses_keeps {m : Memory} {s : Nat} : ∀ {n L : Nat} {b b' : Builder}, 1 ≤ L → L + n ≤ 17 →
    BuilderOk L b → buildClasses m s (List.range' L n) b = .ok b' →
    BuilderOk (L + n) b' ∧ Grows (fun l => L ≤ l ∧ l < L + n ∧ 0 < bitsOf m s l) b b' ∧
      ∀ l, L ≤ l → l < L + n → 0 < bitsOf m s l → ∃ x, lenAt b'.table x = l
  | 0, L, b, b', _, _, hb, h => by
    cases h; exact ⟨hb, .refl _ _, fun l h1 h2 => absurd h2 (by omega)⟩
  | n + 1, L, b, b', h1, h2, hb, h => by
    rw [List.range'_succ] at h
    unfold buildClasses at h
    split at h
    · cases h
    · next c hc =>
      obtain ⟨hok, hg, hex⟩ := buildClass_keeps h1 (by omega) hb hc
      obtain ⟨hok', hg', hex'⟩ := buildClasses_keeps (by omega) (by omega) (builderOk_shift hok) h
      have hgc : Grows (fun l => L ≤ l ∧ l < L + (n + 1) ∧ 0 < bitsOf m s l) b c :=
        hg.mono fun l hl => ⟨by omega, by omega, hl.1 ▸ hl.2⟩
      refine ⟨by rw [Nat.add_right_comm] at hok'; exact hok',
        hgc.trans (hg'.of_next.mono fun l hl => ⟨by omega, by omega, hl.2.2⟩), fun l hl hl' hp => ?_⟩
      by_cases he : l = L
      · subst he
        obtain ⟨x, hx⟩ := hex hp
        exact ⟨x, (hg'.old x (by show lenAt c.table x ≠ 0; omega)).trans hx⟩
      · exact hex' l (by omega) (by omega) hp

/-- `LENSET_s[L-1]` is set for the lengths with a code (R90). -/
theorem getLsbD_lensetOf (m : Memory) (s : Nat) {L : Nat} (h1 : 1 ≤ L) (h2 : L ≤ 16) :
    (lensetOf m s).getLsbD (L - 1) = decide (0 < bitsOf m s L) := by
  have key : ∀ (l : List Nat) (acc : BitVec 16),
      (l.foldl (fun acc L => acc ||| (if 0 < bitsOf m s L then BitVec.twoPow 16 (L - 1) else 0)) acc).getLsbD (L - 1) =
        (acc.getLsbD (L - 1) || l.any fun l => decide (0 < bitsOf m s l) && decide (L - 1 = l - 1)) := by
    intro l
    induction l with
    | nil => simp
    | cons x l ih =>
      intro acc
      have hx : (if 0 < bitsOf m s x then BitVec.twoPow 16 (x - 1) else (0 : BitVec 16)).getLsbD (L - 1) =
          (decide (0 < bitsOf m s x) && decide (L - 1 = x - 1)) := by
        split
        · next hp => simp [BitVec.getLsbD_twoPow, hp, eq_comm]; omega
        · next hp => simp [hp]
      rw [List.foldl_cons, ih, BitVec.getLsbD_or, hx, List.any_cons, Bool.or_assoc]
  unfold lensetOf
  rw [key, Bool.eq_iff_iff]
  simp only [show (0 : BitVec 16).getLsbD (L - 1) = false from BitVec.getLsbD_zero, Bool.false_or, List.any_eq_true,
    Bool.and_eq_true, decide_eq_true_iff, mem_codeLengths]
  constructor
  · rintro ⟨l, hl, hp, he⟩
    rwa [show L = l by omega]
  · exact fun hp => ⟨L, ⟨h1, h2⟩, hp, rfl⟩

theorem mem_registered {t : HuffSlot} {x : Byte} : x ∈ registered t ↔ lenAt t x ≠ 0 := by
  simp [registered, mem_allSymbols]

/-- Nothing is registered in the empty table. -/
theorem lenAt_empty (x : Byte) : lenAt Builder.empty.table x = 0 := by
  have hx := x.isLt
  simp [lenAt, Builder.table, Builder.empty, Vector.getD, hx]

/-- What the construction installs is a built table (R31, R91). -/
theorem buildTable_tableOk {m : Memory} {s : Nat} {t : HuffSlot} (h : buildTable m s = .ok t) : TableOk t := by
  unfold buildTable at h
  split at h
  · cases h
  · split at h
    · cases h
    · next b hb =>
      have he : BuilderOk 1 Builder.empty :=
        ⟨fun x hx => absurd (lenAt_empty x) hx, fun x _ _ hx => absurd (lenAt_empty x) hx⟩
      obtain ⟨hok, hg, hex⟩ := buildClasses_keeps (n := 16) (by decide) (by decide) he hb
      have hlen : ∀ x, lenAt b.table x ≠ 0 →
          1 ≤ lenAt b.table x ∧ lenAt b.table x < 17 ∧ 0 < bitsOf m s (lenAt b.table x) :=
        fun x hx => (hg.new x hx).resolve_left fun hn => hn (lenAt_empty x)
      cases h
      refine ⟨fun x hx => ?_, fun L hL => ?_, fun x hx y hy hxy hle => ?_⟩
      · have hx := mem_registered.mp hx
        have := hlen x hx
        exact ⟨by show lenAt b.table x ≤ 16; omega, (hok.below x hx).2.1⟩
      · obtain ⟨h1, h2⟩ := mem_codeLengths.mp hL
        have hset : hasLength { valid := true, lenset := lensetOf m s, len := b.len, code := b.code } L =
          decide (0 < bitsOf m s L) := getLsbD_lensetOf m s h1 h2
        rw [hset, Bool.eq_iff_iff]
        simp only [decide_eq_true_iff, List.any_eq_true, mem_registered, beq_iff_eq]
        constructor
        · intro hp
          obtain ⟨x, hx⟩ := hex L h1 (by omega) hp
          exact ⟨x, by show lenAt b.table x ≠ 0; omega, hx⟩
        · rintro ⟨x, hx, hxl⟩
          have hp := (hlen x hx).2.2
          rwa [show lenAt b.table x = L from hxl] at hp
      · exact hok.free x y hxy (mem_registered.mp hx) (mem_registered.mp hy) hle

/-! ### The slots of a state -/

/-- Slot `n` holds a built table, if it is valid. -/
def SlotOk (n : Nat) (s : State) : Prop := (slotOf s n).valid = true → TableOk (slotOf s n)

theorem slotOk_of_slots_eq {n : Nat} {s t : State} (h : SlotOk n s) (he : t.slots = s.slots) : SlotOk n t := by
  have hs : slotOf t n = slotOf s n := by unfold slotOf; rw [he]
  unfold SlotOk
  rw [hs]; exact h

theorem slotOk_withSlot {s : State} {n : Nat} {x : HuffSlot} (hn : n ≤ 5) (hx : x.valid = true → TableOk x) :
    SlotOk n (withSlot s n x) := by
  unfold SlotOk
  rw [slotOf_withSlot s n n x hn, if_pos rfl]; exact hx

theorem slotOk_invalidated {s : State} {n : Nat} (x : HuffSlot) (hn : n ≤ 5) :
    SlotOk n (withSlot s n (invalidate x)) := slotOk_withSlot hn fun hv => nomatch hv

/-- HBUILD, HGEN and HINV leave a built table in their slot, or leave it not valid. -/
theorem body_slotOk_written {i : Instr} {s : State} {n : Nat} (hn : n ≤ 5) (hw : writesSlot i n) :
    (body i s).Ends (SlotOk n) := by
  cases i with
  | hbuild slot =>
    obtain rfl : n = slot := hw
    simp only [body, checkSlot_of_le s _ hn]
    generalize hr : buildSlot n s = r
    exact buildSlot_ends hr (fun x hx => slotOk_withSlot hn fun _ => buildTable_tableOk hx) (slotOk_invalidated _ hn)
  | hgen slot =>
    obtain rfl : n = slot := hw
    simp only [body, checkSlot_of_le s _ hn]
    generalize hr : generateSlot n s = r
    exact generateSlot_ends hr (fun x hx => slotOk_withSlot hn fun _ => buildTable_tableOk hx)
      (slotOk_invalidated _ hn) (slotOk_invalidated _ hn)
  | hinv slot =>
    obtain rfl : n = slot := hw
    simp only [body, checkSlot_of_le s _ hn]
    exact slotOk_invalidated _ hn
  | _ => exact hw.elim

/-- No command leaves a valid slot without a built table, whichever way it ends. -/
theorem body_slotOk {i : Instr} {s : State} {n : Nat} (hn : n ≤ 5) (h : SlotOk n s) : (body i s).Ends (SlotOk n) := by
  by_cases hw : writesSlot i n
  · exact body_slotOk_written hn hw
  · refine ends_mono (body_frame i s) fun u hu => ?_
    unfold SlotOk
    rw [hu.slot n hw]; exact h

/-- The slot a command has written is not valid, or holds a built table. -/
theorem exec_slotOk_written {i : Instr} {s t : State} {n : Nat} (hn : n ≤ 5) (hw : writesSlot i n)
    (h : exec i s = .next t) : SlotOk n t := by
  rw [exec_eq_body] at h
  exact endCommand_next_of_ends h (body_slotOk_written hn hw) (fun _ hu => hu)
    fun code info u hu => slotOk_of_slots_eq hu (faultEntry_slots code info u)

/-! ### Invariants that hold while no fault is recorded -/

/-- A property of the cursors and the slots that a reset establishes and a command that ends normally keeps: every piece
of a step keeps it while no fault is recorded. -/
theorem stepClosed_unfaulted {Q : State → Prop}
    (hcong : ∀ {s t : State}, t.rd = s.rd → t.wr = s.wr → t.slots = s.slots → Q s → Q t)
    (hrun : ∀ {i : Instr} {s u : State}, Q s → body i s = .ok () u → Q u)
    (hsoft : ∀ s : State, Q (softReset s)) (hhard : ∀ s : State, Q (hardReset s)) :
    StepClosed fun s => s.recorded = none → Q s where
  host {s} _ h hr := hcong (s := s) rfl rfl rfl (h hr)
  run {i s t} h _ ht hr := by
    rcases exec_next_cases ht with ⟨u, hb, rfl⟩ | ⟨code, info, u, -, rfl⟩
    · have hf := ends_of_eq_ok (body_frame i s) hb
      exact hcong (s := u) rfl rfl rfl (hrun (h (hf.recorded.symm.trans hr)) hb)
    · have := faultEntry_recorded_isSome code info u
      simp [hr] at this
  badCmd {s} w _ _ hr := by
    have := faultEntry_recorded_isSome .badCmd w s
    simp [hr] at this
  violation {s} a _ _ hr := by
    have := busyViolation_recorded a s
    simp [hr] at this
  read {s} _ h hr := hcong (s := s) rfl rfl rfl (h hr)
  write {s} addr v h hr :=
    hcong (busWrite_rd addr v s) (busWrite_wr addr v s) (busWrite_slots addr v s)
      (h ((busWrite_recorded addr v s).symm.trans hr))
  accept {s} _ h hr _ := hcong (s := s) rfl rfl rfl (h hr)
  soft {s} _ _ := hsoft s
  hard {s} _ _ := hhard s

theorem slotOf_hardReset_valid (s : State) {n : Nat} (hn : n ≤ 5) : (slotOf (hardReset s) n).valid = false := by
  have : n < 6 := by omega
  simp [slotOf, hardReset, Vector.getD, this, invalidate]

theorem tableInv_stepClosed : StepClosed TableInv :=
  stepClosed_unfaulted (Q := fun s => ∀ n, n ≤ 5 → SlotOk n s)
    (fun _ _ he h n hn => slotOk_of_slots_eq (h n hn) he)
    (fun h hb n hn => ends_of_eq_ok (body_slotOk hn (h n hn)) hb)
    (fun s n _ hv => by rw [softReset, slotOf_resetRegisters_valid] at hv; cases hv)
    (fun s n hn hv => by rw [slotOf_hardReset_valid s hn] at hv; cases hv)

end Sys2Proof.Machine

open Sys2Proof Sys2Proof.Machine

/-- Settles O55: a command that ends normally keeps every valid slot a built table, a reset leaves no slot valid, and
nothing else writes a slot while no fault is recorded. -/
theorem tableInvKeptByStep : Obligations.TableInvKeptByStep :=
  fun _ _ hs ht => tableInv_stepClosed.step hs ht

/-- Settles O14: HBUILD and HGEN write their slot, and a slot written holds a built table or is not valid. -/
theorem builtTableIsPrefixFree : Obligations.BuiltTableIsPrefixFree
  | _, _, _, hs, .inl h => exec_slotOk_written (i := .hbuild _) hs rfl h
  | _, _, _, hs, .inr h => exec_slotOk_written (i := .hgen _) hs rfl h

end

section
/-! PROOF. The cursors between commands (10_state.md R29, R30): what the reader's and the writer's primitives keep when
they end well, and the cursor invariant. -/

namespace Sys2Proof.Machine

/-! ### What a run that ends well satisfies -/

/-- The state a run ends in, if it raises no fault, satisfies `P`. -/
def Run.Finishes {σ α : Type} (P : σ → Prop) : Run σ α → Prop
  | .ok _ st => P st
  | .raise _ _ _ => True

section
variable {σ τ α β : Type} {P Q : σ → Prop}

theorem finishes_of_eq_ok {r : Run σ α} {a : α} {u : σ} (h : r.Finishes P) (e : r = .ok a u) : P u := by
  subst e; exact h

theorem finishes_of_ends {r : Run σ α} (h : r.Ends P) : r.Finishes P := by
  cases r with
  | ok => exact h
  | raise => trivial

theorem finishes_andThen {r : Run σ α} {f : α → σ → Run σ β} (hr : r.Finishes P)
    (hf : ∀ a st, P st → (f a st).Finishes Q) : (r.andThen f).Finishes Q := by
  cases r with
  | ok a st => exact hf a st hr
  | raise => trivial

theorem finishes_lift {P : τ → Prop} {r : Run σ α} {put : σ → τ} (hr : r.Finishes fun st => P (put st)) :
    (r.lift put).Finishes P := by
  cases r <;> exact hr

end

section
variable {P : State → Prop} {s : State} {k : Run State Unit}

theorem finishes_check {ok : Bool} {code : FaultCode} {info : Word} (hk : ok = true → k.Finishes P) :
    (check ok code info s k).Finishes P := by
  cases ok
  · trivial
  · exact hk rfl

theorem finishes_checkBuilt {slot : Nat} (hk : k.Finishes P) : (checkBuilt slot s k).Finishes P :=
  finishes_check fun _ => finishes_check fun _ => hk

theorem finishes_checkLen {n limit : Nat} (hk : n ≤ limit → k.Finishes P) : (checkLen n limit s k).Finishes P :=
  finishes_check fun h => hk (by simpa using h)

theorem finishes_checkBlock {comp j : Nat} (hk : k.Finishes P) : (checkBlock comp j s k).Finishes P :=
  finishes_check fun _ => finishes_check fun _ => finishes_check fun _ => hk

end

/-! ### The reader -/

/-- R29's invariant with at most `n` bits buffered: what holds of the reader within a command. -/
def ReaderUpTo (n : Nat) (r : Reader) : Prop :=
  r.cnt.toNat ≤ n ∧ (r.eod = false → 1 ≤ r.cnt.toNat) ∧ r.buf.toNat < 2 ^ r.cnt.toNat ∧ (r.marker = true → r.eod = true)

theorem readerUpTo_eight {r : Reader} : ReaderUpTo 8 r ↔ ReaderOk r := Iff.rfl

theorem ReaderUpTo.mono {n k : Nat} {r : Reader} (h : ReaderUpTo n r) (hk : n ≤ k) : ReaderUpTo k r :=
  ⟨h.1.trans hk, h.2⟩

section
variable {m : Memory} {len : Nat} {r r' : Reader}

theorem readerUpTo_fetch_none {n : Nat} (hr : ReaderUpTo n r) (h : fetch m len r = (none, r')) : ReaderUpTo n r' := by
  obtain ⟨hn, -, hb, -⟩ := hr
  obtain ⟨he, -, hbuf, hcnt, -⟩ := fetch_none h
  exact ⟨hcnt ▸ hn, fun hf => by simp [he] at hf, by rw [hbuf, hcnt]; exact hb, fun _ => he⟩

/-- A byte fetched and pushed. -/
theorem readerUpTo_pushByte {n : Nat} {b : Byte} (hlen : len < 2 ^ 32) (hr : ReaderUpTo n r) (hn : n ≤ 15)
    (h : fetch m len r = (some b, r')) : ReaderUpTo (n + 8) (pushByte r' b) := by
  obtain ⟨hc, -, hb, hm⟩ := hr
  obtain ⟨he, he', hmk, hbuf, hcnt, -, -, -⟩ := fetch_some hlen h
  have hlt : r'.buf.toNat < 2 ^ 24 :=
    hbuf ▸ lt_of_lt_of_le hb (Nat.pow_le_pow_right (by decide) (by omega))
  have hpc := pushByte_cnt r' b (by rw [hcnt]; omega)
  refine ⟨by rw [hpc, hcnt]; omega, fun _ => by rw [hpc]; omega, ?_, fun hk => ?_⟩
  · rw [hpc, pushByte_buf r' b hlt, hbuf, hcnt, Nat.pow_add]
    have := b.isLt
    omega
  · rw [pushByte_marker, hmk] at hk
    simp [he] at hm
    simp [hm] at hk

/-- The refill of an empty buffer. -/
theorem readerOk_refill (hlen : len < 2 ^ 32) (hm : r.marker = true → r.eod = true) (hb : r.buf = 0) (hc : r.cnt = 0) :
    ReaderOk (refill m len r) := by
  unfold refill
  split
  · next r' h =>
    obtain ⟨he, -, hbuf, hcnt, -⟩ := fetch_none h
    simp [ReaderOk, he, hbuf, hcnt, hb, hc]
  · next b r' h =>
    obtain ⟨he, -, hmk, -⟩ := fetch_some hlen h
    have := b.isLt
    have hmf : r.marker = false := by simpa [he] using hm
    refine ⟨by simp, by simp, ?_, by simp [hmk, hmf]⟩
    simp only [BitVec.toNat_setWidth]
    exact lt_of_le_of_lt (Nat.mod_le _ _) (by simpa using this)

/-- `Consume(n)` of what a pull to `n` bits leaves. -/
theorem readerOk_consume {n : Nat} (hlen : len < 2 ^ 32) (hr : ReaderUpTo (n + 7) r) : ReaderOk (consume m len n r) := by
  obtain ⟨hc, h1, hb, hm⟩ := hr
  unfold consume
  split
  · exact readerOk_refill hlen hm rfl rfl
  · next hpos =>
    have hk : (BitVec.ofNat 5 (r.cnt.toNat - n)).toNat = r.cnt.toNat - n := by
      rw [BitVec.toNat_ofNat]; omega
    refine ⟨by simp only [hk]; omega, fun _ => by simp only [hk]; omega, ?_, hm⟩
    simp only [hk, BitVec.toNat_ofNat]
    exact lt_of_le_of_lt (Nat.mod_le _ _) (Nat.mod_lt _ (Nat.two_pow_pos _))

/-- A pull to `n` bits buffers at most `n + 7`. -/
theorem readerUpTo_pullTo {n : Nat} (hlen : len < 2 ^ 32) (hn : n ≤ 16) : ∀ {fuel : Nat} {r r' : Reader} {ok : Bool},
    ReaderUpTo (n + 7) r → pullTo m len n fuel r = (ok, r') → ReaderUpTo (n + 7) r'
  | 0, _, _, _, hr, h => by cases h; exact hr
  | fuel + 1, r, r', ok, hr, h => by
    unfold pullTo at h
    split at h
    · cases h; exact hr
    · next hlt =>
      split at h
      · next r1 hf => cases h; exact readerUpTo_fetch_none hr hf
      · next b r1 hf =>
        have hr' : ReaderUpTo (n - 1) r := ⟨by omega, hr.2⟩
        have hp := readerUpTo_pushByte hlen hr' (by omega) hf
        exact readerUpTo_pullTo hlen hn (hp.mono (by omega)) h

theorem takeBits_readerOk {n : Nat} (hlen : len < 2 ^ 32) (hn : n ≤ 16) (hr : ReaderOk r) :
    (takeBits m len n r).Finishes ReaderOk := by
  unfold takeBits
  split
  · exact hr
  · next h0 =>
    have hr' : ReaderUpTo (n + 7) r := (readerUpTo_eight.mpr hr).mono (by omega)
    split
    · trivial
    · next r1 hp => exact readerOk_consume hlen (readerUpTo_pullTo hlen hn hr' hp)

/-- `Lookup` over ascending lengths: a symbol found leaves R29's invariant, a miss at most 23 bits. -/
theorem lookupFrom_reader {t : HuffSlot} (hlen : len < 2 ^ 32) : ∀ {l : List Nat} {r : Reader}, l.Pairwise (· < ·) →
    (∀ L ∈ l, L ≤ 16 ∧ ReaderUpTo (L + 7) r) → ReaderUpTo 23 r →
    ((lookupFrom t m len l r).1.isSome = true → ReaderOk (lookupFrom t m len l r).2) ∧
      ReaderUpTo 23 (lookupFrom t m len l r).2
  | [], _, _, _, hr => ⟨nofun, hr⟩
  | L :: rest, r, hl, hL, hr => by
    obtain ⟨hlt, hl'⟩ := List.pairwise_cons.mp hl
    obtain ⟨h16, hrL⟩ := hL L (by simp)
    unfold lookupFrom
    split
    · split
      · next r1 hp =>
        exact ⟨nofun, (readerUpTo_pullTo hlen h16 hrL hp).mono (by omega)⟩
      · next r1 hp =>
        have h1 := readerUpTo_pullTo hlen h16 hrL hp
        split
        · have hc : ReaderOk (consume m len L r1) := readerOk_consume hlen h1
          exact ⟨fun _ => hc, (readerUpTo_eight.mpr hc).mono (by decide)⟩
        · have hK : ∀ K ∈ rest, K ≤ 16 ∧ ReaderUpTo (K + 7) r1 := fun K hK =>
            ⟨(hL K (by simp [hK])).1, h1.mono (by have := hlt K hK; omega)⟩
          exact lookupFrom_reader hlen hl' hK (h1.mono (by omega))
    · exact lookupFrom_reader hlen hl' (fun K hK => hL K (by simp [hK])) hr

theorem lookup_reader {t : HuffSlot} (hlen : len < 2 ^ 32) (hr : ReaderOk r) :
    (∀ x, lookup t m len r = (some x, r') → ReaderOk r') ∧ (lookup t m len r = (none, r') → ReaderUpTo 23 r') := by
  have hr8 := readerUpTo_eight.mpr hr
  have h := lookupFrom_reader (t := t) (m := m) hlen (l := codeLengths) (r := r) (by decide)
    (fun L hL => ⟨(mem_codeLengths.mp hL).2, hr8.mono (by have := (mem_codeLengths.mp hL).1; omega)⟩)
    (hr8.mono (by decide))
  constructor
  · intro x e
    rw [← lookup, e] at h; exact h.1 rfl
  · intro e
    rw [← lookup, e] at h; exact h.2

/-- The normal end of scan data leaves the padding buffered: at most 7 bits. -/
theorem eosCheck_readerOk {n : Nat} (hr : ReaderUpTo n r) (h : eosCheck m len r = (true, r')) : ReaderOk r' := by
  unfold eosCheck at h
  split at h
  · next hc =>
    have hr' : ReaderUpTo 8 r := ⟨by omega, hr.2⟩
    split at h
    · cases h; exact hr'
    · split at h
      · next hf => cases h; exact readerUpTo_fetch_none hr' hf
      · cases h
  · cases h

end

theorem decodeSymbol_readerOk (slot : Nat) (eosok : Bool) {s : State} (hr : ReaderOk s.rd) :
    (decodeSymbol slot eosok s).Finishes fun u => ReaderOk u.rd := by
  unfold decodeSymbol
  split
  · next h => exact (lookup_reader s.inLen.isLt hr).1 _ h
  · next h =>
    split
    · split
      · next he => exact eosCheck_readerOk ((lookup_reader s.inLen.isLt hr).2 h) he
      · trivial
    · trivial

theorem decodeAc_readerOk {c : Config} {len : Nat} {t : HuffSlot} {acs comp k : Nat} (hlen : len < 2 ^ 32) :
    ∀ (fuel j : Nat) (p : InPort), ReaderOk p.rd →
      (decodeAc c len t acs comp k fuel j p).Finishes fun q => ReaderOk q.rd
  | 0, _, _, h => h
  | fuel + 1, j, p, h => by
    unfold decodeAc
    split
    · exact h
    · split
      · trivial
      · next x r hl =>
        have hr : ReaderOk r := (lookup_reader hlen h).1 x hl
        split
        · split
          · exact hr
          · split
            · split
              · trivial
              · exact decodeAc_readerOk hlen fuel _ _ hr
            · trivial
        · split
          · trivial
          · have hc : symCat x ≤ 16 := by unfold symCat; omega
            exact finishes_andThen (P := fun q : InPort => ReaderOk q.rd)
              (finishes_lift (takeBits_readerOk hlen hc hr)) fun v q hq => decodeAc_readerOk hlen fuel _ _ hq

theorem decodeBlock_readerOk {dcs acs comp : Nat} {eosok : Bool} {s : State} (hr : ReaderOk s.rd) :
    (decodeBlock dcs acs comp eosok s).Finishes fun u => ReaderOk u.rd := by
  unfold decodeBlock
  split
  · next h =>
    split
    · split
      · next he => exact eosCheck_readerOk ((lookup_reader s.inLen.isLt hr).2 h) he
      · trivial
    · trivial
  · next x r h =>
    have hr' : ReaderOk r := (lookup_reader s.inLen.isLt hr).1 x h
    have hb : (decodeBlockFrom s acs comp x { rd := r, mem := s.mem }).Finishes fun q => ReaderOk q.rd := by
      unfold decodeBlockFrom
      split
      · trivial
      · next hx =>
        exact finishes_andThen (P := fun q : InPort => ReaderOk q.rd)
          (finishes_lift (takeBits_readerOk s.inLen.isLt (by omega) hr'))
          fun v q hq => decodeAc_readerOk s.inLen.isLt _ _ _ hq
    exact finishes_andThen (P := fun u : State => ReaderOk u.rd) (finishes_lift hb) fun _ _ hu => hu

/-- Bits taken, and a result in RES. -/
theorem takeBits_finishes {s : State} {n : Nat} (f : Nat → Word) (hn : n ≤ 16) (hr : ReaderOk s.rd) :
    (((takeBits s.mem s.inLen.toNat n s.rd).lift (fun r => { s with rd := r })).andThen
      fun x s => .ok () { s with res := f x }).Finishes fun u : State => ReaderOk u.rd :=
  finishes_andThen (P := fun u : State => ReaderOk u.rd) (finishes_lift (takeBits_readerOk s.inLen.isLt hn hr))
    fun _ _ hu => hu

/-- A command that ends normally leaves the reader's invariant. -/
theorem body_readerOk {i : Instr} {s : State} (hr : ReaderOk s.rd) : (body i s).Finishes fun u => ReaderOk u.rd := by
  cases hw : writesReader i with
  | false => exact finishes_of_ends (ends_mono (body_frame i s) fun u hu => hu.rd hw ▸ hr)
  | true =>
    cases i with
    | hdec slot eosok => exact finishes_checkBuilt (decodeSymbol_readerOk slot eosok hr)
    | rdinit => exact readerOk_refill s.inLen.isLt (fun h => nomatch h) rfl rfl
    | getbits n => exact finishes_checkLen fun hn => takeBits_finishes _ hn hr
    | receive n => exact finishes_checkLen fun hn => takeBits_finishes _ (by omega) hr
    | decblk dcs acs comp eosok =>
      exact finishes_checkBuilt (finishes_checkBuilt (finishes_checkBlock (decodeBlock_readerOk hr)))
    | _ => cases hw

/-! ### The writer -/

/-- A piece of the writer's keeps R30's invariant, if it raises no fault. -/
abbrev KeepsWriter {α : Type} (p : OutPort) (r : Run OutPort α) : Prop :=
  WriterOk p.wr → r.Finishes fun q => WriterOk q.wr

theorem pushBit_acc {w : Writer} (bit : Bool) (h : WriterOk w) : (pushBit w bit).acc.toNat < 2 ^ (w.cnt.toNat + 1) := by
  obtain ⟨hc, ha⟩ := h
  have h7 : w.acc.toNat < 2 ^ 7 := lt_of_lt_of_le ha (Nat.pow_le_pow_right (by decide) hc)
  have hs : (w.acc <<< 1).toNat = w.acc.toNat * 2 := by
    rw [BitVec.toNat_shiftLeft, Nat.shiftLeft_eq, Nat.mod_eq_of_lt (by omega)]
  have hb : ((BitVec.ofBool bit).setWidth 8).toNat < 2 ^ 1 := by cases bit <;> decide
  simp only [pushBit, BitVec.toNat_or, hs]
  rw [Nat.mul_comm, show 2 * w.acc.toNat = 2 ^ 1 * w.acc.toNat from rfl, ← Nat.two_pow_add_eq_or_of_lt hb,
    Nat.pow_succ]
  omega

theorem putBit_writerOk (limit : Nat) (bit : Bool) (p : OutPort) : KeepsWriter p (putBit limit bit p) := by
  intro h
  unfold putBit
  have hcnt := pushBit_cnt p.wr bit h.1
  split
  · exact finishes_andThen (P := fun _ => True) (finishes_of_ends (ends_of_forall (fun _ => trivial) _))
      fun _ q _ => ⟨by simp, by simp⟩
  · next h8 =>
    have hne : (pushBit p.wr bit).cnt.toNat ≠ 8 := fun e => h8 (BitVec.eq_of_toNat_eq e)
    exact ⟨by show (pushBit p.wr bit).cnt.toNat ≤ 7; have := h.1; omega, by
      show (pushBit p.wr bit).acc.toNat < 2 ^ (pushBit p.wr bit).cnt.toNat
      rw [hcnt]; exact pushBit_acc bit h⟩

theorem putBits_writerOk (limit : Nat) : ∀ (n v : Nat) (p : OutPort), KeepsWriter p (putBits limit n v p)
  | 0, _, _ => id
  | n + 1, v, p => fun h => finishes_andThen (putBit_writerOk limit _ p h) fun _ q hq => putBits_writerOk limit n v q hq

theorem flushBits_writerOk (limit : Nat) (p : OutPort) : KeepsWriter p (flushBits limit p) := by
  unfold flushBits
  split
  · exact id
  · exact putBits_writerOk limit _ _ p

theorem hencSym_writerOk (t : HuffSlot) (limit : Nat) (x : Byte) (p : OutPort) :
    KeepsWriter p (hencSym t limit x p) := by
  unfold hencSym
  split
  · exact fun _ => trivial
  · exact putBits_writerOk limit _ _ p

theorem encodeZrls_writerOk (t : HuffSlot) (limit : Nat) : ∀ (n : Nat) (p : OutPort),
    KeepsWriter p (encodeZrls t limit n p)
  | 0, _ => id
  | n + 1, p => fun h =>
    finishes_andThen (hencSym_writerOk t limit _ p h) fun _ q hq => encodeZrls_writerOk t limit n q hq

theorem encodeValue_writerOk (t : HuffSlot) (limit r : Nat) (v : Int) (p : OutPort) :
    KeepsWriter p (encodeValue t limit r v p) := by
  intro h
  unfold encodeValue
  split
  · trivial
  · exact finishes_andThen (hencSym_writerOk t limit _ p h) fun _ q hq => putBits_writerOk limit _ _ q hq

theorem encodeAc_writerOk (c : Config) (limit : Nat) (t : HuffSlot) (comp k : Nat) : ∀ (n j r : Nat) (p : OutPort),
    KeepsWriter p (encodeAc c limit t comp k n j r p)
  | 0, _, r, p => by
    unfold encodeAc
    split
    · exact hencSym_writerOk t limit _ p
    · exact id
  | n + 1, j, r, p => by
    intro h
    unfold encodeAc
    split
    · exact encodeAc_writerOk c limit t comp k n _ _ p h
    · exact finishes_andThen (encodeZrls_writerOk t limit _ p h) fun _ q hq =>
        finishes_andThen (encodeValue_writerOk t limit _ _ q hq) fun _ q' hq' =>
          encodeAc_writerOk c limit t comp k n _ _ q' hq'

theorem encodeBlock_writerOk (dcs acs comp : Nat) (s : State) (p : OutPort) :
    KeepsWriter p (encodeBlock dcs acs comp s p) := fun h =>
  finishes_andThen (encodeValue_writerOk _ _ _ _ p h) fun _ q hq => encodeAc_writerOk _ _ _ _ _ _ _ _ q hq

/-- The writer's part put back in the state. -/
theorem finishes_withOutPort {s : State} {r : Run OutPort Unit} (hs : WriterOk s.wr) (h : KeepsWriter (outPort s) r) :
    (r.lift (withOutPort s)).Finishes fun u => WriterOk u.wr := finishes_lift (h hs)

/-- A command that ends normally leaves the writer's invariant. -/
theorem body_writerOk {i : Instr} {s : State} (hs : WriterOk s.wr) : (body i s).Finishes fun u => WriterOk u.wr := by
  cases hw : writesWriter i with
  | false => exact finishes_of_ends (ends_mono (body_frame i s) fun u hu => hu.wr hw ▸ hs)
  | true =>
    cases i with
    | henc slot sym => exact finishes_checkBuilt (finishes_withOutPort hs (hencSym_writerOk _ _ _ _))
    | wrinit => exact ⟨by simp, by simp⟩
    | putbits n => exact finishes_checkLen fun _ => finishes_withOutPort hs (putBits_writerOk _ _ _ _)
    | putvli =>
      exact finishes_check fun _ => finishes_andThen (P := fun u : State => WriterOk u.wr)
        (finishes_withOutPort hs (putBits_writerOk _ _ _ _)) fun _ _ hu => hu
    | flush => exact finishes_withOutPort hs (flushBits_writerOk _ _)
    | encblk dcs acs comp =>
      exact finishes_checkBuilt (finishes_checkBuilt (finishes_checkBlock
        (finishes_andThen (P := fun u : State => WriterOk u.wr)
          (finishes_withOutPort hs (encodeBlock_writerOk _ _ _ _ _)) fun _ _ hu => hu)))
    | _ => cases hw

/-! ### The cursor invariant -/

theorem cursors_atReset : ReaderOk Reader.atReset ∧ WriterOk Writer.atReset := by decide

theorem cursorInv_stepClosed : StepClosed CursorInv :=
  stepClosed_unfaulted (Q := fun s => ReaderOk s.rd ∧ WriterOk s.wr)
    (fun hr hw _ h => by rw [hr, hw]; exact h)
    (fun h hb => ⟨finishes_of_eq_ok (P := fun u => ReaderOk u.rd) (body_readerOk h.1) hb,
      finishes_of_eq_ok (P := fun u => WriterOk u.wr) (body_writerOk h.2) hb⟩)
    (fun _ => cursors_atReset) fun _ => cursors_atReset

end Sys2Proof.Machine

open Sys2Proof Sys2Proof.Machine

/-- Settles O53: a command that ends normally keeps R29 and R30, a reset establishes them, and nothing else writes a
cursor while no fault is recorded. -/
theorem cursorInvKeptByStep : Obligations.CursorInvKeptByStep :=
  fun _ _ hs ht => cursorInv_stepClosed.step hs ht

end

section
/-! PROOF. The host's side (20_memory.md R50 to R57): what a host read of each register and window entry returns, and what
a host write of it stores. -/

namespace Sys2Proof.Machine

/-! ### Fields of words made of parts -/

theorem toNat_append_eq {w v : Nat} (x : BitVec w) (y : BitVec v) : (x ++ y).toNat = x.toNat * 2 ^ v + y.toNat := by
  rw [BitVec.toNat_append, ← Nat.shiftLeft_add_eq_or_of_lt y.isLt, Nat.shiftLeft_eq]

/-- A field of a bit vector as a number. -/
theorem toNat_field {w : Nat} (x : BitVec w) (start len : Nat) :
    (x.extractLsb' start len).toNat = x.toNat / 2 ^ start % 2 ^ len := by
  rw [BitVec.extractLsb'_toNat, Nat.shiftRight_eq_div_pow]

/-- The byte lanes of a word made of four bytes. -/
theorem lane_of_bytes (b3 b2 b1 b0 : Byte) :
    (b3 ++ b2 ++ b1 ++ b0).extractLsb' (8 * 0) 8 = b0 ∧ (b3 ++ b2 ++ b1 ++ b0).extractLsb' (8 * 1) 8 = b1 ∧
    (b3 ++ b2 ++ b1 ++ b0).extractLsb' (8 * 2) 8 = b2 ∧ (b3 ++ b2 ++ b1 ++ b0).extractLsb' (8 * 3) 8 = b3 := by
  have h3 := b3.isLt
  have h2 := b2.isLt
  have h1 := b1.isLt
  have h0 := b0.isLt
  refine ⟨?_, ?_, ?_, ?_⟩ <;> apply BitVec.eq_of_toNat_eq <;> simp only [toNat_field, toNat_append_eq] <;> omega

/-! ### Registers read (R20 to R33, R51) -/

theorem getLsbD_slotValidWord (s : State) (b : Nat) :
    (slotValidWord s).getLsbD b =
      (((slotOf s 0).valid && decide (b = 0)) || ((slotOf s 1).valid && decide (b = 1)) ||
        ((slotOf s 2).valid && decide (b = 2)) || ((slotOf s 3).valid && decide (b = 3)) ||
        ((slotOf s 4).valid && decide (b = 4)) || ((slotOf s 5).valid && decide (b = 5))) := by
  simp [slotValidWord, getLsbD_bitAt]

theorem getLsbD_slotValidWord_of_le (s : State) {n : Nat} (hn : n ≤ 5) :
    (slotValidWord s).getLsbD n = (slotOf s n).valid := by
  rw [getLsbD_slotValidWord]
  obtain rfl | rfl | rfl | rfl | rfl | rfl : n = 0 ∨ n = 1 ∨ n = 2 ∨ n = 3 ∨ n = 4 ∨ n = 5 := by omega
  all_goals simp

/-- The two fields of WR_ACC (R30). -/
theorem wrAccWord_fields (s : State) :
    (wrAccWord s).extractLsb' 0 8 = s.wr.acc ∧ (wrAccWord s).extractLsb' 8 4 = s.wr.cnt ∧
      ∀ b, 12 ≤ b → (wrAccWord s).getLsbD b = false := by
  have ha := s.wr.acc.isLt
  have hc := s.wr.cnt.isLt
  refine ⟨?_, ?_, fun b hb => ?_⟩
  · apply BitVec.eq_of_toNat_eq
    simp only [wrAccWord, toNat_field, BitVec.toNat_setWidth, toNat_append_eq]
    omega
  · apply BitVec.eq_of_toNat_eq
    simp only [wrAccWord, toNat_field, BitVec.toNat_setWidth, toNat_append_eq]
    omega
  · simp only [wrAccWord, BitVec.getLsbD_setWidth, BitVec.getLsbD_append]
    rw [if_neg (by omega), BitVec.getLsbD_of_ge _ _ (by omega), Bool.and_false]

theorem registersRead (s : State) : RegistersRead s := by
  intro addr
  have hr : ∀ {off}, wordAddr addr = off → off < 0x1000 → busRead s addr = readRegister off s := busRead_of_eq s
  refine ⟨fun h => hr h (by decide), fun h => hr h (by decide), fun h => hr h (by decide), ?_, ?_, ?_, ?_, ?_,
    fun h => hr h (by decide), fun h => hr h (by decide), fun h => hr h (by decide), fun h => hr h (by decide),
    fun h => hr h (by decide), ?_, fun h => hr h (by decide), ?_, ?_⟩
  · intro h
    have e : busRead s addr = statusWord s := hr h (by decide)
    simp only [e, getLsbD_statusWord]
    exact ⟨by simp, by simp, by simp, by simp, by simp, by simp, fun b hb => by grind⟩
  · intro h
    have e : busRead s addr = faultWord s := hr h (by decide)
    rw [e]
    exact ⟨fun hn => by simp [faultWord, hn], fun f n hf hn => by simpa [faultWord, hf] using faultNumber_of_mem hn⟩
  · intro h
    have e : busRead s addr = faultInfoWord s := hr h (by decide)
    rw [e]
    exact ⟨fun hn => by simp [faultInfoWord, hn], fun f hf => by simp [faultInfoWord, hf]⟩
  · intro h
    have e : busRead s addr = ctrlWord s := hr h (by decide)
    simp only [e, getLsbD_ctrlWord]
    exact ⟨by simp, by simp, fun b h1 h2 => by simp [h1, h2]⟩
  · intro h
    have e : busRead s addr = irqWord s := hr h (by decide)
    simp only [e, getLsbD_irqWord]
    exact ⟨by simp, by simp, fun b hb => by grind⟩
  · intro h
    have e : busRead s addr = rdCntWord s := hr h (by decide)
    have := s.rd.cnt.isLt
    rw [e, rdCntWord, BitVec.toNat_setWidth]
    omega
  · intro h
    have e : busRead s addr = wrAccWord s := hr h (by decide)
    rw [e]
    exact wrAccWord_fields s
  · intro h
    have e : busRead s addr = slotValidWord s := hr h (by decide)
    rw [e]
    exact ⟨fun n => getLsbD_slotValidWord_of_le s, fun b hb => by rw [getLsbD_slotValidWord]; grind⟩

/-! ### Where window entries lie (R52) -/

theorem inByteWindow_qt {x p : Nat} (hx : x < 2) (hp : p < 64) : inByteWindow (qtAddr x p) = true :=
  inByteWindow_iff.mpr (by unfold qtAddr; omega)

theorem inByteWindow_bits {n L : Nat} (hn : n < 6) (h2 : L ≤ 16) : inByteWindow (bitsAddr n L) = true :=
  inByteWindow_iff.mpr (by unfold bitsAddr; omega)

theorem inByteWindow_huffval {n i : Nat} (hn : n < 6) (hi : i < 256) : inByteWindow (huffvalAddr n i) = true :=
  inByteWindow_iff.mpr (by unfold huffvalAddr; omega)

theorem inHalfWindow_of_lt {c : Config} {a : Nat} (h : a < 0x1000000) : inHalfWindow c a = false := by
  simp only [inHalfWindow, inSpan, Bool.or_eq_false_iff, Bool.and_eq_false_iff, decide_eq_false_iff_not]
  omega

/-- The windows in RAM's layout, span by span. -/
theorem backed_iff {c : Config} {a : Nat} :
    backed c a = true ↔ (inByteWindow a = true ∧ a % 4 = 0) ∨ (0x6000 ≤ a ∧ a < 0x6400) ∨
      (0x400000 ≤ a ∧ a < 0x400000 + c.inCap) ∨ (0x800000 ≤ a ∧ a < 0x800000 + c.outCap) ∨
      (inHalfWindow c a = true ∧ a % 4 < 2) := by
  simp [backed, inSpan, or_assoc]

/-- A byte of IN has storage exactly below the capacity. -/
theorem backed_inAddr {c : Config} {j : Nat} (hj : j < 4194304) : backed c (inAddr j) = decide (j < c.inCap) := by
  rw [Bool.eq_iff_iff, backed_iff, inByteWindow_iff, inHalfWindow_of_lt (by unfold inAddr; omega)]
  simp only [inAddr, decide_eq_true_iff, Bool.false_eq_true, false_and, or_false]
  omega

/-- A byte of OUT has storage exactly below the capacity. -/
theorem backed_outAddr {c : Config} {j : Nat} (hc : c.inCap ≤ 4194304) (hj : j < 4194304) :
    backed c (outAddr j) = decide (j < c.outCap) := by
  rw [Bool.eq_iff_iff, backed_iff, inByteWindow_iff, inHalfWindow_of_lt (by unfold outAddr; omega)]
  simp only [outAddr, decide_eq_true_iff, Bool.false_eq_true, false_and, or_false]
  omega

/-- Only the first lane of a byte entry has storage. -/
theorem backed_byteEntry_lane {c : Config} {a i : Nat} (h : inByteWindow a = true) (h4 : a % 4 = 0) (hi : 1 ≤ i)
    (hi3 : i ≤ 3) : backed c (a + i) = false := by
  have ha := inByteWindow_iff.mp h
  rw [Bool.eq_false_iff, Ne, backed_iff, inHalfWindow_of_lt (by omega)]
  simp only [Bool.false_eq_true, false_and, or_false]
  omega

theorem inHalfWindow_cm {c : Config} {comp k p : Nat} (hk : k < blockCapacity c comp) (hp : p < 64) :
    inHalfWindow c (cmAddr c comp k p) = true := by
  have := cbase_add_lt_of_capacity hk
  simp only [inHalfWindow, Bool.or_eq_true, inSpan_iff, cmAddr]
  omega

theorem inHalfWindow_dr {c : Config} {comp k : Nat} (hk : k < blockCapacity c comp) :
    inHalfWindow c (drAddr c comp k) = true := by
  have := cbase_add_lt_of_capacity hk
  simp only [inHalfWindow, Bool.or_eq_true, inSpan_iff, drAddr]
  omega

/-- An entry of CM or DR: its address, its window and the storage of its two bytes. -/
structure HalfEntry (c : Config) (a : Nat) : Prop where
  window : inHalfWindow c a = true
  low : backed c a = true
  high : backed c (a + 1) = true

theorem halfEntry_cm {c : Config} {comp k p : Nat} (hk : k < blockCapacity c comp) (hp : p < 64) :
    HalfEntry c (cmAddr c comp k p) :=
  ⟨inHalfWindow_cm hk hp, backed_cm (cbase_add_lt_of_capacity hk) (by omega) (.inl rfl),
    backed_cm (cbase_add_lt_of_capacity hk) (by omega) (.inr rfl)⟩

theorem halfEntry_dr {c : Config} {comp k : Nat} (hk : k < blockCapacity c comp) : HalfEntry c (drAddr c comp k) :=
  ⟨inHalfWindow_dr hk, backed_dr (cbase_add_lt_of_capacity hk) (.inl rfl),
    backed_dr (cbase_add_lt_of_capacity hk) (.inr rfl)⟩

theorem le_of_inHalfWindow {c : Config} {a : Nat} (h : inHalfWindow c a = true) : 0x1000000 ≤ a := by
  by_contra hl
  rw [inHalfWindow_of_lt (by omega)] at h
  cases h

/-! ### Window entries read (R55, R56) -/

section
variable {s : State} {addr : Word} {a : Nat}

theorem wordAddr_mod (addr : Word) : wordAddr addr % 4 = 0 := Nat.mul_mod_right 4 _

theorem busRead_of_ge (h : wordAddr addr = a) (hl : 0x1000 ≤ a) : busRead s addr = readWindow s a := by
  subst h
  simp [busRead, Nat.not_lt.mpr hl]

theorem readLane_of_backed (h : backed s.cfg a = true) : readLane s a = memRead s.mem a := by simp [readLane, h]

theorem readLane_of_not_backed (h : backed s.cfg a = false) : readLane s a = 0 := by simp [readLane, h]

/-- A byte entry reads as its number. -/
theorem busRead_byteEntry (h : wordAddr addr = a) (hw : inByteWindow a = true) :
    busRead s addr = word (memRead s.mem a).toNat := by
  have h4 : a % 4 = 0 := h ▸ wordAddr_mod addr
  have ha := inByteWindow_iff.mp hw
  rw [busRead_of_ge h (by omega), readWindow, inHalfWindow_of_lt (by omega), if_neg (by decide),
    readLane_of_not_backed (backed_byteEntry_lane hw h4 (by decide) (by decide)),
    readLane_of_not_backed (backed_byteEntry_lane hw h4 (by decide) (by decide)),
    readLane_of_not_backed (backed_byteEntry_lane hw h4 (by decide) (by decide)),
    readLane_of_backed (backed_byteEntry hw h4)]
  have := (memRead s.mem a).isLt
  apply BitVec.eq_of_toNat_eq
  simp only [toNat_append_eq, BitVec.toNat_ofNat, show (0 : Byte).toNat = 0 from rfl]
  omega

/-- A FREQ entry reads whole. -/
theorem busRead_freqEntry {x : Nat} (h : wordAddr addr = freqAddr x) (hx : x < 256) :
    busRead s addr = memRead32 s.mem (freqAddr x) := by
  have hb : ∀ i, i < 4 → readLane s (freqAddr x + i) = memRead s.mem (freqAddr x + i) := fun i hi =>
    readLane_of_backed (backed_freq _ hx (by omega) (by omega))
  rw [busRead_of_ge h (by unfold freqAddr; omega), readWindow, inHalfWindow_of_lt (by unfold freqAddr; omega),
    if_neg (by decide), hb 3 (by decide), hb 2 (by decide), hb 1 (by decide), ← Nat.add_zero (freqAddr x),
    hb 0 (by decide)]
  rfl

/-- A CM or DR entry reads as its signed number. -/
theorem busRead_halfEntry (h : wordAddr addr = a) (he : HalfEntry s.cfg a) :
    busRead s addr = (memRead16 s.mem a).signExtend 32 := by
  have := le_of_inHalfWindow he.window
  rw [busRead_of_ge h (by omega), readWindow, he.window, if_pos rfl, readLane_of_backed he.high,
    readLane_of_backed he.low]
  rfl

/-- Outside CM and DR a window word is its four lanes. -/
theorem busRead_lane {i : Nat} (h : wordAddr addr = a) (hl : 0x1000 ≤ a) (hh : a < 0x1000000) (hi : i < 4) :
    (busRead s addr).extractLsb' (8 * i) 8 = readLane s (a + i) := by
  rw [busRead_of_ge h hl, readWindow, inHalfWindow_of_lt hh, if_neg (by decide)]
  obtain rfl | rfl | rfl | rfl : i = 0 ∨ i = 1 ∨ i = 2 ∨ i = 3 := by omega
  · exact (lane_of_bytes _ _ _ _).1
  · exact (lane_of_bytes _ _ _ _).2.1
  · exact (lane_of_bytes _ _ _ _).2.2.1
  · exact (lane_of_bytes _ _ _ _).2.2.2

/-- A lane of the IN or OUT word that holds byte `j`. -/
theorem busRead_streamLane {base j : Nat} (h : wordAddr addr = 4 * ((base + j) / 4)) (h4 : base % 4 = 0)
    (hl : 0x400000 ≤ base) (hh : base + j < 0x1000000) :
    (busRead s addr).extractLsb' (8 * (j % 4)) 8 = readLane s (base + j) := by
  have := busRead_lane (s := s) (i := j % 4) h (by omega) (by omega) (by omega)
  rwa [show 4 * ((base + j) / 4) + j % 4 = base + j by omega] at this

theorem readLane_eq_ite {b : Nat} {p : Prop} [Decidable p] (h : backed s.cfg b = decide p) :
    readLane s b = if p then memRead s.mem b else 0 := by
  simp [readLane, h]

theorem windowsRead (hc : s.cfg.legal) : WindowsRead s := by
  obtain ⟨-, -, -, hin, -, hout⟩ := hc
  intro addr
  refine ⟨fun x p hx hp h => busRead_byteEntry h (inByteWindow_qt hx hp),
    fun n L hn _ h2 h => busRead_byteEntry h (inByteWindow_bits hn h2), fun n i hn hi h => ?_, fun x hx h => ?_,
    fun j hj h => ?_, fun j hj h => ?_, fun comp k p _ hk hp h => ?_, fun comp k _ hk h => ?_⟩
  · rw [busRead_byteEntry h (inByteWindow_huffval hn hi)]
    simp [huffvalOf, word]
  · rw [busRead_freqEntry h hx]
    simp [freqOf, word]
  · rw [busRead_streamLane h (by decide) (by decide) (by omega)]
    exact readLane_eq_ite (backed_inAddr hj)
  · rw [busRead_streamLane h (by decide) (by decide) (by omega)]
    exact readLane_eq_ite (backed_outAddr hin hj)
  · rw [busRead_halfEntry h (halfEntry_cm hk hp), BitVec.toInt_signExtend_of_le (by decide)]
    rfl
  · rw [busRead_halfEntry h (halfEntry_dr hk), BitVec.toInt_signExtend_of_le (by decide)]
    rfl

end

/-! ### Steps of the host (R57, R58) -/

/-- With no command in flight, an access that issues none is the whole step. -/
theorem step_hostAccess {s : State} {a : Access} {ev : HostEvent} {rest : List HostEvent} (hw : s.inFlight = none)
    (hh : s.host = ev :: rest) (hev : ev = .access a ∨ ev = .early a)
    (hn : (hostAccess a { s with host := rest }).inFlight = none) :
    step s = .next (hostAccess a { s with host := rest }) := by
  have hs : step s = afterEvent (hostEvent ev { s with host := rest }) := by simp [step, nextEvent, hw, hh]
  have he : hostEvent ev { s with host := rest } = hostAccess a { s with host := rest } := by
    rcases hev with rfl | rfl <;> rfl
  rw [hs, he]
  rcases afterEvent_cases (hostAccess a { s with host := rest }) with ⟨e, -⟩ | ⟨w, hw', -⟩
  · exact e
  · rw [hn] at hw'; cases hw'

theorem step_hostRead {s : State} {addr : Word} {ev : HostEvent} {rest : List HostEvent} (hw : s.inFlight = none)
    (hh : s.host = ev :: rest) (hev : ev = .access (.read addr) ∨ ev = .early (.read addr)) :
    step s = .next { s with host := rest, busData := busRead s addr } :=
  step_hostAccess hw hh hev hw

theorem isSoftReset_write {addr v : Word} (h : ¬ (wordAddr addr = 0x01C ∧ v.getLsbD 0 = true)) :
    isSoftReset (.write addr v) = false := by
  simpa [isSoftReset] using h

/-- A host write but to CMD, and but a soft reset, stores. -/
theorem hostAccess_write {s : State} {addr v : Word} (h0 : wordAddr addr ≠ 0x000)
    (hr : ¬ (wordAddr addr = 0x01C ∧ v.getLsbD 0 = true)) : hostAccess (.write addr v) s = busWrite addr v s := by
  simp [hostAccess, isSoftReset_write hr, h0]

theorem step_hostWrite {s : State} {addr v : Word} {ev : HostEvent} {rest : List HostEvent} (hw : s.inFlight = none)
    (hh : s.host = ev :: rest) (hev : ev = .access (.write addr v) ∨ ev = .early (.write addr v))
    (h0 : wordAddr addr ≠ 0x000) (hr : ¬ (wordAddr addr = 0x01C ∧ v.getLsbD 0 = true)) :
    step s = .next (hostAccess (.write addr v) { s with host := rest }) :=
  step_hostAccess hw hh hev (by rw [hostAccess_write h0 hr, busWrite_inFlight]; exact hw)

/-! ### Registers written (R24 to R28, R51) -/

theorem clampLen_toNat {cap : Nat} (v : Word) (hc : cap ≤ 4194304) : (clampLen cap v).toNat = min v.toNat cap := by
  unfold clampLen
  split
  · omega
  · rw [BitVec.toNat_ofNat]; omega

/-- A write to an offset with no writable register changes nothing (R20, R54). -/
theorem writeRegister_of_readOnly {off : Nat} {v : Word} {s : State}
    (h : off ∉ ([0x004, 0x008, 0x01C, 0x020, 0x024, 0x028, 0x02C] : List Nat)) : writeRegister off v s = s := by
  unfold writeRegister
  split
  case h_8 => rfl
  all_goals exact absurd (by decide) h

/-- CTRL reads the enables it stored. -/
theorem ctrlWord_setCtrl (v : Word) (s : State) : ctrlWord (setCtrl v s) = v &&& 0x00000006 := by
  refine BitVec.eq_of_getLsbD_eq fun b hb => ?_
  rw [getLsbD_ctrlWord, BitVec.getLsbD_and, setCtrl_doneIe, setCtrl_faultIe]
  have h6 : ∀ b < 32, (0x00000006 : Word).getLsbD b = (decide (b = 1) || decide (b = 2)) := by decide
  rw [h6 b hb]
  by_cases h1 : b = 1
  · subst h1; simp
  · by_cases h2 : b = 2
    · subst h2; simp
    · simp [h1, h2]

/-- IRQ reads what the write left pending. -/
theorem irqWord_clearIrq (v : Word) (s : State) : irqWord (clearIrq v s) = irqWord s &&& ~~~v := by
  refine BitVec.eq_of_getLsbD_eq fun b hb => ?_
  rw [getLsbD_irqWord, BitVec.getLsbD_and, getLsbD_irqWord, BitVec.getLsbD_not, clearIrq_doneP, clearIrq_faultP]
  by_cases h0 : b = 0
  · subst h0; simp
  · by_cases h1 : b = 1
    · subst h1; simp
    · simp [h0, h1]

/-! ### Window entries written (R55, R56) -/

section
variable {s : State} {addr v : Word} {a : Nat}

theorem memRead_writeLane (c : Config) (a : Nat) (b : Byte) (m : Memory) (x : Nat) :
    memRead (writeLane c a b m) x = if x = a ∧ backed c a = true then b else memRead m x := by
  unfold writeLane
  by_cases hb : backed c a = true <;> simp [hb]

/-- A window write shows at the lanes of its word that have storage, and nowhere else. -/
theorem memRead_writeWindow (b : Nat) :
    memRead (writeWindow a v s).mem b =
      if a ≤ b ∧ b < a + 4 ∧ backed s.cfg b = true then v.extractLsb' (8 * (b - a)) 8 else memRead s.mem b := by
  simp only [writeWindow, memRead_writeLane]
  by_cases hin : a ≤ b ∧ b < a + 4
  · obtain rfl | rfl | rfl | rfl : b = a ∨ b = a + 1 ∨ b = a + 2 ∨ b = a + 3 := by omega
    all_goals simp
  · have h3 : b ≠ a + 3 := by omega
    have h2 : b ≠ a + 2 := by omega
    have h1 : b ≠ a + 1 := by omega
    have h0 : b ≠ a := by omega
    have hout : ¬ (a ≤ b ∧ b < a + 4 ∧ backed s.cfg b = true) := fun h => hin ⟨h.1, h.2.1⟩
    simp [h3, h2, h1, h0, hout]

theorem memRead_writeWindow_lane {i : Nat} (hi : i < 4) (hb : backed s.cfg (a + i) = true) :
    memRead (writeWindow a v s).mem (a + i) = v.extractLsb' (8 * i) 8 := by
  rw [memRead_writeWindow, if_pos ⟨by omega, by omega, hb⟩, Nat.add_sub_cancel_left]

theorem memRead_writeWindow_first (hb : backed s.cfg a = true) :
    memRead (writeWindow a v s).mem a = v.extractLsb' 0 8 := memRead_writeWindow_lane (i := 0) (by decide) hb

/-- Bytes without storage keep their values. -/
theorem memRead_writeWindow_of_not_backed {b : Nat} (hb : backed s.cfg b = false) :
    memRead (writeWindow a v s).mem b = memRead s.mem b := by
  rw [memRead_writeWindow, if_neg (by simp [hb])]

theorem memRead32_writeWindow {x : Nat} (hx : x < 256) :
    memRead32 (writeWindow (freqAddr x) v s).mem (freqAddr x) = v := by
  have hb : ∀ i, i < 4 → memRead (writeWindow (freqAddr x) v s).mem (freqAddr x + i) = v.extractLsb' (8 * i) 8 :=
    fun i hi => memRead_writeWindow_lane hi (backed_freq _ hx (by omega) (by omega))
  unfold memRead32
  rw [hb 3 (by decide), hb 2 (by decide), hb 1 (by decide),
    memRead_writeWindow_first (backed_freq _ hx (by omega) (by omega))]
  exact word_of_bytes v

theorem memRead16_writeWindow (he : HalfEntry s.cfg a) : memRead16 (writeWindow a v s).mem a = v.setWidth 16 := by
  unfold memRead16
  rw [memRead_writeWindow_lane (by decide) he.high, memRead_writeWindow_first he.low]
  apply BitVec.eq_of_toNat_eq
  simp only [toNat_append_eq, toNat_field, BitVec.toNat_setWidth]
  omega

/-- A byte entry holds the low byte of the word written. -/
theorem writeWindow_byteEntry (h : wordAddr addr = a) (hw : inByteWindow a = true) :
    (memRead (writeWindow a v s).mem a).toNat = v.toNat % 256 ∧
      busRead (writeWindow a v s) addr = word (v.toNat % 256) := by
  have hm : (memRead (writeWindow a v s).mem a).toNat = v.toNat % 256 := by
    rw [memRead_writeWindow_first (backed_byteEntry hw (h ▸ wordAddr_mod addr)), toNat_field]
    simp
  exact ⟨hm, by rw [busRead_byteEntry h hw, hm]⟩

/-- A CM or DR entry holds the low half of the word written. -/
theorem writeWindow_halfEntry (h : wordAddr addr = a) (he : HalfEntry s.cfg a) :
    (memRead16 (writeWindow a v s).mem a).toInt = (v.setWidth 16).toInt ∧
      busRead (writeWindow a v s) addr = (v.setWidth 16).signExtend 32 := by
  have hm := memRead16_writeWindow (v := v) he
  exact ⟨by rw [hm], by rw [busRead_halfEntry (s := writeWindow a v s) h he, hm]⟩

/-- A byte of IN or OUT below the capacity holds its lane of the word written. -/
theorem writeWindow_streamByte {base j : Nat} (h : wordAddr addr = 4 * ((base + j) / 4)) (h4 : base % 4 = 0)
    (hl : 0x400000 ≤ base) (hh : base + j < 0x1000000) (hb : backed s.cfg (base + j) = true) :
    memRead (writeWindow (4 * ((base + j) / 4)) v s).mem (base + j) = v.extractLsb' (8 * (j % 4)) 8 ∧
      (busRead (writeWindow (4 * ((base + j) / 4)) v s) addr).extractLsb' (8 * (j % 4)) 8 =
        v.extractLsb' (8 * (j % 4)) 8 := by
  have hm : memRead (writeWindow (4 * ((base + j) / 4)) v s).mem (base + j) = v.extractLsb' (8 * (j % 4)) 8 := by
    rw [memRead_writeWindow, if_pos ⟨by omega, by omega, hb⟩, show base + j - 4 * ((base + j) / 4) = j % 4 by omega]
  exact ⟨hm, by
    rw [busRead_streamLane h h4 hl hh, readLane_of_backed (s := writeWindow _ v s) hb, hm]⟩

theorem hostAccess_write_window (h : 0x1000 ≤ wordAddr addr) :
    hostAccess (.write addr v) s = writeWindow (wordAddr addr) v s := by
  rw [hostAccess_write (by omega) fun hc => by have := hc.1; omega]
  simp [busWrite, Nat.not_lt.mpr h]

end

end Sys2Proof.Machine

open Sys2Proof Sys2Proof.Machine

/-- Settles O58: reads by the register's field or the entry's lanes, writes by the register's rule or the lanes that have
storage, and the step that performs them. -/
theorem hostWritesReachTheArrays : Obligations.HostWritesReachTheArrays := by
  refine ⟨fun s => ⟨registersRead s, windowsRead⟩, fun s addr ev rest => step_hostRead,
    fun s addr v ev rest => step_hostWrite, ?_, ?_⟩
  · rintro s t addr v rfl
    have hw : ∀ {off}, wordAddr addr = off → off ≠ 0x000 → off < 0x1000 → (off = 0x01C → v.getLsbD 0 = false) →
      hostAccess (.write addr v) s = writeRegister off v s := hostAccess_write_register
    have hr : ∀ {u off}, wordAddr addr = off → off < 0x1000 → busRead u addr = readRegister off u :=
      fun {u off} h hl => busRead_of_eq u h hl
    refine ⟨fun h => ?_, fun h => ?_, fun h => ?_, fun h hc => ?_, fun h hc => ?_, fun h h0 => ?_, fun h => ?_,
      fun h => ?_, fun h => hr h (by decide)⟩
    · rw [hw h (by decide) (by decide) (by simp)]; exact ⟨rfl, hr h (by decide)⟩
    · rw [hw h (by decide) (by decide) (by simp)]; exact ⟨rfl, hr h (by decide)⟩
    · rw [hw h (by decide) (by decide) (by simp)]; exact ⟨rfl, hr h (by decide)⟩
    · rw [hw h (by decide) (by decide) (by simp)]
      exact ⟨rfl, clampLen_toNat v hc.2.2.2.1, hr h (by decide)⟩
    · rw [hw h (by decide) (by decide) (by simp)]
      exact ⟨rfl, clampLen_toNat v hc.2.2.2.2.2, hr h (by decide)⟩
    · rw [hw h (by decide) (by decide) fun _ => h0]
      exact ⟨rfl, (hr h (by decide)).trans (ctrlWord_setCtrl v s)⟩
    · rw [hw h (by decide) (by decide) (by simp), hr h (by decide), hr h (by decide)]
      exact ⟨rfl, irqWord_clearIrq v s⟩
    · simp only [List.mem_cons, List.not_mem_nil, or_false] at h
      rw [hw rfl (by omega) (by omega) fun hc => by omega]
      exact writeRegister_of_readOnly (by simp only [List.mem_cons, List.not_mem_nil, or_false]; omega)
  · rintro s t addr v hc hge rfl
    rw [hostAccess_write_window hge]
    obtain ⟨-, -, -, hin, -, hout⟩ := hc
    refine ⟨rfl, fun b hb => ?_, fun j h1 h2 => ?_, fun j h1 h2 => ?_, fun x p hx hp h => ?_, fun n L hn _ h2 h => ?_,
      fun n i hn hi h => ?_, fun x hx h => ?_, fun j hj h => ?_, fun j hj h => ?_, fun comp k p _ hk hp h => ?_,
      fun comp k _ hk h => ?_⟩
    · rw [memRead_writeWindow, if_neg (by omega)]
    · exact memRead_writeWindow_of_not_backed (by rw [backed_inAddr h2]; simpa using h1)
    · exact memRead_writeWindow_of_not_backed (by rw [backed_outAddr hin h2]; simpa using h1)
    · rw [h]; exact writeWindow_byteEntry h (inByteWindow_qt hx hp)
    · rw [h]; exact writeWindow_byteEntry h (inByteWindow_bits hn h2)
    · rw [h]; exact writeWindow_byteEntry h (inByteWindow_huffval hn hi)
    · rw [h, freqOf, busRead_freqEntry h hx, memRead32_writeWindow hx]; exact ⟨rfl, rfl⟩
    · rw [h]
      exact writeWindow_streamByte h (by decide) (by decide) (by omega)
        ((backed_inAddr (by omega)).trans (decide_eq_true hj))
    · rw [h]
      exact writeWindow_streamByte h (by decide) (by decide) (by omega)
        ((backed_outAddr hin (by omega)).trans (decide_eq_true hj))
    · rw [h]; exact writeWindow_halfEntry h (halfEntry_cm hk hp)
    · rw [h]; exact writeWindow_halfEntry h (halfEntry_dr hk)

end

section
/-! PROOF. The holes of the address map (20_memory.md R52, R54): storage and sign extension are found in the words of
registers and window entries only, so a host access elsewhere reads 0 and stores nothing. -/

namespace Sys2Proof.Machine

/-! ### Storage belongs to entries -/

section
variable {c : Config} {a b : Nat}

/-- Every block index of the windows is one of a component's. -/
theorem exists_block_of_lt {B : Nat} (h : B < 6 * c.maxMcus) :
    ∃ comp k, comp < 3 ∧ k < blockCapacity c comp ∧ cbase c comp + k = B := by
  by_cases h0 : B < 4 * c.maxMcus
  · exact ⟨0, B, by decide, h0, Nat.zero_add B⟩
  by_cases h1 : B < 5 * c.maxMcus
  · exact ⟨1, B - 4 * c.maxMcus, by decide, show _ < c.maxMcus by omega, Nat.add_sub_of_le (Nat.not_lt.mp h0)⟩
  · exact ⟨2, B - 5 * c.maxMcus, by decide, show _ < c.maxMcus by omega, Nat.add_sub_of_le (Nat.not_lt.mp h1)⟩

/-- The CM and DR windows are their entries, word by word. -/
theorem occupied_of_inHalfWindow (h : inHalfWindow c b = true) : Occupied c (4 * (b / 4)) := by
  simp only [inHalfWindow, Bool.or_eq_true, inSpan_iff] at h
  rcases h with ⟨hlo, hhi⟩ | ⟨hlo, hhi⟩
  · obtain ⟨comp, k, hc, hk, he⟩ := exists_block_of_lt (c := c) (B := (b - 0x1000000) / 256) (by omega)
    have ha : 4 * (b / 4) = cmAddr c comp k ((b - 0x1000000) / 4 % 64) := by simp only [cmAddr, he]; omega
    exact .inr <| .inr <| .inr <| .inr <| .inr <| .inr <| .inr <| .inl ⟨comp, k, _, hc, hk, by omega, ha⟩
  · obtain ⟨comp, k, hc, hk, he⟩ := exists_block_of_lt (c := c) (B := (b - 0x2000000) / 4) (by omega)
    have ha : 4 * (b / 4) = drAddr c comp k := by simp only [drAddr, he]; omega
    exact .inr <| .inr <| .inr <| .inr <| .inr <| .inr <| .inr <| .inr ⟨comp, k, hc, hk, ha⟩

/-- QT, BITS and HUFFVAL lie in their windows entry by entry. -/
theorem occupied_of_inByteWindow (h : inByteWindow a = true) (h4 : a % 4 = 0) : Occupied c a := by
  rcases inByteWindow_iff.mp h with ⟨hlo, hhi⟩ | ⟨⟨hlo, hhi⟩, hin⟩
  · have ha : a = qtAddr ((a - 0x1000) / 256) ((a - 0x1000) / 4 % 64) := by simp only [qtAddr]; omega
    exact .inr <| .inl ⟨_, _, by omega, by omega, ha⟩
  · by_cases hb : (a - 0x2000) % 0x800 < 0x40
    · have ha : a = bitsAddr ((a - 0x2000) / 0x800) ((a - 0x2000) % 0x800 / 4 + 1) := by simp only [bitsAddr]; omega
      exact .inr <| .inr <| .inl ⟨_, _, by omega, by omega, by omega, ha⟩
    · have ha : a = huffvalAddr ((a - 0x2000) / 0x800) (((a - 0x2000) % 0x800 - 0x40) / 4) := by
        simp only [huffvalAddr]; omega
      exact .inr <| .inr <| .inr <| .inl ⟨_, _, by omega, by omega, ha⟩

/-- A byte with storage lies in the word of a window entry. -/
theorem occupied_of_backed (h : backed c b = true) : Occupied c (4 * (b / 4)) := by
  rcases backed_iff.mp h with ⟨hw, h4⟩ | hf | hi | ho | ⟨hw, -⟩
  · rw [show 4 * (b / 4) = b by omega]
    exact occupied_of_inByteWindow hw h4
  · have ha : 4 * (b / 4) = freqAddr ((b - 0x6000) / 4) := by simp only [freqAddr]; omega
    exact .inr <| .inr <| .inr <| .inr <| .inl ⟨_, by omega, ha⟩
  · have ha : 4 * (b / 4) = 4 * (inAddr (b - 0x400000) / 4) := by simp only [inAddr]; omega
    exact .inr <| .inr <| .inr <| .inr <| .inr <| .inl ⟨_, by omega, ha⟩
  · have ha : 4 * (b / 4) = 4 * (outAddr (b - 0x800000) / 4) := by simp only [outAddr]; omega
    exact .inr <| .inr <| .inr <| .inr <| .inr <| .inr <| .inl ⟨_, by omega, ha⟩
  · exact occupied_of_inHalfWindow hw

end

/-! ### Accesses to a hole -/

section
variable {s : State} {addr v : Word} {a : Nat}

theorem not_backed_of_unoccupied (h4 : a % 4 = 0) (h : ¬ Occupied s.cfg a) {i : Nat} (hi : i < 4) :
    backed s.cfg (a + i) = false := by
  refine Bool.eq_false_iff.mpr fun hb => h ?_
  have ho := occupied_of_backed hb
  rwa [show 4 * ((a + i) / 4) = a by omega] at ho

theorem not_inHalfWindow_of_unoccupied (h4 : a % 4 = 0) (h : ¬ Occupied s.cfg a) : inHalfWindow s.cfg a = false := by
  refine Bool.eq_false_iff.mpr fun hw => h ?_
  have ho := occupied_of_inHalfWindow hw
  rwa [show 4 * (a / 4) = a by omega] at ho

theorem le_of_unoccupied (h : ¬ Occupied s.cfg a) : 0x58 ≤ a := Nat.not_lt.mp fun hl => h (.inl hl)

/-- The offsets past the last register read 0 (R51, R54). -/
theorem readRegister_of_reserved {off : Nat} (h : 0x58 ≤ off) : readRegister off s = 0 := by
  unfold readRegister
  split
  case h_22 => rfl
  all_goals exact absurd h (by decide)

theorem readWindow_of_unoccupied (h4 : a % 4 = 0) (h : ¬ Occupied s.cfg a) : readWindow s a = 0 := by
  have hl : ∀ {i}, i < 4 → readLane s (a + i) = 0 := fun hi =>
    readLane_of_not_backed (not_backed_of_unoccupied h4 h hi)
  have h0 : readLane s a = 0 := hl (i := 0) (by decide)
  rw [readWindow, not_inHalfWindow_of_unoccupied h4 h, hl (by decide), hl (by decide), hl (by decide), h0]
  rfl

theorem writeLane_of_not_backed {c : Config} {b : Byte} {m : Memory} (h : backed c a = false) :
    writeLane c a b m = m := by simp [writeLane, h]

theorem writeWindow_of_unoccupied (h4 : a % 4 = 0) (h : ¬ Occupied s.cfg a) : writeWindow a v s = s := by
  have hl : ∀ {i b m}, i < 4 → writeLane s.cfg (a + i) b m = m := fun hi =>
    writeLane_of_not_backed (not_backed_of_unoccupied h4 h hi)
  have h0 : ∀ {b m}, writeLane s.cfg a b m = m := hl (i := 0) (by decide)
  rw [writeWindow, hl (by decide), hl (by decide), hl (by decide), h0]

theorem busRead_of_unoccupied (h : ¬ Occupied s.cfg (wordAddr addr)) : busRead s addr = 0 := by
  by_cases hl : wordAddr addr < 0x1000
  · rw [busRead_of_lt s hl, readRegister_of_reserved (le_of_unoccupied h)]
  · rw [busRead_of_ge rfl (Nat.not_lt.mp hl), readWindow_of_unoccupied (wordAddr_mod addr) h]

theorem hostAccess_write_of_unoccupied (h : ¬ Occupied s.cfg (wordAddr addr)) : hostAccess (.write addr v) s = s := by
  have hge := le_of_unoccupied h
  by_cases hl : wordAddr addr < 0x1000
  · rw [hostAccess_write_register rfl (by omega) hl fun hc => by omega]
    exact writeRegister_of_readOnly (by simp only [List.mem_cons, List.not_mem_nil, or_false]; omega)
  · rw [hostAccess_write_window (Nat.not_lt.mp hl), writeWindow_of_unoccupied (wordAddr_mod addr) h]

end

end Sys2Proof.Machine

open Sys2Proof Sys2Proof.Machine

/-- Settles O57: past the registers every offset is reserved, and a word no entry occupies has no lane with storage. -/
theorem unmappedAddressesReadZero : Obligations.UnmappedAddressesReadZero :=
  fun _ _ _ h => ⟨by rw [hostAccess, busRead_of_unoccupied h], hostAccess_write_of_unoccupied h⟩

end

section
/-! PROOF. Accesses while a command is in flight (20_memory.md R58, 60_exceptions.md R200): which are allowed, and what a
violation makes of the block once the command is abandoned (R64). -/

namespace Sys2Proof.Machine

/-! ### Abandoning keeps what the command could not write -/

/-- What a command may write does not depend on the model's own fields. -/
theorem writesByte_modelFields {i : Instr} {s : State} {a : Nat} (l : List HostEvent) (x : Word) (n : Nat) :
    writesByte i { s with host := l, busData := x, freeDraws := n } a ↔ writesByte i s a := by
  cases i <;> exact Iff.rfl

/-- Free values stand in the registers freed and in RAM, and nowhere else. -/
theorem freeWrites_cases (i : Instr) (s : State) :
    freeWrites i s = s ∨ ∃ m, freeWrites i s = { freeRegisters i s with mem := m } := by
  unfold freeWrites
  split
  · exact .inl rfl
  · exact .inr ⟨_, rfl⟩

theorem abandon_of_decodes {s : State} {w : Word} {i : Instr} (hw : s.inFlight = some w) (hi : decode w = .ok i) :
    abandon s = { freeWrites i s with inFlight := none, freeDraws := s.freeDraws + 1 } := by
  simp [abandon, hw, hi]

theorem abandon_of_illegal {s : State} {w : Word} {e : DecodeError} (hw : s.inFlight = some w)
    (he : decode w = .error e) : abandon s = { s with inFlight := none } := by
  simp [abandon, hw, he]

theorem abandonKeeps_abandon {s : State} {w : Word} (hw : s.inFlight = some w) : AbandonKeeps w s (abandon s) := by
  refine ⟨fun i hi => ?_, fun e he => ?_⟩
  · rw [abandon_of_decodes hw hi]
    have hmem : ∀ a, ¬ writesByte i s a → memRead (freeWrites i s).mem a = memRead s.mem a :=
      fun _ => memRead_freeWrites_other
    rcases freeWrites_cases i s with h | ⟨m, h⟩
    · rw [h] at hmem ⊢
      exact ⟨fun _ => rfl, fun _ => rfl, fun _ => rfl, fun _ _ => rfl, hmem⟩
    · rw [h] at hmem ⊢
      exact ⟨freeRegisters_rd s, freeRegisters_wr s, freeRegisters_res s, fun _ => freeRegisters_slotOf s, hmem⟩
  · rw [abandon_of_illegal hw he]
    exact ⟨rfl, rfl, rfl, rfl, rfl⟩

theorem AbandonKeeps.faultEntry {w : Word} {s t : State} (code : FaultCode) (info : Word) (h : AbandonKeeps w s t) :
    AbandonKeeps w s (faultEntry code info t) := by
  simpa [AbandonKeeps, slotOf] using h

theorem AbandonKeeps.of_modelFields {w : Word} {s t : State} {l : List HostEvent} {x : Word} {n : Nat}
    (h : AbandonKeeps w { s with host := l, busData := x, freeDraws := n } t) : AbandonKeeps w s t := by
  refine ⟨fun i hi => ?_, h.2⟩
  obtain ⟨hrd, hwr, hres, hslot, hmem⟩ := h.1 i hi
  exact ⟨hrd, hwr, hres, hslot, fun a ha => hmem a (ha ∘ (writesByte_modelFields l x n).mp)⟩

/-! ### Violations -/

/-- A violation keeps what the command in flight could not write. -/
theorem abandonKeeps_busyViolation {w : Word} {s : State} (a : Access) (hw : s.inFlight = some w) :
    AbandonKeeps w s (busyViolation a s) := by
  obtain ⟨u, e, rfl | rfl⟩ := busyViolation_eq a s
  · rw [e]; exact (abandonKeeps_abandon hw).faultEntry _ _
  · rw [e]
    refine .of_modelFields (l := s.host) (.faultEntry _ _ (abandonKeeps_abandon ?_))
    exact hw

@[simp] theorem abandon_recorded (s : State) : (abandon s).recorded = s.recorded := by rw [abandon_eq]
@[simp] theorem abandon_busData (s : State) : (abandon s).busData = s.busData := by rw [abandon_eq]

/-- The first fault is HOST_BUSY with the access's address; beside it, a violation frees what the command could write and,
for a read, the word read. -/
theorem busyViolation_of_none {s : State} (a : Access) (hs : s.recorded = none) :
    ∃ (rd : Reader) (wr : Writer) (res : Word) (slots : Vector HuffSlot 6) (mem : Memory) (x : Word) (n : Nat),
      busyViolation a s =
        { s with recorded := some ⟨.hostBusy, accessAddr a⟩, faultP := true, inFlight := none, rd := rd, wr := wr,
                 res := res, slots := slots, mem := mem, busData := x, freeDraws := n } := by
  obtain ⟨u, e, hu⟩ := busyViolation_eq a s
  have hn : (abandon u).recorded = none := by rcases hu with rfl | rfl <;> simpa using hs
  rw [e, faultEntry_of_none _ _ hn, abandon_eq]
  rcases hu with rfl | rfl <;> exact ⟨_, _, _, _, _, _, _, rfl⟩

theorem busyViolation_write_busData (addr v : Word) (s : State) :
    (busyViolation (.write addr v) s).busData = s.busData := by
  simp [busyViolation]

/-! ### Steps with a command in flight (R58) -/

section
variable {s : State} {w addr v : Word} {a : Access} {rest : List HostEvent}

theorem step_early (hw : s.inFlight = some w) (hh : s.host = .early a :: rest) :
    step s = .next (earlyAccess a { s with host := rest }) := by
  simp [step, nextEvent, hw, hh]

theorem earlyAccess_of_allowed (h : allowedWhileBusy a = true) : earlyAccess a s = hostAccess a s := by
  simp [earlyAccess, h]

theorem earlyAccess_of_forbidden (h : allowedWhileBusy a = false) : earlyAccess a s = busyViolation a s := by
  simp [earlyAccess, h]

theorem allowedWhileBusy_read :
    allowedWhileBusy (.read addr) = true ↔ wordAddr addr ∈ ([0x010, 0x014, 0x018, 0x020] : List Nat) := by
  simp [allowedWhileBusy]

theorem allowedWhileBusy_write (h : ¬ (wordAddr addr = 0x01C ∧ v.getLsbD 0 = true)) :
    allowedWhileBusy (.write addr v) = false := isSoftReset_write h

end

end Sys2Proof.Machine

open Sys2Proof Sys2Proof.Machine

/-- Settles O59: a forbidden access is a violation, whose frame is that of abandoning the command and of fault entry; an
allowed read is the host's read. -/
theorem accessWhileBusyIsHostBusy : Obligations.AccessWhileBusyIsHostBusy := by
  intro s w addr a rest hw hh
  refine ⟨fun v hn ha => ?_, ?_⟩
  · have hforbidden : allowedWhileBusy a = false ∧ accessAddr a = addr := by
      rcases ha with ⟨rfl, h0, h1, h2, h3⟩ | ⟨rfl, hr⟩
      · exact ⟨Bool.eq_false_iff.mpr fun h => by simpa [h0, h1, h2, h3] using allowedWhileBusy_read.mp h, rfl⟩
      · exact ⟨allowedWhileBusy_write hr, rfl⟩
    obtain ⟨hf, rfl⟩ := hforbidden
    have hkeeps : AbandonKeeps w s (busyViolation a { s with host := rest }) :=
      .of_modelFields (l := rest) (x := s.busData) (n := s.freeDraws) (abandonKeeps_busyViolation a hw)
    have hbus : a = .write (accessAddr a) v → (busyViolation a { s with host := rest }).busData = s.busData := by
      intro h
      rw [h]; exact busyViolation_write_busData _ _ _
    refine ⟨busyViolation a { s with host := rest }, by rw [step_early hw hh, earlyAccess_of_forbidden hf], ?_⟩
    obtain ⟨rd, wr, res, slots, mem, x, n, e⟩ := busyViolation_of_none (s := { s with host := rest }) a hn
    rw [e] at hkeeps hbus ⊢
    exact ⟨rfl, rfl, rfl, rfl, rfl, rfl, rfl, rfl, rfl, rfl, rfl, rfl, rfl, rfl, hkeeps, hbus⟩
  · rintro rfl hm
    rw [step_early hw hh, earlyAccess_of_allowed (allowedWhileBusy_read.mpr hm)]
    rfl

end

section
/-! PROOF. A command word from the host's write to the end of its command (44_control.md R191, 20_memory.md R59). -/

namespace Sys2Proof.Machine

section
variable {s : State} {addr w : Word} {rest : List HostEvent}

theorem hostAccess_write_cmd (ha : wordAddr addr = 0x000) : hostAccess (.write addr w) s = issueCommand w s := by
  rw [hostAccess, isSoftReset_write (by simp [ha])]
  simp [ha]

theorem earlyNext_eq_false (hl : ∀ a more, s.host ≠ .early a :: more) : earlyNext s = false := by
  unfold earlyNext
  split
  · next a more he => exact absurd he (hl a more)
  · rfl

theorem runCommand_of_decodes {i : Instr} (hi : decode w = .ok i) : runCommand w s = exec i s := by
  simp [runCommand, hi]

/-- The whole step of a command issued to a ready block, when no access comes before its end. -/
theorem step_issue (hw : s.inFlight = none) (hn : s.recorded = none)
    (hh : s.host = .access (.write addr w) :: rest) (ha : wordAddr addr = 0x000)
    (hl : ∀ a more, rest ≠ .early a :: more) :
    step s = runCommand w (acceptCommand w { s with host := rest }) := by
  have hissue : hostAccess (.write addr w) { s with host := rest } = acceptCommand w { s with host := rest } := by
    rw [hostAccess_write_cmd ha]; simp [issueCommand, faulted, hn]
  have hafter : step s = afterEvent (acceptCommand w { s with host := rest }) := by
    rw [← hissue]; simp [step, nextEvent, hw, hh, hostEvent]
  rw [hafter, afterEvent, earlyNext_eq_false (s := acceptCommand w { s with host := rest }) hl]
  exact finishInFlight_of_some (acceptCommand_inFlight w _)

end

end Sys2Proof.Machine

open Sys2Proof Sys2Proof.Machine

/-- Settles O5: the step issues the word, accepts it and runs the command it selects. -/
theorem stepRunsDecodedCommand : Obligations.StepRunsDecodedCommand := by
  intro s addr w rest i hw hn hh ha hl hi
  exact (step_issue hw hn hh ha hl).trans (runCommand_of_decodes hi)

end

section
/-! PROOF. The decoder against the encoder (30_encoding.md R70, R71, R73): a word's fields and the word they make, then
the fields of a command and the command they select, then the two together. -/

namespace Sys2Proof

/-! ### A word is its fields (R70, R71) -/

/-- Every field within its width. -/
structure Fields.Fit (f : Fields) : Prop where
  op : f.op < 256
  a : f.a < 16
  b : f.b < 16
  imm : f.imm < 65536

theorem fieldsOf_fit (w : Word) : (fieldsOf w).Fit :=
  ⟨BitVec.isLt _, BitVec.isLt _, BitVec.isLt _, BitVec.isLt _⟩

theorem wordOf_fieldsOf (w : Word) : wordOf (fieldsOf w) = w := by
  have hw := w.isLt
  refine BitVec.eq_of_toNat_eq ?_
  simp only [wordOf, fieldsOf, BitVec.toNat_ofNat, BitVec.extractLsb'_toNat, Nat.shiftRight_eq_div_pow]
  omega

theorem fieldsOf_inj {v w : Word} : fieldsOf v = fieldsOf w ↔ v = w :=
  ⟨fun h => by rw [← wordOf_fieldsOf v, h, wordOf_fieldsOf], congrArg fieldsOf⟩

/-- The word of a command holds the command's fields: the family `Fields`, as one statement. -/
theorem fieldsOf_encode : ∀ i : Instr, WellFormed i → fieldsOf (encode i) = encodeFields i
  | .nop => Laws.Fields.nop
  | .hbuild _ => Laws.Fields.hbuild _
  | .hgen _ => Laws.Fields.hgen _
  | .hdec _ _ => Laws.Fields.hdec _ _
  | .henc _ _ => Laws.Fields.henc _ _
  | .hcode _ _ => Laws.Fields.hcode _ _
  | .hinv _ => Laws.Fields.hinv _
  | .fclr => Laws.Fields.fclr
  | .finc _ => Laws.Fields.finc _
  | .fhist _ => Laws.Fields.fhist _
  | .rdinit => Laws.Fields.rdinit
  | .getbits _ => Laws.Fields.getbits _
  | .receive _ => Laws.Fields.receive _
  | .wrinit => Laws.Fields.wrinit
  | .putbits _ => Laws.Fields.putbits _
  | .putvli => Laws.Fields.putvli
  | .vcat => Laws.Fields.vcat
  | .flush => Laws.Fields.flush
  | .decblk _ _ _ _ => Laws.Fields.decblk _ _ _ _
  | .encblk _ _ _ => Laws.Fields.encblk _ _ _
  | .dpcmdec _ => Laws.Fields.dpcmdec _
  | .dpcmenc _ => Laws.Fields.dpcmenc _
  | .spdec _ => Laws.Fields.spdec _
  | .spenc _ => Laws.Fields.spenc _
  | .sppred _ => Laws.Fields.sppred _

/-! ### The fields and the command they select (R73) -/

theorem whenReservedZero_eq_ok {ok : Bool} {i j : Instr} : whenReservedZero ok j = .ok i ↔ ok = true ∧ j = i := by
  cases ok <;> simp [whenReservedZero]

/-- A flag field is read as its low bit. -/
theorem flagBit_mod_two (n : Nat) : flagBit (n % 2 == 1) = n % 2 := by
  rcases Nat.mod_two_eq_zero_or_one n with h | h <;> simp [flagBit, h]

/-- An operand in the low bits of a field, with nothing above it, is read back (R71). -/
theorem whenReservedZero_operand {n k : Nat} {c : Nat → Instr} (h : n < 2 ^ k) :
    whenReservedZero (n / 2 ^ k == 0) (c (n % 2 ^ k)) = .ok (c n) := by
  rw [Nat.div_eq_of_lt h, Nat.mod_eq_of_lt h]; rfl

/-- A symbol in the low byte of IMM is read back (R71). -/
theorem whenReservedZero_symbol {c : Byte → Instr} (sym : Byte) :
    whenReservedZero (sym.toNat / 2 ^ 8 == 0) (c (BitVec.ofNat 8 sym.toNat)) = .ok (c sym) := by
  rw [Nat.div_eq_of_lt sym.isLt, BitVec.ofNat_toNat, BitVec.setWidth_eq]; rfl

theorem decodeFields_encodeFields {i : Instr} (h : WellFormed i) : decodeFields (encodeFields i) = .ok i := by
  cases i with
  | nop | fclr | rdinit | wrinit | putvli | vcat | flush | hbuild | hgen | hinv => rfl
  | hdec _ eosok => cases eosok <;> simp [encodeFields, decodeFields, flagBit, whenReservedZero]
  | henc _ sym | hcode _ sym | finc sym => exact whenReservedZero_symbol sym
  | getbits | receive | putbits | fhist | dpcmdec | dpcmenc | spdec | spenc | sppred => exact whenReservedZero_operand h
  | encblk => exact whenReservedZero_operand h.2.2
  | decblk dcs acs comp eosok =>
    obtain ⟨-, -, hc⟩ := h
    refine whenReservedZero_eq_ok.mpr ?_
    cases eosok <;> simp [encodeFields, flagBit] <;> omega

/-- The fields that select a command are the command's own, reserved ones included. -/
theorem encodeFields_of_decodeFields {f : Fields} {i : Instr} (hf : f.Fit) (h : decodeFields f = .ok i) :
    encodeFields i = f ∧ WellFormed i := by
  obtain ⟨op, a, b, imm⟩ := f
  obtain ⟨-, ha, hb, himm⟩ := hf
  unfold decodeFields at h
  split at h
  case h_26 => cases h
  all_goals
    rename_i hop
    obtain ⟨hz, rfl⟩ := whenReservedZero_eq_ok.mp h
    obtain rfl : op = _ := hop
    simp only [Bool.and_eq_true, beq_iff_eq] at ha hb himm hz
    simp only [encodeFields, WellFormed, slotFits, compFits, flagBit_mod_two, BitVec.toNat_ofNat, Fields.mk.injEq,
      true_and, and_true]
    omega

end Sys2Proof

open Sys2Proof Sys2Proof.Machine

/-- Settles O1: the word holds the command's fields, and the fields select the command. -/
theorem decodeOfEncodeIsTheCommand : Obligations.DecodeOfEncodeIsTheCommand := by
  intro i hi
  rw [decode, fieldsOf_encode i hi]
  exact decodeFields_encodeFields hi

/-- Settles O2: the fields that select a command are the command's, and a word is its fields. -/
theorem decodedWordIsItsEncoding : Obligations.DecodedWordIsItsEncoding := by
  intro w i h
  obtain ⟨hfields, hwf⟩ := encodeFields_of_decodeFields (fieldsOf_fit w) h
  exact ⟨by rw [encode, hfields, wordOf_fieldsOf], hwf⟩

end

section
/-! PROOF. The legal words as rows of the opcode table (30_encoding.md R73, R74): each opcode's layout says which low bits
of A, B and IMM its operands take, and every bit above them is reserved. -/

namespace Sys2Proof

/-- An opcode and how many low bits of A, B and IMM its operands take (R73). -/
structure Layout where
  op : Nat
  a : Nat
  b : Nat
  imm : Nat

/-- The opcode's fields, with every reserved bit 0 (R74). -/
def Layout.Accepts (l : Layout) (f : Fields) : Prop :=
  f.op = l.op ∧ f.a / 2 ^ l.a = 0 ∧ f.b / 2 ^ l.b = 0 ∧ f.imm / 2 ^ l.imm = 0

/-- The layouts of R73, in the order of the opcode table. -/
def layouts : List Layout :=
  [⟨0x00, 0, 0, 0⟩, ⟨0x10, 4, 0, 0⟩, ⟨0x11, 4, 0, 0⟩, ⟨0x12, 4, 1, 0⟩, ⟨0x13, 4, 0, 8⟩, ⟨0x14, 4, 0, 8⟩, ⟨0x15, 4, 0, 0⟩,
   ⟨0x18, 0, 0, 0⟩, ⟨0x19, 0, 0, 8⟩, ⟨0x1A, 0, 0, 2⟩, ⟨0x20, 0, 0, 0⟩, ⟨0x21, 0, 0, 5⟩, ⟨0x22, 0, 0, 5⟩,
   ⟨0x28, 0, 0, 0⟩, ⟨0x29, 0, 0, 6⟩, ⟨0x2A, 0, 0, 0⟩, ⟨0x2B, 0, 0, 0⟩, ⟨0x2C, 0, 0, 0⟩,
   ⟨0x30, 4, 4, 3⟩, ⟨0x31, 4, 4, 2⟩,
   ⟨0x38, 0, 0, 2⟩, ⟨0x39, 0, 0, 2⟩, ⟨0x3A, 0, 0, 2⟩, ⟨0x3B, 0, 0, 2⟩, ⟨0x3C, 0, 0, 2⟩]

/-! ### A layout as a row's match and mask -/

/-- The match: the opcode, every other bit 0. -/
def Layout.matchFields (l : Layout) : Fields := { op := l.op, a := 0, b := 0, imm := 0 }

/-- The mask: the opcode's bits and the reserved ones. -/
def Layout.maskFields (l : Layout) : Fields :=
  { op := 2 ^ 8 - 1, a := 2 ^ 4 - 2 ^ l.a, b := 2 ^ 4 - 2 ^ l.b, imm := 2 ^ 16 - 2 ^ l.imm }

/-- The row of the opcode table: match and mask. -/
def Layout.row (l : Layout) : Word × Word := (wordOf l.matchFields, wordOf l.maskFields)

theorem opcodeRows_eq : Machine.opcodeRows = layouts.map Layout.row := by decide

/-- A mask of the bits from `k` up keeps the number without its low bits. -/
theorem and_highMask {x n k : Nat} (hk : k ≤ n) (hx : x < 2 ^ n) : x &&& (2 ^ n - 2 ^ k) = x / 2 ^ k * 2 ^ k := by
  have hpos : 0 < 2 ^ k := Nat.two_pow_pos k
  have hmask : 2 ^ n - 2 ^ k = 2 ^ n - (2 ^ k - 1 + 1) := by rw [Nat.sub_add_cancel hpos]
  have hlt : 2 ^ k - 1 < 2 ^ n := by have := Nat.pow_le_pow_right (n := 2) (by decide) hk; omega
  refine Nat.eq_of_testBit_eq fun i => ?_
  rw [hmask, Nat.testBit_and, Nat.testBit_two_pow_sub_succ hlt, Nat.testBit_two_pow_sub_one, Nat.testBit_mul_two_pow,
    Nat.testBit_div_two_pow]
  by_cases hi : k ≤ i
  · by_cases hn : i < n
    · simp [hi, hn, Nat.not_lt.mpr hi]
    · simp [hi, Nat.testBit_lt_two_pow (hx.trans_le (Nat.pow_le_pow_right (by decide) (Nat.not_lt.mp hn)))]
  · simp [hi, Nat.not_le.mp hi]

/-- The bits from `k` up are 0 exactly when their mask gives 0. -/
theorem and_highMask_eq_zero {x n k : Nat} (hk : k ≤ n) (hx : x < 2 ^ n) :
    x &&& (2 ^ n - 2 ^ k) = 0 ↔ x / 2 ^ k = 0 := by
  rw [and_highMask hk hx, Nat.mul_eq_zero, or_iff_left (Nat.two_pow_pos k).ne']

/-- Words meet field by field. -/
theorem fieldsOf_and (v w : Word) :
    fieldsOf (v &&& w) =
      { op := (fieldsOf v).op &&& (fieldsOf w).op, a := (fieldsOf v).a &&& (fieldsOf w).a,
        b := (fieldsOf v).b &&& (fieldsOf w).b, imm := (fieldsOf v).imm &&& (fieldsOf w).imm } := by
  simp only [fieldsOf, BitVec.extractLsb'_and, BitVec.toNat_and]

/-- The layout's numbers lie within the fields' widths. -/
structure Layout.Fit (l : Layout) : Prop where
  op : l.op < 256
  a : l.a ≤ 4
  b : l.b ≤ 4
  imm : l.imm ≤ 16

theorem layouts_fit : ∀ l ∈ layouts, l.Fit := by
  have h : ∀ l ∈ layouts, l.op < 256 ∧ l.a ≤ 4 ∧ l.b ≤ 4 ∧ l.imm ≤ 16 := by decide
  exact fun l hl => let ⟨hop, ha, hb, hi⟩ := h l hl; ⟨hop, ha, hb, hi⟩

/-- A word matches a layout's row under the row's mask exactly when the layout accepts its fields (R73). -/
theorem and_row_eq_iff {l : Layout} (hl : l.Fit) (w : Word) : w &&& l.row.2 = l.row.1 ↔ l.Accepts (fieldsOf w) := by
  have hmatch : fieldsOf l.row.1 = l.matchFields :=
    Laws.Fields.fieldsOf_wordOf _ hl.op (Nat.two_pow_pos 4) (Nat.two_pow_pos 4) (Nat.two_pow_pos 16)
  have hmask : fieldsOf l.row.2 = l.maskFields :=
    Laws.Fields.fieldsOf_wordOf _ (Nat.sub_lt (Nat.two_pow_pos 8) Nat.one_pos)
      (Nat.sub_lt (Nat.two_pow_pos 4) (Nat.two_pow_pos _)) (Nat.sub_lt (Nat.two_pow_pos 4) (Nat.two_pow_pos _))
      (Nat.sub_lt (Nat.two_pow_pos 16) (Nat.two_pow_pos _))
  have hw := fieldsOf_fit w
  rw [← fieldsOf_inj, fieldsOf_and, hmatch, hmask]
  simp only [Layout.matchFields, Layout.maskFields, Layout.Accepts, Fields.mk.injEq, and_highMask_eq_zero hl.a hw.a,
    and_highMask_eq_zero hl.b hw.b, and_highMask_eq_zero hl.imm hw.imm,
    Nat.and_two_pow_sub_one_of_lt_two_pow (n := 8) hw.op]

/-! ### The fields that select a command -/

/-- Fields select a command exactly when a layout accepts them. -/
theorem exists_decodeFields_iff {f : Fields} (hf : f.Fit) :
    (∃ i, decodeFields f = .ok i) ↔ ∃ l ∈ layouts, l.Accepts f := by
  obtain ⟨op, a, b, imm⟩ := f
  obtain ⟨-, ha, hb, -⟩ := hf
  simp only [layouts, List.mem_cons, List.not_mem_nil, or_false, exists_eq_or_imp, exists_eq_left, Layout.Accepts]
  unfold decodeFields
  -- An arm's opcode is that of one layout, whose reserved bits the arm checks; with no arm there is no layout.
  split <;> simp_all [whenReservedZero_eq_ok, and_assoc]

end Sys2Proof

open Sys2Proof Sys2Proof.Machine

/-- Settles O3: the table's rows are the layouts', and a layout accepts the fields of the words that match its row. -/
theorem legalWordsAreTheOpcodeTableRows : Obligations.LegalWordsAreTheOpcodeTableRows := by
  intro w
  have hrow : ∀ l ∈ layouts, w &&& l.row.2 = l.row.1 ↔ l.Accepts (fieldsOf w) := fun l hl =>
    and_row_eq_iff (layouts_fit l hl) w
  rw [opcodeRows_eq, decode, exists_decodeFields_iff (fieldsOf_fit w)]
  simp only [List.mem_map, exists_exists_and_eq_and]
  exact exists_congr fun l => and_congr_right fun hl => (hrow l hl).symm

end

section
/-! PROOF. The operand checks as the first part of every command's body (30_encoding.md R75): a list of checks, the first
to fail ending the run. -/

namespace Sys2Proof.Machine

/-- The checks of a list in its order, each of which may end the run, then `k`. -/
def checkAll (s : State) : List (Bool × FaultCode × Word) → Run State Unit → Run State Unit
  | [], k => k
  | (fails, code, info) :: l, k => check (!fails) code info s (checkAll s l k)

section
variable {s : State} {k : Run State Unit}

theorem checkAll_append (l m : List (Bool × FaultCode × Word)) :
    checkAll s (l ++ m) k = checkAll s l (checkAll s m k) := by
  induction l with
  | nil => rfl
  | cons c l ih => simp only [List.cons_append, checkAll, ih]

/-- The first check that fails is the fault raised, and nothing has changed (R75, R202). -/
theorem checkAll_of_find?_eq_some {l : List (Bool × FaultCode × Word)} {c : Bool × FaultCode × Word}
    (h : l.find? (fun x => x.1) = some c) : checkAll s l k = .raise c.2.1 c.2.2 s := by
  induction l with
  | nil => cases h
  | cons d l ih =>
    obtain ⟨fails, code, info⟩ := d
    cases fails with
    | true => cases h; rfl
    | false => exact ih h

theorem not_decide_lt (m n : Nat) : (!decide (m < n)) = decide (n ≤ m) := by
  rw [← decide_not, decide_eq_decide, Nat.not_lt]

theorem not_decide_le (m n : Nat) : (!decide (m ≤ n)) = decide (n < m) := by
  rw [← decide_not, decide_eq_decide, Nat.not_le]

theorem checkAll_slot (slot : Nat) :
    checkAll s [(decide (5 < slot), .badSlot, word slot)] k = checkSlot slot s k := by
  simp only [checkAll, checkSlot, not_decide_lt]

theorem checkAll_len (n limit : Nat) :
    checkAll s [(decide (limit < n), .badLen, word n)] k = checkLen n limit s k := by
  simp only [checkAll, checkLen, not_decide_lt]

theorem checkAll_slotChecks (slot : Nat) : checkAll s (slotChecks s slot) k = checkBuilt slot s k := by
  simp only [checkAll, slotChecks, checkBuilt, checkSlot, not_decide_lt, Bool.not_not]

theorem checkAll_compChecks (comp : Nat) : checkAll s (compChecks s comp) k = checkComp comp s k := by
  simp only [checkAll, compChecks, checkComp, not_decide_le, Bool.not_not]

theorem checkAll_rangeChecks (comp : Nat) :
    checkAll s (rangeChecks s comp) k = checkRange comp (arg0Nat s) (arg1Nat s) s k := by
  simp only [rangeChecks, checkAll_append, checkAll_compChecks, checkAll, not_decide_lt, checkRange]

theorem checkAll_blockChecks (comp : Nat) :
    checkAll s (blockChecks s comp) k = checkBlock comp (arg0Nat s) s k := by
  have hinfo : word (arg0Nat s) = s.arg0 := (BitVec.ofNat_toNat 32 s.arg0).trans (BitVec.setWidth_eq s.arg0)
  simp only [blockChecks, checkAll_append, checkAll_compChecks, checkAll, not_decide_le, checkBlock, hinfo]

end

/-- A command's body runs its operand checks first, in R75's order. -/
theorem exec_eq_checkAll (i : Instr) (s : State) :
    ∃ k, exec i s = endCommand (checkAll s (operandChecks i s) k) := by
  cases i with
  | nop | fclr | finc | rdinit | wrinit | putvli | vcat | flush => exact exec_eq_endCommand _ s
  | hbuild | hgen | hinv => simp only [operandChecks, checkAll_slot]; exact ⟨_, rfl⟩
  | hdec | henc | hcode => simp only [operandChecks, checkAll_slotChecks]; exact ⟨_, rfl⟩
  | getbits | receive | putbits => simp only [operandChecks, checkAll_len]; exact ⟨_, rfl⟩
  | decblk | encblk =>
    simp only [operandChecks, checkAll_append, checkAll_slotChecks, checkAll_blockChecks]; exact ⟨_, rfl⟩
  | fhist | dpcmdec | dpcmenc | spdec | spenc => simp only [operandChecks, checkAll_rangeChecks]; exact ⟨_, rfl⟩
  | sppred => simp only [operandChecks, checkAll_blockChecks]; exact ⟨_, rfl⟩

theorem exec_of_firstOperandFault {i : Instr} {s : State} {code : FaultCode} {info : Word}
    (h : firstOperandFault i s = some (code, info)) : exec i s = .next (faultEntry code info s) := by
  obtain ⟨⟨fails, _⟩, hfind, rfl⟩ := Option.map_eq_some_iff.mp h
  obtain ⟨k, hexec⟩ := exec_eq_checkAll i s
  rw [hexec, checkAll_of_find?_eq_some hfind, endCommand_raise]

end Sys2Proof.Machine

open Sys2Proof Sys2Proof.Machine

/-- Settles O9: the checks end the body before it has changed anything, and fault entry is all that follows. -/
theorem operandChecksRaiseInOrder : Obligations.OperandChecksRaiseInOrder := by
  intro i s code info hs h
  rw [exec_of_firstOperandFault h, faultEntry_of_none code info hs]

end

section
open Sys2Proof Sys2Proof.Machine

/-- Settles O4: the decoder evaluated on each word. -/
theorem specWordsDecode : Obligations.SpecWordsDecode :=
  ⟨rfl, rfl, rfl, rfl, rfl, rfl, rfl, rfl, rfl, rfl, rfl⟩

end

section
/-! PROOF. An illegal word from the host's write to its fault (30_encoding.md R74, 44_control.md R191). -/

namespace Sys2Proof.Machine

theorem runCommand_of_illegal {w : Word} {s : State} {e : DecodeError} (he : decode w = .error e) :
    runCommand w s = .next (faultEntry .badCmd w s) := by
  simp [runCommand, he]

end Sys2Proof.Machine

open Sys2Proof Sys2Proof.Machine

/-- Settles O6: the step accepts the word and takes BAD_CMD, and of what acceptance set only DONE and EOS stay. -/
theorem illegalWordRaisesBadCmd : Obligations.IllegalWordRaisesBadCmd := by
  intro s addr w rest e hw hn hh ha hl he
  rw [step_issue hw hn hh ha hl, runCommand_of_illegal he, faultEntry_of_none _ _ (by exact hn), ← hw]
  rfl

end

section
/-! PROOF. The frequency table (40_huffman.md R98 to R100): what one count and what the loops make of the counters. -/

namespace Sys2Proof.Machine

theorem freqOf_memWrite32_same (m : Memory) (x : Nat) (v : Word) :
    freqOf (memWrite32 m (freqAddr x) v) x = v.toNat := by
  rw [freqOf, memRead32_memWrite32_same]

theorem freqOf_memWrite32_other {m : Memory} {x y : Nat} (v : Word) (h : x ≠ y) :
    freqOf (memWrite32 m (freqAddr y) v) x = freqOf m x := by
  rw [freqOf, memRead32_memWrite32_other m v (by unfold freqAddr; omega), freqOf]

theorem freqOf_le (m : Memory) (x : Nat) : freqOf m x ≤ 0xFFFFFFFF := by
  have := (memRead32 m (freqAddr x)).isLt
  unfold freqOf
  omega

theorem freqOf_clearFreq (m : Memory) {n x : Nat} (h : x < n) : freqOf (clearFreq n m) x = 0 := by
  induction n with
  | zero => omega
  | succ n ih =>
    by_cases hx : x = n
    · subst hx; exact freqOf_memWrite32_same _ _ _
    · rw [clearFreq, freqOf_memWrite32_other _ hx, ih (by omega)]

/-- One count goes to its symbol's counter, saturating (R99). -/
theorem freqOf_countSymbol (m : Memory) (sym x : Nat) :
    freqOf (countSymbol m sym) x = min (freqOf m x + if sym = x then 1 else 0) 0xFFFFFFFF := by
  have hle := freqOf_le m x
  by_cases h : sym = x
  · subst h
    rw [countSymbol, freqOf_memWrite32_same, BitVec.toNat_ofNat, if_pos rfl]
    omega
  · rw [countSymbol, freqOf_memWrite32_other _ (Ne.symm h), if_neg h]
    omega

/-- R100's loop: each counter goes up by the number of residuals of its category, saturating. -/
theorem freqOf_countCategories (c : Config) (comp x : Nat) : ∀ (count k : Nat) (m : Memory),
    freqOf (countCategories c comp count k m) x =
      min (freqOf m x + (List.range count).countP (fun i => cat (drOf c m comp (k + i)) == x)) 0xFFFFFFFF
  | 0, k, m => by
    have := freqOf_le m x
    simp only [countCategories, List.range_zero, List.countP_nil]
    omega
  | count + 1, k, m => by
    have hdr : ∀ i, drOf c (countSymbol m (cat (drOf c m comp k))) comp (k + 1 + i) = drOf c m comp (k + (i + 1)) :=
      fun i => by rw [drOf_countSymbol c m comp _ (cat_drOf_le c m comp k), Nat.add_right_comm, Nat.add_assoc]
    rw [countCategories, freqOf_countCategories c comp x count, freqOf_countSymbol, List.range_succ_eq_map,
      List.countP_cons, List.countP_map]
    simp only [hdr, Function.comp_def, Nat.succ_eq_add_one, Nat.add_zero, beq_iff_eq]
    omega

/-- `a` is a byte of a counter. -/
def InFreq (a : Nat) : Prop := ∃ x, x < 256 ∧ freqAddr x ≤ a ∧ a < freqAddr x + 4

/-- What touches only the counters leaves the bytes outside them. -/
theorem Touches.memRead_of_outside_freq {m m' : Memory} (h : Touches InFreq m m') {a : Nat}
    (ha : ∀ x, x < 256 → a < freqAddr x ∨ freqAddr x + 4 ≤ a) : memRead m' a = memRead m a :=
  h.frame a fun ⟨x, hx, h1, h2⟩ => by have := ha x hx; omega

theorem encode_finc (sym : Byte) : encode (.finc sym) = (0x19 : BitVec 8) ++ (0 : BitVec 16) ++ sym := by
  have := sym.isLt
  apply BitVec.eq_of_toNat_eq
  simp only [toNat_append_eq, encode, encodeFields, wordOf, BitVec.toNat_ofNat, BitVec.reduceToNat]
  omega

end Sys2Proof.Machine

open Sys2Proof Sys2Proof.Machine

/-- Settles O24: the loop stores 0 in each counter and touches only the table. -/
theorem fclrZeroesFrequencies : Obligations.FclrZeroesFrequencies := by
  intro s
  refine ⟨clearFreq 256 s.mem, ?_, fun _ hx => freqOf_clearFreq s.mem hx, fun a => ?_⟩
  · rw [exec_eq_body, body, endCommand_ok, commandDone]
  · have h : Touches InFreq s.mem (clearFreq 256 s.mem) :=
      (Touches.refl _ _).clearFreq fun x hx _ h1 h2 => ⟨x, hx, h1, h2⟩
    exact h.memRead_of_outside_freq

/-- Settles O25: a word that decodes to FINC is its encoding, and the count stores one counter. -/
theorem fincCountsSaturating : Obligations.FincCountsSaturating := by
  intro sym s
  refine ⟨fun w => ⟨fun h => ?_, fun h => ?_⟩, countSymbol s.mem sym.toNat, rfl, ?_, fun a ha => ?_⟩
  · rw [← encode_finc, (decodedWordIsItsEncoding w _ h).1]
  · rw [h, ← encode_finc, decodeOfEncodeIsTheCommand _ trivial]
  · simp [freqOf_countSymbol]
  · exact memRead_memWrite32_other _ _ ha

/-- Settles O26: the loop counts each residual once, and no counter holds a residual. -/
theorem fhistCountsCategories : Obligations.FhistCountsCategories := by
  intro comp s ⟨hc, hg, hr⟩
  refine ⟨countCategories s.cfg comp (arg1Nat s) (arg0Nat s) s.mem, ?_,
    fun x _ => freqOf_countCategories s.cfg comp x _ _ _, fun a => ?_⟩
  · rw [exec_eq_body, body, checkRange_of _ hc hg hr]
    rfl
  · exact ((Touches.refl _ _).countCategories fun j _ _ a h1 h2 =>
      ⟨_, lt_of_le_of_lt (cat_drOf_le _ _ _ _) (by decide), h1, h2⟩).memRead_of_outside_freq

end

section
/-! PROOF. Query and invalidation (40_huffman.md R96, R97). -/

namespace Sys2Proof.Machine

/-- The two fields of HCODE's result (R96). -/
theorem codeWord_fields (t : HuffSlot) (x : Byte) :
    ((codeWord t x).extractLsb' 16 5).toNat = lenAt t x ∧ ((codeWord t x).extractLsb' 0 16).toNat = codeAt t x ∧
      (codeWord t x).toNat < 2 ^ 21 := by
  have hl : lenAt t x < 2 ^ 5 := BitVec.isLt _
  have hc : codeAt t x < 2 ^ 16 := BitVec.isLt _
  simp only [toNat_field, codeWord, BitVec.toNat_ofNat]
  omega

end Sys2Proof.Machine

open Sys2Proof Sys2Proof.Machine

/-- Settles O21: the result is the word of the two fields. -/
theorem hcodeReturnsLengthAndCode : Obligations.HcodeReturnsLengthAndCode := by
  intro slot sym s hs hv hlen
  refine ⟨codeWord (slotOf s slot) sym, ?_, codeWord_fields _ _⟩
  rw [exec_eq_body, body, checkBuilt_of_valid _ hs hv, if_neg hlen]
  rfl

/-- Settles O23: the slot is replaced by its invalidated self, and SLOTVALID reads the slots. -/
theorem hinvClearsValidOnly : Obligations.HinvClearsValidOnly := by
  intro slot s hs
  have hslot := slotOf_withSlot s slot slot (invalidate (slotOf s slot)) hs
  rw [if_pos rfl] at hslot
  refine ⟨commandDone (withSlot s slot (invalidate (slotOf s slot))), ?_, ?_,
    fun n hn => slotOf_withSlot_other s _ hn, hslot, rfl⟩
  · rw [exec_eq_body, body, checkSlot_of_le _ _ hs]
    rfl
  · have hread : (busRead (commandDone (withSlot s slot (invalidate (slotOf s slot)))) 0x044).getLsbD slot =
        (slotOf (withSlot s slot (invalidate (slotOf s slot))) slot).valid := getLsbD_slotValidWord_of_le _ hs
    rw [hread, hslot]
    rfl

end

section
/-! PROOF. The construction of a table code by code (40_huffman.md R90, R91 (b), (d)): what one code of the wire form
finds, and the first code that finds a fault. -/

namespace Sys2Proof.Machine

/-! ### The wire form as a list of codes -/

section
variable (m : Memory) (s : Nat)

@[simp] theorem length_wireLengths : (wireLengths m s).length = totalCodes m s := by
  simp [wireLengths, totalCodes, List.length_flatMap]

@[simp] theorem length_wireSymbols : (wireSymbols m s).length = totalCodes m s := by simp [wireSymbols]

variable {m s}

theorem getElem_wireSymbols {k : Nat} (h : k < (wireSymbols m s).length) : (wireSymbols m s)[k] = huffvalOf m s k := by
  simp [wireSymbols]

theorem mem_take_wireSymbols {k : Nat} (hk : k ≤ totalCodes m s) {x : Byte} :
    x ∈ (wireSymbols m s).take k ↔ ∃ j, j < k ∧ huffvalOf m s j = x := by
  simp [wireSymbols, ← List.map_take, List.take_range, Nat.min_eq_left hk]

theorem mem_wireLengths {L : Nat} (h : L ∈ wireLengths m s) : 1 ≤ L ∧ L ≤ 16 := by
  obtain ⟨l, hl, hL⟩ := List.mem_flatMap.mp h
  obtain rfl := List.eq_of_mem_replicate hL
  exact mem_codeLengths.mp hl

theorem wireLengths_sorted : (wireLengths m s).Pairwise (· ≤ ·) := by
  refine List.pairwise_flatMap.mpr ⟨fun L _ => List.pairwise_replicate.mpr (.inr (Nat.le_refl L)), ?_⟩
  refine (show codeLengths.Pairwise (· < ·) by decide).imp fun {a b} hab x hx y hy => ?_
  rw [List.eq_of_mem_replicate hx, List.eq_of_mem_replicate hy]
  exact Nat.le_of_lt hab

/-- The length of the `k`-th code. -/
theorem getD_wireLengths_mem {k : Nat} (hk : k < totalCodes m s) : (wireLengths m s).getD k 0 ∈ wireLengths m s := by
  rw [List.getD_eq_getElem _ _ (by simpa using hk)]
  exact List.getElem_mem _

end

/-! ### One code of the wire form -/

/-- The code space that codes of the lengths listed take, in units of length `L`. -/
def codeSpace (L : Nat) (lengths : List Nat) : Nat := (lengths.map (fun l => 2 ^ (L - l))).sum

@[simp] theorem codeSpace_nil (L : Nat) : codeSpace L [] = 0 := rfl

@[simp] theorem codeSpace_append (L : Nat) (l₁ l₂ : List Nat) :
    codeSpace L (l₁ ++ l₂) = codeSpace L l₁ + codeSpace L l₂ := by simp [codeSpace]

@[simp] theorem codeSpace_singleton (L l : Nat) : codeSpace L [l] = 2 ^ (L - l) := by simp [codeSpace]

/-- Code space counted in smaller units. -/
theorem codeSpace_mul {L K : Nat} (hK : L ≤ K) {lengths : List Nat} (h : ∀ l ∈ lengths, l ≤ L) :
    codeSpace L lengths * 2 ^ (K - L) = codeSpace K lengths := by
  induction lengths with
  | nil => simp
  | cons l lengths ih =>
    obtain ⟨hl, hr⟩ := List.forall_mem_cons.mp h
    rw [← List.singleton_append, codeSpace_append, codeSpace_append, Nat.add_mul, ih hr, codeSpace_singleton,
      codeSpace_singleton, ← Nat.pow_add, show L - l + (K - L) = K - l by omega]

theorem canonicalCode_eq (lengths : List Nat) (k : Nat) :
    canonicalCode lengths k = codeSpace (lengths.getD k 0) (lengths.take k) := rfl

/-- What the `k`-th code of the wire form finds: no code space left, its symbol registered by an earlier code, or
neither. -/
def codeFault (m : Memory) (s k : Nat) : Option (FaultCode × Word) :=
  if 2 ^ (wireLengths m s).getD k 0 ≤ canonicalCode (wireLengths m s) k then
    some (.huffOverflow, word ((wireLengths m s).getD k 0 * 2 ^ 24 + canonicalCode (wireLengths m s) k))
  else if huffvalOf m s k ∈ (wireSymbols m s).take k then some (.huffDup, (huffvalOf m s k).setWidth 32)
  else none

theorem codeFault_eq_none_iff {m : Memory} {s k : Nat} :
    codeFault m s k = none ↔
      canonicalCode (wireLengths m s) k < 2 ^ (wireLengths m s).getD k 0 ∧
        huffvalOf m s k ∉ (wireSymbols m s).take k := by
  unfold codeFault
  split
  · next h => exact iff_of_false nofun fun ⟨hlt, _⟩ => Nat.not_lt.mpr h hlt
  · next h =>
    split
    · next hm => exact iff_of_false nofun fun ⟨_, hn⟩ => hn hm
    · next hm => exact iff_of_true rfl ⟨Nat.lt_of_not_le h, hm⟩

/-- The table under construction once the codes of the lengths `pre` are in, the running code counting in units of
length `L`. -/
structure Built (m : Memory) (s : Nat) (pre : List Nat) (L : Nat) (b : Builder) : Prop where
  index : b.k = pre.length
  next : b.next = codeSpace L pre
  lengths : ∀ l ∈ pre, l ≤ L
  entries : ∀ j, j < pre.length →
    lenAt b.table (huffvalOf m s j) = (wireLengths m s).getD j 0 ∧
    codeAt b.table (huffvalOf m s j) = canonicalCode (wireLengths m s) j
  others : ∀ x, (∀ j, j < pre.length → huffvalOf m s j ≠ x) → lenAt b.table x = 0

theorem built_empty (m : Memory) (s L : Nat) : Built m s [] L Builder.empty :=
  ⟨rfl, rfl, nofun, nofun, fun x _ => lenAt_empty x⟩

/-- The shift after a class. -/
theorem Built.shift {m : Memory} {s L : Nat} {pre : List Nat} {b : Builder} (h : Built m s pre L b) :
    Built m s pre (L + 1) { b with next := 2 * b.next } := by
  refine ⟨h.index, ?_, fun l hl => Nat.le_succ_of_le (h.lengths l hl), h.entries, h.others⟩
  rw [← codeSpace_mul (Nat.le_succ L) h.lengths, h.next, Nat.succ_sub Nat.le.refl, Nat.sub_self, Nat.mul_comm]
  rfl

section
variable {m : Memory} {s L : Nat} {pre post : List Nat} {b : Builder}

/-- The next code, when the wire form goes on with length `L`. -/
theorem getD_wireLengths_append (hw : wireLengths m s = pre ++ L :: post) :
    (wireLengths m s).getD pre.length 0 = L := by simp [hw]

theorem canonicalCode_append (hw : wireLengths m s = pre ++ L :: post) :
    canonicalCode (wireLengths m s) pre.length = codeSpace L pre := by
  rw [canonicalCode_eq, getD_wireLengths_append hw, hw, List.take_left]

theorem length_pre_lt (hw : wireLengths m s = pre ++ L :: post) : pre.length < totalCodes m s := by
  rw [← length_wireLengths, hw]; simp

/-- A symbol is registered so far exactly when it is one of the symbols so far. -/
theorem Built.registered_iff (h : Built m s pre L b) (hw : wireLengths m s = pre ++ L :: post) (x : Byte) :
    b.len.getD x.toNat 0 ≠ 0 ↔ x ∈ (wireSymbols m s).take pre.length := by
  have hlt := length_pre_lt hw
  have hlen : b.len.getD x.toNat 0 ≠ 0 ↔ lenAt b.table x ≠ 0 := by
    exact not_congr (BitVec.toNat_inj (y := 0#5)).symm
  rw [hlen, mem_take_wireSymbols (by omega)]
  constructor
  · intro hx
    by_contra hno
    exact hx (h.others x fun j hj he => hno ⟨j, hj, he⟩)
  · rintro ⟨j, hj, rfl⟩
    have := mem_wireLengths (getD_wireLengths_mem (m := m) (s := s) (hj.trans hlt))
    rw [(h.entries j hj).1]
    omega

theorem Built.buildCode_error (h : Built m s pre L b) (hw : wireLengths m s = pre ++ L :: post)
    {e : FaultCode × Word} (he : codeFault m s pre.length = some e) : buildCode m s L b = .error e := by
  rw [codeFault, getD_wireLengths_append hw, canonicalCode_append hw, ← h.next] at he
  unfold buildCode
  split at he
  · next ho => cases he; rw [if_pos ho]
  · next ho =>
    split at he
    · next hd =>
      have hreg := (h.registered_iff hw _).mpr hd
      rw [← h.index] at hreg he
      cases he
      rw [if_neg ho, if_pos hreg, word, BitVec.ofNat_toNat]
    · cases he

theorem Built.buildCode_ok (h : Built m s pre L b) (hw : wireLengths m s = pre ++ L :: post)
    (hn : codeFault m s pre.length = none) :
    ∃ b', buildCode m s L b = .ok b' ∧ Built m s (pre ++ [L]) L b' := by
  obtain ⟨hlt, hnew⟩ := codeFault_eq_none_iff.mp hn
  have hfree := mt (h.registered_iff hw _).mp hnew
  rw [getD_wireLengths_append hw, canonicalCode_append hw, ← h.next] at hlt
  have hL : L ≤ 16 := (mem_wireLengths (m := m) (s := s) (hw ▸ List.mem_append_cons_self)).2
  obtain ⟨b', hb⟩ : ∃ b', buildCode m s L b = .ok b' := by
    rw [← h.index] at hfree
    exact ⟨_, by rw [buildCode, if_neg (Nat.not_le.mpr hlt), if_neg hfree]⟩
  have hent := buildCode_entries hL hb
  obtain ⟨-, -, hnext, hk, -, -⟩ := Machine.buildCode_ok hb
  rw [h.index] at hent
  have hold : ∀ j, j < pre.length → huffvalOf m s j ≠ huffvalOf m s pre.length := fun j hj he =>
    hnew ((mem_take_wireSymbols (length_pre_lt hw).le).mpr ⟨j, hj, he⟩)
  refine ⟨b', hb, by simp [hk, h.index], by simp [hnext, h.next], ?_, fun j hj => ?_, fun x hx => ?_⟩
  · intro l hl
    rcases List.mem_append.mp hl with hl | hl
    · exact h.lengths l hl
    · exact (List.mem_singleton.mp hl).le
  · obtain ⟨hl, hc⟩ := hent (huffvalOf m s j)
    rw [List.length_append, List.length_singleton] at hj
    by_cases hjk : j = pre.length
    · subst hjk
      rw [hl, hc, if_pos rfl, if_pos rfl, getD_wireLengths_append hw, canonicalCode_append hw, h.next]
      exact ⟨rfl, rfl⟩
    · have hj' : j < pre.length := by omega
      rw [hl, hc, if_neg (hold j hj'), if_neg (hold j hj')]
      exact h.entries j hj'
  · have hne : x ≠ huffvalOf m s pre.length := fun he => hx pre.length (by simp) he.symm
    rw [(hent x).1, if_neg hne]
    exact h.others x fun j hj => hx j (by rw [List.length_append]; omega)

end

/-! ### All codes -/

/-- How a run `r` over the codes `a` to `z - 1` ends: all find no fault, and the builder satisfies `P`; or the first to
find one ends the run with it. -/
inductive BuildOutcome (m : Memory) (s a z : Nat) (P : Builder → Prop) : Build → Prop
  | ok (b : Builder) : P b → (∀ j, a ≤ j → j < z → codeFault m s j = none) → BuildOutcome m s a z P (.ok b)
  | error (j : Nat) (e : FaultCode × Word) : a ≤ j → j < z → codeFault m s j = some e →
      (∀ i, a ≤ i → i < j → codeFault m s i = none) → BuildOutcome m s a z P (.error e)

/-- Codes before `y` that find no fault change nothing of how the run ends. -/
theorem BuildOutcome.after {m : Memory} {s a y z : Nat} {P : Builder → Prop} {r : Build} (h : BuildOutcome m s y z P r)
    (hay : a ≤ y) (hn : ∀ j, a ≤ j → j < y → codeFault m s j = none) : BuildOutcome m s a z P r := by
  have hext : ∀ {k}, (∀ j, y ≤ j → j < k → codeFault m s j = none) → ∀ j, a ≤ j → j < k → codeFault m s j = none :=
    fun hk j h1 h2 => (Nat.lt_or_ge j y).elim (hn j h1) fun hy => hk j hy h2
  cases h with
  | ok b hP hnone => exact .ok b hP (hext hnone)
  | error j e h1 h2 he hfirst => exact .error j e (hay.trans h1) h2 he (hext hfirst)

/-- A class of `count` codes. -/
theorem Built.buildClass {m : Memory} {s L : Nat} : ∀ {count : Nat} {pre post : List Nat} {b : Builder},
    Built m s pre L b → wireLengths m s = pre ++ (List.replicate count L ++ post) →
    BuildOutcome m s pre.length (pre.length + count) (Built m s (pre ++ List.replicate count L) L)
      (buildClass m s L count b)
  | 0, pre, _, b, h, _ => .ok b (by simpa using h) fun j h1 h2 => by omega
  | count + 1, pre, post, b, h, hw => by
    have hw' : wireLengths m s = pre ++ L :: (List.replicate count L ++ post) := hw
    unfold Machine.buildClass
    cases hf : codeFault m s pre.length with
    | some e =>
      rw [h.buildCode_error hw' hf]
      exact .error pre.length e (Nat.le_refl _) (by omega) hf fun i h1 h2 => by omega
    | none =>
      obtain ⟨b', hb, h'⟩ := h.buildCode_ok hw' hf
      have ih := h'.buildClass (count := count) (post := post) (by rw [hw']; simp)
      rw [List.length_append, List.length_singleton, List.append_assoc, List.singleton_append, ← List.replicate_succ,
        Nat.add_assoc, Nat.add_comm 1 count] at ih
      rw [hb]
      refine ih.after (Nat.le_succ _) fun j h1 h2 => ?_
      rw [Nat.le_antisymm (Nat.le_of_lt_succ h2) h1, hf]

/-- The classes of lengths `L` to `L + n - 1`, the last ones of the wire form. -/
theorem Built.buildClasses {m : Memory} {s : Nat} : ∀ {n L : Nat} {pre : List Nat} {b : Builder},
    Built m s pre L b →
    wireLengths m s = pre ++ (List.range' L n).flatMap (fun l => List.replicate (bitsOf m s l) l) →
    BuildOutcome m s pre.length (totalCodes m s) (Built m s (wireLengths m s) (L + n))
      (buildClasses m s (List.range' L n) b)
  | 0, L, pre, b, h, hw => by
    have hw' : wireLengths m s = pre := by simpa using hw
    rw [← length_wireLengths, hw']
    exact .ok b h fun j h1 h2 => by omega
  | n + 1, L, pre, b, h, hw => by
    rw [List.range'_succ, List.flatMap_cons] at hw
    have hlen : pre.length + bitsOf m s L ≤ totalCodes m s := by
      rw [← length_wireLengths, hw]; simp
    rw [List.range'_succ]
    unfold Machine.buildClasses
    have hclass := h.buildClass hw
    generalize Machine.buildClass m s L (bitsOf m s L) b = r at hclass
    cases hclass with
    | error j e h1 h2 he hfirst => exact .error j e h1 (by omega) he hfirst
    | ok c hc hnone =>
      have ih := hc.shift.buildClasses (n := n) (by rw [hw, List.append_assoc])
      rw [List.length_append, List.length_replicate, Nat.add_right_comm] at ih
      exact ih.after (Nat.le_add_right _ _) hnone

/-- What building a table does: every code finds its space and a new symbol, and the table holds them; or the first that
does not raises its fault. -/
theorem buildTable_outcome {m : Memory} {s : Nat} (h : totalCodes m s ≤ 256) :
    (∃ t, buildTable m s = .ok t ∧ t.valid = true ∧ t.lenset = lensetOf m s ∧
      (∀ j, j < totalCodes m s → codeFault m s j = none ∧
        lenAt t (huffvalOf m s j) = (wireLengths m s).getD j 0 ∧
        codeAt t (huffvalOf m s j) = canonicalCode (wireLengths m s) j) ∧
      ∀ x, x ∉ wireSymbols m s → lenAt t x = 0) ∨
    ∃ j e, j < totalCodes m s ∧ codeFault m s j = some e ∧ (∀ i, i < j → codeFault m s i = none) ∧
      buildTable m s = .error e := by
  have hout := (built_empty m s 1).buildClasses (n := 16) rfl
  unfold buildTable
  rw [if_neg (Nat.not_lt.mpr h), show codeLengths = List.range' 1 16 from rfl]
  generalize Machine.buildClasses m s (List.range' 1 16) Builder.empty = r at hout
  cases hout with
  | ok b hbuilt hnone =>
    refine .inl ⟨_, rfl, rfl, rfl, fun j hj => ⟨hnone j (Nat.zero_le _) hj, ?_⟩, fun x hx => ?_⟩
    · exact hbuilt.entries j (by simpa using hj)
    · refine hbuilt.others x fun j hj he => hx ?_
      rw [length_wireLengths] at hj
      exact List.mem_map.mpr ⟨j, List.mem_range.mpr hj, he⟩
  | error j e _ hj he hfirst => exact .inr ⟨j, e, hj, he, fun i => hfirst i (Nat.zero_le _), rfl⟩

end Sys2Proof.Machine
end

section
/-! PROOF. The Kraft sum (40_huffman.md R91 (d)) against the running code, and HBUILD, whole. -/

namespace Sys2Proof.Machine

section
variable {m : Memory} {s : Nat}

/-! ### Code space in units of length 16 -/

theorem kraft_eq_codeSpace (m : Memory) (s : Nat) : kraft m s = codeSpace 16 (wireLengths m s) := rfl

theorem getD_wireLengths_bounds {k : Nat} (hk : k < totalCodes m s) :
    1 ≤ (wireLengths m s).getD k 0 ∧ (wireLengths m s).getD k 0 ≤ 16 := mem_wireLengths (getD_wireLengths_mem hk)

theorem take_succ_wireLengths {k : Nat} (hk : k < totalCodes m s) :
    (wireLengths m s).take (k + 1) = (wireLengths m s).take k ++ [(wireLengths m s).getD k 0] := by
  have hk' : k < (wireLengths m s).length := by simpa using hk
  rw [List.take_succ_eq_append_getElem hk', List.getD_eq_getElem _ _ hk']

theorem drop_wireLengths {k : Nat} (hk : k < totalCodes m s) :
    (wireLengths m s).drop k = (wireLengths m s).getD k 0 :: (wireLengths m s).drop (k + 1) := by
  have hk' : k < (wireLengths m s).length := by simpa using hk
  rw [List.drop_eq_getElem_cons hk', List.getD_eq_getElem _ _ hk']

/-- Lengths ascend: those before the `k`-th are at most it, those after at least. -/
theorem wireLengths_around {k : Nat} (hk : k < totalCodes m s) :
    (∀ l ∈ (wireLengths m s).take k, l ≤ (wireLengths m s).getD k 0) ∧
    ∀ l ∈ (wireLengths m s).drop k, (wireLengths m s).getD k 0 ≤ l := by
  have hsorted := wireLengths_sorted (m := m) (s := s)
  rw [← List.take_append_drop k (wireLengths m s), List.pairwise_append, drop_wireLengths hk,
    List.pairwise_cons] at hsorted
  obtain ⟨-, ⟨hafter, -⟩, hbefore⟩ := hsorted
  refine ⟨fun l hl => hbefore l hl _ List.mem_cons_self, fun l hl => ?_⟩
  rw [drop_wireLengths hk] at hl
  rcases List.mem_cons.mp hl with rfl | hl
  · exact Nat.le_refl _
  · exact hafter l hl

theorem codeSpace_le_of_sublist (L : Nat) {l₁ l₂ : List Nat} (h : l₁.Sublist l₂) : codeSpace L l₁ ≤ codeSpace L l₂ :=
  (h.map _).sum_le_sum fun _ _ => Nat.zero_le _

/-- The code after the `k`-th, in units of length 16. -/
theorem succ_canonicalCode_mul {k : Nat} (hk : k < totalCodes m s) :
    (canonicalCode (wireLengths m s) k + 1) * 2 ^ (16 - (wireLengths m s).getD k 0) =
      codeSpace 16 ((wireLengths m s).take (k + 1)) := by
  rw [take_succ_wireLengths hk, codeSpace_append, codeSpace_singleton, canonicalCode_eq, Nat.succ_mul,
    codeSpace_mul (getD_wireLengths_bounds hk).2 (wireLengths_around hk).1]

/-- All code space, in units of length 16. -/
theorem two_pow_mul_sub {L : Nat} (h : L ≤ 16) : 2 ^ L * 2 ^ (16 - L) = 65536 := by
  rw [← Nat.pow_add, Nat.add_sub_cancel' h]

/-- What lies within the space of length `L`, in units of length 16. -/
theorem le_two_pow_iff {L : Nat} (h : L ≤ 16) (n : Nat) : n ≤ 2 ^ L ↔ n * 2 ^ (16 - L) ≤ 65536 := by
  rw [← two_pow_mul_sub h, Nat.mul_le_mul_right_iff (Nat.two_pow_pos _)]

/-- A code has space exactly when the codes up to it take at most all of it. -/
theorem canonicalCode_lt_iff {k : Nat} (hk : k < totalCodes m s) :
    canonicalCode (wireLengths m s) k < 2 ^ (wireLengths m s).getD k 0 ↔
      codeSpace 16 ((wireLengths m s).take (k + 1)) ≤ 65536 := by
  rw [← succ_canonicalCode_mul hk, ← le_two_pow_iff (getD_wireLengths_bounds hk).2, Nat.succ_le_iff]

/-- Codes that all have space take at most all of it. -/
theorem codeSpace_take_le_of_fits {k : Nat} (hk : k ≤ totalCodes m s)
    (h : ∀ j, j < k → canonicalCode (wireLengths m s) j < 2 ^ (wireLengths m s).getD j 0) :
    codeSpace 16 ((wireLengths m s).take k) ≤ 65536 := by
  cases k with
  | zero => simp
  | succ k => exact (canonicalCode_lt_iff hk).mp (h k (Nat.lt_succ_self k))

/-- With a Kraft sum of at most 1 every code has space. -/
theorem canonicalCode_lt_of_kraft (h : kraft m s ≤ 65536) {k : Nat} (hk : k < totalCodes m s) :
    canonicalCode (wireLengths m s) k < 2 ^ (wireLengths m s).getD k 0 :=
  (canonicalCode_lt_iff hk).mpr ((codeSpace_le_of_sublist 16 (List.take_sublist _ _)).trans h)

/-- The codes of lengths up to `L`, in units of length `L`. -/
theorem codesNeeded_eq_codeSpace (m : Memory) (s L : Nat) :
    codesNeeded m s L = codeSpace L ((wireLengths m s).filter (· ≤ L)) := by
  unfold codesNeeded wireLengths
  induction codeLengths with
  | nil => rfl
  | cons l rest ih =>
    rw [List.map_cons, List.sum_cons, List.flatMap_cons, List.filter_append, codeSpace_append, ih]
    congr 1
    split
    · next hl => simp [codeSpace, hl]
    · next hl => simp [codeSpace, hl]

theorem codesNeeded_le_iff {L : Nat} (hL : L ≤ 16) :
    codesNeeded m s L ≤ 2 ^ L ↔ codeSpace 16 ((wireLengths m s).filter (· ≤ L)) ≤ 65536 := by
  rw [le_two_pow_iff hL, codesNeeded_eq_codeSpace,
    codeSpace_mul hL fun l hl => of_decide_eq_true (List.mem_filter.mp hl).2]

/-- The first code without space: the codes before it take all of it, so that it is 2^L for its length `L`, and `L` is
the first length whose codes need more than there is. -/
theorem first_without_space {k : Nat} (hk : k < totalCodes m s)
    (hno : 2 ^ (wireLengths m s).getD k 0 ≤ canonicalCode (wireLengths m s) k)
    (hfirst : ∀ j, j < k → canonicalCode (wireLengths m s) j < 2 ^ (wireLengths m s).getD j 0) :
    canonicalCode (wireLengths m s) k = 2 ^ (wireLengths m s).getD k 0 ∧
    2 ^ (wireLengths m s).getD k 0 < codesNeeded m s ((wireLengths m s).getD k 0) ∧
    ∀ l, l < (wireLengths m s).getD k 0 → codesNeeded m s l ≤ 2 ^ l := by
  obtain ⟨-, h16⟩ := getD_wireLengths_bounds hk
  obtain ⟨hbefore, hafter⟩ := wireLengths_around hk
  have hspace := codeSpace_take_le_of_fits hk.le hfirst
  refine ⟨Nat.le_antisymm ?_ hno, ?_, fun l hl => ?_⟩
  · rw [le_two_pow_iff h16, canonicalCode_eq, codeSpace_mul h16 hbefore]
    exact hspace
  · have hall : ∀ l ∈ (wireLengths m s).take (k + 1), l ≤ (wireLengths m s).getD k 0 := by
      rw [take_succ_wireLengths hk]
      exact List.forall_mem_append.mpr ⟨hbefore, fun l hl => (List.mem_singleton.mp hl).le⟩
    have hsub : ((wireLengths m s).take (k + 1)).Sublist
        ((wireLengths m s).filter (· ≤ (wireLengths m s).getD k 0)) := by
      rw [← List.filter_eq_self.mpr fun l hl => decide_eq_true (hall l hl)]
      exact (List.take_sublist _ _).filter _
    rw [← Nat.not_le, codesNeeded_le_iff h16]
    exact fun h => Nat.not_lt.mpr hno ((canonicalCode_lt_iff hk).mpr ((codeSpace_le_of_sublist 16 hsub).trans h))
  · have hnone : ((wireLengths m s).drop k).filter (· ≤ l) = [] :=
      List.filter_eq_nil_iff.mpr fun x hx => by have := hafter x hx; simp; omega
    rw [codesNeeded_le_iff (by omega), ← List.take_append_drop k (wireLengths m s), List.filter_append, hnone,
      List.append_nil]
    exact (codeSpace_le_of_sublist 16 List.filter_sublist).trans hspace

/-! ### Symbols listed twice -/

theorem nodup_wireSymbols_iff :
    (wireSymbols m s).Nodup ↔ ∀ k, k < totalCodes m s → huffvalOf m s k ∉ (wireSymbols m s).take k := by
  rw [List.Nodup, List.pairwise_iff_getElem]
  simp only [getElem_wireSymbols, length_wireSymbols]
  constructor
  · intro h k hk hmem
    obtain ⟨j, hj, he⟩ := (mem_take_wireSymbols hk.le).mp hmem
    exact h j k (hj.trans hk) hk hj he
  · intro h j k _ hk hjk he
    exact h k hk ((mem_take_wireSymbols hk.le).mpr ⟨j, hjk, he⟩)

theorem two_le_count_of_mem_take {k : Nat} (hk : k < totalCodes m s)
    (h : huffvalOf m s k ∈ (wireSymbols m s).take k) : 2 ≤ (wireSymbols m s).count (huffvalOf m s k) := by
  have hk' : k < (wireSymbols m s).length := by simpa using hk
  rw [← List.take_append_drop k (wireSymbols m s), List.count_append, List.drop_eq_getElem_cons hk',
    getElem_wireSymbols, List.count_cons_self]
  have := List.count_pos_iff.mpr h
  omega

end

/-! ### HBUILD and HGEN, whole -/

theorem exec_hbuild_of_ok {slot : Nat} {s : State} {t : HuffSlot} (hs : slot ≤ 5) (h : buildTable s.mem slot = .ok t) :
    exec (.hbuild slot) s = .next { s with slots := s.slots.setIfInBounds slot t, done := true, doneP := true,
                                           inFlight := none } := by
  rw [exec_eq_body, body, checkSlot_of_le _ _ hs, buildSlot, h]
  rfl

/-- The next state after a table fault: the slot not valid, and the fault recorded. -/
theorem exec_hbuild_of_error {slot : Nat} {s : State} {code : FaultCode} {info : Word} (hs : slot ≤ 5)
    (hr : s.recorded = none) (h : buildTable s.mem slot = .error (code, info)) :
    exec (.hbuild slot) s =
      .next { s with slots := s.slots.setIfInBounds slot { slotOf s slot with valid := false }, inFlight := none,
                     recorded := some ⟨code, info⟩, faultP := true } := by
  rw [exec_eq_body, body, checkSlot_of_le _ _ hs, buildSlot, h, endCommand_raise, faultEntry_of_none _ _ (by exact hr)]
  rfl

theorem exec_hgen_of_deep {slot : Nat} {s : State} (hs : slot ≤ 5) (hr : s.recorded = none)
    (h : 16 < maxDepth (huffmanLeaves s.mem)) :
    exec (.hgen slot) s =
      .next { s with slots := s.slots.setIfInBounds slot { slotOf s slot with valid := false }, inFlight := none,
                     recorded := some ⟨.huffDepth, word (maxDepth (huffmanLeaves s.mem))⟩, faultP := true } := by
  rw [exec_eq_body, body, checkSlot_of_le _ _ hs, generateSlot, if_pos h, endCommand_raise,
    faultEntry_of_none _ _ (by exact hr)]
  rfl

/-- The first code to find a fault decides. -/
theorem buildTable_eq_error {m : Memory} {s k : Nat} {e : FaultCode × Word} (h : totalCodes m s ≤ 256)
    (hk : k < totalCodes m s) (hfirst : ∀ j, j < k → codeFault m s j = none) (he : codeFault m s k = some e) :
    buildTable m s = .error e := by
  rcases buildTable_outcome h with ⟨t, -, -, -, hcodes, -⟩ | ⟨j, e', hj, he', hbefore, hb⟩
  · rw [(hcodes k hk).1] at he; cases he
  · obtain hlt | rfl | hgt := Nat.lt_trichotomy j k
    · rw [hfirst j hlt] at he'; cases he'
    · rw [he] at he'; cases he'; exact hb
    · rw [hbefore k hgt] at he; cases he

/-- With at most 256 codes, no symbol twice and a Kraft sum of at most 1, no code finds a fault. -/
theorem buildTable_ok_of_kraft {m : Memory} {s : Nat} (h256 : totalCodes m s ≤ 256) (hnd : (wireSymbols m s).Nodup)
    (hkraft : kraft m s ≤ 65536) :
    ∃ t, buildTable m s = .ok t ∧ t.valid = true ∧ t.lenset = lensetOf m s ∧
      (∀ j, j < totalCodes m s → lenAt t (huffvalOf m s j) = (wireLengths m s).getD j 0 ∧
        codeAt t (huffvalOf m s j) = canonicalCode (wireLengths m s) j) ∧
      ∀ x, x ∉ wireSymbols m s → lenAt t x = 0 := by
  rcases buildTable_outcome h256 with ⟨t, ht, hv, hset, hcodes, hothers⟩ | ⟨j, e, hj, he, -, -⟩
  · exact ⟨t, ht, hv, hset, fun j hj => (hcodes j hj).2, hothers⟩
  · rw [codeFault_eq_none_iff.mpr ⟨canonicalCode_lt_of_kraft hkraft hj, nodup_wireSymbols_iff.mp hnd j hj⟩] at he
    cases he

end Sys2Proof.Machine

open Sys2Proof Sys2Proof.Machine

/-- Settles O13: no code finds a fault, since each has space and a symbol of its own. -/
theorem hbuildInstallsCanonicalCodes : Obligations.HbuildInstallsCanonicalCodes := by
  intro slot s hs h256 hnd hkraft
  obtain ⟨t, ht, hv, hset, hcodes, hothers⟩ := buildTable_ok_of_kraft h256 hnd hkraft
  refine ⟨t, exec_hbuild_of_ok hs ht, hv, hcodes, hothers, fun L h1 h16 => ?_⟩
  rw [hasLength, hset, getLsbD_lensetOf _ _ h1 h16]

/-- Settles O15: the first code to find a fault decides; without duplicates it is the first without space, with a Kraft
sum of at most 1 the first with a symbol listed before. -/
theorem tableFaultsInvalidateTheSlot : Obligations.TableFaultsInvalidateTheSlot := by
  intro slot s hs hr
  refine ⟨fun h => ?_, fun h256 hnd hkraft => ?_, fun h256 hdup hkraft => ?_, fun k h256 hk hfirst => ?_,
    exec_hgen_of_deep hs hr⟩
  · exact exec_hbuild_of_error hs hr (by rw [buildTable, if_pos h])
  · have hnew := nodup_wireSymbols_iff.mp hnd
    rcases buildTable_outcome h256 with ⟨t, -, -, -, hcodes, -⟩ | ⟨j, e, hj, he, hfirst, hb⟩
    · have hfits := codeSpace_take_le_of_fits (Nat.le_refl _) fun j hj => (codeFault_eq_none_iff.mp (hcodes j hj).1).1
      rw [← length_wireLengths, List.take_length] at hfits
      exact absurd hfits (Nat.not_le.mpr hkraft)
    · have hno : 2 ^ (wireLengths s.mem slot).getD j 0 ≤ canonicalCode (wireLengths s.mem slot) j := by
        by_contra hlt
        rw [codeFault_eq_none_iff.mpr ⟨Nat.lt_of_not_le hlt, hnew j hj⟩] at he
        cases he
      obtain ⟨hcode, hneed, hbelow⟩ := first_without_space hj hno fun i hi =>
        (codeFault_eq_none_iff.mp (hfirst i hi)).1
      obtain ⟨h1, h16⟩ := getD_wireLengths_bounds hj
      rw [codeFault, if_pos hno, hcode] at he
      cases he
      exact ⟨_, h1, h16, hneed, fun l _ hl => hbelow l hl, exec_hbuild_of_error hs hr hb⟩
  · rcases buildTable_outcome h256 with ⟨t, -, -, -, hcodes, -⟩ | ⟨j, e, hj, he, -, hb⟩
    · exact absurd (nodup_wireSymbols_iff.mpr fun k hk => (codeFault_eq_none_iff.mp (hcodes k hk).1).2) hdup
    · have hlt := Nat.not_le.mpr (canonicalCode_lt_of_kraft hkraft hj)
      rw [codeFault, if_neg hlt] at he
      split at he
      · next hmem =>
        cases he
        exact ⟨_, two_le_count_of_mem_take hj hmem, exec_hbuild_of_error hs hr hb⟩
      · cases he
  · have hnone : ∀ j, j < k → codeFault s.mem slot j = none := fun j hj => codeFault_eq_none_iff.mpr (hfirst j hj)
    refine ⟨fun ho => ?_, fun hlt hmem => ?_⟩
    · exact exec_hbuild_of_error hs hr (buildTable_eq_error h256 hk hnone (by rw [codeFault, if_pos ho]))
    · exact exec_hbuild_of_error hs hr
        (buildTable_eq_error h256 hk hnone (by rw [codeFault, if_neg (Nat.not_le.mpr hlt), if_pos hmem]))

end

section
/-! PROOF. The merge of the two least nodes (40_huffman.md R92): the forest held in rising order against the relation
that names no order, what merging keeps, and the breadth-first listing. -/

namespace Sys2Proof.Machine

/-! ### The order of nodes -/

theorem nodeBefore_iff {a b : HuffNode} :
    nodeBefore a b = true ↔ a.weight < b.weight ∨ a.weight = b.weight ∧ a.serial < b.serial := by
  simp [nodeBefore]

theorem nodeBefore_trans {a b c : HuffNode} (h : nodeBefore a b = true) (h' : nodeBefore b c = true) :
    nodeBefore a c = true := by
  rw [nodeBefore_iff] at *
  omega

/-- Nodes with different serial numbers are in order one way or the other. -/
theorem nodeBefore_of_not {a b : HuffNode} (hs : a.serial ≠ b.serial) (h : ¬ nodeBefore a b = true) :
    nodeBefore b a = true := by
  rw [nodeBefore_iff] at *
  omega

/-- The forest is in rising order. -/
abbrev Rising (H : List HuffNode) : Prop := H.Pairwise fun x y => nodeBefore x y = true

theorem insertNode_perm (a : HuffNode) (H : List HuffNode) : (insertNode a H).Perm (a :: H) := by
  induction H with
  | nil => exact .refl _
  | cons b H ih =>
    unfold insertNode
    split
    · exact .refl _
    · exact (ih.cons b).trans (.swap a b H)

theorem rising_insertNode {a : HuffNode} {H : List HuffNode} (h : Rising H) (hs : ∀ x ∈ H, a.serial ≠ x.serial) :
    Rising (insertNode a H) := by
  induction H with
  | nil => exact List.pairwise_singleton _ _
  | cons b H ih =>
    obtain ⟨hb, hH⟩ := List.pairwise_cons.mp h
    unfold insertNode
    split
    · next hab =>
      refine List.pairwise_cons.mpr ⟨fun x hx => ?_, h⟩
      rcases List.mem_cons.mp hx with rfl | hx
      · exact hab
      · exact nodeBefore_trans hab (hb x hx)
    · next hab =>
      refine List.pairwise_cons.mpr ⟨fun x hx => ?_, ih hH fun x hx => hs x (List.mem_cons_of_mem _ hx)⟩
      rcases List.mem_cons.mp ((insertNode_perm a H).mem_iff.mp hx) with rfl | hx
      · exact nodeBefore_of_not (hs b List.mem_cons_self) hab
      · exact hb x hx

/-- The first node of a forest in rising order is the least. -/
theorem leastNode_of_rising {a : HuffNode} {H K : List HuffNode} (h : Rising (a :: H)) (hK : K.Perm (a :: H)) :
    LeastNode a K := by
  refine ⟨hK.mem_iff.mpr List.mem_cons_self, fun x hx hne => ?_⟩
  exact (List.pairwise_cons.mp h).1 x ((List.mem_cons.mp (hK.mem_iff.mp hx)).resolve_left hne)

theorem erase_perm_of_perm_cons {a : HuffNode} {H K : List HuffNode} (h : K.Perm (a :: H)) : (K.erase a).Perm H := by
  have := h.erase a
  rwa [List.erase_cons_head] at this

/-- The merge of a forest held in rising order is R92's merge of its nodes, in whatever order. -/
theorem merges_mergeForest : ∀ (fuel next : Nat) (H K : List HuffNode), Rising H → (∀ x ∈ H, x.serial < next) →
    H ≠ [] → H.length ≤ fuel + 1 → K.Perm H → Merges next K (mergeForest fuel next H)
  | _, _, [], _, _, _, h, _, _ => absurd rfl h
  | fuel, next, [a], K, _, _, _, _, hK => by
    rw [List.perm_singleton.mp hK]
    cases fuel <;> exact .single next a
  | 0, _, _ :: _ :: _, _, _, _, _, h, _ => by simp at h
  | fuel + 1, next, a :: b :: rest, K, hr, hs, _, hlen, hK => by
    obtain ⟨-, hr'⟩ := List.pairwise_cons.mp hr
    obtain ⟨-, hrest⟩ := List.pairwise_cons.mp hr'
    have hKa := erase_perm_of_perm_cons hK
    have hKb := erase_perm_of_perm_cons hKa
    refine .merge next K a b _ (leastNode_of_rising hr hK) (leastNode_of_rising hr' hKa) ?_
    have hnew : ∀ x ∈ rest, next ≠ x.serial := fun x hx => (hs x (by simp [hx])).ne'
    refine merges_mergeForest fuel (next + 1) _ _ (rising_insertNode hrest hnew) (fun x hx => ?_) (fun h => ?_) ?_
      ((hKb.cons _).trans (insertNode_perm _ _).symm)
    · rcases List.mem_cons.mp ((insertNode_perm _ _).mem_iff.mp hx) with rfl | hx
      · exact Nat.lt_succ_self next
      · exact Nat.lt_succ_of_lt (hs x (by simp [hx]))
    · have := (insertNode_perm _ _).symm.trans (.of_eq h)
      simp at this
    · rw [(insertNode_perm _ _).length_eq]
      simpa using hlen

/-! ### The first forest -/

/-- The symbols counted. -/
def countedSymbols (m : Memory) : List Nat := (List.range 256).filter fun sym => decide (0 < freqOf m sym)

theorem mem_countedSymbols {m : Memory} {x : Nat} : x ∈ countedSymbols m ↔ x < 256 ∧ 0 < freqOf m x := by
  simp [countedSymbols]

theorem nodup_countedSymbols (m : Memory) : (countedSymbols m).Nodup := List.nodup_range.filter _

/-- The leaf of a symbol counted. -/
def symbolNode (m : Memory) (sym : Nat) : HuffNode :=
  { weight := freqOf m sym, serial := sym, tree := .leaf (some sym) }

/-- The leaf of the pseudo-symbol P. -/
def pseudoNode : HuffNode := { weight := 0, serial := 256, tree := .leaf none }

theorem startNodes_eq (m : Memory) : startNodes m = pseudoNode :: (countedSymbols m).map (symbolNode m) := rfl

theorem initialForest_eq (m : Memory) :
    initialForest m = (countedSymbols m).foldr (fun sym H => insertNode (symbolNode m sym) H) [pseudoNode] := rfl

theorem foldr_insertNode_perm (m : Memory) (l : List Nat) :
    (l.foldr (fun sym H => insertNode (symbolNode m sym) H) [pseudoNode]).Perm
      (pseudoNode :: l.map (symbolNode m)) := by
  induction l with
  | nil => exact .refl _
  | cons x l ih => exact (insertNode_perm _ _).trans ((ih.cons _).trans (.swap _ _ _))

theorem initialForest_perm (m : Memory) : (initialForest m).Perm (startNodes m) := by
  rw [initialForest_eq, startNodes_eq]
  exact foldr_insertNode_perm m _

/-- The serial numbers at the start: 256 for P, the symbol for a symbol. -/
theorem serial_startNodes {m : Memory} {l : List Nat} {x : HuffNode} (hx : x ∈ pseudoNode :: l.map (symbolNode m)) :
    x.serial = 256 ∨ x.serial ∈ l := by
  rcases List.mem_cons.mp hx with rfl | hx
  · exact .inl rfl
  · obtain ⟨sym, hsym, rfl⟩ := List.mem_map.mp hx
    exact .inr hsym

theorem rising_foldr_insertNode (m : Memory) : ∀ l : List Nat, l.Nodup → (∀ x ∈ l, x < 256) →
    Rising (l.foldr (fun sym H => insertNode (symbolNode m sym) H) [pseudoNode])
  | [], _, _ => List.pairwise_singleton _ _
  | sym :: l, hnd, hlt => by
    obtain ⟨hsym, hl⟩ := List.forall_mem_cons.mp hlt
    obtain ⟨hnot, hnd'⟩ := List.nodup_cons.mp hnd
    refine rising_insertNode (rising_foldr_insertNode m l hnd' hl) fun x hx he => ?_
    have he : sym = x.serial := he
    rcases serial_startNodes ((foldr_insertNode_perm m l).mem_iff.mp hx) with h | h
    · omega
    · exact hnot (he ▸ h)

theorem rising_initialForest (m : Memory) : Rising (initialForest m) :=
  rising_foldr_insertNode m _ (nodup_countedSymbols m) fun _ hx => (mem_countedSymbols.mp hx).1

/-- HGEN's tree. -/
def huffmanTree (m : Memory) : HuffTree := mergeForest (initialForest m).length 257 (initialForest m)

theorem merges_huffmanTree (m : Memory) : Merges 257 (startNodes m) (huffmanTree m) := by
  refine merges_mergeForest _ _ _ _ (rising_initialForest m) (fun x hx => ?_) (fun h => ?_) (Nat.le_succ _)
    (initialForest_perm m).symm
  · rcases serial_startNodes ((initialForest_perm m).mem_iff.mp hx) with h | h
    · omega
    · have := (mem_countedSymbols.mp h).1
      omega
  · have := (initialForest_perm m).symm.trans (.of_eq h)
    simp [startNodes_eq] at this

/-! ### The breadth-first listing -/

/-- The real symbol at a tree's root, if it is a leaf. -/
def rootSymbol : HuffTree → List Nat
  | .leaf sym => sym.toList
  | .node _ _ => []

/-- A tree's children. -/
def children : HuffTree → List HuffTree
  | .leaf _ => []
  | .node a b => [a, b]

theorem leavesAt_zero (T : HuffTree) : leavesAt 0 T = rootSymbol T := by cases T <;> rfl

theorem leavesAt_succ (d : Nat) (T : HuffTree) : leavesAt (d + 1) T = (children T).flatMap (leavesAt d) := by
  cases T <;> simp [leavesAt, children]

theorem treeSize_eq (T : HuffTree) : treeSize T = 1 + ((children T).map treeSize).sum := by
  cases T <;> simp [treeSize, children, Nat.add_comm]

/-- One level of the queue: its real symbols are listed, and its children go to the end of the queue. -/
theorem collectLeaves_level (d fuel : Nat) : ∀ (F : List HuffTree) (q : List (HuffTree × Nat)),
    collectLeaves (F.length + fuel) (F.map (·, d) ++ q) =
      (F.flatMap rootSymbol).map (·, d) ++ collectLeaves fuel (q ++ (F.flatMap children).map (·, d + 1))
  | [], q => by simp
  | T :: F, q => by
    rw [List.length_cons, Nat.add_right_comm]
    cases T with
    | leaf sym =>
      cases sym <;> simp [collectLeaves, rootSymbol, children, collectLeaves_level d fuel F q]
    | node a b =>
      simp [collectLeaves, rootSymbol, children, collectLeaves_level d fuel F (q ++ [(a, d + 1), (b, d + 1)])]

/-- The sizes of a level's trees: the level itself, and the trees below it. -/
theorem sum_treeSize (F : List HuffTree) :
    (F.map treeSize).sum = F.length + ((F.flatMap children).map treeSize).sum := by
  induction F with
  | nil => rfl
  | cons T F ih =>
    simp only [List.map_cons, List.sum_cons, List.length_cons, List.flatMap_cons, List.map_append, List.sum_append, ih,
      treeSize_eq T]
    omega

theorem flatMap_leavesAt_succ (d : Nat) (F : List HuffTree) :
    F.flatMap (leavesAt (d + 1)) = (F.flatMap children).flatMap (leavesAt d) := by
  rw [List.flatMap_assoc]
  exact List.flatMap_congr fun T _ => leavesAt_succ d T

/-- The queue listing goes level by level. -/
theorem collectLeaves_levels : ∀ (n d : Nat) (F : List HuffTree), (F.map treeSize).sum ≤ n →
    collectLeaves (F.map treeSize).sum (F.map (·, d)) =
      (List.range n).flatMap fun e => (F.flatMap (leavesAt e)).map (·, d + e)
  | 0, d, F, hn => by
    have hF : F = [] := by
      rw [sum_treeSize] at hn
      exact List.length_eq_zero_iff.mp (by omega)
    subst hF
    rfl
  | n + 1, d, F, hn => by
    by_cases hF : F = []
    · subst hF
      simp [collectLeaves]
    · have hpos := List.length_pos_iff.mpr hF
      have hsum := sum_treeSize F
      have hlevel := collectLeaves_level d ((F.flatMap children).map treeSize).sum F []
      rw [List.append_nil, List.nil_append,
        collectLeaves_levels n (d + 1) (F.flatMap children) (by omega)] at hlevel
      rw [hsum, hlevel, List.range_succ_eq_map, List.flatMap_cons, List.flatMap_map]
      simp only [Nat.add_zero, flatMap_leavesAt_succ, Nat.succ_eq_add_one, Nat.add_assoc,
        Nat.add_comm 1, funext leavesAt_zero]

theorem huffmanLeaves_eq_breadthFirst (m : Memory) : huffmanLeaves m = breadthFirst (huffmanTree m) := by
  have h := collectLeaves_levels (treeSize (huffmanTree m)) 0 [huffmanTree m] (by simp)
  simp only [List.map_cons, List.map_nil, List.sum_cons, List.sum_nil, Nat.add_zero, Nat.zero_add, List.flatMap_cons,
    List.flatMap_nil, List.append_nil] at h
  exact h

end Sys2Proof.Machine
end

section
/-! PROOF. HGEN's leaves (40_huffman.md R92, R101): their symbols, their depths, and the code space they leave to P. -/

namespace Sys2Proof.Machine

/-! ### What merging keeps -/

theorem leastNode_perm {a b : HuffNode} {H : List HuffNode} (ha : LeastNode a H) (hb : LeastNode b (H.erase a)) :
    H.Perm (a :: b :: (H.erase a).erase b) :=
  (List.perm_cons_erase ha.1).trans ((List.perm_cons_erase hb.1).cons a)

/-- What all trees have and joining two trees keeps, the merged tree has. -/
theorem Merges.tree_of_forall {Q : HuffTree → Prop} (hQ : ∀ a b, Q a → Q b → Q (.node a b)) {next : Nat}
    {H : List HuffNode} {T : HuffTree} (h : Merges next H T) (hH : ∀ x ∈ H, Q x.tree) : Q T := by
  induction h with
  | single next a => exact hH a List.mem_cons_self
  | merge next H a b T ha hb _ ih =>
    have hH' : ∀ x ∈ a :: b :: (H.erase a).erase b, Q x.tree :=
      fun x hx => hH x ((leastNode_perm ha hb).mem_iff.mpr hx)
    obtain ⟨hQa, hQb, hrest⟩ : Q a.tree ∧ Q b.tree ∧ ∀ x ∈ (H.erase a).erase b, Q x.tree := by simpa using hH'
    exact ih (List.forall_mem_cons.mpr ⟨hQ _ _ hQa hQb, hrest⟩)

/-- The leaves of a tree from left to right: a symbol each, or none for P. -/
def leavesOf : HuffTree → List (Option Nat)
  | .leaf sym => [sym]
  | .node a b => leavesOf a ++ leavesOf b

/-- Merging keeps the leaves. -/
theorem Merges.leavesOf_perm {next : Nat} {H : List HuffNode} {T : HuffTree} (h : Merges next H T) :
    (leavesOf T).Perm (H.flatMap fun x => leavesOf x.tree) := by
  induction h with
  | single next a => simp
  | merge next H a b T ha hb _ ih =>
    refine ih.trans ?_
    have := ((leastNode_perm ha hb).flatMap_right fun x => leavesOf x.tree).symm
    simpa [leavesOf] using this

theorem leavesOf_huffmanTree (m : Memory) :
    (leavesOf (huffmanTree m)).Perm (none :: (countedSymbols m).map some) := by
  have h := (merges_huffmanTree m).leavesOf_perm
  rw [startNodes_eq, List.flatMap_cons, List.flatMap_map] at h
  simpa [leavesOf, symbolNode, pseudoNode, ← List.map_eq_flatMap] using h

/-! ### The depths of the real symbols -/

/-- A leaf one level down. -/
def deeper (x : Nat × Nat) : Nat × Nat := (x.1, x.2 + 1)

/-- The real symbols of a tree with their depths, from left to right. -/
def realDepths : HuffTree → List (Nat × Nat)
  | .leaf sym => sym.toList.map (·, 0)
  | .node a b => (realDepths a ++ realDepths b).map deeper

theorem breadthFirst_perm_of_le (T : HuffTree) : ∀ {n : Nat}, treeSize T ≤ n →
    ((List.range n).flatMap fun d => (leavesAt d T).map (·, d)).Perm (realDepths T) := by
  induction T with
  | leaf sym =>
    rintro (_ | n) hn
    · simp [treeSize] at hn
    · rw [List.range_succ_eq_map, List.flatMap_cons, List.flatMap_map]
      have hbelow : ((List.range n).flatMap fun d => (leavesAt (d + 1) (.leaf sym)).map (·, d + 1)) = [] :=
        List.flatMap_eq_nil_iff.mpr fun _ _ => rfl
      rw [hbelow, List.append_nil]
      exact .refl _
  | node a b iha ihb =>
    rintro (_ | n) hn
    · simp [treeSize] at hn
    · simp only [treeSize] at hn
      rw [List.range_succ_eq_map, List.flatMap_cons, List.flatMap_map]
      simp only [leavesAt, List.map_nil, List.nil_append, List.map_append, realDepths, Nat.succ_eq_add_one]
      refine (List.flatMap_append_perm _ _ _).symm.trans ?_
      have hdeeper : ∀ T : HuffTree, ((List.range n).flatMap fun d => (leavesAt d T).map (·, d + 1)) =
          ((List.range n).flatMap fun d => (leavesAt d T).map (·, d)).map deeper := fun T => by
        simp [List.map_flatMap, deeper, Function.comp_def]
      rw [hdeeper a, hdeeper b]
      exact ((iha (by omega)).map deeper).append ((ihb (by omega)).map deeper)

theorem huffmanLeaves_perm (m : Memory) : (huffmanLeaves m).Perm (realDepths (huffmanTree m)) := by
  rw [huffmanLeaves_eq_breadthFirst]
  exact breadthFirst_perm_of_le _ (Nat.le_refl _)

theorem map_fst_realDepths (T : HuffTree) : (realDepths T).map Prod.fst = (leavesOf T).reduceOption := by
  induction T with
  | leaf sym => cases sym <;> rfl
  | node a b iha ihb =>
    simp [realDepths, leavesOf, List.reduceOption_append, ← iha, ← ihb, deeper, Function.comp_def]

/-- HGEN lists each symbol counted once. -/
theorem map_fst_huffmanLeaves (m : Memory) : ((huffmanLeaves m).map Prod.fst).Perm (countedSymbols m) := by
  have h := (huffmanLeaves_perm m).map Prod.fst
  rw [map_fst_realDepths] at h
  have h' := (leavesOf_huffmanTree m).filterMap id
  simpa using h.trans h'

/-- Breadth first, the depths ascend. -/
theorem sorted_huffmanLeaves (m : Memory) : (huffmanLeaves m).Pairwise fun x y => x.2 ≤ y.2 := by
  rw [huffmanLeaves_eq_breadthFirst, breadthFirst, List.pairwise_flatMap]
  have hlevel : ∀ {d x}, x ∈ (leavesAt d (huffmanTree m)).map (·, d) → x.2 = d := fun hx => by
    obtain ⟨sym, -, rfl⟩ := List.mem_map.mp hx; rfl
  refine ⟨fun d _ => List.pairwise_of_forall_mem_list fun x hx y hy => ?_,
    List.pairwise_lt_range.imp fun hde x hx y hy => ?_⟩
  · exact ((hlevel hx).trans (hlevel hy).symm).le
  · rw [hlevel hx, hlevel hy]; exact hde.le

/-! ### The code space of a tree -/

/-- The code space a tree's real symbols take, in units of depth `K`. -/
def treeSpace (K : Nat) (T : HuffTree) : Nat := codeSpace K ((realDepths T).map Prod.snd)

theorem codeSpace_succ (K : Nat) (l : List Nat) : codeSpace (K + 1) (l.map (· + 1)) = codeSpace K l := by
  simp [codeSpace, Function.comp_def]

theorem treeSpace_node (K : Nat) (a b : HuffTree) :
    treeSpace (K + 1) (.node a b) = treeSpace K a + treeSpace K b := by
  have h : (realDepths (.node a b)).map Prod.snd =
      ((realDepths a).map Prod.snd ++ (realDepths b).map Prod.snd).map (· + 1) := by
    simp [realDepths, deeper, Function.comp_def]
  rw [treeSpace, h, codeSpace_succ, codeSpace_append, treeSpace, treeSpace]

/-- No real symbol lies deeper than `K`. -/
def Within (K : Nat) (T : HuffTree) : Prop := ∀ x ∈ realDepths T, x.2 ≤ K

theorem within_node {K : Nat} {a b : HuffTree} : Within (K + 1) (.node a b) ↔ Within K a ∧ Within K b := by
  simp only [Within, realDepths, List.forall_mem_map, List.forall_mem_append, deeper, Nat.add_le_add_iff_right]

/-- Below a node's depth limit there is one for its children, when there is a real symbol to be deep. -/
theorem Within.pred {K : Nat} {a b : HuffTree} (h : Within K (.node a b)) (hne : realDepths (.node a b) ≠ []) :
    ∃ k, K = k + 1 ∧ Within k a ∧ Within k b := by
  cases K with
  | zero =>
    obtain ⟨x, hx⟩ := List.exists_mem_of_ne_nil _ hne
    obtain ⟨y, -, rfl⟩ := List.mem_map.mp hx
    exact absurd (h _ hx) (Nat.not_succ_le_zero _)
  | succ k => exact ⟨k, rfl, within_node.mp h⟩

/-- A tree whose real symbols take the whole code space. -/
def Full (T : HuffTree) : Prop := ∀ K, Within K T → treeSpace K T = 2 ^ K

/-- A tree whose real symbols leave just the space of one more symbol, as deep as one of them. -/
def FullButOne (T : HuffTree) : Prop := ∃ x ∈ realDepths T, ∀ K, Within K T → treeSpace K T + 2 ^ (K - x.2) = 2 ^ K

/-- P stands beside a real symbol, wherever it stands below the root. -/
def PseudoBesideReal : HuffTree → Prop
  | .leaf _ => True
  | .node a b =>
    PseudoBesideReal a ∧ PseudoBesideReal b ∧ (a = .leaf none → ∃ sym, b = .leaf (some sym)) ∧ b ≠ .leaf none

theorem Full.realDepths_ne_nil {T : HuffTree} (h : Full T) : realDepths T ≠ [] := by
  intro he
  have := h 0 (by simp [Within, he])
  simp [treeSpace, he] at this

theorem realDepths_node_ne_nil {a b : HuffTree} (h : realDepths a ≠ [] ∨ realDepths b ≠ []) :
    realDepths (.node a b) ≠ [] := by
  simp only [realDepths, ne_eq, List.map_eq_nil_iff, List.append_eq_nil_iff]
  tauto

theorem full_node {a b : HuffTree} (ha : Full a) (hb : Full b) : Full (.node a b) := by
  intro K hK
  obtain ⟨k, rfl, hka, hkb⟩ := hK.pred (realDepths_node_ne_nil (.inl ha.realDepths_ne_nil))
  rw [treeSpace_node, ha k hka, hb k hkb, Nat.pow_succ]
  omega

/-- The space left is kept on either side. -/
theorem fullButOne_node {a b : HuffTree} (ha : FullButOne a) (hb : Full b) :
    FullButOne (.node a b) ∧ FullButOne (.node b a) := by
  obtain ⟨x, hx, hspace⟩ := ha
  have hne := List.ne_nil_of_mem hx
  refine ⟨⟨deeper x, List.mem_map_of_mem (List.mem_append_left _ hx), fun K hK => ?_⟩,
    ⟨deeper x, List.mem_map_of_mem (List.mem_append_right _ hx), fun K hK => ?_⟩⟩
  · obtain ⟨k, rfl, hka, hkb⟩ := hK.pred (realDepths_node_ne_nil (.inl hne))
    have := hspace k hka
    rw [treeSpace_node, hb k hkb, deeper, Nat.add_sub_add_right, Nat.pow_succ]
    omega
  · obtain ⟨k, rfl, hkb, hka⟩ := hK.pred (realDepths_node_ne_nil (.inr hne))
    have := hspace k hka
    rw [treeSpace_node, hb k hkb, deeper, Nat.add_sub_add_right, Nat.pow_succ]
    omega

/-- P beside a symbol. -/
theorem fullButOne_pair (sym : Nat) : FullButOne (.node (.leaf none) (.leaf (some sym))) := by
  refine ⟨(sym, 1), by simp [realDepths, deeper], fun K hK => ?_⟩
  obtain ⟨k, rfl, -, -⟩ := hK.pred (by simp [realDepths])
  rw [treeSpace_node, Nat.add_sub_cancel, Nat.pow_succ]
  simp [treeSpace, realDepths]
  omega

theorem full_of_not_mem {T : HuffTree} (h : none ∉ leavesOf T) : Full T := by
  induction T with
  | leaf sym =>
    cases sym with
    | none => simp [leavesOf] at h
    | some sym => intro K _; simp [treeSpace, realDepths]
  | node a b iha ihb =>
    obtain ⟨ha, hb⟩ : none ∉ leavesOf a ∧ none ∉ leavesOf b := by simpa [leavesOf] using h
    exact full_node (iha ha) (ihb hb)

/-- Where P stands beside a symbol, the space P has is the space left. -/
theorem fullButOne_of_count {T : HuffTree} (hne : T ≠ .leaf none) (hp : PseudoBesideReal T)
    (hc : (leavesOf T).count none = 1) : FullButOne T := by
  induction T with
  | leaf sym =>
    cases sym with
    | none => exact absurd rfl hne
    | some sym => simp [leavesOf] at hc
  | node a b iha ihb =>
    obtain ⟨hpa, hpb, hpair, hbne⟩ := hp
    rw [leavesOf, List.count_append] at hc
    by_cases hane : a = .leaf none
    · obtain ⟨sym, rfl⟩ := hpair hane
      rw [hane]
      exact fullButOne_pair sym
    · by_cases hca : (leavesOf a).count none = 0
      · exact (fullButOne_node (ihb hbne hpb (by omega)) (full_of_not_mem (List.count_eq_zero.mp hca))).2
      · exact (fullButOne_node (iha hane hpa (by omega))
          (full_of_not_mem (List.count_eq_zero.mp (by omega)))).1

/-! ### HGEN's tree -/

/-- What a forest's trees are once P has been merged. -/
def PseudoMerged (T : HuffTree) : Prop := PseudoBesideReal T ∧ T ≠ .leaf none

theorem pseudoMerged_node {a b : HuffTree} (ha : PseudoMerged a) (hb : PseudoMerged b) : PseudoMerged (.node a b) :=
  ⟨⟨ha.1, hb.1, fun h => absurd h ha.2, hb.2⟩, nofun⟩

/-- P has the least weight, so that the first merge puts it beside a symbol. -/
theorem pseudoMerged_huffmanTree {m : Memory} (h : countedSymbols m ≠ []) : PseudoMerged (huffmanTree m) := by
  have hreal : ∀ x ∈ (countedSymbols m).map (symbolNode m), 0 < x.weight ∧ ∃ sym, x.tree = .leaf (some sym) := by
    intro x hx
    obtain ⟨sym, hsym, rfl⟩ := List.mem_map.mp hx
    exact ⟨(mem_countedSymbols.mp hsym).2, sym, rfl⟩
  have hmerges := merges_huffmanTree m
  generalize huffmanTree m = T at hmerges ⊢
  rw [startNodes_eq] at hmerges
  generalize hl : (countedSymbols m).map (symbolNode m) = l at hmerges hreal
  cases hmerges with
  | single => exact absurd (List.map_eq_nil_iff.mp hl) h
  | merge _ _ a b _ ha hb hrest =>
    have hap : a = pseudoNode := by
      by_contra hne
      have hbefore := nodeBefore_iff.mp (ha.2 pseudoNode List.mem_cons_self (Ne.symm hne))
      have := (hreal a ((List.mem_cons.mp ha.1).resolve_left hne)).1
      have hw : pseudoNode.weight = 0 := rfl
      omega
    subst hap
    rw [List.erase_cons_head] at hb hrest
    obtain ⟨sym, hsym⟩ := (hreal b hb.1).2
    refine hrest.tree_of_forall (fun _ _ => pseudoMerged_node) (List.forall_mem_cons.mpr ⟨?_, fun x hx => ?_⟩)
    · rw [hsym]
      exact ⟨⟨trivial, trivial, fun _ => ⟨sym, rfl⟩, nofun⟩, nofun⟩
    · obtain ⟨sym', hsym'⟩ := (hreal x (List.mem_of_mem_erase hx)).2
      rw [hsym']
      exact ⟨trivial, nofun⟩

theorem fullButOne_huffmanTree {m : Memory} (h : countedSymbols m ≠ []) : FullButOne (huffmanTree m) := by
  obtain ⟨hp, hne⟩ := pseudoMerged_huffmanTree h
  refine fullButOne_of_count hne hp ?_
  rw [(leavesOf_huffmanTree m).count_eq, List.count_cons_self,
    List.count_eq_zero.mpr (by simp)]

/-- With a symbol counted, the real symbols lie below the root. -/
theorem one_le_depth {m : Memory} {x : Nat × Nat} (hx : x ∈ huffmanLeaves m) : 1 ≤ x.2 := by
  have hsym : x.1 ∈ countedSymbols m := (map_fst_huffmanLeaves m).mem_iff.mp (List.mem_map_of_mem hx)
  have hx' := (huffmanLeaves_perm m).mem_iff.mp hx
  have hlen := (leavesOf_huffmanTree m).length_eq
  generalize huffmanTree m = T at hx' hlen
  cases T with
  | leaf sym =>
    have hnil : countedSymbols m = [] := by simpa [leavesOf] using hlen
    simp [hnil] at hsym
  | node a b =>
    obtain ⟨y, -, rfl⟩ := List.mem_map.mp hx'
    exact Nat.succ_pos _

end Sys2Proof.Machine
end

section
/-! PROOF. HGEN, whole (40_huffman.md R92): the wire form it writes, and the table that wire form builds. -/

namespace Sys2Proof.Machine

/-! ### The wire form written -/

/-- Writes at addresses of their own each show at theirs. -/
theorem memRead_foldl_write {α : Type} (addr : α → Nat) (val : α → Byte) {x : α} :
    ∀ {l : List α} {m : Memory}, x ∈ l → (∀ y ∈ l, addr y = addr x → y = x) →
      memRead (l.foldl (fun m y => memWrite m (addr y) (val y)) m) (addr x) = val x
  | y :: l, m, hx, hinj => by
    rw [List.foldl_cons]
    by_cases hl : x ∈ l
    · exact memRead_foldl_write addr val hl fun z hz => hinj z (List.mem_cons_of_mem _ hz)
    · obtain rfl := (List.mem_cons.mp hx).resolve_right hl
      have ht := touches_foldl_write (W := fun a => a ≠ addr x) addr val
        (Touches.refl _ (memWrite m (addr x) (val x))) fun z hz he =>
          hl (hinj z (List.mem_cons_of_mem _ hz) he ▸ hz)
      rw [ht.frame _ (not_not_intro rfl), memRead_memWrite_same]

theorem huffvalOf_storeHuffval (s : Nat) : ∀ (leaves : List (Nat × Nat)) (i : Nat) (m : Memory) {j : Nat}
    (hj : j < leaves.length), huffvalOf (storeHuffval s i leaves m) s (i + j) = BitVec.ofNat 8 leaves[j].1
  | x :: rest, i, m, 0, _ => by
    have ht := Touches.storeHuffval (W := fun a => a ≠ huffvalAddr s i) (s := s) (leaves := rest) (i := i + 1)
      (.refl _ (memWrite m (huffvalAddr s i) (BitVec.ofNat 8 x.1))) fun j hj _ => by unfold huffvalAddr; omega
    rw [huffvalOf, Nat.add_zero, storeHuffval, ht.frame _ (not_not_intro rfl), memRead_memWrite_same]
    rfl
  | x :: rest, i, m, j + 1, hj => by
    have ih := huffvalOf_storeHuffval s rest (i + 1) (memWrite m (huffvalAddr s i) (BitVec.ofNat 8 x.1))
      (Nat.lt_of_succ_lt_succ hj)
    rwa [Nat.add_right_comm, Nat.add_assoc] at ih

section
variable {s : Nat} {leaves : List (Nat × Nat)} {m : Memory}

theorem huffvalOf_storeWireForm {j : Nat} (hj : j < leaves.length) :
    huffvalOf (storeWireForm s leaves m) s j = BitVec.ofNat 8 leaves[j].1 := by
  have := huffvalOf_storeHuffval s leaves 0 (storeBits s leaves m) hj
  rwa [Nat.zero_add] at this

theorem bitsOf_storeWireForm {L : Nat} (h1 : 1 ≤ L) (h16 : L ≤ 16) (hc : leaves.countP (fun x => x.2 == L) ≤ 255) :
    bitsOf (storeWireForm s leaves m) s L = leaves.countP fun x => x.2 == L := by
  have ht := Touches.storeHuffval (W := fun a => a ≠ bitsAddr s L) (s := s) (leaves := leaves) (i := 0)
    (.refl _ (storeBits s leaves m)) fun j _ _ => by unfold huffvalAddr bitsAddr; omega
  have hread : memRead (storeBits s leaves m) (bitsAddr s L) =
      BitVec.ofNat 8 (leaves.countP fun x => x.2 == L) := by
    have hinj : ∀ K ∈ codeLengths, bitsAddr s K = bitsAddr s L → K = L := fun K hK he => by
      have := mem_codeLengths.mp hK
      unfold bitsAddr at he
      omega
    have h := memRead_foldl_write (m := m) (bitsAddr s)
      (fun L => BitVec.ofNat 8 (leaves.countP fun x => x.2 == L)) (mem_codeLengths.mpr ⟨h1, h16⟩) hinj
    rwa [← storeBits] at h
  rw [bitsOf, storeWireForm, ht.frame _ (not_not_intro rfl), hread, BitVec.toNat_ofNat]
  omega

theorem memRead_storeWireForm_other {a : Nat} (hb : ∀ L, 1 ≤ L → L ≤ 16 → a ≠ bitsAddr s L)
    (hv : ∀ j, j < leaves.length → a ≠ huffvalAddr s j) : memRead (storeWireForm s leaves m) a = memRead m a := by
  have ht := Touches.storeWireForm (W := (· ≠ a)) (s := s) (leaves := leaves) (.refl _ m)
    (fun L h1 h2 => (hb L h1 h2).symm) fun j hj => (hv j hj).symm
  exact ht.frame _ (not_not_intro rfl)

end

/-! ### A sorted list as counts -/

theorem count_flatMap_replicate (f : Nat → Nat) (a : Nat) {ks : List Nat} (hk : ks.Nodup) :
    (ks.flatMap fun L => List.replicate (f L) L).count a = if a ∈ ks then f a else 0 := by
  induction ks with
  | nil => rfl
  | cons k ks ih =>
    obtain ⟨hnot, hk'⟩ := List.nodup_cons.mp hk
    rw [List.flatMap_cons, List.count_append, ih hk', List.count_replicate]
    by_cases hak : a = k
    · subst hak; simp [hnot]
    · simp [hak, Ne.symm hak]

/-- Code lengths that ascend are the lengths 1 to 16, each as often as it occurs. -/
theorem flatMap_replicate_count {l : List Nat} (hs : l.Pairwise (· ≤ ·)) (hb : ∀ x ∈ l, 1 ≤ x ∧ x ≤ 16) :
    (codeLengths.flatMap fun L => List.replicate (l.count L) L) = l := by
  refine List.Perm.eq_of_pairwise (le := fun x y : Nat => x ≤ y) (fun _ _ _ _ => Nat.le_antisymm) ?_ hs
    (List.perm_iff_count.mpr fun a => ?_)
  · refine List.pairwise_flatMap.mpr ⟨fun L _ => List.pairwise_replicate.mpr (.inr (Nat.le_refl L)), ?_⟩
    refine (show codeLengths.Pairwise (· < ·) by decide).imp fun {a b} hab x hx y hy => ?_
    rw [List.eq_of_mem_replicate hx, List.eq_of_mem_replicate hy]
    exact hab.le
  · rw [count_flatMap_replicate _ _ (by decide)]
    split
    · rfl
    · next ha => exact (List.count_eq_zero.mpr fun h => ha (mem_codeLengths.mpr (hb a h))).symm

/-! ### The leaves as a wire form -/

theorem le_maxDepth {leaves : List (Nat × Nat)} {x : Nat × Nat} (hx : x ∈ leaves) : x.2 ≤ maxDepth leaves := by
  have key : ∀ (l : List (Nat × Nat)) (d : Nat), d ≤ l.foldl (fun d x => max d x.2) d ∧
      ∀ x ∈ l, x.2 ≤ l.foldl (fun d x => max d x.2) d := by
    intro l
    induction l with
    | nil => simp
    | cons y l ih =>
      intro d
      obtain ⟨hd, hl⟩ := ih (max d y.2)
      exact ⟨(Nat.le_max_left _ _).trans hd, List.forall_mem_cons.mpr ⟨(Nat.le_max_right _ _).trans hd, hl⟩⟩
  exact (key leaves 0).2 x hx

/-- HGEN's leaves leave the code space of P, who lies as deep as one of them. -/
theorem huffmanLeaves_space {m : Memory} (h : huffmanLeaves m ≠ []) :
    ∃ x ∈ huffmanLeaves m, ∀ K, (∀ y ∈ huffmanLeaves m, y.2 ≤ K) →
      codeSpace K ((huffmanLeaves m).map Prod.snd) + 2 ^ (K - x.2) = 2 ^ K := by
  have hc : countedSymbols m ≠ [] := fun he => by
    have := (map_fst_huffmanLeaves m).length_eq
    simp [he, h] at this
  have hperm := huffmanLeaves_perm m
  obtain ⟨x, hx, hspace⟩ := fullButOne_huffmanTree hc
  refine ⟨x, hperm.mem_iff.mpr hx, fun K hK => ?_⟩
  have hK' : Within K (huffmanTree m) := fun y hy => hK y (hperm.mem_iff.mpr hy)
  have heq : codeSpace K ((huffmanLeaves m).map Prod.snd) = treeSpace K (huffmanTree m) :=
    ((hperm.map Prod.snd).map _).sum_eq
  rw [heq, hspace K hK']

/-- At most 255 leaves lie at one depth: 256 of them and P would not fill the tree. -/
theorem countP_huffmanLeaves_le {m : Memory} {L : Nat} (hL : L ≤ 16) :
    (huffmanLeaves m).countP (fun x => x.2 == L) ≤ 255 := by
  by_contra hgt
  have hle := List.countP_le_length (p := fun x : Nat × Nat => x.2 == L) (l := huffmanLeaves m)
  have hlen := length_huffmanLeaves m
  have hall : ∀ x ∈ huffmanLeaves m, x.2 = L := by
    have := List.countP_eq_length.mp (show (huffmanLeaves m).countP (fun x => x.2 == L) = _ by omega)
    simpa using this
  obtain ⟨x, hx, hspace⟩ := huffmanLeaves_space (m := m) fun he => by simp [he] at hgt
  have hdepths : (huffmanLeaves m).map Prod.snd = List.replicate 256 L := by
    refine List.eq_replicate_iff.mpr ⟨by rw [List.length_map]; omega, fun d hd => ?_⟩
    obtain ⟨y, hy, rfl⟩ := List.mem_map.mp hd
    exact hall y hy
  have h16 := hspace 16 fun y hy => (hall y hy).le.trans hL
  rw [hdepths, hall x hx, codeSpace, List.map_replicate, List.sum_replicate, smul_eq_mul] at h16
  generalize 2 ^ (16 - L) = p at h16
  omega

/-- With space left past the last code, no code is all ones. -/
theorem succ_canonicalCode_lt {m : Memory} {s k : Nat} (h : kraft m s < 65536) (hk : k < totalCodes m s) :
    canonicalCode (wireLengths m s) k + 1 < 2 ^ (wireLengths m s).getD k 0 := by
  obtain ⟨-, h16⟩ := getD_wireLengths_bounds hk
  refine Nat.lt_of_mul_lt_mul_right (a := 2 ^ (16 - (wireLengths m s).getD k 0)) ?_
  rw [succ_canonicalCode_mul hk, two_pow_mul_sub h16]
  exact (codeSpace_le_of_sublist 16 (List.take_sublist _ _)).trans_lt h

section
variable {m : Memory} (slot : Nat) (hdepth : maxDepth (huffmanLeaves m) ≤ 16)
include hdepth

theorem depth_bounds {x : Nat × Nat} (hx : x ∈ huffmanLeaves m) : 1 ≤ x.2 ∧ x.2 ≤ 16 :=
  ⟨one_le_depth hx, (le_maxDepth hx).trans hdepth⟩

/-- The wire form written has the leaves' depths as lengths. -/
theorem wireLengths_storeWireForm :
    wireLengths (storeWireForm slot (huffmanLeaves m) m) slot = (huffmanLeaves m).map Prod.snd := by
  have hcount : ∀ L, (huffmanLeaves m).countP (fun x => x.2 == L) = ((huffmanLeaves m).map Prod.snd).count L :=
    fun L => by rw [List.count, List.countP_map]; rfl
  have hs : ((huffmanLeaves m).map Prod.snd).Pairwise (· ≤ ·) := List.pairwise_map.mpr (sorted_huffmanLeaves m)
  refine Eq.trans (List.flatMap_congr fun L hL => ?_) (flatMap_replicate_count hs ?_)
  · obtain ⟨h1, h16⟩ := mem_codeLengths.mp hL
    rw [bitsOf_storeWireForm h1 h16 (countP_huffmanLeaves_le h16), hcount]
  · simpa using fun a b hab => depth_bounds hdepth hab

theorem totalCodes_storeWireForm :
    totalCodes (storeWireForm slot (huffmanLeaves m) m) slot = (huffmanLeaves m).length := by
  rw [← length_wireLengths, wireLengths_storeWireForm slot hdepth, List.length_map]

theorem wireSymbols_storeWireForm :
    wireSymbols (storeWireForm slot (huffmanLeaves m) m) slot =
      (huffmanLeaves m).map fun x => BitVec.ofNat 8 x.1 := by
  refine List.ext_getElem (by simp [totalCodes_storeWireForm slot hdepth]) fun j h1 h2 => ?_
  rw [getElem_wireSymbols, huffvalOf_storeWireForm (by simpa using h2), List.getElem_map]

theorem nodup_wireSymbols_storeWireForm : (wireSymbols (storeWireForm slot (huffmanLeaves m) m) slot).Nodup := by
  have hfst := map_fst_huffmanLeaves m
  rw [wireSymbols_storeWireForm slot hdepth, show (fun x : Nat × Nat => BitVec.ofNat 8 x.1) =
    BitVec.ofNat 8 ∘ Prod.fst from rfl, ← List.map_map]
  refine List.Nodup.map_on (fun a ha b hb he => ?_) (hfst.nodup_iff.mpr (nodup_countedSymbols m))
  have ha' := (mem_countedSymbols.mp (hfst.mem_iff.mp ha)).1
  have hb' := (mem_countedSymbols.mp (hfst.mem_iff.mp hb)).1
  have := congrArg BitVec.toNat he
  simp only [BitVec.toNat_ofNat] at this
  omega

theorem kraft_storeWireForm : kraft (storeWireForm slot (huffmanLeaves m) m) slot < 65536 := by
  rw [kraft_eq_codeSpace, wireLengths_storeWireForm slot hdepth]
  by_cases hnil : huffmanLeaves m = []
  · simp [hnil]
  · obtain ⟨x, -, hspace⟩ := huffmanLeaves_space hnil
    have := hspace 16 fun y hy => (depth_bounds hdepth hy).2
    have := Nat.two_pow_pos (16 - x.2)
    omega

theorem mem_wireSymbols_storeWireForm {x : Byte} :
    x ∈ wireSymbols (storeWireForm slot (huffmanLeaves m) m) slot ↔ 0 < freqOf m x.toNat := by
  have hcounted : ∀ sym, sym ∈ countedSymbols m ↔ ∃ y ∈ huffmanLeaves m, y.1 = sym := fun sym => by
    rw [← (map_fst_huffmanLeaves m).mem_iff, List.mem_map]
  rw [wireSymbols_storeWireForm slot hdepth, List.mem_map]
  constructor
  · rintro ⟨y, hy, rfl⟩
    obtain ⟨hlt, hpos⟩ := mem_countedSymbols.mp ((hcounted y.1).mpr ⟨y, hy, rfl⟩)
    rwa [BitVec.toNat_ofNat, Nat.mod_eq_of_lt hlt]
  · intro hpos
    obtain ⟨y, hy, he⟩ := (hcounted x.toNat).mp (mem_countedSymbols.mpr ⟨x.isLt, hpos⟩)
    exact ⟨y, hy, by rw [he, BitVec.ofNat_toNat, BitVec.setWidth_eq]⟩

/-- The table the wire form written builds. -/
theorem buildTable_storeWireForm :
    ∃ t, buildTable (storeWireForm slot (huffmanLeaves m) m) slot = .ok t ∧ t.valid = true ∧
      (∀ x ∈ huffmanLeaves m, lenAt t (BitVec.ofNat 8 x.1) = x.2) ∧
      (∀ x : Byte, lenAt t x ≠ 0 ↔ 0 < freqOf m x.toNat) ∧
      ∀ x : Byte, lenAt t x ≠ 0 → codeAt t x + 1 < 2 ^ lenAt t x := by
  have hlen := totalCodes_storeWireForm slot hdepth
  have hkraft := kraft_storeWireForm slot hdepth
  obtain ⟨t, ht, hv, -, hcodes, hothers⟩ := buildTable_ok_of_kraft (hlen ▸ length_huffmanLeaves m)
    (nodup_wireSymbols_storeWireForm slot hdepth) hkraft.le
  have hlisted : ∀ {x}, x ∈ wireSymbols (storeWireForm slot (huffmanLeaves m) m) slot →
      lenAt t x ≠ 0 ∧ codeAt t x + 1 < 2 ^ lenAt t x := by
    intro x hx
    obtain ⟨j, hj, rfl⟩ := List.mem_map.mp hx
    obtain ⟨hl, hc⟩ := hcodes j (List.mem_range.mp hj)
    have := (getD_wireLengths_bounds (List.mem_range.mp hj)).1
    rw [hl, hc]
    exact ⟨by omega, succ_canonicalCode_lt hkraft (List.mem_range.mp hj)⟩
  refine ⟨t, ht, hv, fun x hx => ?_, fun x => ⟨fun hx => ?_, fun hx => ?_⟩, fun x hx => ?_⟩
  · obtain ⟨j, hj, rfl⟩ := List.getElem_of_mem hx
    obtain ⟨hl, -⟩ := hcodes j (hlen.symm ▸ hj)
    rw [huffvalOf_storeWireForm hj, wireLengths_storeWireForm slot hdepth] at hl
    simpa [hj] using hl
  · by_contra hno
    exact hx (hothers x (mt (mem_wireSymbols_storeWireForm slot hdepth).mp hno))
  · exact (hlisted ((mem_wireSymbols_storeWireForm slot hdepth).mpr hx)).1
  · by_cases hmem : x ∈ wireSymbols (storeWireForm slot (huffmanLeaves m) m) slot
    · exact (hlisted hmem).2
    · exact absurd (hothers x hmem) hx

end

theorem exec_hgen_of_ok {slot : Nat} {s : State} {t : HuffSlot} (hs : slot ≤ 5)
    (hdepth : maxDepth (huffmanLeaves s.mem) ≤ 16)
    (h : buildTable (storeWireForm slot (huffmanLeaves s.mem) s.mem) slot = .ok t) :
    exec (.hgen slot) s = .next { s with slots := s.slots.setIfInBounds slot t,
                                         mem := storeWireForm slot (huffmanLeaves s.mem) s.mem, done := true,
                                         doneP := true, inFlight := none } := by
  rw [exec_eq_body, body, checkSlot_of_le _ _ hs, generateSlot, if_neg (Nat.not_lt.mpr hdepth), buildSlot, h]
  rfl

end Sys2Proof.Machine

open Sys2Proof Sys2Proof.Machine

/-- Settles O16: the wire form written lists each symbol counted once, at its leaf's depth, and leaves code space past
the last code. -/
theorem hgenTableLeavesAllOnesUnused : Obligations.HgenTableLeavesAllOnesUnused := by
  intro slot s hs hdepth
  obtain ⟨t, ht, hv, hlens, hreg, hones⟩ := buildTable_storeWireForm slot hdepth
  refine ⟨t, storeWireForm slot (huffmanLeaves s.mem) s.mem, exec_hgen_of_ok hs hdepth ht,
    fun L h1 h16 => bitsOf_storeWireForm h1 h16 (countP_huffmanLeaves_le h16), fun j hj => ?_, ht, hv, hlens, hreg,
    hones, fun a hb hval => memRead_storeWireForm_other hb fun j hj => ?_⟩
  · have hsym := (map_fst_huffmanLeaves s.mem).mem_iff.mp (List.mem_map_of_mem (List.getElem_mem hj))
    rw [huffvalOf_storeWireForm hj, BitVec.toNat_ofNat, Nat.mod_eq_of_lt (mem_countedSymbols.mp hsym).1,
      List.getD_eq_getElem _ _ hj]
  · exact hval j (totalCodes_storeWireForm slot hdepth ▸ hj)

end

section
/-! PROOF. HGEN of one symbol and of none (40_huffman.md R92). -/

namespace Sys2Proof.Machine

/-- The one symbol counted and P are the tree's two leaves. -/
theorem huffmanLeaves_of_singleton {m : Memory} {x : Nat} (h : countedSymbols m = [x]) :
    huffmanLeaves m = [(x, 1)] := by
  have hfst := map_fst_huffmanLeaves m
  rw [h, List.perm_singleton] at hfst
  obtain ⟨⟨sym, d⟩, hl, rfl⟩ := List.map_eq_singleton_iff.mp hfst
  obtain ⟨y, hy, hspace⟩ := huffmanLeaves_space (m := m) (by simp [hl])
  rw [hl] at hy hspace
  obtain rfl := List.mem_singleton.mp hy
  have hd := hspace d (by simp)
  simp only [List.map_cons, List.map_nil, codeSpace_singleton, Nat.sub_self, pow_zero] at hd
  have : d = 1 := (Nat.pow_right_injective (Nat.le_refl 2) (hd.symm : 2 ^ d = 2 ^ 1))
  rw [hl, this]

theorem huffmanLeaves_of_nil {m : Memory} (h : countedSymbols m = []) : huffmanLeaves m = [] := by
  have := map_fst_huffmanLeaves m
  rw [h, List.perm_nil] at this
  exact List.map_eq_nil_iff.mp this

theorem countedSymbols_of_one {m : Memory} {x : Byte} (hx : 0 < freqOf m x.toNat)
    (hy : ∀ y : Byte, y ≠ x → freqOf m y.toNat = 0) : countedSymbols m = [x.toNat] := by
  refine List.perm_singleton.mp ((List.perm_ext_iff_of_nodup (nodup_countedSymbols m) (List.nodup_singleton _)).mpr
    fun sym => ?_)
  rw [mem_countedSymbols, List.mem_singleton]
  constructor
  · rintro ⟨hlt, hpos⟩
    by_contra hne
    have := hy (BitVec.ofNat 8 sym) fun he => hne (by rw [← he, BitVec.toNat_ofNat, Nat.mod_eq_of_lt hlt])
    rw [BitVec.toNat_ofNat, Nat.mod_eq_of_lt hlt] at this
    omega
  · rintro rfl
    exact ⟨x.isLt, hx⟩

theorem countedSymbols_of_none {m : Memory} (hy : ∀ y : Byte, freqOf m y.toNat = 0) : countedSymbols m = [] := by
  refine List.eq_nil_iff_forall_not_mem.mpr fun sym hsym => ?_
  obtain ⟨hlt, hpos⟩ := mem_countedSymbols.mp hsym
  have := hy (BitVec.ofNat 8 sym)
  rw [BitVec.toNat_ofNat, Nat.mod_eq_of_lt hlt] at this
  omega

end Sys2Proof.Machine

open Sys2Proof Sys2Proof.Machine

/-- Settles O17: the forest in rising order merges as the relation says, the queue lists level by level, and with one
symbol P stands beside it. -/
theorem hgenOfOneSymbolGivesCodeZero : Obligations.HgenOfOneSymbolGivesCodeZero := by
  refine ⟨fun m => ⟨huffmanTree m, merges_huffmanTree m, huffmanLeaves_eq_breadthFirst m⟩, fun slot s hs =>
    ⟨fun x hx hy => ?_, fun hy => ?_⟩⟩
  · have hl := huffmanLeaves_of_singleton (countedSymbols_of_one hx hy)
    obtain ⟨t, m, hexec, hbits, hval, -, hv, hlens, hreg, hones, -⟩ :=
      hgenTableLeavesAllOnesUnused slot s hs (by rw [hl]; exact Nat.succ_le_succ (Nat.zero_le 15))
    rw [hl] at hbits hval hlens
    have hlen : lenAt t x = 1 := by simpa using hlens _ List.mem_cons_self
    have hcode := hones x (by omega)
    rw [hlen] at hcode
    refine ⟨t, m, hexec, hv, hlen, by omega, fun y hne => ?_, hbits 1 (by decide) (by decide), fun L h2 h16 => ?_, ?_⟩
    · by_contra hne0
      have := (hreg y).mp hne0
      rw [hy y hne] at this
      exact Nat.lt_irrefl 0 this
    · rw [hbits L (by omega) h16, List.countP_singleton, if_neg (by simp; omega)]
    · exact BitVec.eq_of_toNat_eq (hval 0 Nat.one_pos)
  · have hl := huffmanLeaves_of_nil (countedSymbols_of_none hy)
    obtain ⟨t, m, hexec, hbits, -, -, hv, -, hreg, -, -⟩ :=
      hgenTableLeavesAllOnesUnused slot s hs (by rw [hl]; decide)
    rw [hl] at hbits
    refine ⟨t, m, hexec, hv, fun y => ?_, fun L h1 h16 => hbits L h1 h16⟩
    by_contra hne0
    have := (hreg y).mp hne0
    rw [hy y] at this
    exact Nat.lt_irrefl 0 this

end

section
/-! PROOF. Bit strings (00_scope.md R11): a number's low bits, split and read back. -/

namespace Sys2Proof.Machine

@[simp] theorem length_natBits (n v : Nat) : (natBits n v).length = n := by
  induction n with
  | zero => rfl
  | succ n ih => simp [natBits, ih]

/-- The high bits, then the low ones. -/
theorem natBits_add (a b v : Nat) : natBits (a + b) v = natBits a (v / 2 ^ b) ++ natBits b v := by
  induction a with
  | zero => simp [natBits]
  | succ a ih =>
    rw [Nat.add_right_comm, natBits, natBits, ih, Nat.testBit_div_two_pow, List.cons_append]

/-- The last bit. -/
theorem natBits_succ_append (n v : Nat) : natBits (n + 1) v = natBits n (v / 2) ++ [v.testBit 0] := natBits_add n 1 v

theorem bitsNat_append_singleton (l : List Bool) (b : Bool) :
    bitsNat (l ++ [b]) = 2 * bitsNat l + if b then 1 else 0 := by
  simp [bitsNat]

/-- The bits read back as the number. -/
theorem bitsNat_natBits (n v : Nat) : bitsNat (natBits n v) = v % 2 ^ n := by
  induction n generalizing v with
  | zero => simp [natBits, bitsNat, Nat.mod_one]
  | succ n ih =>
    have hb : (if v.testBit 0 = true then 1 else 0) = v % 2 := by
      rcases Nat.mod_two_eq_zero_or_one v with h | h <;> simp [Nat.testBit_zero, h]
    rw [natBits_succ_append, bitsNat_append_singleton, ih, hb, Nat.pow_succ, Nat.mul_comm (2 ^ n), Nat.mod_mul]
    omega

/-- Bits above the low ones do not show. -/
theorem natBits_mod (n v : Nat) : natBits n (v % 2 ^ n) = natBits n v := by
  have h : ∀ k, k ≤ n → natBits k (v % 2 ^ n) = natBits k v := by
    intro k hk
    induction k with
    | zero => rfl
    | succ k ih =>
      rw [natBits, natBits, ih (Nat.le_of_succ_le hk), Nat.testBit_mod_two_pow, decide_eq_true (Nat.lt_of_succ_le hk),
        Bool.true_and]
  exact h n (Nat.le_refl n)

/-- Numbers of `n` bits are equal when their bits are. -/
theorem natBits_inj {n v w : Nat} (hv : v < 2 ^ n) (hw : w < 2 ^ n) (h : natBits n v = natBits n w) : v = w := by
  have := congrArg bitsNat h
  rwa [bitsNat_natBits, bitsNat_natBits, Nat.mod_eq_of_lt hv, Nat.mod_eq_of_lt hw] at this

theorem natBits_all_ones {n v : Nat} (hv : v < 2 ^ n) : (∀ b ∈ natBits n v, b = true) ↔ v = 2 ^ n - 1 := by
  have hones : natBits n (2 ^ n - 1) = List.replicate n true := by
    have h : ∀ k, k ≤ n → natBits k (2 ^ n - 1) = List.replicate k true := by
      intro k hk
      induction k with
      | zero => rfl
      | succ k ih =>
        rw [natBits, ih (Nat.le_of_succ_le hk), Nat.testBit_two_pow_sub_one, decide_eq_true (Nat.lt_of_succ_le hk),
          List.replicate_succ]
    exact h n (Nat.le_refl n)
  constructor
  · intro h
    refine natBits_inj hv (Nat.sub_lt (Nat.two_pow_pos n) Nat.one_pos) ?_
    rw [hones]
    exact List.eq_replicate_iff.mpr ⟨length_natBits n v, h⟩
  · rintro rfl b hb
    rw [hones] at hb
    exact List.eq_of_mem_replicate hb

end Sys2Proof.Machine
end

section
/-! PROOF. The writer as bits appended to a byte stream (41_bitio.md R118, R119): one bit, then any bits. -/

namespace Sys2Proof.Machine

/-! ### Bytes packed and stuffed -/

theorem stuff_append (k l : List Byte) : stuff (k ++ l) = stuff k ++ stuff l := by
  induction k with
  | nil => rfl
  | cons b k ih =>
    rw [List.cons_append, stuff, stuff, ih]
    split <;> rfl

theorem packBytes_add (a b : Nat) (l : List Bool) :
    packBytes (a + b) l = packBytes a l ++ packBytes b (l.drop (8 * a)) := by
  induction a generalizing l with
  | zero => simp [packBytes]
  | succ a ih =>
    rw [Nat.add_right_comm, packBytes, packBytes, ih, List.drop_drop, List.cons_append, Nat.mul_succ, Nat.add_comm 8]

/-- Complete bytes look no further. -/
theorem packBytes_append {a : Nat} {k : List Bool} (h : 8 * a ≤ k.length) (l : List Bool) :
    packBytes a (k ++ l) = packBytes a k := by
  induction a generalizing k with
  | zero => rfl
  | succ a ih =>
    rw [packBytes, packBytes, List.take_append_of_le_length (by omega), List.drop_append_of_le_length (by omega),
      ih (by rw [List.length_drop]; omega)]

/-- The bits left over once the complete bytes are gone. -/
def leftOver (l : List Bool) : List Bool := l.drop (8 * (l.length / 8))

/-- The complete bytes of a bit string, stuffed. -/
def stuffedBytes (l : List Bool) : List Byte := stuff (packBytes (l.length / 8) l)

theorem emitted_eq (w : Writer) (bits : List Bool) : emitted w bits = stuffedBytes (pending w ++ bits) := rfl

/-- The bytes of two bit strings are those of the first, then those of the second behind what the first leaves over. -/
theorem stuffedBytes_append (k l : List Bool) :
    stuffedBytes (k ++ l) = stuffedBytes k ++ stuffedBytes (leftOver k ++ l) := by
  have hlen : (k ++ l).length / 8 = k.length / 8 + (leftOver k ++ l).length / 8 := by
    rw [leftOver, List.length_append, List.length_append, List.length_drop]
    omega
  unfold stuffedBytes
  rw [hlen, packBytes_add, stuff_append, packBytes_append (Nat.mul_div_le _ _),
    List.drop_append_of_le_length (Nat.mul_div_le _ _)]
  rfl

theorem leftOver_append (k l : List Bool) : leftOver (k ++ l) = leftOver (leftOver k ++ l) := by
  have h := Nat.mul_div_le k.length 8
  unfold leftOver
  rw [← List.drop_append_of_le_length h, List.drop_drop]
  congr 1
  simp only [List.length_drop, List.length_append]
  omega

theorem stuffedBytes_of_lt {l : List Bool} (h : l.length < 8) : stuffedBytes l = [] := by
  rw [stuffedBytes, Nat.div_eq_of_lt h]; rfl

theorem leftOver_of_lt {l : List Bool} (h : l.length < 8) : leftOver l = l := by
  rw [leftOver, Nat.div_eq_of_lt h]; rfl

/-! ### Bits appended -/

@[simp] theorem length_pending (w : Writer) : (pending w).length = w.cnt.toNat := by simp [pending]

/-- Bits that complete no byte. -/
theorem appended_of_lt {w w' : Writer} {bits : List Bool} (m : Memory) (hlt : w.cnt.toNat + bits.length < 8)
    (hptr : w'.ptr = w.ptr) (hpend : pending w' = pending w ++ bits) (hok : WriterOk w') : Appended w m bits w' m := by
  have hlen : (pending w ++ bits).length < 8 := by simpa using hlt
  have he : emitted w bits = [] := stuffedBytes_of_lt hlen
  refine ⟨by simp [he, hptr], ?_, hok, by simp [he], fun _ _ => rfl⟩
  exact hpend.trans (leftOver_of_lt hlen).symm

/-- Bits appended, then more bits. -/
theorem Appended.trans {w w' w'' : Writer} {m m' m'' : Memory} {k l : List Bool} (h : Appended w m k w' m')
    (h' : Appended w' m' l w'' m'') : Appended w m (k ++ l) w'' m'' := by
  obtain ⟨hptr, hpend, -, hbytes, hframe⟩ := h
  obtain ⟨hptr', hpend', hok', hbytes', hframe'⟩ := h'
  have hem : emitted w (k ++ l) = emitted w k ++ emitted w' l := by
    rw [emitted_eq, ← List.append_assoc, stuffedBytes_append, emitted_eq w', hpend]
    rfl
  refine ⟨by rw [hptr', hptr, hem, List.length_append, Nat.add_assoc], ?_, hok', fun i hi => ?_, fun a ha => ?_⟩
  · rw [← List.append_assoc]
    refine Eq.trans ?_ (leftOver_append (pending w ++ k) l).symm
    rw [hpend', hpend]
    rfl
  · rw [hem, List.length_append] at hi
    rw [hem]
    by_cases hk : i < (emitted w k).length
    · rw [hframe' _ (.inl (by simp only [outAddr]; omega)), hbytes i hk, List.getD_append _ _ _ _ hk]
    · have hi' : w.ptr.toNat + i = w'.ptr.toNat + (i - (emitted w k).length) := by omega
      rw [hi', hbytes' _ (by omega), List.getD_append_right _ _ _ _ (by omega)]
  · rw [hem, List.length_append] at ha
    simp only [outAddr] at ha hframe hframe'
    rw [hframe' a (by omega), hframe a (by omega)]

/-- `limit` leaves room for the bytes that go to OUT. -/
def Room (limit : Nat) (w : Writer) (bits : List Bool) : Prop :=
  emitted w bits = [] ∨ w.ptr.toNat + (emitted w bits).length ≤ limit

/-- Room for two bit strings is room for the first, and then for the second. -/
theorem Room.split {limit : Nat} {w : Writer} {k l : List Bool} (h : Room limit w (k ++ l)) :
    Room limit w k ∧ ∀ {w' : Writer} {m m' : Memory}, Appended w m k w' m' → Room limit w' l := by
  rw [Room, emitted_eq, ← List.append_assoc, stuffedBytes_append, List.append_eq_nil_iff, List.length_append] at h
  refine ⟨h.imp And.left fun h => by rw [emitted_eq]; omega, fun {w' m m'} hk => ?_⟩
  obtain ⟨hptr, hpend, -⟩ := hk
  have hpend : pending w' = leftOver (pending w ++ k) := hpend
  rw [Room, emitted_eq w', hpend, hptr, emitted_eq]
  exact h.imp And.right fun h => by omega

/-! ### One bit -/

theorem pushBit_acc_eq {w : Writer} (bit : Bool) (h : WriterOk w) :
    (pushBit w bit).acc.toNat = 2 * w.acc.toNat + bit.toNat := by
  obtain ⟨hc, ha⟩ := h
  have h7 : w.acc.toNat < 2 ^ 7 := lt_of_lt_of_le ha (Nat.pow_le_pow_right (by decide) hc)
  have hs : (w.acc <<< 1).toNat = 2 ^ 1 * w.acc.toNat := by
    rw [BitVec.toNat_shiftLeft, Nat.shiftLeft_eq, Nat.mod_eq_of_lt (by omega), Nat.mul_comm]
  have hb : ((BitVec.ofBool bit).setWidth 8).toNat = bit.toNat := by cases bit <;> rfl
  rw [pushBit, BitVec.toNat_or, hs, hb, ← Nat.two_pow_add_eq_or_of_lt (by cases bit <;> decide)]

/-- A bit pushed is the last one held. -/
theorem pending_pushBit {w : Writer} (bit : Bool) (h : WriterOk w) : pending (pushBit w bit) = pending w ++ [bit] := by
  have hbit : (2 * w.acc.toNat + bit.toNat).testBit 0 = bit := by
    cases bit <;> simp [Nat.testBit_zero]
  rw [pending, pushBit_cnt w bit h.1, pushBit_acc_eq bit h, natBits_succ_append, hbit,
    show (2 * w.acc.toNat + bit.toNat) / 2 = w.acc.toNat by cases bit <;> simp; omega]
  rfl

/-- A byte held whole is the byte that goes to OUT. -/
theorem stuffedBytes_natBits_eight (b : Byte) : stuffedBytes (natBits 8 b.toNat) = stuff [b] := by
  have h : packBytes 1 (natBits 8 b.toNat) = [BitVec.ofNat 8 (bitsNat (natBits 8 b.toNat))] := rfl
  rw [stuffedBytes, length_natBits, h, bitsNat_natBits, Nat.mod_eq_of_lt b.isLt, BitVec.ofNat_toNat, BitVec.setWidth_eq]

theorem length_stuff_singleton (b : Byte) : (stuff [b]).length = stuffedSize b := by
  unfold stuff stuffedSize
  split <;> rfl

/-- A stuffed store holds the stuffed byte. -/
theorem memRead_storeStuffed_getD (m : Memory) (j : Nat) (b : Byte) {i : Nat} (hi : i < stuffedSize b) :
    memRead (storeStuffed m j b) (outAddr (j + i)) = (stuff [b]).getD i 0 := by
  rw [memRead_storeStuffed]
  unfold stuffedSize at hi
  split at hi
  · next hb =>
    rw [show stuff [b] = [0xFF, 0x00] from if_pos hb, hb]
    obtain rfl | rfl : i = 0 ∨ i = 1 := by omega
    · simp
    · simp [outAddr]
  · next hb =>
    rw [show stuff [b] = [b] from if_neg hb]
    obtain rfl : i = 0 := by omega
    simp

/-- One bit appended, given room for the byte it may complete. -/
theorem putBit_appends {limit : Nat} (hlim : limit < 2 ^ 32) (bit : Bool) {p : OutPort} (hw : WriterOk p.wr)
    (hroom : Room limit p.wr [bit]) :
    ∃ q, putBit limit bit p = .ok () q ∧ Appended p.wr p.mem [bit] q.wr q.mem := by
  have hcnt := pushBit_cnt p.wr bit hw.1
  have hpend := pending_pushBit bit hw
  unfold putBit
  by_cases h8 : (pushBit p.wr bit).cnt = 8
  · rw [if_pos h8]
    have hbits : pending p.wr ++ [bit] = natBits 8 (pushBit p.wr bit).acc.toNat := by rw [← hpend, pending, h8]; rfl
    have hem : emitted p.wr [bit] = stuff [(pushBit p.wr bit).acc] := by
      rw [emitted_eq, hbits, stuffedBytes_natBits_eight]
    have hsize : (emitted p.wr [bit]).length = stuffedSize (pushBit p.wr bit).acc := by
      rw [hem, length_stuff_singleton]
    have hpos : 0 < stuffedSize (pushBit p.wr bit).acc := by unfold stuffedSize; split <;> decide
    rcases emitByte_cases limit (pushBit p.wr bit).acc { p with wr := pushBit p.wr bit } hlim with
      ⟨hfull, -⟩ | ⟨q, he, hptr, -, -, -, hmem⟩
    · have hfull : limit < p.wr.ptr.toNat + stuffedSize (pushBit p.wr bit).acc := hfull
      rcases hroom with hroom | hroom
      · rw [hroom, List.length_nil] at hsize; omega
      · omega
    · rw [he]
      refine ⟨_, rfl, hptr.trans (by rw [hsize]; rfl), ?_, ⟨Nat.zero_le _, Nat.one_pos⟩, fun i hi => ?_, fun a ha => ?_⟩
      · rw [hbits, length_natBits]; rfl
      · rw [hmem, hem]
        exact memRead_storeStuffed_getD _ _ _ (hsize ▸ hi)
      · rw [hmem]
        exact memRead_storeStuffed_other _ (hsize ▸ ha)
  · rw [if_neg h8]
    have hne : (pushBit p.wr bit).cnt.toNat ≠ 8 := fun e => h8 (BitVec.eq_of_toNat_eq e)
    have hc := hw.1
    have hok : WriterOk (pushBit p.wr bit) := ⟨by omega, hcnt ▸ pushBit_acc bit hw⟩
    exact ⟨_, rfl, appended_of_lt p.mem (by rw [List.length_singleton]; omega) rfl hpend hok⟩

/-! ### Any bits -/

/-- `PutBits` as a list of bits. -/
def putBitList (limit : Nat) : List Bool → OutPort → Run OutPort Unit
  | [], p => .ok () p
  | bit :: bits, p => (putBit limit bit p).andThen fun _ q => putBitList limit bits q

theorem putBits_eq (limit v : Nat) : ∀ (n : Nat) (p : OutPort), putBits limit n v p = putBitList limit (natBits n v) p
  | 0, _ => rfl
  | n + 1, p => by simp only [putBits, natBits, putBitList, putBits_eq limit v n]

theorem andThen_assoc {σ α β γ : Type} (r : Run σ α) (f : α → σ → Run σ β) (g : β → σ → Run σ γ) :
    (r.andThen f).andThen g = r.andThen fun a st => (f a st).andThen g := by
  cases r <;> rfl

theorem putBitList_append (limit : Nat) (k l : List Bool) (p : OutPort) :
    putBitList limit (k ++ l) p = (putBitList limit k p).andThen fun _ q => putBitList limit l q := by
  induction k generalizing p with
  | nil => rfl
  | cons bit k ih => simp only [List.cons_append, putBitList, andThen_assoc, ih]

/-- Bits appended, given room for the bytes they complete (R118, R119). -/
theorem putBitList_appends {limit : Nat} (hlim : limit < 2 ^ 32) (bits : List Bool) {p : OutPort} (hw : WriterOk p.wr)
    (hroom : Room limit p.wr bits) :
    ∃ q, putBitList limit bits p = .ok () q ∧ Appended p.wr p.mem bits q.wr q.mem := by
  induction bits generalizing p with
  | nil => exact ⟨p, rfl, appended_of_lt p.mem (Nat.lt_succ_of_le hw.1) rfl (List.append_nil _).symm hw⟩
  | cons bit bits ih =>
    obtain ⟨hfirst, hrest⟩ := Room.split (k := [bit]) hroom
    obtain ⟨q, hq, happ⟩ := putBit_appends hlim bit hw hfirst
    obtain ⟨u, hu, happ'⟩ := ih happ.2.2.1 (hrest happ)
    exact ⟨u, by rw [putBitList, hq, andThen_ok, hu], happ.trans happ'⟩

theorem hencSym_of_code {t : HuffSlot} {x : Byte} (h : lenAt t x ≠ 0) (limit : Nat) (p : OutPort) :
    hencSym t limit x p = putBitList limit (codeBits t x) p := by
  rw [hencSym, if_neg h, putBits_eq]; rfl

theorem hencSym_of_no_code {t : HuffSlot} {x : Byte} (h : lenAt t x = 0) (limit : Nat) (p : OutPort) :
    hencSym t limit x p = .raise .huffNocode (x.setWidth 32) p := by
  rw [hencSym, if_pos h]

end Sys2Proof.Machine

open Sys2Proof Sys2Proof.Machine

/-- Settles O20: the code's bits are appended one by one, each with room for the byte it completes. -/
theorem hencAppendsTheCode : Obligations.HencAppendsTheCode := by
  intro slot sym s hs hv hlen hw hroom
  obtain ⟨q, hq, happ⟩ := putBitList_appends s.outLen.isLt (codeBits (slotOf s slot) sym) (p := outPort s) hw hroom
  refine ⟨q.wr, q.mem, ?_, happ⟩
  rw [exec_eq_body, body, checkBuilt_of_valid _ hs hv, hencSym_of_code hlen, hq]
  rfl

end

section
/-! PROOF. ENCBLK as items coded one after the other (42_block.md R141, R142), and what has no code (40_huffman.md R95,
R96). -/

namespace Sys2Proof.Machine

/-! ### Items -/

/-- One item coded: VLI_RANGE, then the symbol, then the value's pattern (R141). -/
def encodeItem (t : HuffSlot) (limit : Nat) (x : Byte × Int) (p : OutPort) : Run OutPort Unit :=
  if 15 < cat x.2 then .raise .vliRange (signedWord x.2) p
  else (hencSym t limit x.1 p).andThen fun _ q => putBits limit (cat x.2) (vliBits x.2 (cat x.2)) q

/-- Items coded in turn. -/
def encodeItems (t : HuffSlot) (limit : Nat) : List (Byte × Int) → OutPort → Run OutPort Unit
  | [], p => .ok () p
  | x :: items, p => (encodeItem t limit x p).andThen fun _ q => encodeItems t limit items q

theorem encodeItems_append (t : HuffSlot) (limit : Nat) (k l : List (Byte × Int)) (p : OutPort) :
    encodeItems t limit (k ++ l) p = (encodeItems t limit k p).andThen fun _ q => encodeItems t limit l q := by
  induction k generalizing p with
  | nil => rfl
  | cons x k ih => simp only [List.cons_append, encodeItems, andThen_assoc, ih]

theorem andThen_ok_self {σ : Type} (r : Run σ Unit) : (r.andThen fun _ q => .ok () q) = r := by
  cases r <;> rfl

theorem encodeItems_singleton (t : HuffSlot) (limit : Nat) (x : Byte × Int) (p : OutPort) :
    encodeItems t limit [x] p = encodeItem t limit x p := andThen_ok_self _

/-- A symbol without a value: ZRL and EOB. -/
theorem encodeItem_zero (t : HuffSlot) (limit : Nat) (x : Byte) (p : OutPort) :
    encodeItem t limit (x, 0) p = hencSym t limit x p := andThen_ok_self _

theorem encodeItem_frame (t : HuffSlot) {limit : Nat} (hlim : limit < 2 ^ 32) (x : Byte × Int) (p : OutPort) :
    (encodeItem t limit x p).Ends (AppendFrame limit p) := by
  unfold encodeItem
  split
  · exact appendFrame_refl limit p
  · exact appendFrame_andThen (hencSym_frame t limit hlim _ p) fun _ q => putBits_frame limit hlim _ _ q

/-- An item with a code and a value in range appends its bits. -/
theorem encodeItem_of_ok {t : HuffSlot} {x : Byte × Int} (h : ItemOk t x) (limit : Nat) (p : OutPort) :
    encodeItem t limit x p = putBitList limit (itemBits t x) p := by
  obtain ⟨hcat, hlen⟩ := h
  rw [encodeItem, if_neg (Nat.not_lt.mpr hcat), hencSym_of_code hlen, itemBits, putBitList_append]
  simp only [putBits_eq]

theorem encodeItems_of_ok {t : HuffSlot} (limit : Nat) : ∀ {items : List (Byte × Int)} (p : OutPort),
    (∀ x ∈ items, ItemOk t x) → encodeItems t limit items p = putBitList limit (items.flatMap (itemBits t)) p
  | [], _, _ => rfl
  | x :: items, p, h => by
    obtain ⟨hx, hitems⟩ := List.forall_mem_cons.mp h
    rw [encodeItems, encodeItem_of_ok hx, List.flatMap_cons, putBitList_append]
    simp only [encodeItems_of_ok limit _ hitems]

/-- A value in a block is one item. -/
theorem encodeValue_eq (t : HuffSlot) (limit r : Nat) (v : Int) (p : OutPort) :
    encodeValue t limit r v p = encodeItem t limit (acSymbol r (cat v), v) p := rfl

theorem dcItem_eq (v : Int) : dcItem v = (acSymbol 0 (cat v), v) := by
  rw [dcItem, acSymbol, Nat.zero_mul, Nat.zero_add]

theorem encodeZrls_eq (t : HuffSlot) (limit : Nat) : ∀ (n : Nat) (p : OutPort),
    encodeZrls t limit n p = encodeItems t limit (List.replicate n (0xF0, 0)) p
  | 0, _ => rfl
  | n + 1, p => by
    simp only [encodeZrls, List.replicate_succ, encodeItems, encodeItem_zero, encodeZrls_eq t limit n]

/-! ### The AC part -/

/-- What every end of the first part satisfies, its continuation may use. -/
theorem andThen_congr {σ α β : Type} {P : σ → Prop} {r : Run σ α} {f g : α → σ → Run σ β} (hr : r.Ends P)
    (h : ∀ a st, P st → f a st = g a st) : r.andThen f = r.andThen g := by
  cases r with
  | ok a st => exact h a st hr
  | raise => rfl

/-- OUT, below its greatest capacity, holds no coefficient. -/
theorem cmOf_of_appendFrame {c : Config} {comp k : Nat} {limit : Nat} (hlim : limit ≤ 4194304) {p q : OutPort}
    (h : AppendFrame limit p q) : cmOf c q.mem comp k = cmOf c p.mem comp k := by
  obtain ⟨-, -, -, hframe⟩ := h
  funext j
  have hge : outAddr limit ≤ cmAddr c comp k j := by unfold outAddr cmAddr; omega
  rw [cmOf, cmOf, memRead16, memRead16, hframe _ (.inr hge), hframe _ (.inr (Nat.le_succ_of_le hge))]

/-- R141's loop codes the AC items. -/
theorem encodeAc_eq {c : Config} {limit : Nat} (hlim : limit ≤ 4194304) (t : HuffSlot) (comp k : Nat) :
    ∀ (n j r : Nat) (p : OutPort), encodeAc c limit t comp k n j r p =
      encodeItems t limit (acItems r ((List.range' j n).map (cmOf c p.mem comp k))) p
  | 0, j, r, p => by
    simp only [encodeAc, List.range'_zero, List.map_nil, acItems]
    split
    · rw [encodeItems_singleton, encodeItem_zero]
    · rfl
  | n + 1, j, r, p => by
    have hlim' : limit < 2 ^ 32 := by omega
    rw [List.range'_succ, List.map_cons, encodeAc, acItems]
    split
    · exact encodeAc_eq hlim t comp k n (j + 1) (r + 1) p
    · rw [encodeItems_append, ← encodeZrls_eq]
      refine andThen_congr (encodeZrls_frame t limit hlim' _ p) fun _ q hq => ?_
      rw [encodeItems, encodeValue_eq]
      refine andThen_congr (encodeItem_frame t hlim' _ q) fun _ u hu => ?_
      rw [encodeAc_eq hlim t comp k n (j + 1) 0 u, cmOf_of_appendFrame hlim (appendFrame_trans hq hu)]

theorem acList_eq (c : Config) (m : Memory) (comp k : Nat) :
    acList c m comp k = (List.range' 1 63).map (cmOf c m comp k) := by
  rw [acList, List.range_eq_range', ← List.map_add_range' (a := 1) 0 63 1, List.map_map]
  refine List.map_congr_left fun i _ => ?_
  rw [Function.comp_apply, Nat.add_comm]

/-- ENCBLK's body codes the DC item, then the AC items. -/
theorem encodeBlock_eq {s : State} (hl : LengthsOk s) (dcs acs comp : Nat) (p : OutPort) :
    encodeBlock dcs acs comp s p =
      (encodeItem (slotOf s dcs) s.outLen.toNat (dcItem (drOf s.cfg p.mem comp (arg0Nat s))) p).andThen fun _ q =>
        encodeItems (slotOf s acs) s.outLen.toNat (acItems 0 (acList s.cfg p.mem comp (arg0Nat s))) q := by
  obtain ⟨⟨-, -, -, -, -, hcap⟩, -, hout⟩ := hl
  have hlim : s.outLen.toNat ≤ 4194304 := hout.trans hcap
  rw [encodeBlock, encodeValue_eq, dcItem_eq]
  refine andThen_congr (encodeItem_frame _ s.outLen.isLt _ p) fun _ q hq => ?_
  rw [encodeAc_eq hlim, acList_eq, cmOf_of_appendFrame hlim hq]

/-! ### Items without a code -/

section
variable {t : HuffSlot} {x : Byte} {v : Int}

theorem encodeItem_of_range (h : 15 < cat v) (limit : Nat) (p : OutPort) :
    encodeItem t limit (x, v) p = .raise .vliRange (signedWord v) p := if_pos h

theorem encodeItem_of_no_code (hv : cat v ≤ 15) (hx : lenAt t x = 0) (limit : Nat) (p : OutPort) :
    encodeItem t limit (x, v) p = .raise .huffNocode (x.setWidth 32) p := by
  rw [encodeItem, if_neg (Nat.not_lt.mpr hv), hencSym_of_no_code hx, andThen_raise]

end

section
variable {dcs acs comp : Nat} {s : State}

/-- A fault of the DC item is the block's, with nothing changed. -/
theorem encodeBlock_of_dc_raise {code : FaultCode} {info : Word}
    (h : encodeItem (slotOf s dcs) s.outLen.toNat (dcItem (drOf s.cfg s.mem comp (arg0Nat s))) (outPort s) =
      .raise code info (outPort s)) :
    encodeBlock dcs acs comp s (outPort s) = .raise code info (outPort s) := by
  rw [dcItem_eq] at h
  rw [encodeBlock, encodeValue_eq, outPort_mem, h, andThen_raise]

/-- A fault of an AC item is the block's, when all items before it have a code and fit. -/
theorem encodeBlock_of_ac_raise {pre post : List (Byte × Int)} {x : Byte × Int} {code : FaultCode} {info : Word}
    (hl : LengthsOk s) (hw : WriterOk s.wr)
    (hdc : ItemOk (slotOf s dcs) (dcItem (drOf s.cfg s.mem comp (arg0Nat s))))
    (hitems : acItems 0 (acList s.cfg s.mem comp (arg0Nat s)) = pre ++ x :: post)
    (hpre : ∀ y ∈ pre, ItemOk (slotOf s acs) y)
    (hroom : HasRoom s (codedBits (slotOf s dcs) (slotOf s acs) (drOf s.cfg s.mem comp (arg0Nat s)) pre))
    (hx : ∀ q, encodeItem (slotOf s acs) s.outLen.toNat x q = .raise code info q) :
    ∃ q, encodeBlock dcs acs comp s (outPort s) = .raise code info q := by
  obtain ⟨q, hq, -⟩ := putBitList_appends s.outLen.isLt _ (p := outPort s) hw hroom
  refine ⟨q, ?_⟩
  rw [codedBits, putBitList_append] at hq
  rw [encodeBlock_eq hl, outPort_mem, hitems, encodeItem_of_ok hdc]
  simp only [encodeItems_append, encodeItems_of_ok s.outLen.toNat _ hpre]
  rw [← andThen_assoc, hq, andThen_ok, encodeItems, hx, andThen_raise]

theorem exec_encblk_of_raise {code : FaultCode} {info : Word} {q : OutPort} (hd : dcs ≤ 5) (ha : acs ≤ 5)
    (hdv : (slotOf s dcs).valid = true) (hav : (slotOf s acs).valid = true) (hb : BlockOk s comp)
    (h : encodeBlock dcs acs comp s (outPort s) = .raise code info q) :
    exec (.encblk dcs acs comp) s = .next (faultEntry code info (withOutPort s q)) := by
  obtain ⟨hc, hg, hk⟩ := hb
  rw [exec_eq_body, body, checkBuilt_of_valid _ hd hdv, checkBuilt_of_valid _ ha hav, checkBlock_of _ hc hg hk, h]
  rfl

end

/-- What fault entry leaves of a writing command's fault. -/
theorem faultEntry_withOutPort {s t : State} {code : FaultCode} {info : Word} {q : OutPort} (hr : s.recorded = none)
    (h : t = faultEntry code info (withOutPort s q)) :
    t.recorded = some ⟨code, info⟩ ∧ t.faultP = true ∧ t.done = s.done ∧ t.inFlight = none := by
  rw [faultEntry_of_none _ _ (by exact hr)] at h
  subst h
  exact ⟨rfl, rfl, rfl, rfl⟩

/-- Every residual but -32768 has a category of at most 15. -/
theorem cat_drOf_le_fifteen {c : Config} {m : Memory} {comp k : Nat} (h : drOf c m comp k ≠ -32768) :
    cat (drOf c m comp k) ≤ 15 := by
  have hlt := BitVec.toInt_lt (x := memRead16 m (drAddr c comp k))
  have hle := BitVec.le_toInt (x := memRead16 m (drAddr c comp k))
  unfold drOf at h ⊢
  have hv : (memRead16 m (drAddr c comp k)).toInt.natAbs < 2 ^ 15 := by omega
  unfold cat bitlen
  split
  · omega
  · next h0 => have := (Nat.log2_lt h0).mpr hv; omega

end Sys2Proof.Machine

open Sys2Proof Sys2Proof.Machine

/-- Settles O22: what has no code raises before it writes anything, and in the AC part the items before it are bits
appended. -/
theorem missingCodeFaults : Obligations.MissingCodeFaults := by
  refine ⟨fun slot sym s hs hv hlen hr i hi => ?_, fun dcs acs comp s v hd ha hdv hav hb hr hv => ?_⟩
  · rcases hi with rfl | rfl
    · rw [exec_eq_body, body, checkBuilt_of_valid _ hs hv, hencSym_of_no_code hlen, lift_raise, withOutPort_outPort,
        endCommand_raise, faultEntry_of_none _ _ hr]
    · rw [exec_eq_body, body, checkBuilt_of_valid _ hs hv, if_pos hlen, endCommand_raise, faultEntry_of_none _ _ hr]
  · subst hv
    refine ⟨fun hne hlen => ?_, fun hv => ?_, fun pre post x a hl hw hdc hitems hpre hroom =>
      ⟨fun hcat => ?_, fun hcat hlen => ?_⟩⟩
    · have hinfo : (BitVec.ofNat 8 (cat (drOf s.cfg s.mem comp (arg0Nat s)))).setWidth 32 =
          word (cat (drOf s.cfg s.mem comp (arg0Nat s))) := by
        have := cat_drOf_le s.cfg s.mem comp (arg0Nat s)
        apply BitVec.eq_of_toNat_eq
        rw [BitVec.toNat_setWidth, BitVec.toNat_ofNat, BitVec.toNat_ofNat]
        omega
      rw [exec_encblk_of_raise hd ha hdv hav hb
        (encodeBlock_of_dc_raise (encodeItem_of_no_code (cat_drOf_le_fifteen hne) hlen _ _)), withOutPort_outPort,
        faultEntry_of_none _ _ hr, hinfo]
    · rw [exec_encblk_of_raise hd ha hdv hav hb
        (encodeBlock_of_dc_raise (encodeItem_of_range (by rw [hv]; decide) _ _)), withOutPort_outPort,
        faultEntry_of_none _ _ hr, hv]
      rfl
    · obtain ⟨q, hq⟩ := encodeBlock_of_ac_raise hl hw hdc hitems hpre hroom fun q => encodeItem_of_range hcat _ q
      exact ⟨_, exec_encblk_of_raise hd ha hdv hav hb hq, faultEntry_withOutPort hr rfl⟩
    · obtain ⟨q, hq⟩ := encodeBlock_of_ac_raise hl hw hdc hitems hpre hroom fun q =>
        encodeItem_of_no_code hcat hlen _ q
      exact ⟨_, exec_encblk_of_raise hd ha hdv hav hb hq, faultEntry_withOutPort hr rfl⟩

end

section
/-! PROOF. The reader as a stream of bits (41_bitio.md R110 to R113): what each primitive leaves of the unconsumed
bits. -/

namespace Sys2Proof.Machine

section
variable {m : Memory} {len : Nat} {r r' : Reader}

/-- The bits of the bytes not fetched yet. -/
def bitsAhead (m : Memory) (len : Nat) (r : Reader) : List Bool :=
  (bytesAhead m len r).flatMap fun b => natBits 8 b.toNat

theorem stream_eq (m : Memory) (len : Nat) (r : Reader) :
    stream m len r = natBits r.cnt.toNat r.buf.toNat ++ bitsAhead m len r := rfl

theorem bitsAhead_of_eod (h : r.eod = true) : bitsAhead m len r = [] := by
  simp [bitsAhead, bytesAhead, h]

/-- The bits ahead depend on RD_PTR and EOD alone. -/
theorem bitsAhead_congr (he : r'.eod = r.eod) (hp : r'.ptr = r.ptr) : bitsAhead m len r' = bitsAhead m len r := by
  rw [bitsAhead, bitsAhead, bytesAhead, bytesAhead, he, hp]

theorem stream_of_eod (h : r.eod = true) : stream m len r = natBits r.cnt.toNat r.buf.toNat := by
  rw [stream_eq, bitsAhead_of_eod h, List.append_nil]

/-- A fetch that finds no byte: the stream is what is buffered, and stays. -/
theorem stream_fetch_none (h : fetch m len r = (none, r')) :
    stream m len r' = stream m len r ∧ stream m len r = natBits r.cnt.toNat r.buf.toNat := by
  obtain ⟨he, -, hbuf, hcnt, hnil⟩ := fetch_none h
  have hr : stream m len r = natBits r.cnt.toNat r.buf.toNat := by
    rw [stream_eq, bitsAhead, hnil, List.flatMap_nil, List.append_nil]
  exact ⟨by rw [stream_of_eod he, hr, hbuf, hcnt], hr⟩

theorem bitsAhead_fetch_some {b : Byte} (hlen : len < 2 ^ 32) (h : fetch m len r = (some b, r')) :
    bitsAhead m len r = natBits 8 b.toNat ++ bitsAhead m len r' := by
  obtain ⟨-, -, -, -, -, -, -, hb⟩ := fetch_some hlen h
  rw [bitsAhead, hb, List.flatMap_cons, bitsAhead]

/-- A byte fetched and pushed goes from the bytes ahead to the buffer. -/
theorem stream_pushByte {n : Nat} {b : Byte} (hlen : len < 2 ^ 32) (hr : ReaderUpTo n r) (hn : n ≤ 15)
    (h : fetch m len r = (some b, r')) : stream m len (pushByte r' b) = stream m len r := by
  obtain ⟨hc, -, hb, -⟩ := hr
  obtain ⟨-, -, -, hbuf, hcnt, -, -, -⟩ := fetch_some hlen h
  have hlt : r'.buf.toNat < 2 ^ 24 := hbuf ▸ lt_of_lt_of_le hb (Nat.pow_le_pow_right (by decide) (by omega))
  have hbyte := b.isLt
  have hlow : natBits 8 (r.buf.toNat * 2 ^ 8 + b.toNat) = natBits 8 b.toNat := by
    rw [← natBits_mod, Nat.mul_comm, Nat.mul_add_mod, Nat.mod_eq_of_lt hbyte]
  rw [stream_eq, bitsAhead_congr (pushByte_eod r' b) (pushByte_ptr r' b), pushByte_cnt r' b (by rw [hcnt]; omega),
    pushByte_buf r' b hlt, hbuf, hcnt, natBits_add, hlow, stream_eq, bitsAhead_fetch_some hlen h,
    show (r.buf.toNat * 2 ^ 8 + b.toNat) / 2 ^ 8 = r.buf.toNat by omega, List.append_assoc]

/-- A pull changes nothing of the stream; it succeeds exactly when the stream has `n` bits. -/
theorem stream_pullTo {n : Nat} (hlen : len < 2 ^ 32) (hn : n ≤ 16) : ∀ {fuel : Nat} {r r' : Reader} {ok : Bool},
    ReaderUpTo (n + 7) r → pullTo m len n fuel r = (ok, r') → stream m len r' = stream m len r
  | 0, _, _, _, _, h => by cases h; rfl
  | fuel + 1, r, r', ok, hr, h => by
    unfold pullTo at h
    split at h
    · cases h; rfl
    · next hlt =>
      split at h
      · next r1 hf => cases h; exact (stream_fetch_none hf).1
      · next b r1 hf =>
        have hr' : ReaderUpTo (n - 1) r := ⟨by omega, hr.2⟩
        have hp := readerUpTo_pushByte hlen hr' (by omega) hf
        rw [stream_pullTo hlen hn (hp.mono (by omega)) h, stream_pushByte hlen hr' (by omega) hf]

/-- What a pull of `n` bits, with enough rounds, finds. -/
theorem pullTo_stream {n : Nat} {ok : Bool} (hlen : len < 2 ^ 32) (hn : n ≤ 16) (hr : ReaderUpTo (n + 7) r)
    (h : pullTo m len n n r = (ok, r')) :
    stream m len r' = stream m len r ∧ ReaderUpTo (n + 7) r' ∧ (ok = true → n ≤ r'.cnt.toNat) ∧
      (ok = false → (stream m len r).length < n) := by
  have hc := hr.1
  obtain ⟨hok, hno⟩ := pullTo_spec (by omega) (by omega) (by omega) h
  have hs := stream_pullTo hlen hn hr h
  refine ⟨hs, readerUpTo_pullTo hlen hn hr h, hok, fun hf => ?_⟩
  obtain ⟨he, hlt⟩ := hno hf
  rw [← hs, stream_of_eod he, length_natBits]
  exact hlt

/-- The buffer split at its top `n` bits. -/
theorem natBits_buf {n : Nat} (hn : n ≤ r.cnt.toNat) :
    natBits r.cnt.toNat r.buf.toNat = natBits n (topBits r n) ++ natBits (r.cnt.toNat - n) r.buf.toNat := by
  rw [topBits, natBits_mod, ← natBits_add, Nat.add_sub_cancel' hn]

theorem topBits_lt (r : Reader) (n : Nat) : topBits r n < 2 ^ n := Nat.mod_lt _ (Nat.two_pow_pos n)

/-- The top `n` bits of the buffer are the first `n` of the stream. -/
theorem take_stream {n : Nat} (hn : n ≤ r.cnt.toNat) : (stream m len r).take n = natBits n (topBits r n) := by
  rw [stream_eq, natBits_buf hn, List.append_assoc, List.take_left' (length_natBits n _)]

/-- A refill of an empty buffer moves the first byte ahead into it. -/
theorem stream_refill (hlen : len < 2 ^ 32) (hc : r.cnt = 0) : stream m len (refill m len r) = bitsAhead m len r := by
  have hr : stream m len r = bitsAhead m len r := by rw [stream_eq, hc]; rfl
  unfold refill
  split
  · next r' h => rw [(stream_fetch_none h).1, hr]
  · next b r' h =>
    have hb : (b.setWidth 32).toNat = b.toNat := by
      rw [BitVec.toNat_setWidth, Nat.mod_eq_of_lt (b.isLt.trans (by decide))]
    rw [bitsAhead_fetch_some hlen h, stream_eq, bitsAhead_congr rfl rfl, hb]
    rfl

/-- `Consume(n)` takes the first `n` bits off the stream. -/
theorem stream_consume {n : Nat} (hlen : len < 2 ^ 32) (hn : n ≤ r.cnt.toNat) :
    stream m len (consume m len n r) = (stream m len r).drop n := by
  rw [stream_eq m len r, natBits_buf hn, List.append_assoc, List.drop_left' (length_natBits n _)]
  unfold consume
  split
  · next h0 =>
    rw [stream_refill hlen rfl, h0]
    rfl
  · next h0 =>
    have hcnt := r.cnt.isLt
    have hbuf := r.buf.isLt
    have hc : (BitVec.ofNat 5 (r.cnt.toNat - n)).toNat = r.cnt.toNat - n := by rw [BitVec.toNat_ofNat]; omega
    have hb : (word (r.buf.toNat % 2 ^ (r.cnt.toNat - n))).toNat = r.buf.toNat % 2 ^ (r.cnt.toNat - n) := by
      rw [BitVec.toNat_ofNat, Nat.mod_eq_of_lt ((Nat.mod_le _ _).trans_lt hbuf)]
    simp only [stream_eq, hc, hb, natBits_mod]
    rfl

/-- The end of scan, found or not (R113). -/
theorem eosCheck_spec {n : Nat} {ok : Bool} (hlen : len < 2 ^ 32) (hr : ReaderUpTo n r)
    (h : eosCheck m len r = (ok, r')) :
    (ok = true ↔ OnesPadding (stream m len r)) ∧
      (ok = true → r'.eod = true ∧ stream m len r' = stream m len r) := by
  obtain ⟨-, -, hbuf, -⟩ := hr
  have hones := natBits_all_ones hbuf
  have hbuffered : stream m len r = natBits r.cnt.toNat r.buf.toNat →
      (OnesPadding (stream m len r) ↔ r.cnt.toNat ≤ 7 ∧ r.buf.toNat = 2 ^ r.cnt.toNat - 1) := fun he => by
    rw [he, OnesPadding, length_natBits, hones]
  unfold eosCheck at h
  split at h
  · next hc =>
    split at h
    · next he =>
      cases h
      exact ⟨iff_of_true rfl ((hbuffered (stream_of_eod he)).mpr hc), fun _ => ⟨he, rfl⟩⟩
    · split at h
      · next r1 hf =>
        cases h
        obtain ⟨hs, hb⟩ := stream_fetch_none hf
        exact ⟨iff_of_true rfl ((hbuffered hb).mpr hc), fun _ => ⟨(fetch_none hf).1, hs⟩⟩
      · next b r1 hf =>
        cases h
        refine ⟨iff_of_false nofun fun hp => ?_, nofun⟩
        have hl := hp.1
        rw [stream_eq, bitsAhead_fetch_some hlen hf] at hl
        simp only [List.length_append, length_natBits] at hl
        omega
  · next hc =>
    cases h
    refine ⟨iff_of_false nofun fun hp => hc ⟨?_, hones.mp fun b hb => hp.2 b ?_⟩, nofun⟩
    · have hl := hp.1
      rw [stream_eq, List.length_append, length_natBits] at hl
      omega
    · exact List.mem_append_left _ hb

end

end Sys2Proof.Machine
end

section
/-! PROOF. Lookup against the unconsumed bits (40_huffman.md R93, R94): the symbol found is the one whose code stands at
their head, and a miss means that none does. -/

namespace Sys2Proof.Machine

section
variable {t : HuffSlot}

theorem length_codeBits (t : HuffSlot) (x : Byte) : (codeBits t x).length = lenAt t x := length_natBits _ _

/-- Of two codes at the head of the same bits, the shorter heads the longer: they are one (R91 (a)). -/
theorem eq_of_codeBits_prefix (ht : TableOk t) {x y : Byte} {l : List Bool} (hx : x ∈ registered t)
    (hy : y ∈ registered t) (hxl : codeBits t x <+: l) (hyl : codeBits t y <+: l) : x = y := by
  obtain ⟨hfit, -, hfree⟩ := ht
  have key : ∀ x ∈ registered t, ∀ y ∈ registered t, codeBits t x <+: l → codeBits t y <+: l →
      lenAt t x ≤ lenAt t y → x = y := by
    intro x hx y hy hxl hyl hle
    by_contra hne
    refine hfree x hx y hy hne hle (natBits_inj ?_ (hfit x hx).2 ?_)
    · rw [Nat.div_lt_iff_lt_mul (Nat.two_pow_pos _), ← Nat.pow_add, Nat.add_sub_cancel' hle]
      exact (hfit y hy).2
    · have hsplit : codeBits t y = natBits (lenAt t x) (codeAt t y / 2 ^ (lenAt t y - lenAt t x)) ++
          natBits (lenAt t y - lenAt t x) (codeAt t y) := by
        rw [← natBits_add, Nat.add_sub_cancel' hle, codeBits]
      have htop := (List.prefix_append _ _).trans (hsplit ▸ hyl)
      exact (List.prefix_of_prefix_length_le htop hxl (by rw [length_natBits, length_codeBits])).eq_of_length
        (by rw [length_natBits, length_codeBits])
  rcases Nat.le_total (lenAt t x) (lenAt t y) with h | h
  · exact key x hx y hy hxl hyl h
  · exact (key y hy x hx hyl hxl h).symm

section
variable {m : Memory} {len : Nat}

/-- How a lookup over the lengths `l` ends: with a symbol whose code stands at the head of the stream, consumed; or with
none, no code of these lengths standing there. -/
def LookupOk (t : HuffSlot) (m : Memory) (len : Nat) (l : List Nat) (r : Reader) (out : Option Byte × Reader) : Prop :=
  (∃ x, out.1 = some x ∧ x ∈ registered t ∧ codeBits t x <+: stream m len r ∧
    stream m len out.2 = (stream m len r).drop (lenAt t x)) ∨
  (out.1 = none ∧ stream m len out.2 = stream m len r ∧
    ∀ x ∈ registered t, lenAt t x ∈ l → ¬ codeBits t x <+: stream m len r)

/-- No code of length `L` stands there, and the lookup goes on with the same stream. -/
theorem LookupOk.cons {L : Nat} {l : List Nat} {r r' : Reader} {out : Option Byte × Reader}
    (h : LookupOk t m len l r' out) (hs : stream m len r' = stream m len r)
    (hL : ∀ x ∈ registered t, lenAt t x = L → ¬ codeBits t x <+: stream m len r) : LookupOk t m len (L :: l) r out := by
  rw [LookupOk, hs] at h
  refine h.imp id fun ⟨hnone, hout, hmiss⟩ => ⟨hnone, hout, fun x hx hl => ?_⟩
  rcases List.mem_cons.mp hl with hl | hl
  · exact hL x hx hl
  · exact hmiss x hx hl

theorem lookupFrom_ok (ht : TableOk t) (hlen : len < 2 ^ 32) : ∀ {l : List Nat} {r : Reader}, l.Pairwise (· < ·) →
    (∀ L ∈ l, L ∈ codeLengths ∧ ReaderUpTo (L + 7) r) → LookupOk t m len l r (lookupFrom t m len l r)
  | [], _, _, _ => .inr ⟨rfl, rfl, nofun⟩
  | L :: rest, r, hl, hL => by
    have ⟨hfit, hset, _⟩ := ht
    obtain ⟨hlt, hl'⟩ := List.pairwise_cons.mp hl
    obtain ⟨hmem, hrL⟩ := hL L List.mem_cons_self
    obtain ⟨h1, h16⟩ := mem_codeLengths.mp hmem
    unfold lookupFrom
    split
    · split
      · next r1 hp =>
        obtain ⟨hs, -, -, hshort⟩ := pullTo_stream hlen h16 hrL hp
        refine .inr ⟨rfl, hs, fun x _ hx hpre => ?_⟩
        have hxL : L ≤ lenAt t x := (List.mem_cons.mp hx).elim (fun e => e.ge) fun hx => (hlt _ hx).le
        have hle := hpre.length_le
        have := hshort rfl
        rw [length_codeBits] at hle
        omega
      · next r1 hp =>
        obtain ⟨hs, hr1, hcnt, -⟩ := pullTo_stream hlen h16 hrL hp
        have hcnt := hcnt rfl
        have htake : (stream m len r).take L = natBits L (topBits r1 L) := by rw [← hs, take_stream hcnt]
        split
        · next x hmatch =>
          obtain ⟨hxl, hxc⟩ := matchCode_some hmatch
          refine .inl ⟨x, rfl, mem_registered.mpr (by omega), ?_, ?_⟩
          · rw [codeBits, hxl, hxc, ← htake]
            exact List.take_prefix _ _
          · rw [stream_consume hlen hcnt, hs, hxl]
        · next hmatch =>
          have hK : ∀ K ∈ rest, K ∈ codeLengths ∧ ReaderUpTo (K + 7) r1 := fun K hK =>
            ⟨(hL K (List.mem_cons_of_mem _ hK)).1, hr1.mono (by have := hlt K hK; omega)⟩
          refine (lookupFrom_ok ht hlen hl' hK).cons hs fun x hx hxl hpre => ?_
          have hbits := List.prefix_iff_eq_take.mp hpre
          rw [length_codeBits, hxl, htake, codeBits, hxl] at hbits
          exact matchCode_none hmatch x hxl (natBits_inj (hxl ▸ (hfit x hx).2) (topBits_lt r1 L) hbits)
    · next hno =>
      refine (lookupFrom_ok ht hlen hl' fun K hK => hL K (List.mem_cons_of_mem _ hK)).cons rfl fun x hx hxl _ => hno ?_
      rw [hset L hmem]
      exact List.any_eq_true.mpr ⟨x, hx, beq_iff_eq.mpr hxl⟩

theorem lookup_ok {r : Reader} (ht : TableOk t) (hlen : len < 2 ^ 32) (hr : ReaderOk r) :
    LookupOk t m len codeLengths r (lookup t m len r) :=
  lookupFrom_ok ht hlen (by decide) fun L hL =>
    ⟨hL, (readerUpTo_eight.mpr hr).mono (by have := (mem_codeLengths.mp hL).1; omega)⟩

/-- `Lookup` finds the symbol whose code stands at the head of the stream. -/
theorem lookup_of_code {r : Reader} {x : Byte} (ht : TableOk t) (hlen : len < 2 ^ 32) (hr : ReaderOk r)
    (hx : x ∈ registered t) (hpre : codeBits t x <+: stream m len r) :
    ∃ r', lookup t m len r = (some x, r') ∧ stream m len r' = (stream m len r).drop (lenAt t x) ∧ ReaderOk r' := by
  have hcur := fun r' => (lookup_reader (t := t) (m := m) (r' := r') hlen hr).1
  have hok := lookup_ok (m := m) ht hlen hr
  generalize lookup t m len r = out at hok hcur
  obtain ⟨found, r'⟩ := out
  rcases hok with ⟨y, hy, hreg, hypre, hs⟩ | ⟨-, -, hmiss⟩
  · obtain rfl := eq_of_codeBits_prefix ht hreg hx hypre hpre
    have hy : found = some y := hy
    subst hy
    exact ⟨r', rfl, hs, hcur r' y rfl⟩
  · have hl16 := (ht.1 x hx).1
    have hl0 := mem_registered.mp hx
    exact absurd hpre (hmiss x hx (mem_codeLengths.mpr ⟨by omega, hl16⟩))

/-- `Lookup` finds none when no code stands there, and leaves the stream. -/
theorem lookup_of_miss {r : Reader} (ht : TableOk t) (hlen : len < 2 ^ 32) (hr : ReaderOk r)
    (hno : NoCodeAhead t (stream m len r)) :
    ∃ r', lookup t m len r = (none, r') ∧ stream m len r' = stream m len r ∧ ReaderUpTo 23 r' := by
  have hcur := fun r' => (lookup_reader (t := t) (m := m) (r' := r') hlen hr).2
  have hok := lookup_ok (m := m) ht hlen hr
  generalize lookup t m len r = out at hok hcur
  obtain ⟨found, r'⟩ := out
  rcases hok with ⟨y, -, hreg, hypre, -⟩ | ⟨hnone, hs, -⟩
  · exact absurd hypre (hno y hreg)
  · have hnone : found = none := hnone
    subst hnone
    exact ⟨r', rfl, hs, hcur r' rfl⟩

end

end

end Sys2Proof.Machine

open Sys2Proof Sys2Proof.Machine

/-- Settles O18: the lookup finds the one symbol whose code stands at the head of the bits. -/
theorem hdecReturnsTheSymbolAhead : Obligations.HdecReturnsTheSymbolAhead := by
  intro slot eosok s x hs hv ht hr hx hpre
  obtain ⟨r', hlook, hstream, hok⟩ := lookup_of_code ht s.inLen.isLt hr hx hpre
  refine ⟨r', ?_, hstream, hok⟩
  rw [exec_eq_body, body, checkBuilt_of_valid _ hs hv, decodeSymbol, hlook]
  rfl

/-- Settles O19: a miss leaves the bits, and the check for the end of scan tells what they are. -/
theorem hdecMissIsEndOfScanOrFault : Obligations.HdecMissIsEndOfScanOrFault := by
  intro slot eosok s hs hv ht hr hrec hno
  obtain ⟨r', hlook, hstream, hup⟩ := lookup_of_miss ht s.inLen.isLt hr hno
  have hexec : exec (.hdec slot eosok) s = endCommand (decodeSymbol slot eosok s) := by
    rw [exec_eq_body, body, checkBuilt_of_valid _ hs hv]
  have hmiss : ∀ r, endCommand (.raise .huffMiss (word slot) { s with rd := r }) =
      .next { s with rd := r, recorded := some ⟨.huffMiss, word slot⟩, faultP := true, inFlight := none } :=
    fun r => by rw [endCommand_raise, faultEntry_of_none _ _ (by exact hrec)]
  rw [hexec, decodeSymbol, hlook]
  obtain ⟨ok, r'', heos⟩ : ∃ ok r'', eosCheck s.mem s.inLen.toNat r' = (ok, r'') := ⟨_, _, rfl⟩
  obtain ⟨hiff, hend⟩ := eosCheck_spec s.inLen.isLt hup heos
  rw [hstream] at hiff hend
  refine ⟨fun he hpad => ?_, fun hnot => ?_⟩
  · obtain rfl := hiff.mpr hpad
    obtain ⟨heod, hkept⟩ := hend rfl
    refine ⟨r'', ?_, heod, hkept⟩
    simp only [he, if_true, heos]
    rfl
  · cases eosok with
    | false => exact ⟨_, hmiss r', rfl, rfl, rfl, rfl, rfl⟩
    | true =>
      obtain rfl : ok = false := by simpa using mt hiff.mp fun hpad => hnot ⟨rfl, hpad⟩
      simp only [if_true, heos]
      exact ⟨_, hmiss r'', rfl, rfl, rfl, rfl, rfl⟩

end

section
/-! PROOF. Categories and VLI patterns (41_bitio.md R117, R123): the category as the least width, the category of a
pattern's value, and the pattern of a value. -/

namespace Sys2Proof.Machine

/-! ### The category -/

theorem bitlen_le_iff {x d : Nat} : bitlen x ≤ d ↔ x < 2 ^ d := by
  unfold bitlen
  split
  · next h => simp [h]
  · next h => rw [Nat.succ_le_iff, Nat.log2_lt h]

/-- The category is the least width that holds the magnitude. -/
theorem cat_le_iff {v : Int} {d : Nat} : cat v ≤ d ↔ v.natAbs < 2 ^ d := bitlen_le_iff

theorem natAbs_lt_two_pow_cat (v : Int) : v.natAbs < 2 ^ cat v := cat_le_iff.mp (Nat.le_refl _)

theorem cat_eq_zero_iff {v : Int} : cat v = 0 ↔ v = 0 := by
  rw [← Nat.le_zero, cat_le_iff, Nat.pow_zero, Nat.lt_one_iff, Int.natAbs_eq_zero]

/-- A category `c + 1` is a magnitude with its top bit at `c`. -/
theorem cat_eq_succ_iff {v : Int} {c : Nat} : cat v = c + 1 ↔ 2 ^ c ≤ v.natAbs ∧ v.natAbs < 2 ^ (c + 1) := by
  rw [← cat_le_iff, ← Nat.not_lt, ← cat_le_iff]
  omega

theorem cat_le_of_natAbs_le {v : Int} (h : v.natAbs ≤ 2 ^ 31) : cat v ≤ 32 :=
  cat_le_iff.mpr (lt_of_le_of_lt h (by decide))

theorem cat_arg0Int_le (s : State) : cat (arg0Int s) ≤ 32 := by
  have hlt := BitVec.toInt_lt (x := s.arg0)
  have hle := BitVec.le_toInt (x := s.arg0)
  exact cat_le_of_natAbs_le (by unfold arg0Int; omega)

/-! ### Patterns -/

/-- The pattern of a positive value is the value. -/
theorem vliBits_of_pos {v : Int} (h : 0 < v) (c : Nat) : (vliBits v c : Int) = v := by
  rw [vliBits, if_pos h, Int.toNat_of_nonneg h.le]

/-- The pattern of a negative value lies `2^c - 1` above it. -/
theorem vliBits_of_neg {v : Int} (h : v < 0) {c : Nat} (hc : v.natAbs < 2 ^ c) :
    (vliBits v c : Int) = v + 2 ^ c - 1 := by
  have hc : (v.natAbs : Int) < 2 ^ c := by exact_mod_cast hc
  rw [vliBits, if_neg (by omega), Int.toNat_of_nonneg (by omega)]

section
variable {x c : Nat}

/-- Powers of two as `omega` needs them, the next one in terms of this one. -/
theorem two_pow_succ_forms (c : Nat) :
    (2 : Int) ^ (c + 1) = 2 * 2 ^ c ∧ 2 ^ (c + 1) = 2 * 2 ^ c ∧ ((2 ^ c : Nat) : Int) = 2 ^ c ∧ 0 < 2 ^ c :=
  ⟨by rw [pow_succ, mul_comm], by rw [pow_succ, mul_comm], by push_cast; rfl, Nat.two_pow_pos c⟩

theorem testBit_top_of_le (hx : x < 2 ^ (c + 1)) (h : 2 ^ c ≤ x) : x.testBit c = true := by
  rw [Nat.testBit_eq_decide_div_mod_eq, decide_eq_true_eq]
  have : x / 2 ^ c = 1 := Nat.div_eq_of_lt_le (by omega) (by rw [Nat.pow_succ] at hx; omega)
  omega

/-- A pattern with its top bit set stands for itself. -/
theorem vliDecode_of_high (hx : x < 2 ^ (c + 1)) (h : 2 ^ c ≤ x) : vliDecode x (c + 1) = x := by
  rw [vliDecode, if_neg (Nat.succ_ne_zero c), Nat.add_sub_cancel, if_pos (testBit_top_of_le hx h)]

/-- A pattern with its top bit clear stands for a negative value. -/
theorem vliDecode_of_low (h : x < 2 ^ c) : vliDecode x (c + 1) = x + 1 - 2 ^ (c + 1) := by
  rw [vliDecode, if_neg (Nat.succ_ne_zero c), Nat.add_sub_cancel, if_neg (by simp [Nat.testBit_lt_two_pow h])]

/-- A pattern's value has the pattern's width as its category, and the pattern as its pattern. -/
theorem vliBits_vliDecode (hx : x < 2 ^ (c + 1)) :
    cat (vliDecode x (c + 1)) = c + 1 ∧ vliBits (vliDecode x (c + 1)) (c + 1) = x := by
  obtain ⟨hpow, hnat, hcast, hpos⟩ := two_pow_succ_forms c
  rcases Nat.lt_or_ge x (2 ^ c) with h | h
  · have hv := vliDecode_of_low h
    have hcat : cat (vliDecode x (c + 1)) = c + 1 := cat_eq_succ_iff.mpr (by omega)
    have hb := vliBits_of_neg (v := vliDecode x (c + 1)) (by omega) (c := c + 1) (by omega)
    exact ⟨hcat, by omega⟩
  · have hv := vliDecode_of_high hx h
    have hb := vliBits_of_pos (v := vliDecode x (c + 1)) (by omega) (c + 1)
    exact ⟨cat_eq_succ_iff.mpr (by omega), by omega⟩

/-- A value's pattern has the value's category as its width, and the value as its value. -/
theorem vliDecode_vliBits_succ {v : Int} (h : cat v = c + 1) :
    vliBits v (c + 1) < 2 ^ (c + 1) ∧ vliDecode (vliBits v (c + 1)) (c + 1) = v := by
  obtain ⟨hlow, hhigh⟩ := cat_eq_succ_iff.mp h
  obtain ⟨hpow, hnat, hcast, hpos⟩ := two_pow_succ_forms c
  rcases lt_or_ge 0 v with hv | hv
  · have hb := vliBits_of_pos hv (c + 1)
    have hlt : vliBits v (c + 1) < 2 ^ (c + 1) := by omega
    exact ⟨hlt, by rw [vliDecode_of_high hlt (by omega), hb]⟩
  · have hb := vliBits_of_neg (v := v) (by omega) hhigh
    exact ⟨by omega, by rw [vliDecode_of_low (by omega), hb]; omega⟩

end

@[simp] theorem vliDecode_zero (x : Nat) : vliDecode x 0 = 0 := rfl

/-- A value is read back from its pattern (R117). -/
theorem vliDecode_vliBits (v : Int) : vliBits v (cat v) < 2 ^ cat v ∧ vliDecode (vliBits v (cat v)) (cat v) = v := by
  cases h : cat v with
  | zero => rw [cat_eq_zero_iff.mp h]; decide
  | succ c => exact vliDecode_vliBits_succ h

/-- The values of a category are two intervals (R117). -/
theorem cat_eq_succ_iff_interval {v : Int} {c : Nat} : cat v = c + 1 ↔
    (-(2 ^ (c + 1) - 1) ≤ v ∧ v ≤ -2 ^ c) ∨ ((2 : Int) ^ c ≤ v ∧ v ≤ 2 ^ (c + 1) - 1) := by
  obtain ⟨hpow, hnat, hcast, hpos⟩ := two_pow_succ_forms c
  rw [cat_eq_succ_iff]
  omega

end Sys2Proof.Machine

open Sys2Proof Sys2Proof.Machine

/-- Settles O38: the category is a binary length, and a pattern and its value determine each other. -/
theorem vliIsABijection : Obligations.VliIsABijection := by
  refine ⟨fun v => ⟨natAbs_lt_two_pow_cat v, fun d => cat_le_iff.mpr, cat_le_of_natAbs_le⟩,
    fun v => ⟨fun h => vliBits_of_pos h _, fun h => vliBits_of_neg h (natAbs_lt_two_pow_cat v)⟩,
    fun x c h1 _ hx => ?_, fun c h1 _ => ?_, fun v => cat_eq_zero_iff, vliDecode_zero, rfl⟩
  · obtain ⟨c, rfl⟩ := Nat.exists_eq_add_of_le' h1
    exact ⟨vliDecode_of_high hx, vliDecode_of_low⟩
  · obtain ⟨c, rfl⟩ := Nat.exists_eq_add_of_le' h1
    exact ⟨fun x => vliBits_vliDecode, fun v => vliDecode_vliBits_succ, fun v => cat_eq_succ_iff_interval⟩

/-- Settles O34: the category is at most 32 for a 32-bit value, and a word that decodes to VCAT is its encoding. -/
theorem vcatReturnsTheCategory : Obligations.VcatReturnsTheCategory := by
  refine ⟨fun w => ⟨fun h => (decodedWordIsItsEncoding w _ h).1.symm, ?_⟩, fun s =>
    ⟨cat (arg0Int s), cat_arg0Int_le s, natAbs_lt_two_pow_cat _, fun d => cat_le_iff.mpr, rfl⟩⟩
  rintro rfl
  exact decodeOfEncodeIsTheCommand .vcat trivial

end

section
/-! PROOF. The writing commands as bits appended (41_bitio.md R118 to R124, 42_block.md R141), with room for their bytes
and without. -/

namespace Sys2Proof.Machine

/-! ### Bits without room -/

theorem putBitList_frame {limit : Nat} (hlim : limit < 2 ^ 32) : ∀ (bits : List Bool) (p : OutPort),
    (putBitList limit bits p).Ends (AppendFrame limit p)
  | [], p => appendFrame_refl limit p
  | bit :: bits, p => appendFrame_andThen (putBit_frame limit hlim bit p) fun _ q => putBitList_frame hlim bits q

section
variable {limit : Nat} {w : Writer}

/-- The byte a bit completes, stuffed. -/
theorem emitted_of_full {bit : Bool} (hw : WriterOk w) (h8 : (pushBit w bit).cnt = 8) :
    emitted w [bit] = stuff [(pushBit w bit).acc] := by
  have hbits : pending (pushBit w bit) = natBits 8 (pushBit w bit).acc.toNat := by rw [pending, h8]; rfl
  rw [emitted_eq, ← pending_pushBit bit hw, hbits, stuffedBytes_natBits_eight]

/-- Bits that complete no byte need no room. -/
theorem room_of_lt {bits : List Bool} (h : w.cnt.toNat + bits.length < 8) : Room limit w bits :=
  .inl (stuffedBytes_of_lt (by simpa using h))

/-- Room for bits, and then for more, is room for both. -/
theorem Room.append {w' : Writer} {m m' : Memory} {k l : List Bool} (hk : Room limit w k)
    (happ : Appended w m k w' m') (hl : Room limit w' l) : Room limit w (k ++ l) := by
  obtain ⟨hptr, hpend, -⟩ := happ
  have hpend : pending w' = leftOver (pending w ++ k) := hpend
  rw [Room, emitted_eq] at hk
  rw [Room, emitted_eq, hptr, hpend, emitted_eq] at hl
  rw [Room, emitted_eq, ← List.append_assoc, stuffedBytes_append, List.append_eq_nil_iff, List.length_append]
  rcases hl with hl | hl
  · simpa [hl] using hk
  · exact .inr (by omega)

/-- A bit that completes a byte that does not fit raises WR_FULL. -/
theorem putBit_full (hlim : limit < 2 ^ 32) (bit : Bool) {p : OutPort} (hw : WriterOk p.wr)
    (hno : ¬ Room limit p.wr [bit]) : ∃ q, putBit limit bit p = .raise .wrFull q.wr.ptr q := by
  have hcnt := pushBit_cnt p.wr bit hw.1
  unfold putBit
  by_cases h8 : (pushBit p.wr bit).cnt = 8
  · rw [if_pos h8]
    rcases emitByte_cases limit (pushBit p.wr bit).acc { p with wr := pushBit p.wr bit } hlim with
      ⟨-, he⟩ | ⟨q, -, hptr, hle, -⟩
    · exact ⟨{ p with wr := pushBit p.wr bit }, by rw [he]; rfl⟩
    · have hsize : (emitted p.wr [bit]).length = stuffedSize (pushBit p.wr bit).acc := by
        rw [emitted_of_full hw h8, length_stuff_singleton]
      have hptr : q.wr.ptr.toNat = p.wr.ptr.toNat + stuffedSize (pushBit p.wr bit).acc := hptr
      exact absurd (.inr (by omega)) hno
  · have hne : (pushBit p.wr bit).cnt.toNat ≠ 8 := fun e => h8 (BitVec.eq_of_toNat_eq e)
    have hc := hw.1
    exact absurd (room_of_lt (by rw [List.length_singleton]; omega)) hno

/-- Bits whose bytes do not all fit raise WR_FULL at the first that does not. -/
theorem putBitList_full (hlim : limit < 2 ^ 32) : ∀ {bits : List Bool} {p : OutPort}, WriterOk p.wr →
    ¬ Room limit p.wr bits → ∃ q, putBitList limit bits p = .raise .wrFull q.wr.ptr q
  | [], _, hw, hno => absurd (room_of_lt (bits := []) (Nat.lt_succ_of_le hw.1)) hno
  | bit :: bits, p, hw, hno => by
    rw [putBitList]
    by_cases hfirst : Room limit p.wr [bit]
    · obtain ⟨q, hq, happ⟩ := putBit_appends hlim bit hw hfirst
      rw [hq, andThen_ok]
      exact putBitList_full hlim happ.2.2.1 fun hrest => hno (hfirst.append happ hrest)
    · obtain ⟨q, hq⟩ := putBit_full hlim bit hw hfirst
      exact ⟨q, by rw [hq, andThen_raise]⟩

end

/-! ### FLUSH's padding (R124) -/

theorem natBits_ones (n : Nat) : natBits n (2 ^ n - 1) = List.replicate n true :=
  List.eq_replicate_iff.mpr ⟨length_natBits _ _,
    (natBits_all_ones (Nat.sub_lt (Nat.two_pow_pos n) Nat.one_pos)).mpr rfl⟩

/-- The bits FLUSH appends: ones up to the end of a partial byte. -/
def padding (w : Writer) : List Bool := if w.cnt = 0 then [] else List.replicate (8 - w.cnt.toNat) true

theorem flushBits_eq (limit : Nat) (p : OutPort) : flushBits limit p = putBitList limit (padding p.wr) p := by
  unfold flushBits padding
  split
  · rfl
  · rw [putBits_eq, natBits_ones]

/-- The padding ends the byte. -/
theorem length_pending_padding {w : Writer} (hw : WriterOk w) : (pending w ++ padding w).length % 8 = 0 := by
  have hc := hw.1
  rw [List.length_append, length_pending, padding]
  split
  · next h => rw [h]; rfl
  · rw [List.length_replicate]; omega

/-! ### The commands -/

section
variable {s : State}

theorem checkAll_of_find?_eq_none {l : List (Bool × FaultCode × Word)} {k : Run State Unit}
    (h : l.find? (fun x => x.1) = none) : checkAll s l k = k := by
  induction l with
  | nil => rfl
  | cons d l ih =>
    obtain ⟨fails, code, info⟩ := d
    cases fails with
    | true => cases h
    | false => exact ih h

/-- Operands that pass every check: the body goes on (R75). -/
theorem checkAll_of_no_fault {i : Instr} (h : firstOperandFault i s = none) (k : Run State Unit) :
    checkAll s (operandChecks i s) k = k :=
  checkAll_of_find?_eq_none (Option.map_eq_none_iff.mp h)

theorem body_putbits {n : Nat} (hn : n ≤ 32) : body (.putbits n) s =
    (putBitList s.outLen.toNat (natBits n (arg0Nat s)) (outPort s)).lift (withOutPort s) := by
  rw [body, checkLen_of_le _ _ hn, putBits_eq]

/-- The bits PUTVLI appends: the pattern of ARG0 (R122). -/
def argPattern (s : State) : List Bool := natBits (cat (arg0Int s)) (vliBits (arg0Int s) (cat (arg0Int s)))

theorem body_putvli (h : cat (arg0Int s) ≤ 15) : body .putvli s =
    ((putBitList s.outLen.toNat (argPattern s) (outPort s)).lift (withOutPort s)).andThen
      fun _ u => .ok () { u with res := word (cat (arg0Int s)) } := by
  rw [body, decide_eq_true h, check_true, putBits_eq, argPattern]

theorem body_putvli_of_range (h : 15 < cat (arg0Int s)) : body .putvli s = .raise .vliRange s.arg0 s := by
  rw [body, decide_eq_false (Nat.not_le.mpr h), check_false]

theorem body_flush : body .flush s =
    (putBitList s.outLen.toNat (padding s.wr) (outPort s)).lift (withOutPort s) := by
  rw [body, flushBits_eq, outPort_wr]

/-- A writing command's body appends its bits, and changes at most a register after them. -/
theorem body_of_bitsToWrite {i : Instr} {bits : List Bool} (hf : firstOperandFault i s = none)
    (hb : bitsToWrite i s = some bits) : ∃ after : State → State, body i s =
      ((putBitList s.outLen.toNat bits (outPort s)).lift (withOutPort s)).andThen fun _ u => .ok () (after u) := by
  have hcheck := checkAll_of_no_fault hf
  unfold bitsToWrite at hb
  split at hb
  · next slot sym =>
    split at hb
    · cases hb
    · next hlen =>
      cases hb
      refine ⟨id, ?_⟩
      simp only [operandChecks, checkAll_slotChecks] at hcheck
      rw [body, hcheck, hencSym_of_code hlen]
      exact (andThen_ok_self _).symm
  · next n =>
    cases hb
    refine ⟨id, ?_⟩
    simp only [operandChecks, checkAll_len] at hcheck
    rw [body, hcheck, putBits_eq]
    exact (andThen_ok_self _).symm
  · split at hb
    · cases hb
    · next hcat =>
      cases hb
      exact ⟨_, body_putvli (Nat.not_lt.mp hcat)⟩
  · cases hb
    exact ⟨id, body_flush.trans (andThen_ok_self _).symm⟩
  · cases hb

/-- A block's body appends the bits of its DC item and of the AC items that have a code, then codes the others. -/
theorem encodeBlock_prefix {dcs acs comp : Nat} {pre post : List (Byte × Int)} (hl : LengthsOk s)
    (hdc : ItemOk (slotOf s dcs) (dcItem (drOf s.cfg s.mem comp (arg0Nat s))))
    (hitems : acItems 0 (acList s.cfg s.mem comp (arg0Nat s)) = pre ++ post)
    (hpre : ∀ y ∈ pre, ItemOk (slotOf s acs) y) :
    encodeBlock dcs acs comp s (outPort s) =
      (putBitList s.outLen.toNat
          (codedBits (slotOf s dcs) (slotOf s acs) (drOf s.cfg s.mem comp (arg0Nat s)) pre) (outPort s)).andThen
        fun _ q => encodeItems (slotOf s acs) s.outLen.toNat post q := by
  rw [encodeBlock_eq hl, outPort_mem, hitems, encodeItem_of_ok hdc, codedBits, putBitList_append, andThen_assoc]
  simp only [encodeItems_append, encodeItems_of_ok s.outLen.toNat _ hpre]

/-- What the host finds when a command's bytes do not fit (R118, R201). -/
theorem exec_of_full {i : Instr} {q : OutPort} (hr : s.recorded = none)
    (hbody : body i s = .raise .wrFull q.wr.ptr (withOutPort s q)) (hq : AppendFrame s.outLen.toNat (outPort s) q) :
    ∃ t, exec i s = .next t ∧ t.recorded = some ⟨.wrFull, t.wr.ptr⟩ ∧ t.faultP = true ∧ t.done = s.done ∧
      (∀ a, outAddr s.outLen.toNat ≤ a → memRead t.mem a = memRead s.mem a) := by
  obtain ⟨hrec, hp, hdone, -⟩ := faultEntry_withOutPort (code := .wrFull) (info := q.wr.ptr) (q := q) hr rfl
  obtain ⟨-, -, -, hframe⟩ := hq
  refine ⟨_, by rw [exec_eq_body, hbody, endCommand_raise], ?_, hp, hdone, fun a ha => ?_⟩
  · rw [hrec, faultEntry_wr, withOutPort_wr]
  · rw [faultEntry_mem]; exact hframe a (.inr ha)

end

end Sys2Proof.Machine

open Sys2Proof Sys2Proof.Machine

/-- Settles O31: the new cursor holds no bit. -/
theorem wrinitDiscardsPendingBits : Obligations.WrinitDiscardsPendingBits :=
  fun s => ⟨{ ptr := s.arg0, acc := 0, cnt := 0 }, rfl, rfl, rfl, Nat.zero_le _, Nat.one_pos⟩

/-- Settles O32: the low bits of ARG0 are appended one by one, each with room for the byte it completes. -/
theorem putbitsAppendsLowBits : Obligations.PutbitsAppendsLowBits := by
  intro n s hn hw hroom
  obtain ⟨q, hq, happ⟩ := putBitList_appends s.outLen.isLt (natBits n (arg0Nat s)) (p := outPort s) hw hroom
  refine ⟨q.wr, q.mem, ?_, happ⟩
  rw [exec_eq_body, body_putbits hn, hq]
  rfl

/-- Settles O33: the pattern's bits are appended as PUTBITS appends its own; the range check comes before them. -/
theorem putvliAppendsThePattern : Obligations.PutvliAppendsThePattern := by
  refine fun s => ⟨fun hcat hw hroom => ?_, fun hcat hr => ?_⟩
  · obtain ⟨q, hq, happ⟩ := putBitList_appends s.outLen.isLt (argPattern s) (p := outPort s) hw hroom
    refine ⟨q.wr, q.mem, ?_, happ⟩
    rw [exec_eq_body, body_putvli hcat, hq]
    rfl
  · rw [exec_eq_body, body_putvli_of_range hcat, endCommand_raise, faultEntry_of_none _ _ hr]

/-- Settles O35: the padding ends the byte, so none of the bits appended is left over. -/
theorem flushPadsWithOnes : Obligations.FlushPadsWithOnes := by
  rintro s bits hw rfl hroom
  obtain ⟨q, hq, happ⟩ := putBitList_appends s.outLen.isLt (padding s.wr) (p := outPort s) hw hroom
  refine ⟨q.wr, q.mem, ?_, happ, ?_, fun h0 => ?_⟩
  · rw [exec_eq_body, body_flush, hq]
    rfl
  · have hend := length_pending_padding hw
    rw [happ.2.1]
    exact List.drop_of_length_le (by simp only [outPort_wr]; omega)
  · rw [padding, if_pos h0] at hq
    cases hq
    exact ⟨rfl, rfl⟩

/-- Settles O36: the bits without room raise WR_FULL, in a block when they are those of the items before the first that
cannot be coded; the bytes written before lie below OUT_LEN. -/
theorem writingWithoutRoomFaults : Obligations.WritingWithoutRoomFaults := by
  refine ⟨fun i s bits hf hb hw hr hno => ?_, fun dcs acs comp s v pre post hf hw hl hr hv hitems hdc hpre hno => ?_⟩
  · obtain ⟨after, hbody⟩ := body_of_bitsToWrite hf hb
    obtain ⟨q, hq⟩ := putBitList_full s.outLen.isLt (p := outPort s) hw hno
    refine exec_of_full (q := q) hr ?_ (ends_of_eq_raise (putBitList_frame s.outLen.isLt _ _) hq)
    rw [hbody, hq, lift_raise, andThen_raise]
  · subst hv
    obtain ⟨q, hq⟩ := putBitList_full s.outLen.isLt (p := outPort s) hw hno
    have hcheck := checkAll_of_no_fault hf
    simp only [operandChecks, checkAll_append, checkAll_slotChecks, checkAll_blockChecks] at hcheck
    refine exec_of_full (q := q) hr ?_ (ends_of_eq_raise (putBitList_frame s.outLen.isLt _ _) hq)
    rw [body, hcheck, encodeBlock_prefix hl hdc hitems hpre, hq, andThen_raise, lift_raise, andThen_raise]

end

section
/-! PROOF. Stuffing and destuffing (41_bitio.md R110, R118, R125): emitted bytes stand in OUT stuffed, and fetching a
stuffed byte string gives the bytes back. -/

namespace Sys2Proof.Machine

/-! ### Bytes emitted -/

theorem stuff_cons (b : Byte) (bytes : List Byte) : stuff (b :: bytes) = stuff [b] ++ stuff bytes :=
  stuff_append [b] bytes

theorem length_stuff_cons (b : Byte) (bytes : List Byte) :
    (stuff (b :: bytes)).length = stuffedSize b + (stuff bytes).length := by
  rw [stuff_cons, List.length_append, length_stuff_singleton]

/-- Bytes with room stand in OUT stuffed, from WR_PTR on, with nothing below changed. -/
theorem emitAll_stores {limit : Nat} (hlim : limit < 2 ^ 32) : ∀ {bytes : List Byte} {p : OutPort},
    p.wr.ptr.toNat + (stuff bytes).length ≤ limit →
    ∃ q, emitAll limit bytes p = .ok () q ∧ q.wr.ptr.toNat = p.wr.ptr.toNat + (stuff bytes).length ∧
      (∀ i, i < (stuff bytes).length → memRead q.mem (outAddr (p.wr.ptr.toNat + i)) = (stuff bytes).getD i 0) ∧
      ∀ a, a < outAddr p.wr.ptr.toNat → memRead q.mem a = memRead p.mem a
  | [], p, _ => ⟨p, rfl, rfl, nofun, fun _ _ => rfl⟩
  | b :: bytes, p, hroom => by
    rw [length_stuff_cons] at hroom ⊢
    rcases emitByte_cases limit b p hlim with ⟨hfull, -⟩ | ⟨u, hu, hptr, -, -, -, hmem⟩
    · omega
    · obtain ⟨q, hq, hptr', hbytes, hframe⟩ := emitAll_stores hlim (bytes := bytes) (p := u) (by omega)
      refine ⟨q, by rw [emitAll, hu, andThen_ok, hq], by omega, fun i hi => ?_, fun a ha => ?_⟩
      · have hone := length_stuff_singleton b
        rw [stuff_cons]
        by_cases hb : i < stuffedSize b
        · rw [hframe _ (by unfold outAddr; omega), hmem, memRead_storeStuffed_getD _ _ _ hb,
            List.getD_append _ _ _ _ (by omega)]
        · rw [show p.wr.ptr.toNat + i = u.wr.ptr.toNat + (i - stuffedSize b) by omega, hbytes _ (by omega),
            List.getD_append_right _ _ _ _ (by omega), hone]
      · rw [hframe a (by unfold outAddr at ha ⊢; omega), hmem, memRead_storeStuffed_other _ (.inl ha)]

/-! ### Bytes fetched back -/

section
variable {m : Memory} {len : Nat} {r : Reader}

/-- The byte string stands in IN from index `p` up to the end of the data. -/
def StandsAt (m : Memory) (len p : Nat) (l : List Byte) : Prop :=
  len = p + l.length ∧ ∀ i, i < l.length → memRead m (inAddr (p + i)) = l.getD i 0

theorem StandsAt.drop {p : Nat} {k l : List Byte} (h : StandsAt m len p (k ++ l)) :
    StandsAt m len (p + k.length) l := by
  obtain ⟨hlen, hbytes⟩ := h
  rw [List.length_append] at hlen hbytes
  refine ⟨by omega, fun i hi => ?_⟩
  rw [Nat.add_assoc, hbytes _ (by omega), List.getD_append_right _ _ _ _ (by omega), Nat.add_sub_cancel_left]

/-- A fetch takes one byte off a stuffed string, with its stuffing. -/
theorem fetch_stuffed {b : Byte} {bytes : List Byte} (hlen : len < 2 ^ 32) (he : r.eod = false)
    (h : StandsAt m len r.ptr.toNat (stuff (b :: bytes))) :
    ∃ r', fetch m len r = (some b, r') ∧ r'.eod = false ∧ StandsAt m len r'.ptr.toNat (stuff bytes) := by
  have hend := h.1
  have hone := length_stuff_singleton b
  rw [length_stuff_cons] at hend
  have hrest : StandsAt m len (r.ptr.toNat + stuffedSize b) (stuff bytes) := hone ▸ (stuff_cons b bytes ▸ h).drop
  obtain ⟨-, hbytes⟩ := h
  have hpos : ¬ len ≤ r.ptr.toNat := by unfold stuffedSize at hend; split at hend <;> omega
  by_cases hb : b = 0xFF
  · subst hb
    have h0 : memRead m (inAddr r.ptr.toNat) = 0xFF := hbytes 0 (Nat.succ_pos _)
    have h1 : memRead m (inAddr (r.ptr.toNat + 1)) = 0x00 := hbytes 1 (Nat.succ_lt_succ (Nat.succ_pos _))
    have hsize : stuffedSize 0xFF = 2 := rfl
    rw [hsize] at hend hrest
    refine ⟨{ r with ptr := r.ptr + 2 }, ?_, he, ?_⟩
    · rw [fetch, he, if_neg (by decide), if_neg hpos, if_neg (not_not_intro h0), if_neg (by omega), if_pos h1]
    · rwa [BitVec.toNat_add, Nat.mod_eq_of_lt (by simp; omega)]
  · have hstuff : stuff (b :: bytes) = b :: stuff bytes := if_neg hb
    rw [hstuff] at hbytes
    have h0 : memRead m (inAddr r.ptr.toNat) = b := hbytes 0 (Nat.succ_pos _)
    have hsize : stuffedSize b = 1 := if_neg hb
    rw [hsize] at hend hrest
    refine ⟨{ r with ptr := r.ptr + 1 }, ?_, he, ?_⟩
    · rw [fetch, he, if_neg (by decide), if_neg hpos, h0, if_pos hb]
    · rwa [BitVec.toNat_add, Nat.mod_eq_of_lt (by simp; omega)]

/-- Fetching a stuffed string to its end gives its bytes, then none, with no marker (R125). -/
theorem fetchAll_stuffed (hlen : len < 2 ^ 32) : ∀ {bytes : List Byte} {r : Reader}, r.eod = false →
    StandsAt m len r.ptr.toNat (stuff bytes) →
    (fetchAll m len (bytes.length + 1) r).1 = bytes.map some ++ [none] ∧
      (fetchAll m len (bytes.length + 1) r).2.marker = false
  | [], r, he, h => by
    have hpast : len ≤ r.ptr.toNat := h.1.le
    have hend : fetch m len r = (none, { r with eod := true, marker := false }) := by
      rw [fetch, he, if_neg (by decide), if_pos hpast]
    simp [fetchAll, hend]
  | b :: bytes, r, he, h => by
    obtain ⟨r', hf, he', h'⟩ := fetch_stuffed hlen he h
    obtain ⟨hbytes, hmarker⟩ := fetchAll_stuffed hlen he' h'
    rw [List.length_cons, fetchAll, hf, List.map_cons, List.cons_append, ← hbytes]
    exact ⟨rfl, hmarker⟩

end

end Sys2Proof.Machine

open Sys2Proof Sys2Proof.Machine

/-- Settles O37: the bytes stand stuffed in OUT, and so in IN, where each fetch takes one with its stuffing. -/
theorem stuffingRoundTrip : Obligations.StuffingRoundTrip := by
  intro bytes limit p hlim hroom
  obtain ⟨q, hq, hptr, hbytes, -⟩ := emitAll_stores hlim hroom
  refine ⟨q, hq, hptr, fun m r hcopy hr0 he => fetchAll_stuffed (by omega) he ?_⟩
  rw [hr0]
  exact ⟨(Nat.zero_add _).symm, fun i hi => by
    rw [show ((0 : Word).toNat + i) = i from Nat.zero_add i, hcopy i hi, hbytes i hi]⟩

end

section
/-! PROOF. The reading commands against the unconsumed bits (41_bitio.md R110 to R116): where RDINIT starts the stream,
and what the next bits taken are. -/

namespace Sys2Proof.Machine

section
variable {m : Memory} {len : Nat} {r : Reader}

/-! ### The start of the stream (R114) -/

/-- A fetch sets MARKER exactly at a 0xFF with a byte other than 0x00 after it (R110). -/
theorem fetch_marker (he : r.eod = false) (hm : r.marker = false) : (fetch m len r).2.marker = true ↔
    r.ptr.toNat + 1 < len ∧ memRead m (inAddr r.ptr.toNat) = 0xFF ∧ memRead m (inAddr (r.ptr.toNat + 1)) ≠ 0x00 := by
  rw [fetch, if_neg (by simp [he])]
  split
  · next h => exact iff_of_false nofun fun h' => by omega
  · split
    · next hb => exact iff_of_false (by simp [hm]) fun h' => hb h'.2.1
    · next hb =>
      split
      · next h => exact iff_of_false nofun fun h' => by omega
      · next h =>
        split
        · next h0 => exact iff_of_false (by simp [hm]) fun h' => h'.2.2 h0
        · next h0 => exact iff_of_true rfl ⟨Nat.not_le.mp h, Decidable.of_not_not hb, h0⟩

theorem refill_marker : (refill m len r).marker = (fetch m len r).2.marker := by
  unfold refill
  split <;> next h => rw [h]

/-- A refill ends the data exactly when no byte is ahead, and RD_PTR then stays. -/
theorem refill_eod (hlen : len < 2 ^ 32) : ((refill m len r).eod = true ↔ bytesAhead m len r = []) ∧
    ((refill m len r).eod = true → (refill m len r).ptr = r.ptr) := by
  unfold refill
  split
  · next r' h =>
    obtain ⟨he, hptr, -, -, hnil⟩ := fetch_none h
    exact ⟨iff_of_true he hnil, fun _ => hptr⟩
  · next b r' h =>
    obtain ⟨-, he, -, -, -, -, -, hcons⟩ := fetch_some hlen h
    exact ⟨iff_of_false (by simp [he]) (by simp [hcons]), fun h' => by simp [he] at h'⟩

/-! ### The next bits (R112) -/

/-- `TakeBits(n)` with `n` bits left takes them off the stream. -/
theorem takeBits_of_le {n : Nat} (hlen : len < 2 ^ 32) (hn : n ≤ 16) (hr : ReaderOk r)
    (h : n ≤ (stream m len r).length) :
    ∃ x r', takeBits m len n r = .ok x r' ∧ x < 2 ^ n ∧ (stream m len r).take n = natBits n x ∧
      stream m len r' = (stream m len r).drop n ∧ ReaderOk r' ∧ (n = 0 → r' = r) := by
  by_cases h0 : n = 0
  · subst h0
    exact ⟨0, r, rfl, Nat.one_pos, rfl, rfl, hr, fun _ => rfl⟩
  · obtain ⟨ok, r1, hp⟩ : ∃ ok r1, pullTo m len n n r = (ok, r1) := ⟨_, _, rfl⟩
    obtain ⟨hs, hup, hcnt, hshort⟩ := pullTo_stream hlen hn ((readerUpTo_eight.mpr hr).mono (by omega)) hp
    cases ok with
    | false => exact absurd (hshort rfl) (Nat.not_lt.mpr h)
    | true =>
      refine ⟨topBits r1 n, consume m len n r1, by rw [takeBits, if_neg h0, hp], topBits_lt r1 n, ?_, ?_,
        readerOk_consume hlen hup, fun h => absurd h h0⟩
      · rw [← hs, take_stream (hcnt rfl)]
      · rw [stream_consume hlen (hcnt rfl), hs]

/-- `TakeBits(n)` with fewer bits left raises RD_EOD at the end of the data. -/
theorem takeBits_of_short {n : Nat} (hlen : len < 2 ^ 32) (hn : n ≤ 16) (hr : ReaderOk r)
    (h : (stream m len r).length < n) :
    ∃ r', takeBits m len n r = .raise .rdEod r'.ptr r' ∧ r'.eod = true := by
  obtain ⟨ok, r1, hp⟩ : ∃ ok r1, pullTo m len n n r = (ok, r1) := ⟨_, _, rfl⟩
  obtain ⟨hs, -, hcnt, -⟩ := pullTo_stream hlen hn ((readerUpTo_eight.mpr hr).mono (by omega)) hp
  cases ok with
  | true =>
    have hlong := hcnt rfl
    rw [← hs, stream_eq, List.length_append, length_natBits] at h
    omega
  | false =>
    have heod := ((pullTo_spec (by have := hr.1; omega) (by omega) (by omega) hp).2 rfl).1
    exact ⟨r1, by rw [takeBits, if_neg (by omega), hp], heod⟩

end

/-! ### Signed values (R116, R117) -/

theorem cat_vliDecode {x n : Nat} (hx : x < 2 ^ n) : cat (vliDecode x n) = n := by
  cases n with
  | zero => rfl
  | succ c => exact (vliBits_vliDecode hx).1

/-- A value of at most 15 bits is the word's signed value. -/
theorem toInt_signedWord_vliDecode {x n : Nat} (hn : n ≤ 15) (hx : x < 2 ^ n) :
    (signedWord (vliDecode x n)).toInt = vliDecode x n := by
  have h15 : (vliDecode x n).natAbs < 2 ^ 15 := cat_le_iff.mp ((cat_vliDecode hx).trans_le hn)
  rw [signedWord, BitVec.toInt_ofInt, Int.bmod_eq_of_le] <;> omega

/-- The value of the first `n` bits of a bit string, by its first bit. -/
theorem vliDecode_of_take {l : List Bool} {x n : Nat} (hx : x < 2 ^ n) (h : l.take n = natBits n x) :
    vliDecode x n = if n = 0 then 0 else if l.head? = some true then (bitsNat (l.take n) : Int)
      else (bitsNat (l.take n) : Int) + 1 - 2 ^ n := by
  rw [h, bitsNat_natBits, Nat.mod_eq_of_lt hx]
  cases n with
  | zero => rfl
  | succ c =>
    have hhead : l.head? = some (x.testBit c) := by
      have hh := congrArg List.head? h
      rw [List.head?_take, if_neg (Nat.succ_ne_zero c)] at hh
      exact hh
    simp [vliDecode, hhead]

/-! ### The end by a fault -/

/-- The next state of a reading command's fault. -/
theorem exec_of_reading_fault {s : State} {i : Instr} {code : FaultCode} {info : Word} {r : Reader} {m : Memory}
    (hrec : s.recorded = none) (h : body i s = .raise code info { s with rd := r, mem := m }) :
    exec i s = .next { s with rd := r, mem := m, recorded := some ⟨code, info⟩, faultP := true, inFlight := none } := by
  rw [exec_eq_body, h, endCommand_raise, faultEntry_of_none _ _ (by exact hrec)]

end Sys2Proof.Machine

open Sys2Proof Sys2Proof.Machine

/-- Settles O27: the refill of the empty buffer moves the first byte ahead, if there is one, into it. -/
theorem rdinitStartsTheStream : Obligations.RdinitStartsTheStream := by
  intro s
  obtain ⟨heod, hptr⟩ := refill_eod (m := s.mem) (r := ⟨s.arg0, 0, 0, false, false⟩) s.inLen.isLt
  refine ⟨readerStart s.mem s.inLen.toNat s.arg0, rfl, stream_refill s.inLen.isLt rfl,
    readerOk_refill s.inLen.isLt nofun rfl rfl, heod, hptr, ?_⟩
  rw [readerStart, refill_marker, fetch_marker rfl rfl]
  rfl

/-- Settles O28: the bits taken are the first of the stream. -/
theorem getbitsReadsTheNextBits : Obligations.GetbitsReadsTheNextBits := by
  intro n s hn hr h
  obtain ⟨x, r, ht, hx, htake, hdrop, hok, hzero⟩ := takeBits_of_le s.inLen.isLt hn hr h
  refine ⟨r, ?_, hdrop, hok, hzero⟩
  rw [exec_eq_body, body, checkLen_of_le _ _ hn, ht, streamOf, htake, bitsNat_natBits, Nat.mod_eq_of_lt hx]
  rfl

/-- Settles O29: the bits taken are the first of the stream, and their value fits a word. -/
theorem receiveDecodesTheNextVli : Obligations.ReceiveDecodesTheNextVli := by
  intro n s hn hr h
  obtain ⟨x, r, ht, hx, htake, hdrop, hok, -⟩ := takeBits_of_le s.inLen.isLt (by omega) hr h
  refine ⟨r, signedWord (vliDecode x n), ?_, ?_, hdrop, hok⟩
  · rw [exec_eq_body, body, checkLen_of_le _ _ hn, ht]
    rfl
  · rw [toInt_signedWord_vliDecode hn hx]
    exact vliDecode_of_take hx htake

/-- Settles O30: the pull for the bits reaches the end of the data. -/
theorem readingPastTheDataFaults : Obligations.ReadingPastTheDataFaults := by
  intro n s i hr hrec h hi
  obtain ⟨r, ht, heod⟩ := takeBits_of_short s.inLen.isLt (by omega) hr h
  have hbody : body i s = .raise .rdEod r.ptr { s with rd := r, mem := s.mem } := by
    rcases hi with ⟨rfl, hn⟩ | ⟨rfl, hn⟩
    · rw [body, checkLen_of_le _ _ hn, ht]; rfl
    · rw [body, checkLen_of_le _ _ hn, ht]; rfl
  exact ⟨_, exec_of_reading_fault hrec hbody, rfl, heod, rfl, rfl, rfl⟩

end

section
/-! PROOF. DECBLK against the unconsumed bits (42_block.md R140, R142): the items at their head are read one by one,
each a code and its value, and what stands behind them decides how the block goes on. -/

namespace Sys2Proof.Machine

/-! ### Writes that leave IN -/

/-- The CM and DR windows lie from here on. -/
abbrev InBlocks (a : Nat) : Prop := 0x1000000 ≤ a

theorem inBlocks_cmAddr {c : Config} {comp k p a : Nat} (h : inHalf (cmAddr c comp k p) a) : InBlocks a := by
  unfold cmAddr at h; omega

theorem inBlocks_drAddr {c : Config} {comp k a : Nat} (h : inHalf (drAddr c comp k) a) : InBlocks a := by
  unfold drAddr at h; omega

theorem destuff_congr {m m' : Memory} {len : Nat} (h : ∀ p, p < len → memRead m' (inAddr p) = memRead m (inAddr p)) :
    ∀ fuel p, destuff m' len fuel p = destuff m len fuel p
  | 0, _ => rfl
  | fuel + 1, p => by
    by_cases hp : p < len
    · by_cases hp1 : p + 1 < len
      · simp only [destuff, h p hp, h (p + 1) hp1, destuff_congr h fuel]
      · simp only [destuff, h p hp, Nat.not_lt.mp hp1, if_true, destuff_congr h fuel]
    · simp only [destuff, Nat.not_lt.mp hp, if_true]

/-- Stores of coefficients and residuals leave the unconsumed bits. -/
theorem stream_of_touches {m m' : Memory} {len : Nat} (hlen : len ≤ 4194304) (h : Touches InBlocks m m') (r : Reader) :
    stream m' len r = stream m len r := by
  have hin : ∀ p, p < len → memRead m' (inAddr p) = memRead m (inAddr p) := fun p hp =>
    h.frame _ (by unfold InBlocks inAddr; omega)
  rw [stream, stream, bytesAhead, bytesAhead, destuff_congr hin]

/-! ### One item -/

section
variable {t : HuffSlot} {m : Memory} {len : Nat} {r : Reader} {rest : List Bool}

/-- A code at the head of the bits: its symbol is found, and the bits behind it are left. -/
theorem lookup_of_codeBits {x : Byte} (ht : TableOk t) (hlen : len < 2 ^ 32) (hr : ReaderOk r)
    (hx : x ∈ registered t) (h : stream m len r = codeBits t x ++ rest) :
    ∃ r', lookup t m len r = (some x, r') ∧ stream m len r' = rest ∧ ReaderOk r' := by
  obtain ⟨r', hl, hs, hok⟩ := lookup_of_code ht hlen hr hx ⟨rest, h.symm⟩
  exact ⟨r', hl, by rw [hs, h, List.drop_left' (length_codeBits t x)], hok⟩

/-- A pattern at the head of the bits: its value is read, and the bits behind it are left. -/
theorem takeBits_of_pattern {v : Int} (hlen : len < 2 ^ 32) (hr : ReaderOk r) (hv : cat v ≤ 15)
    (h : stream m len r = natBits (cat v) (vliBits v (cat v)) ++ rest) :
    ∃ y r', takeBits m len (cat v) r = .ok y r' ∧ vliDecode y (cat v) = v ∧ stream m len r' = rest ∧ ReaderOk r' := by
  obtain ⟨hfit, hval⟩ := vliDecode_vliBits v
  have hl := length_natBits (cat v) (vliBits v (cat v))
  obtain ⟨y, r', ht, hy, htake, hdrop, hok, -⟩ := takeBits_of_le (m := m) (n := cat v) hlen (by omega) hr
    (by rw [h, List.length_append, hl]; exact Nat.le_add_right _ _)
  rw [h, List.take_left' hl] at htake
  rw [h, List.drop_left' hl] at hdrop
  exact ⟨y, r', ht, by rw [← natBits_inj hfit hy htake, hval], hdrop, hok⟩

end

/-! ### One round of the AC loop (R140) -/

section
variable {c : Config} {len : Nat} {t : HuffSlot} {acs comp k fuel j : Nat} {p : InPort} {x : Byte} {r : Reader}

theorem decodeAc_of_miss (hj : j ≤ 63) (hl : lookup t p.mem len p.rd = (none, r)) :
    decodeAc c len t acs comp k (fuel + 1) j p = .raise .huffMiss (word acs) { p with rd := r } := by
  rw [decodeAc, if_neg (Nat.not_lt.mpr hj), hl]

section
variable (hj : j ≤ 63) (hl : lookup t p.mem len p.rd = (some x, r))
include hj hl

theorem decodeAc_zrl (h0 : symCat x = 0) (h15 : symRun x = 15) (h64 : j + 16 ≤ 64) :
    decodeAc c len t acs comp k (fuel + 1) j p = decodeAc c len t acs comp k fuel (j + 16) { p with rd := r } := by
  simp [decodeAc, Nat.not_lt.mpr hj, hl, h0, h15, Nat.not_lt.mpr h64]

theorem decodeAc_zrl_past (h0 : symCat x = 0) (h15 : symRun x = 15) (h64 : 64 < j + 16) :
    decodeAc c len t acs comp k (fuel + 1) j p = .raise .acRun (acRunInfo (j + 16) x) { p with rd := r } := by
  simp [decodeAc, Nat.not_lt.mpr hj, hl, h0, h15, h64]

theorem decodeAc_zero_run (h0 : symCat x = 0) (h1 : 1 ≤ symRun x) (h14 : symRun x ≤ 14) :
    decodeAc c len t acs comp k (fuel + 1) j p = .raise .acRun (acRunInfo j x) { p with rd := r } := by
  have hne : symRun x ≠ 0 := by omega
  have hne' : symRun x ≠ 15 := by omega
  simp [decodeAc, Nat.not_lt.mpr hj, hl, h0, hne, hne']

theorem decodeAc_run_past (hc : symCat x ≠ 0) (h63 : 63 < j + symRun x) :
    decodeAc c len t acs comp k (fuel + 1) j p =
      .raise .acRun (acRunInfo (j + symRun x) x) { p with rd := r } := by
  simp [decodeAc, Nat.not_lt.mpr hj, hl, hc, h63]

theorem decodeAc_value {y : Nat} {r' : Reader} (hc : symCat x ≠ 0) (h63 : j + symRun x ≤ 63)
    (ht : takeBits p.mem len (symCat x) r = .ok y r') :
    decodeAc c len t acs comp k (fuel + 1) j p = decodeAc c len t acs comp k fuel (j + symRun x + 1)
      { rd := r', mem := setCm c p.mem comp k (j + symRun x) (vliDecode y (symCat x)) } := by
  simp [decodeAc, Nat.not_lt.mpr hj, hl, hc, Nat.not_lt.mpr h63, ht]

theorem decodeAc_value_raise {code : FaultCode} {info : Word} {r' : Reader} (hc : symCat x ≠ 0)
    (h63 : j + symRun x ≤ 63) (ht : takeBits p.mem len (symCat x) r = .raise code info r') :
    decodeAc c len t acs comp k (fuel + 1) j p = .raise code info { p with rd := r' } := by
  simp [decodeAc, Nat.not_lt.mpr hj, hl, hc, Nat.not_lt.mpr h63, ht]

end

end

/-! ### Items in turn -/

/-- The coefficients that AC items store, from position `j` on. -/
def placeItems (c : Config) (comp k : Nat) : Nat → List (Byte × Int) → Memory → Memory
  | _, [], m => m
  | j, (x, v) :: items, m =>
    if symCat x = 0 then placeItems c comp k (j + 16) items m
    else placeItems c comp k (j + symRun x + 1) items (setCm c m comp k (j + symRun x) v)

/-- The AC loop reads the items at the head of the bits, stores their values, and goes on behind them. -/
theorem decodeAc_items {c : Config} {len : Nat} {t : HuffSlot} {acs comp k j' : Nat} {rest : List Bool} (ht : TableOk t)
    (hlen : len ≤ 4194304) : ∀ {items : List (Byte × Int)} {fuel j : Nat} {r : Reader} {m : Memory}, 65 ≤ fuel + j →
    acWalk j items = some j' → (∀ x ∈ items, ItemOk t x) → ReaderOk r →
    stream m len r = items.flatMap (itemBits t) ++ rest →
    ∃ fuel' r', 65 ≤ fuel' + j' ∧
      decodeAc c len t acs comp k fuel j { rd := r, mem := m } =
        decodeAc c len t acs comp k fuel' j' { rd := r', mem := placeItems c comp k j items m } ∧
      stream (placeItems c comp k j items m) len r' = rest ∧ ReaderOk r'
  | [], fuel, j, r, m, hfuel, hwalk, _, hr, hs => by
    cases hwalk
    exact ⟨fuel, r, hfuel, rfl, hs, hr⟩
  | (x, v) :: items, fuel, j, r, m, hfuel, hwalk, hok, hr, hs => by
    obtain ⟨⟨hv, hx⟩, hitems⟩ := List.forall_mem_cons.mp hok
    have hlen' : len < 2 ^ 32 := by omega
    rw [List.flatMap_cons, itemBits, List.append_assoc, List.append_assoc] at hs
    obtain ⟨r1, hl, hs1, hr1⟩ := lookup_of_codeBits ht hlen' hr (mem_registered.mpr hx) hs
    obtain ⟨y, r2, hy, hval, hs2, hr2⟩ := takeBits_of_pattern hlen' hr1 hv hs1
    rw [acWalk] at hwalk
    split at hwalk
    · cases hwalk
    · next hj =>
      have hj := Nat.not_lt.mp hj
      obtain ⟨fuel, rfl⟩ : ∃ n, fuel = n + 1 := ⟨fuel - 1, by omega⟩
      split at hwalk
      · next h0 =>
        split at hwalk
        · next hzrl =>
          obtain ⟨h15, rfl, h64⟩ := hzrl
          rw [decodeAc_zrl hj hl h0 h15 h64, placeItems, if_pos h0]
          exact decodeAc_items ht hlen (by omega) hwalk hitems hr1 hs1
        · cases hwalk
      · next hc =>
        split at hwalk
        · next hfit =>
          obtain ⟨hcat, h63⟩ := hfit
          rw [hcat] at hy hval
          have htouch : Touches InBlocks m (setCm c m comp k (j + symRun x) v) :=
            (Touches.refl _ _).setCm (fun _ => inBlocks_cmAddr) v
          rw [decodeAc_value hj hl hc h63 hy, hval, placeItems, if_neg hc]
          exact decodeAc_items ht hlen (by omega) hwalk hitems hr2 ((stream_of_touches hlen htouch r2).trans hs2)
        · cases hwalk

/-! ### The block -/

section
variable {dcs acs comp : Nat} {eosok : Bool} {s : State}

theorem body_decblk (hd : dcs ≤ 5) (ha : acs ≤ 5) (hdv : (slotOf s dcs).valid = true)
    (hav : (slotOf s acs).valid = true) (hb : BlockOk s comp) :
    body (.decblk dcs acs comp eosok) s = decodeBlock dcs acs comp eosok s := by
  obtain ⟨hc, hg, hk⟩ := hb
  rw [body, checkBuilt_of_valid _ hd hdv, checkBuilt_of_valid _ ha hav, checkBlock_of _ hc hg hk]

/-- A miss of the DC code on the padding of the last byte is the end of scan. -/
theorem decodeBlock_of_padding (ht : TableOk (slotOf s dcs)) (hr : ReaderOk s.rd)
    (hno : NoCodeAhead (slotOf s dcs) (streamOf s)) (he : eosok = true) (hpad : OnesPadding (streamOf s)) :
    ∃ r, decodeBlock dcs acs comp eosok s = .ok () { s with rd := r, eos := true, res := 1 } ∧ r.eod = true := by
  obtain ⟨r1, hl, hs, hup⟩ := lookup_of_miss ht s.inLen.isLt hr hno
  obtain ⟨ok, r2, heos⟩ : ∃ ok r2, eosCheck s.mem s.inLen.toNat r1 = (ok, r2) := ⟨_, _, rfl⟩
  obtain ⟨hiff, hend⟩ := eosCheck_spec s.inLen.isLt hup heos
  rw [hs] at hiff
  obtain rfl := hiff.mpr hpad
  exact ⟨r2, by simp [decodeBlock, hl, he, heos], (hend rfl).1⟩

/-- Any other miss of the DC code is a fault. -/
theorem decodeBlock_of_miss (ht : TableOk (slotOf s dcs)) (hr : ReaderOk s.rd)
    (hno : NoCodeAhead (slotOf s dcs) (streamOf s)) (hnot : ¬ (eosok = true ∧ OnesPadding (streamOf s))) :
    ∃ r, decodeBlock dcs acs comp eosok s = .raise .huffMiss (word dcs) { s with rd := r } := by
  obtain ⟨r1, hl, hs, hup⟩ := lookup_of_miss ht s.inLen.isLt hr hno
  obtain ⟨ok, r2, heos⟩ : ∃ ok r2, eosCheck s.mem s.inLen.toNat r1 = (ok, r2) := ⟨_, _, rfl⟩
  have hiff := (eosCheck_spec s.inLen.isLt hup heos).1
  rw [hs] at hiff
  cases eosok with
  | false => exact ⟨r1, by simp [decodeBlock, hl]⟩
  | true =>
    obtain rfl : ok = false := by simpa using mt hiff.mp fun hpad => hnot ⟨rfl, hpad⟩
    exact ⟨r2, by simp [decodeBlock, hl, heos]⟩

/-- A fault behind the DC symbol is the block's. -/
theorem decodeBlock_of_dc_raise {x : Byte} {r : Reader} {code : FaultCode} {info : Word} {q : InPort}
    (hl : lookup (slotOf s dcs) s.mem s.inLen.toNat s.rd = (some x, r))
    (h : decodeBlockFrom s acs comp x { rd := r, mem := s.mem } = .raise code info q) :
    decodeBlock dcs acs comp eosok s = .raise code info { s with rd := q.rd, mem := q.mem } := by
  simp [decodeBlock, hl, h]

/-- RAM as DECBLK has it before the AC symbols: the residual stored, the AC coefficients 0. -/
def dcStored (s : State) (comp : Nat) (v : Int) : Memory :=
  clearAc s.cfg comp (arg0Nat s) 63 (setDr s.cfg s.mem comp (arg0Nat s) v)

theorem dcStored_touches (s : State) (comp : Nat) (v : Int) : Touches InBlocks s.mem (dcStored s comp v) :=
  ((Touches.refl _ _).setDr (fun _ => inBlocks_drAddr) v).clearAc fun _ _ _ _ => inBlocks_cmAddr

/-- Behind a DC value and AC items at the head of the bits, the block is what the AC loop makes of the rest. -/
theorem decodeBlock_items {v : Int} {items : List (Byte × Int)} {j : Nat} {rest : List Bool}
    (htd : TableOk (slotOf s dcs)) (hta : TableOk (slotOf s acs)) (hl : LengthsOk s) (hr : ReaderOk s.rd)
    (hwalk : acWalk 1 items = some j) (hdc : ItemOk (slotOf s dcs) (dcItem v))
    (hitems : ∀ x ∈ items, ItemOk (slotOf s acs) x)
    (hs : streamOf s = codedBits (slotOf s dcs) (slotOf s acs) v items ++ rest) :
    ∃ fuel p, 65 ≤ fuel + j ∧ p.mem = placeItems s.cfg comp (arg0Nat s) 1 items (dcStored s comp v) ∧
      decodeBlock dcs acs comp eosok s =
        ((decodeAc s.cfg s.inLen.toNat (slotOf s acs) acs comp (arg0Nat s) fuel j p).lift
            (fun q => { s with rd := q.rd, mem := q.mem })).andThen (fun _ u => .ok () { u with res := 0 }) ∧
      stream p.mem s.inLen.toNat p.rd = rest ∧ ReaderOk p.rd := by
  obtain ⟨⟨-, -, -, hcap, -, -⟩, hin, -⟩ := hl
  have hlen : s.inLen.toNat ≤ 4194304 := hin.trans hcap
  obtain ⟨hv, hx⟩ := hdc
  have hv : cat v ≤ 15 := hv
  have hsym : (dcItem v).1.toNat = cat v := by
    rw [dcItem, BitVec.toNat_ofNat]; omega
  rw [codedBits, itemBits, List.append_assoc, List.append_assoc] at hs
  obtain ⟨r1, hlook, hs1, hr1⟩ := lookup_of_codeBits htd s.inLen.isLt hr (mem_registered.mpr hx) hs
  obtain ⟨y, r2, hy, hval, hs2, hr2⟩ := takeBits_of_pattern s.inLen.isLt hr1 hv hs1
  have hs3 := (stream_of_touches hlen (dcStored_touches s comp v) r2).trans hs2
  obtain ⟨fuel, r, hfuel, hac, hrest, hok⟩ := decodeAc_items (c := s.cfg) (acs := acs) (comp := comp) (k := arg0Nat s)
    (fuel := 64) hta hlen (Nat.le_refl 65) hwalk hitems hr2 hs3
  refine ⟨fuel, { rd := r, mem := placeItems s.cfg comp (arg0Nat s) 1 items (dcStored s comp v) }, hfuel, rfl, ?_,
    hrest, hok⟩
  rw [← hac, decodeBlock, hlook]
  simp only [decodeBlockFrom, hsym, Nat.not_lt.mpr hv, if_false, hy, lift_ok, andThen_ok, hval]
  rfl

end

end Sys2Proof.Machine

open Sys2Proof Sys2Proof.Machine

/-- Settles O40: a miss of the DC code is the end of scan or HUFF_MISS, a DC symbol found is read or faults, and behind
the items read the AC loop's next round faults. -/
theorem decblkMissIsEndOfScanOrFault : Obligations.DecblkMissIsEndOfScanOrFault := by
  intro dcs acs comp eosok s hd ha hdv hav htd hb hr hrec
  have hbody := body_decblk (eosok := eosok) hd ha hdv hav hb
  refine ⟨fun hno he hpad => ?_, fun hno hnot => ?_, fun x hx hpre h15 => ?_, fun x rest hx h15 hs hshort => ?_,
    fun v items j rest hta hl hwalk hj hdc hitems hs => ?_⟩
  · obtain ⟨r, h, heod⟩ := decodeBlock_of_padding htd hr hno he hpad
    exact ⟨r, by rw [exec_eq_body, hbody, h]; rfl, heod⟩
  · obtain ⟨r, h⟩ := decodeBlock_of_miss htd hr hno hnot
    exact ⟨_, exec_of_reading_fault hrec (hbody.trans h), rfl, rfl, rfl, rfl, rfl⟩
  · obtain ⟨rest, hs⟩ := hpre
    obtain ⟨r, hlook, -, -⟩ := lookup_of_codeBits htd s.inLen.isLt hr hx hs.symm
    have h := decodeBlock_of_dc_raise (eosok := eosok) (acs := acs) (comp := comp) hlook (if_pos h15)
    exact ⟨_, exec_of_reading_fault hrec (hbody.trans h), rfl, rfl, rfl, rfl, rfl⟩
  · obtain ⟨r, hlook, hrest, hr1⟩ := lookup_of_codeBits htd s.inLen.isLt hr hx hs
    obtain ⟨r2, ht, -⟩ := takeBits_of_short s.inLen.isLt (by omega) hr1 (hrest ▸ hshort)
    have h := decodeBlock_of_dc_raise (eosok := eosok) (acs := acs) (comp := comp) (q := ⟨r2, s.mem⟩) hlook
      (by rw [decodeBlockFrom, if_neg (Nat.not_lt.mpr h15), ht]; rfl)
    exact ⟨_, exec_of_reading_fault hrec (hbody.trans h), rfl, rfl, rfl, rfl, rfl⟩
  · obtain ⟨fuel, p, hfuel, -, hblock, hrest, hok⟩ :=
      decodeBlock_items (comp := comp) (eosok := eosok) htd hta hl hr hwalk hdc hitems hs
    obtain ⟨fuel, rfl⟩ : ∃ n, fuel = n + 1 := ⟨fuel - 1, by omega⟩
    have hfault : ∀ {code info q},
        decodeAc s.cfg s.inLen.toNat (slotOf s acs) acs comp (arg0Nat s) (fuel + 1) j p = .raise code info q →
        exec (.decblk dcs acs comp eosok) s = .next { s with rd := q.rd, mem := q.mem, recorded := some ⟨code, info⟩,
                                                             faultP := true, inFlight := none } := fun h =>
      exec_of_reading_fault hrec (by rw [hbody, hblock, h]; rfl)
    subst hrest
    refine ⟨fun hno => ?_, fun x hx hpre => ?_⟩
    · obtain ⟨r, hlook, -, -⟩ := lookup_of_miss hta s.inLen.isLt hok hno
      exact ⟨_, hfault (decodeAc_of_miss hj hlook), rfl, rfl, rfl, rfl⟩
    · obtain ⟨r, hlook, hdrop, hr1⟩ := lookup_of_code hta s.inLen.isLt hok hx hpre
      refine ⟨fun h0 h1 h14 => ?_, fun h0xF0 h64 => ?_, fun hc h63 => ?_, fun hc h63 hshort => ?_⟩
      · exact ⟨_, hfault (decodeAc_zero_run hj hlook h0 h1 h14), rfl, rfl, rfl, rfl⟩
      · subst h0xF0
        exact ⟨_, hfault (decodeAc_zrl_past hj hlook rfl rfl h64), rfl, rfl, rfl, rfl⟩
      · exact ⟨_, hfault (decodeAc_run_past hj hlook hc h63), rfl, rfl, rfl, rfl⟩
      · have hcat : symCat x ≤ 16 := by unfold symCat; omega
        obtain ⟨r2, ht, -⟩ := takeBits_of_short s.inLen.isLt hcat hr1 (by rw [hdrop, List.length_drop]; omega)
        exact ⟨_, hfault (decodeAc_value_raise hj hlook hc h63 ht), rfl, rfl, rfl, rfl⟩

end

section
/-! PROOF. ENCBLK, whole (42_block.md R141, R142): with a code for every item, the body is the block's bits appended. -/

open Sys2Proof Sys2Proof.Machine

/-- Settles O41: every item has a code, so the block's bits are appended one by one, each with room for the byte it
completes. -/
theorem encblkAppendsTheCodedBlock : Obligations.EncblkAppendsTheCodedBlock := by
  rintro dcs acs comp s v l hd ha hdv hav ⟨hc, hg, hk⟩ hl hw rfl rfl ⟨hdc, hac⟩ hroom
  obtain ⟨q, hq, happ⟩ := putBitList_appends s.outLen.isLt _ (p := outPort s) hw hroom
  rw [blockBits] at hq
  refine ⟨q.wr, q.mem, ?_, happ⟩
  rw [exec_eq_body, body, checkBuilt_of_valid _ hd hdv, checkBuilt_of_valid _ ha hav, checkBlock_of _ hc hg hk,
    encodeBlock_prefix hl hdc (List.append_nil _).symm hac, hq]
  rfl

end

section
/-! PROOF. DECBLK, whole (42_block.md R140, R142, R143): how the block ends behind its items, what the items leave in CM
and DR, and why the encoder's items are such a coding. -/

namespace Sys2Proof.Machine

/-! ### The walk over the items (R140) -/

/-- What a walk over a first item says of it: a ZRL or a value that fits. -/
theorem acWalk_cons_eq_some {x : Byte} {v : Int} {items : List (Byte × Int)} {j j' : Nat} :
    acWalk j ((x, v) :: items) = some j' ↔ j ≤ 63 ∧
      (symCat x = 0 ∧ (symRun x = 15 ∧ v = 0 ∧ j + 16 ≤ 64) ∧ acWalk (j + 16) items = some j' ∨
        symCat x ≠ 0 ∧ (cat v = symCat x ∧ j + symRun x ≤ 63) ∧ acWalk (j + symRun x + 1) items = some j') := by
  rw [acWalk]
  split
  · next hj => exact iff_of_false nofun fun h => absurd h.1 (Nat.not_le.mpr hj)
  · next hj =>
    split
    · next h0 => simp [Nat.not_lt.mp hj, h0]
    · next h0 => simp [Nat.not_lt.mp hj, h0]

/-- How a block ends behind items that leave R140's `j`: at 64 of itself, before that with EOB. -/
abbrev BlockEnd (j : Nat) (eob : List (Byte × Int)) : Prop := j = 64 ∧ eob = [] ∨ j ≤ 63 ∧ eob = [(0x00, 0)]

/-! ### The end of the AC loop -/

section
variable {c : Config} {len : Nat} {t : HuffSlot} {acs comp k fuel j : Nat} {p : InPort}

theorem decodeAc_of_past (hj : 63 < j) : decodeAc c len t acs comp k fuel j p = .ok () p := by
  cases fuel with
  | zero => rfl
  | succ fuel => exact if_pos hj

theorem decodeAc_eob {r : Reader} (hj : j ≤ 63) (hl : lookup t p.mem len p.rd = (some 0x00, r)) :
    decodeAc c len t acs comp k (fuel + 1) j p = .ok () { p with rd := r } := by
  simp [decodeAc, Nat.not_lt.mpr hj, hl, symCat, symRun]

/-- At the end of the block the AC loop takes EOB, if there is one, and no more. -/
theorem decodeAc_blockEnd {eob : List (Byte × Int)} {rest : List Bool} (ht : TableOk t) (hlen : len < 2 ^ 32)
    (hend : BlockEnd j eob) (hfuel : 65 ≤ fuel + j) (hok : ∀ x ∈ eob, ItemOk t x) (hr : ReaderOk p.rd)
    (hs : stream p.mem len p.rd = eob.flatMap (itemBits t) ++ rest) :
    ∃ r, decodeAc c len t acs comp k fuel j p = .ok () { p with rd := r } ∧ stream p.mem len r = rest ∧
      ReaderOk r := by
  obtain ⟨rfl, rfl⟩ | ⟨hj, rfl⟩ := hend
  · exact ⟨p.rd, decodeAc_of_past (by decide), hs, hr⟩
  · obtain ⟨-, hx⟩ := hok _ (List.mem_singleton_self _)
    rw [List.flatMap_singleton, itemBits, List.append_assoc] at hs
    obtain ⟨r, hl, hrest, hr'⟩ := lookup_of_codeBits ht hlen hr (mem_registered.mpr hx) hs
    obtain ⟨fuel, rfl⟩ : ∃ n, fuel = n + 1 := ⟨fuel - 1, by omega⟩
    exact ⟨r, decodeAc_eob hj hl, hrest, hr'⟩

end

/-! ### What the items leave in CM and DR -/

/-- A value of category at most 15 is an s16. -/
theorem half_of_cat_le {v : Int} (h : cat v ≤ 15) : -32768 ≤ v ∧ v ≤ 32767 := by
  have := cat_le_iff.mp h
  omega

section
variable {c : Config} {m : Memory} {comp k j p q : Nat} {v : Int} {items : List (Byte × Int)}

theorem cmOf_setCm_other (h : p ≠ q) : cmOf c (setCm c m comp k q v) comp k p = cmOf c m comp k p := by
  rw [cmOf, cmOf, setCm, memRead16_memWrite16_other _ _ (by unfold cmAddr; omega)]

/-- The AC coefficients are 0 once cleared. -/
theorem cmOf_clearAc {n : Nat} (h1 : 1 ≤ p) (hp : p ≤ n) : cmOf c (clearAc c comp k n m) comp k p = 0 := by
  induction n with
  | zero => omega
  | succ n ih =>
    rw [clearAc]
    by_cases h : p = n + 1
    · rw [h, cmOf_setCm_same _ _ _ _ _ (by decide)]
    · rw [cmOf_setCm_other h, ih (by omega)]

/-- Items put nothing before the position they start from. -/
theorem cmOf_placeItems_of_lt (h : p < j) : cmOf c (placeItems c comp k j items m) comp k p = cmOf c m comp k p := by
  induction items generalizing j m with
  | nil => rfl
  | cons x items ih =>
    obtain ⟨x, v⟩ := x
    rw [placeItems]
    split
    · exact ih (by omega)
    · rw [ih (by omega), cmOf_setCm_other (by omega)]

/-- A coefficient that was 0 is what the items put there. -/
theorem cmOf_placeItems (hok : ∀ x ∈ items, cat x.2 ≤ 15) (h0 : cmOf c m comp k p = 0) :
    cmOf c (placeItems c comp k j items m) comp k p = acPlaced j items p := by
  induction items generalizing j m with
  | nil => exact h0
  | cons x items ih =>
    obtain ⟨x, v⟩ := x
    obtain ⟨hv, hitems⟩ := List.forall_mem_cons.mp hok
    rw [placeItems, acPlaced]
    split
    · exact ih hitems h0
    · split
      · next hp => rw [cmOf_placeItems_of_lt (by omega), hp, cmOf_setCm_same _ _ _ _ _ (half_of_cat_le hv)]
      · next hp => exact ih hitems ((cmOf_setCm_other hp).trans h0)

section
variable (hk : cbase c comp + k ≤ 65532)
include hk

/-- CM ends below DR. -/
theorem drOf_setCm (hp : p ≤ 63) : drOf c (setCm c m comp k p v) comp k = drOf c m comp k := by
  rw [drOf, drOf, setCm, memRead16_memWrite16_other _ _ (by unfold cmAddr drAddr; omega)]

theorem drOf_clearAc {n : Nat} (hn : n ≤ 63) : drOf c (clearAc c comp k n m) comp k = drOf c m comp k := by
  induction n with
  | zero => rfl
  | succ n ih => rw [clearAc, drOf_setCm hk hn, ih (by omega)]

theorem drOf_placeItems {j' : Nat} (hwalk : acWalk j items = some j') :
    drOf c (placeItems c comp k j items m) comp k = drOf c m comp k := by
  induction items generalizing j m with
  | nil => rfl
  | cons x items ih =>
    obtain ⟨x, v⟩ := x
    obtain ⟨-, ⟨h0, -, hrest⟩ | ⟨h0, ⟨-, hp⟩, hrest⟩⟩ := acWalk_cons_eq_some.mp hwalk
    · rw [placeItems, if_pos h0, ih hrest]
    · rw [placeItems, if_neg h0, ih hrest, drOf_setCm hk hp]

end

end

/-- RAM as a block leaves it: the residual and the coefficients of its items, all others 0. -/
def blockStored (s : State) (comp : Nat) (v : Int) (items : List (Byte × Int)) : Memory :=
  placeItems s.cfg comp (arg0Nat s) 1 items (dcStored s comp v)

section
variable {s : State} {comp : Nat} {v : Int} {items : List (Byte × Int)}

theorem cmOf_blockStored (hok : ∀ x ∈ items, cat x.2 ≤ 15) {p : Nat} (h1 : 1 ≤ p) (hp : p ≤ 63) :
    cmOf s.cfg (blockStored s comp v items) comp (arg0Nat s) p = acPlaced 1 items p :=
  cmOf_placeItems hok (cmOf_clearAc h1 hp)

theorem drOf_blockStored (hl : LengthsOk s) (hb : BlockOk s comp) {j : Nat} (hwalk : acWalk 1 items = some j)
    (hv : cat v ≤ 15) : drOf s.cfg (blockStored s comp v items) comp (arg0Nat s) = v := by
  obtain ⟨⟨-, hmax, -⟩, -⟩ := hl
  obtain ⟨-, hg, hk⟩ := hb
  have hk : cbase s.cfg comp + arg0Nat s ≤ 65532 := by
    have := cbase_add_lt hg hk
    omega
  rw [blockStored, drOf_placeItems hk hwalk, dcStored, drOf_clearAc hk (Nat.le_refl 63),
    drOf_setDr_same _ _ _ _ (half_of_cat_le hv)]

end

/-! ### Any coding R140 accepts -/

section
variable {dcs acs comp j : Nat} {eosok : Bool} {s : State} {v : Int} {items eob : List (Byte × Int)}
  (htd : TableOk (slotOf s dcs)) (hta : TableOk (slotOf s acs)) (hl : LengthsOk s) (hr : ReaderOk s.rd)
  (hwalk : acWalk 1 items = some j) (hend : BlockEnd j eob) (hdc : ItemOk (slotOf s dcs) (dcItem v))
  (hok : ∀ x ∈ items ++ eob, ItemOk (slotOf s acs) x)
include htd hta hl hr hwalk hend hdc hok

/-- A block's body reads the DC value, the items and the end of the block at the head of the bits. -/
theorem decodeBlock_of_coding {rest : List Bool}
    (hs : streamOf s = codedBits (slotOf s dcs) (slotOf s acs) v (items ++ eob) ++ rest) :
    ∃ r, decodeBlock dcs acs comp eosok s = .ok () { s with rd := r, mem := blockStored s comp v items, res := 0 } ∧
      stream (blockStored s comp v items) s.inLen.toNat r = rest ∧ ReaderOk r := by
  obtain ⟨hitems, heob⟩ := List.forall_mem_append.mp hok
  have hs : streamOf s = codedBits (slotOf s dcs) (slotOf s acs) v items ++
      (eob.flatMap (itemBits (slotOf s acs)) ++ rest) := by
    simp only [hs, codedBits, List.flatMap_append, List.append_assoc]
  obtain ⟨fuel, ⟨r1, m⟩, hfuel, hmem, hblock, hstream, hr1⟩ :=
    decodeBlock_items (comp := comp) (eosok := eosok) htd hta hl hr hwalk hdc hitems hs
  obtain rfl : m = blockStored s comp v items := hmem
  obtain ⟨r, hac, hrest, hr2⟩ := decodeAc_blockEnd (c := s.cfg) (acs := acs) (comp := comp) (k := arg0Nat s) hta
    s.inLen.isLt hend hfuel heob hr1 hstream
  exact ⟨r, by rw [hblock, hac]; rfl, hrest, hr2⟩

/-- DECBLK reads a coding that R140 accepts: its values, its bits, and nothing else written. -/
theorem exec_decblk_of_coding (hd : dcs ≤ 5) (ha : acs ≤ 5) (hdv : (slotOf s dcs).valid = true)
    (hav : (slotOf s acs).valid = true) (hb : BlockOk s comp)
    (hpre : codedBits (slotOf s dcs) (slotOf s acs) v (items ++ eob) <+: streamOf s) :
    ∃ r m, exec (.decblk dcs acs comp eosok) s =
        .next { s with rd := r, mem := m, res := 0, done := true, doneP := true, inFlight := none } ∧
      drOf s.cfg m comp (arg0Nat s) = v ∧
      (∀ p, 1 ≤ p → p ≤ 63 → cmOf s.cfg m comp (arg0Nat s) p = acPlaced 1 items p) ∧
      stream m s.inLen.toNat r =
        (streamOf s).drop (codedBits (slotOf s dcs) (slotOf s acs) v (items ++ eob)).length ∧
      ReaderOk r ∧
      (∀ a, ¬ inHalf (drAddr s.cfg comp (arg0Nat s)) a →
        (∀ p, 1 ≤ p → p ≤ 63 → ¬ inHalf (cmAddr s.cfg comp (arg0Nat s) p) a) → memRead m a = memRead s.mem a) := by
  obtain ⟨rest, hs⟩ := hpre
  obtain ⟨r, hblock, hrest, hr'⟩ :=
    decodeBlock_of_coding (comp := comp) (eosok := eosok) htd hta hl hr hwalk hend hdc hok hs.symm
  have hexec : exec (.decblk dcs acs comp eosok) s =
      .next { s with rd := r, mem := blockStored s comp v items, res := 0, done := true, doneP := true,
                     inFlight := none } := by
    rw [exec_eq_body, body_decblk hd ha hdv hav hb, hblock]
    rfl
  obtain ⟨-, -, -, -, -, -, hframe⟩ := exec_unchanged hexec
  refine ⟨r, _, hexec, drOf_blockStored hl hb hwalk hdc.1, fun p => cmOf_blockStored fun x hx => ?_, ?_, hr',
    fun a hdr hcm => hframe a ?_⟩
  · exact (hok x (List.mem_append_left _ hx)).1
  · rw [hrest, ← hs, List.drop_left]
  · rintro ⟨-, h | ⟨p, h1, h63, h⟩⟩
    · exact hdr h
    · exact hcm p h1 h63 h

end

/-! ### The encoder's coding (R141, R143) -/

section
variable {n j j' p : Nat} {items : List (Byte × Int)}

/-- ZRLs move the walk on by 16 each. -/
theorem acWalk_zrls_append (h : j + 16 * n ≤ 64) (hwalk : acWalk (j + 16 * n) items = some j') :
    acWalk j (List.replicate n (0xF0, 0) ++ items) = some j' := by
  induction n generalizing j with
  | zero => exact hwalk
  | succ n ih =>
    refine acWalk_cons_eq_some.mpr ⟨by omega, .inl ⟨rfl, ⟨rfl, rfl, by omega⟩, ih (by omega) ?_⟩⟩
    rwa [show j + 16 + 16 * n = j + 16 * (n + 1) by omega]

/-- ZRLs put nothing. -/
theorem acPlaced_zrls_append :
    acPlaced j (List.replicate n (0xF0, 0) ++ items) p = acPlaced (j + 16 * n) items p := by
  induction n generalizing j with
  | zero => rfl
  | succ n ih =>
    have h0 : symCat 0xF0 = 0 := rfl
    rw [List.replicate_succ, List.cons_append, acPlaced, if_pos h0, ih,
      show j + 16 + 16 * n = j + 16 * (n + 1) by omega]

end

section
variable {r k : Nat} (hr : r ≤ 15) (hk : k ≤ 15)
include hr hk

theorem toNat_acSymbol : (acSymbol r k).toNat = r * 16 + k := by
  rw [acSymbol, BitVec.toNat_ofNat]
  omega

theorem symRun_acSymbol : symRun (acSymbol r k) = r := by
  rw [symRun, toNat_acSymbol hr hk]
  omega

theorem symCat_acSymbol : symCat (acSymbol r k) = k := by
  rw [symCat, toNat_acSymbol hr hk]
  omega

end

section
variable {v : Int} {r j j' p : Nat} {items : List (Byte × Int)} (h0 : v ≠ 0) (hv : cat v ≤ 15)
include h0 hv

theorem symCat_acSymbol_ne_zero : symCat (acSymbol (r % 16) (cat v)) ≠ 0 := by
  rwa [symCat_acSymbol (by omega) hv, Ne, cat_eq_zero_iff]

/-- ZRLs and a value's symbol stand for `r` zeros and the value. -/
theorem acWalk_value_append (h : j + r ≤ 63) (hwalk : acWalk (j + r + 1) items = some j') :
    acWalk j (List.replicate (r / 16) (0xF0, 0) ++ (acSymbol (r % 16) (cat v), v) :: items) = some j' := by
  have hrun : symRun (acSymbol (r % 16) (cat v)) = r % 16 := symRun_acSymbol (by omega) hv
  have hpos : j + 16 * (r / 16) + r % 16 = j + r := by omega
  refine acWalk_zrls_append (by omega) (acWalk_cons_eq_some.mpr ⟨by omega, .inr ⟨symCat_acSymbol_ne_zero h0 hv,
    ⟨(symCat_acSymbol (by omega) hv).symm, by omega⟩, ?_⟩⟩)
  rwa [hrun, hpos]

theorem acPlaced_value_append :
    acPlaced j (List.replicate (r / 16) (0xF0, 0) ++ (acSymbol (r % 16) (cat v), v) :: items) p =
      if p = j + r then v else acPlaced (j + r + 1) items p := by
  have hpos : j + 16 * (r / 16) + r % 16 = j + r := by omega
  rw [acPlaced_zrls_append, acPlaced, if_neg (symCat_acSymbol_ne_zero h0 hv), symRun_acSymbol (by omega) hv, hpos]

end

/-- The coefficient at position `p` of a list that stands from position `i` on. -/
def listedFrom (i : Nat) (l : List Int) (p : Nat) : Int := if p < i then 0 else l.getD (p - i) 0

theorem listedFrom_nil (i p : Nat) : listedFrom i [] p = 0 := ite_self 0

theorem listedFrom_cons (i : Nat) (v : Int) (l : List Int) (p : Nat) :
    listedFrom i (v :: l) p = if p = i then v else listedFrom (i + 1) l p := by
  unfold listedFrom
  rcases Nat.lt_trichotomy p i with hp | rfl | hp
  · rw [if_pos hp, if_neg (by omega), if_pos (by omega)]
  · rw [if_neg (by omega), if_pos rfl, Nat.sub_self, List.getD_cons_zero]
  · rw [if_neg (by omega), if_neg (by omega), if_neg (by omega), show p - i = p - (i + 1) + 1 by omega,
      List.getD_cons_succ]

/-- The items of coefficients from position `j + r` on, with `r` zeros pending from `j` on, are a coding R140 accepts:
up to 64 or with EOB behind them, each coefficient put where it stands. -/
theorem acItems_accepted : ∀ {l : List Int} {r j : Nat}, j + r + l.length = 64 → (∀ x ∈ acItems r l, cat x.2 ≤ 15) →
    ∃ items eob j', acItems r l = items ++ eob ∧ acWalk j items = some j' ∧ BlockEnd j' eob ∧
      ∀ p, acPlaced j items p = listedFrom (j + r) l p
  | [], r, j, hlen, _ => by
    rw [List.length_nil] at hlen
    rw [acItems]
    split
    · exact ⟨[], [(0x00, 0)], j, rfl, rfl, .inr ⟨by omega, rfl⟩, fun p => (listedFrom_nil _ p).symm⟩
    · exact ⟨[], [], j, rfl, rfl, .inl ⟨by omega, rfl⟩, fun p => (listedFrom_nil _ p).symm⟩
  | v :: l, r, j, hlen, hcat => by
    rw [List.length_cons] at hlen
    by_cases h0 : v = 0
    · rw [acItems, if_pos h0] at hcat ⊢
      obtain ⟨items, eob, j', hsplit, hwalk, hend, hput⟩ := acItems_accepted (r := r + 1) (j := j) (by omega) hcat
      refine ⟨items, eob, j', hsplit, hwalk, hend, fun p => ?_⟩
      rw [hput, ← Nat.add_assoc, listedFrom_cons]
      split
      · next hp => rw [h0, listedFrom, if_pos (by omega)]
      · rfl
    · rw [acItems, if_neg h0] at hcat ⊢
      obtain ⟨hv, hl⟩ := List.forall_mem_cons.mp (List.forall_mem_append.mp hcat).2
      obtain ⟨items, eob, j', hsplit, hwalk, hend, hput⟩ := acItems_accepted (r := 0) (j := j + r + 1) (by omega) hl
      refine ⟨List.replicate (r / 16) (0xF0, 0) ++ (acSymbol (r % 16) (cat v), v) :: items, eob, j', ?_,
        acWalk_value_append h0 hv (by omega) hwalk, hend, fun p => ?_⟩
      · rw [hsplit, List.append_assoc, List.cons_append]
      · rw [acPlaced_value_append h0 hv, hput, listedFrom_cons, Nat.add_zero]

/-- Coefficients given position by position are those of a list. -/
theorem acList_eq_of_listedFrom {c : Config} {m : Memory} {comp k : Nat} {l : List Int} (hl : l.length = 63)
    (h : ∀ p, 1 ≤ p → p ≤ 63 → cmOf c m comp k p = listedFrom 1 l p) : acList c m comp k = l := by
  refine List.ext_getElem (by rw [acList, List.length_map, List.length_range, hl]) fun i hi hi' => ?_
  have hp := h (i + 1) (by omega) (by omega)
  rw [listedFrom, if_neg (by omega), Nat.add_sub_cancel, List.getD_eq_getElem _ _ hi'] at hp
  simpa only [acList, List.getElem_map, List.getElem_range] using hp

end Sys2Proof.Machine

open Sys2Proof Sys2Proof.Machine

/-- Settles O39: the items at the head of the bits are read one by one and end the block, and the encoder's items are a
coding of this kind. -/
theorem decblkDecodesACodedBlock : Obligations.DecblkDecodesACodedBlock := by
  intro dcs acs comp eosok s v hd ha hdv hav htd hta hb hlen hr
  refine ⟨fun l hl hcodable hpre => ?_, fun items eob j hwalk hend hdc hok hpre =>
    exec_decblk_of_coding htd hta hlen hr hwalk hend hdc hok hd ha hdv hav hb hpre⟩
  obtain ⟨hdc, hac⟩ := hcodable
  obtain ⟨items, eob, j, hsplit, hwalk, hend, hput⟩ :=
    acItems_accepted (l := l) (r := 0) (j := 1) (by omega) fun x hx => (hac x hx).1
  rw [blockBits, hsplit] at hpre ⊢
  rw [hsplit] at hac
  obtain ⟨r, m, hexec, hdr, hcm, hstream, hok, hframe⟩ :=
    exec_decblk_of_coding (eosok := eosok) htd hta hlen hr hwalk hend hdc hac hd ha hdv hav hb hpre
  exact ⟨r, m, hexec, hdr, acList_eq_of_listedFrom hl fun p h1 h63 => (hcm p h1 h63).trans (hput p), hstream, hok,
    hframe⟩

end

section
/-! PROOF. The neighbours in the block grid (43_predictor.md R160, R161): a block is the one at its column and row, and
its neighbours stand one column or one row before it. -/

namespace Sys2Proof.Machine

section
variable {mx row col a b : Nat}

/-- A luma block by its MCU and its place in it: one of two columns `a` and one of two rows `b` (R160). -/
def lumaBlock (mx row col b a : Nat) : Nat := 4 * (row * mx + col) + (2 * b + a)

theorem exists_lumaBlock (hmx : 1 ≤ mx) (k : Nat) :
    ∃ row col b a, col < mx ∧ b < 2 ∧ a < 2 ∧ k = lumaBlock mx row col b a := by
  refine ⟨k / 4 / mx, k / 4 % mx, k % 4 / 2, k % 2, Nat.mod_lt _ hmx, by omega, by omega, ?_⟩
  have := Nat.div_add_mod' (k / 4) mx
  rw [lumaBlock]
  omega

theorem gridBlock_luma (ha : a < 2) (hb : b < 2) :
    gridBlock mx 0 (2 * col + a) (2 * row + b) = lumaBlock mx row col b a := by
  rw [gridBlock, if_pos rfl, lumaBlock, show (2 * row + b) / 2 = row by omega, show (2 * col + a) / 2 = col by omega,
    show (2 * row + b) % 2 = b by omega, show (2 * col + a) % 2 = a by omega]

theorem lumaBlock_row_pred (hr : 0 < row) :
    lumaBlock mx (row - 1) col b a = lumaBlock mx row col b a - 4 * mx := by
  have := Nat.le_mul_of_pos_left mx hr
  rw [lumaBlock, lumaBlock, Nat.sub_one_mul]
  omega

section
variable (hc : col < mx) (hb : b < 2) (ha : a < 2)
include hc hb ha

theorem lumaBlock_parts : lumaBlock mx row col b a % 4 = 2 * b + a ∧ lumaBlock mx row col b a % 2 = a ∧
    lumaBlock mx row col b a / 4 % mx = col ∧ lumaBlock mx row col b a / 4 / mx = row := by
  have h4 : lumaBlock mx row col b a / 4 = row * mx + col := by rw [lumaBlock]; omega
  refine ⟨by rw [lumaBlock]; omega, by rw [lumaBlock]; omega, ?_, ?_⟩
  · rw [h4, Nat.mul_add_mod', Nat.mod_eq_of_lt hc]
  · rw [h4, Nat.mul_comm, Nat.mul_add_div (by omega), Nat.div_eq_of_lt hc, Nat.add_zero]

theorem gridX_lumaBlock : gridX mx 0 (lumaBlock mx row col b a) = 2 * col + a := by
  obtain ⟨-, h2, hcol, -⟩ := lumaBlock_parts (row := row) hc hb ha
  rw [gridX, if_pos rfl, hcol, h2]

theorem gridY_lumaBlock : gridY mx 0 (lumaBlock mx row col b a) = 2 * row + b := by
  obtain ⟨h4, -, -, hrow⟩ := lumaBlock_parts (row := row) hc hb ha
  rw [gridY, if_pos rfl, hrow, h4]
  omega

/-- The left neighbour is in the MCU, or in the MCU before in the row. -/
theorem leftOf_lumaBlock : leftOf mx 0 (lumaBlock mx row col b a) =
    if 2 * col + a = 0 then none else some (gridBlock mx 0 (2 * col + a - 1) (2 * row + b)) := by
  obtain ⟨h4, -, hcol, -⟩ := lumaBlock_parts (row := row) hc hb ha
  rw [leftOf, if_pos rfl, h4, hcol]
  obtain rfl | rfl : a = 1 ∨ a = 0 := by omega
  · rw [if_pos (by omega), if_neg (by omega), show 2 * col + 1 - 1 = 2 * col + 0 by omega, gridBlock_luma (by omega) hb,
      lumaBlock, lumaBlock]
    congr 1
  · rw [if_neg (by omega)]
    obtain rfl | hpos := Nat.eq_zero_or_pos col
    · rfl
    · rw [if_pos hpos, if_neg (by omega), show 2 * col + 0 - 1 = 2 * (col - 1) + 1 by omega,
        gridBlock_luma (by omega) hb, lumaBlock, lumaBlock]
      congr 1
      omega

/-- The above neighbour is in the MCU, or in the MCU above. -/
theorem aboveOf_lumaBlock : aboveOf mx 0 (lumaBlock mx row col b a) =
    if 2 * row + b = 0 then none else some (gridBlock mx 0 (2 * col + a) (2 * row + b - 1)) := by
  obtain ⟨h4, -, -, hrow⟩ := lumaBlock_parts (row := row) hc hb ha
  rw [aboveOf, if_pos rfl, h4, hrow]
  obtain rfl | rfl : b = 1 ∨ b = 0 := by omega
  · rw [if_pos (by omega), if_neg (by omega), show 2 * row + 1 - 1 = 2 * row + 0 by omega, gridBlock_luma ha (by omega),
      lumaBlock, lumaBlock]
    congr 1
    omega
  · rw [if_neg (by omega)]
    obtain rfl | hpos := Nat.eq_zero_or_pos row
    · rfl
    · have := Nat.le_mul_of_pos_left mx hpos
      rw [if_pos hpos, if_neg (by omega), show 2 * row + 0 - 1 = 2 * (row - 1) + 1 by omega,
        gridBlock_luma ha (by omega), lumaBlock_row_pred hpos, lumaBlock, lumaBlock]
      congr 1
      omega

end

end

/-- The neighbours in the grid of blocks. -/
def OnGrid (mx comp k : Nat) : Prop :=
  gridBlock mx comp (gridX mx comp k) (gridY mx comp k) = k ∧
    leftOf mx comp k = (if gridX mx comp k = 0 then none
      else some (gridBlock mx comp (gridX mx comp k - 1) (gridY mx comp k))) ∧
    aboveOf mx comp k = (if gridY mx comp k = 0 then none
      else some (gridBlock mx comp (gridX mx comp k) (gridY mx comp k - 1)))

theorem onGrid_luma {mx : Nat} (hmx : 1 ≤ mx) (k : Nat) : OnGrid mx 0 k := by
  obtain ⟨row, col, b, a, hc, hb, ha, rfl⟩ := exists_lumaBlock hmx k
  rw [OnGrid, gridX_lumaBlock hc hb ha, gridY_lumaBlock hc hb ha]
  exact ⟨gridBlock_luma ha hb, leftOf_lumaBlock hc hb ha, aboveOf_lumaBlock hc hb ha⟩

theorem onGrid_chroma {mx comp : Nat} (hmx : 1 ≤ mx) (hcomp : comp ≠ 0) (k : Nat) : OnGrid mx comp k := by
  have hk := Nat.div_add_mod' k mx
  have hrow : k / mx = 0 ↔ k < mx := Nat.div_eq_zero_iff_lt hmx
  simp only [OnGrid, gridBlock, gridX, gridY, leftOf, aboveOf, if_neg hcomp]
  refine ⟨hk, ?_, ?_⟩
  · by_cases h0 : k % mx = 0
    · rw [if_pos h0, if_neg (not_not.mpr h0)]
    · rw [if_neg h0, if_pos h0]
      congr 1
      omega
  · by_cases h0 : k / mx = 0
    · rw [if_pos h0, if_neg (Nat.not_le.mpr (hrow.mp h0))]
    · rw [if_neg h0, if_pos (Nat.not_lt.mp (mt hrow.mpr h0)), Nat.sub_one_mul]
      have := Nat.le_mul_of_pos_left mx (Nat.pos_of_ne_zero h0)
      congr 1
      omega

theorem onGrid {mx : Nat} (hmx : 1 ≤ mx) (comp k : Nat) : OnGrid mx comp k := by
  by_cases hcomp : comp = 0
  · exact hcomp ▸ onGrid_luma hmx k
  · exact onGrid_chroma hmx hcomp k

/-! ### The scan (R162) -/

/-- The left neighbour comes before the block. -/
theorem leftOf_lt {mx comp k l : Nat} (h : leftOf mx comp k = some l) : l < k := by
  unfold leftOf at h
  have hmod := Nat.mod_le (k / 4) mx
  split_ifs at h with h1 h2 h3 h4
  · cases h; omega
  · cases h; omega
  · cases h
    have : k ≠ 0 := fun h0 => h4 (by rw [h0, Nat.zero_mod])
    omega

/-- The above neighbour comes before the block. -/
theorem aboveOf_lt {mx comp k a : Nat} (hmx : 1 ≤ mx) (h : aboveOf mx comp k = some a) : a < k := by
  unfold aboveOf at h
  split_ifs at h with h1 h2 h3 h4
  · cases h; omega
  · cases h
    have hle : mx ≤ k / 4 := Nat.not_lt.mp fun hlt => absurd h3 (by rw [Nat.div_eq_of_lt hlt]; exact lt_irrefl 0)
    omega
  · cases h; omega

end Sys2Proof.Machine

open Sys2Proof Sys2Proof.Machine

/-- Settles O42: a luma block by its MCU and its place in it, a chroma block by division with the row width. -/
theorem neighboursAreTheGridNeighbours : Obligations.NeighboursAreTheGridNeighbours := by
  intro mx comp k hmx
  obtain ⟨hblock, hleft, habove⟩ := onGrid hmx comp k
  exact ⟨hblock, hleft, habove, fun _ => leftOf_lt, fun _ => aboveOf_lt hmx⟩

end

section
/-! PROOF. The scaled mean of the trimmed discontinuity (43_predictor.md R168): what trimming keeps, and floor division
as rounding half up. -/

namespace Sys2Proof.Machine

theorem trimmed_perm (d : List Int) : ∃ lo hi : List Int, d.insertionSort (· ≤ ·) = lo ++ trimmed d ++ hi ∧
    lo.length = 3 * d.length / 8 ∧ hi.length = 3 * d.length / 8 := by
  have hlen : (d.insertionSort (· ≤ ·)).length = d.length := List.length_insertionSort _ d
  refine ⟨(d.insertionSort (· ≤ ·)).take (3 * d.length / 8),
    ((d.insertionSort (· ≤ ·)).drop (3 * d.length / 8)).drop (d.length - 2 * (3 * d.length / 8)), ?_, ?_, ?_⟩
  · rw [trimmed, List.append_assoc, List.take_append_drop, List.take_append_drop]
  · rw [List.length_take, hlen]
    omega
  · rw [List.length_drop, List.length_drop, hlen]
    omega

theorem mem_of_mem_trimmed {d : List Int} {x : Int} (h : x ∈ trimmed d) : x ∈ d :=
  (List.mem_insertionSort _).mp (List.mem_of_mem_drop (List.mem_of_mem_take h))

theorem length_trimmed (d : List Int) : (trimmed d).length = d.length - 2 * (3 * d.length / 8) := by
  rw [trimmed, List.length_take, List.length_drop, List.length_insertionSort]
  omega

/-- Floor division in units of `2 ^ 26` is rounding half up of the scaled mean. -/
theorem scaledMean_eq_floor (T : Int) {n q : Nat} (hn : n ≠ 0) (hq : q ≠ 0) :
    (-2 * T + (n : Int) * q * 2 ^ 25) / ((n : Int) * q * 2 ^ 26) =
      ⌊(-8 * ((T : ℚ) / (n : ℚ)) / 2 ^ 28 / (q : ℚ) + 1 / 2 : ℚ)⌋ := by
  have hn0 : (n : ℚ) ≠ 0 := Nat.cast_ne_zero.mpr hn
  have hq0 : (q : ℚ) ≠ 0 := Nat.cast_ne_zero.mpr hq
  have hd : (n : Int) * q * 2 ^ 26 = ((n * q * 2 ^ 26 : ℕ) : Int) := by push_cast; rfl
  rw [hd, ← Rat.floor_intCast_div_natCast]
  congr 1
  push_cast
  field_simp
  ring

end Sys2Proof.Machine

open Sys2Proof Sys2Proof.Machine

/-- Settles O44: trimming cuts the sorted entries in three, and delta is the floor of its own fraction. -/
theorem deltaIsTheRoundedTrimmedMean : Obligations.DeltaIsTheRoundedTrimmedMean := by
  intro d q hd hq
  obtain ⟨lo, hi, hsort, hlo, hhi⟩ := trimmed_perm d
  have hle := List.pairwise_insertionSort (· ≤ ·) d
  rw [hsort, List.pairwise_append, List.pairwise_append] at hle
  obtain ⟨⟨-, -, hlow⟩, -, hhigh⟩ := hle
  refine ⟨⟨lo, hi, hsort ▸ List.perm_insertionSort _ d, by omega, by omega, hlow,
    fun y hy => hhigh y (List.mem_append_right _ hy)⟩, scaledMean_eq_floor _ ?_ (by omega)⟩
  rw [length_trimmed]
  omega

end

section
/-! PROOF. The basis and the edge estimates (43_predictor.md R163 to R167): the table of BQ as rounded cosines, the two
orders of summation, and how large an estimate can be. -/

namespace Sys2Proof.Machine

/-! ### The basis (R165) -/

section
variable {k : ℕ} {z : Int}

/-- `z` is the integer nearest to 8192 times the cosine of `k` thirty-seconds of a turn. -/
def RoundsCos (k : ℕ) (z : Int) : Prop := |8192 * cosTurn k - z| < 1 / 2

theorem RoundsCos.floor_eq (h : RoundsCos k z) : z = ⌊8192 * cosTurn k + 1 / 2⌋ := by
  obtain ⟨hlo, hhi⟩ := abs_lt.mp h
  exact (Int.floor_eq_iff.mpr ⟨by linarith, by linarith⟩).symm

theorem RoundsCos.neg {j : ℕ} (h : RoundsCos k z) (hj : cosTurn j = -cosTurn k) : RoundsCos j (-z) := by
  rw [RoundsCos, hj, ← abs_neg]
  push_cast
  rw [show -(8192 * -cosTurn k - -(z : ℝ)) = 8192 * cosTurn k - z by ring]
  exact h

theorem roundsCos_of_between {lo hi : ℝ} (h : lo < cosTurn k ∧ cosTurn k < hi) (hlo : (z : ℝ) - 1 / 2 ≤ 8192 * lo)
    (hhi : 8192 * hi ≤ (z : ℝ) + 1 / 2) : RoundsCos k z :=
  abs_lt.mpr ⟨by linarith [h.1], by linarith [h.2]⟩

/-- The rounded cosines of the first quarter turn. -/
def quarterCos (k : ℕ) : Int := [8192, 8035, 7568, 6811, 5793, 4551, 3135, 1598, 0].getD k 0

theorem roundsCos_quarter (hk : k ≤ 8) : RoundsCos k (quarterCos k) := by
  interval_cases k
  · norm_num [RoundsCos, quarterCos]
  · exact roundsCos_of_between cosTurn_1 (by norm_num [quarterCos]) (by norm_num [quarterCos])
  · exact roundsCos_of_between cosTurn_2 (by norm_num [quarterCos]) (by norm_num [quarterCos])
  · exact roundsCos_of_between cosTurn_3 (by norm_num [quarterCos]) (by norm_num [quarterCos])
  · exact roundsCos_of_between cosTurn_4 (by norm_num [quarterCos]) (by norm_num [quarterCos])
  · exact roundsCos_of_between cosTurn_5 (by norm_num [quarterCos]) (by norm_num [quarterCos])
  · exact roundsCos_of_between cosTurn_6 (by norm_num [quarterCos]) (by norm_num [quarterCos])
  · exact roundsCos_of_between cosTurn_7 (by norm_num [quarterCos]) (by norm_num [quarterCos])
  · norm_num [RoundsCos, quarterCos]

/-- The rounded cosines of the first half turn: the second quarter mirrors the first. -/
def halfCos (k : ℕ) : Int := if k ≤ 8 then quarterCos k else -quarterCos (16 - k)

theorem roundsCos_half (hk : k ≤ 16) : RoundsCos k (halfCos k) := by
  unfold halfCos
  split
  · next h => exact roundsCos_quarter h
  · next h =>
    refine (roundsCos_quarter (k := 16 - k) (by omega)).neg ?_
    rw [cosTurn_sub hk, neg_neg]

/-- The rounded cosines of every turn: the sign changes each half turn. -/
def turnCos (k : ℕ) : Int := if k / 16 % 2 = 0 then halfCos (k % 16) else -halfCos (k % 16)

theorem roundsCos_turn (k : ℕ) : RoundsCos k (turnCos k) := by
  induction k using Nat.strong_induction_on with
  | _ k ih =>
    by_cases hk : k < 16
    · rw [turnCos, Nat.div_eq_of_lt hk, if_pos rfl, Nat.mod_eq_of_lt hk]
      exact roundsCos_half hk.le
    · obtain ⟨j, rfl⟩ : ∃ j, k = j + 16 := ⟨k - 16, by omega⟩
      have hturn : turnCos (j + 16) = -turnCos j := by
        rw [turnCos, turnCos, Nat.add_mod_right, Nat.add_div_right _ (by decide)]
        rcases Nat.mod_two_eq_zero_or_one (j / 16) with h | h
        · rw [if_neg (by omega), if_pos h]
        · rw [if_pos (by omega), if_neg (by omega), neg_neg]
      exact hturn ▸ (ih j (by omega)).neg (cosTurn_add_half j)

end

/-- BQ holds rounded cosines: of an eighth of a turn in column 0, where the formula has 1 / √2, else of
its own angle. -/
theorem bq_eq_turnCos : ∀ y, y < 8 → ∀ v, v < 8 → bq y v = turnCos (if v = 0 then 4 else (2 * y + 1) * v) := by decide

theorem cosTurn_four : cosTurn 4 = 1 / √2 := by
  rw [cosTurn, show ((4 : ℕ) : ℝ) * Real.pi / 16 = Real.pi / 4 by push_cast; ring, Real.cos_pi_div_four,
    Real.sqrt_div_self']

theorem bq_eq_floor {y v : ℕ} (hy : y < 8) (hv : v < 8) :
    bq y v = ⌊(8192 * (if v = 0 then 1 / √2 else 1) * Real.cos ((2 * y + 1) * v * Real.pi / 16) + 1 / 2 : ℝ)⌋ := by
  rw [bq_eq_turnCos y hy v hv, (roundsCos_turn _).floor_eq]
  congr 2
  by_cases h0 : v = 0
  · rw [if_pos h0, if_pos h0, h0, cosTurn_four]
    norm_num
  · rw [if_neg h0, if_neg h0, mul_one, cosTurn]
    push_cast
    rfl

/-! ### The zigzag (R163, R164) -/

theorem zigzag_walk : zzToNat 0 = 0 ∧ (∀ p, p < 63 → zzToNat (p + 1) = zigzagNext (zzToNat p)) ∧
    (∀ p, p < 64 → zz (zzToNat p) = p) ∧ (∀ n, n < 64 → zzToNat (zz n) = n) := by decide

theorem zz_lt {n : Nat} (hn : n < 64) : zz n < 64 := by
  revert n; decide

theorem zz_pos {n : Nat} (h0 : n ≠ 0) (hn : n < 64) : 1 ≤ zz n := by
  obtain ⟨hstart, -, -, hinv⟩ := zigzag_walk
  refine Nat.pos_of_ne_zero fun hz => h0 ?_
  rw [← hinv n hn, hz, hstart]

section
variable {c : Config} {m : Memory} {comp x : Nat}

theorem dequantised_zzToNat {p : Nat} (h1 : 1 ≤ p) (hp : p < 64) :
    dequantised c m comp x (zzToNat p / 8) (zzToNat p % 8) = cmOf c m comp x p * qtOf m (qtIndex comp) p := by
  obtain ⟨-, -, hinv, -⟩ := zigzag_walk
  have hzz := hinv p hp
  have h0 : ¬ (zzToNat p / 8 = 0 ∧ zzToNat p % 8 = 0) := fun h => by
    have hn : zzToNat p = 0 := by omega
    rw [hn] at hzz
    exact absurd hzz.symm (by rw [show zz 0 = 0 from rfl]; omega)
  rw [dequantised, if_neg h0, Nat.div_add_mod, hzz]

/-! ### The edge estimates (R166) -/

theorem sum8_eq (f : Nat → Int) : sum8 f = ∑ i ∈ Finset.range 8, f i := rfl

theorem eCol_eq_sum (x0 y : Nat) : eCol c m comp x x0 y =
    ∑ v ∈ Finset.range 8, ∑ u ∈ Finset.range 8, bq y v * bq x0 u * dequantised c m comp x v u := by
  simp only [eCol, sum8_eq, Finset.mul_sum, mul_assoc]

/-- The two estimates of a pixel sum the same products, by rows and by columns. -/
theorem eCol_eq_eRow (x0 y : Nat) : eCol c m comp x x0 y = eRow c m comp x y x0 := by
  simp only [eCol, eRow, sum8_eq, Finset.mul_sum]
  rw [Finset.sum_comm]
  exact Finset.sum_congr rfl fun u _ => Finset.sum_congr rfl fun v _ => mul_left_comm _ _ _

/-- A row of BQ sums to at most 43284 in magnitude. -/
theorem sum_abs_bq_le (y : Nat) : ∑ v ∈ Finset.range 8, |bq y v| ≤ 43284 := by
  by_cases hy : y < 8
  · revert y
    decide
  · have h0 : ∀ v, bq y v = 0 := fun v => by
      rw [bq, List.getD_eq_default bqTable [] (Nat.not_lt.mp hy), List.getD_nil]
    simp [h0]

theorem abs_sum8_bq_le {f : Nat → Int} {B : Int} (hf : ∀ i, |f i| ≤ B) (y : Nat) :
    |sum8 fun v => bq y v * f v| ≤ 43284 * B := by
  have hB : 0 ≤ B := (abs_nonneg _).trans (hf 0)
  calc |sum8 fun v => bq y v * f v|
      ≤ ∑ v ∈ Finset.range 8, |bq y v * f v| := by
        rw [sum8_eq]
        exact Finset.abs_sum_le_sum_abs _ _
    _ ≤ ∑ v ∈ Finset.range 8, |bq y v| * B :=
        Finset.sum_le_sum fun v _ => by rw [abs_mul]; exact mul_le_mul_of_nonneg_left (hf v) (abs_nonneg _)
    _ = (∑ v ∈ Finset.range 8, |bq y v|) * B := (Finset.sum_mul _ _ _).symm
    _ ≤ 43284 * B := mul_le_mul_of_nonneg_right (sum_abs_bq_le y) hB

theorem abs_cmOf_le (c : Config) (m : Memory) (comp k p : Nat) : |cmOf c m comp k p| ≤ 32768 := by
  have h1 := BitVec.toInt_lt (x := memRead16 m (cmAddr c comp k p))
  have h2 := BitVec.le_toInt (x := memRead16 m (cmAddr c comp k p))
  rw [cmOf, abs_le]
  omega

theorem abs_dequantised_le (v u : Nat) : |dequantised c m comp x v u| ≤ 32768 * 255 := by
  rw [dequantised]
  split
  · decide
  · have hq : qtOf m (qtIndex comp) (zz (8 * v + u)) < 2 ^ 8 := BitVec.isLt _
    rw [abs_mul, Nat.abs_cast]
    exact mul_le_mul (abs_cmOf_le _ _ _ _ _) (by omega) (by omega) (by decide)

theorem abs_eCol_lt (x0 y : Nat) : |eCol c m comp x x0 y| < 2 ^ 54 := by
  have h := abs_sum8_bq_le (fun v => abs_sum8_bq_le (fun u => abs_dequantised_le (c := c) (m := m) (comp := comp)
    (x := x) v u) x0) y
  exact h.trans_lt (by norm_num)

/-! ### The discontinuity (R167) -/

theorem length_leftEdge (k : Nat) (l : Option Nat) : (leftEdge c m comp k l).length = if l = none then 0 else 8 := by
  cases l with
  | none => rfl
  | some l => rw [leftEdge, List.length_map, List.length_range]; rfl

theorem length_topEdge (k : Nat) (a : Option Nat) : (topEdge c m comp k a).length = if a = none then 0 else 8 := by
  cases a with
  | none => rfl
  | some a => rw [topEdge, List.length_map, List.length_range]; rfl

theorem length_discontinuity (mx k : Nat) : (discontinuity c m mx comp k).length =
    (if leftOf mx comp k = none then 0 else 8) + (if aboveOf mx comp k = none then 0 else 8) := by
  rw [discontinuity, List.length_append, length_leftEdge, length_topEdge]

theorem getD_map_range8 (f : Nat → Int) {i : Nat} (hi : i < 8) : ((List.range 8).map f).getD i 0 = f i := by
  rw [List.getD_eq_getElem _ _ (by rwa [List.length_map, List.length_range]), List.getElem_map, List.getElem_range]

theorem discontinuity_left {mx k l y : Nat} (hl : leftOf mx comp k = some l) (hy : y < 8) :
    (discontinuity c m mx comp k).getD y 0 = eCol c m comp k 0 y - eCol c m comp l 7 y := by
  have hlen : y < (leftEdge c m comp k (some l)).length := by rw [length_leftEdge]; exact hy
  rw [discontinuity, hl, List.getD_append _ _ _ _ hlen, leftEdge, getD_map_range8 _ hy]

theorem discontinuity_top {mx k a i : Nat} (ha : aboveOf mx comp k = some a) (hi : i < 8) :
    (discontinuity c m mx comp k).getD ((if leftOf mx comp k = none then 0 else 8) + i) 0 =
      eRow c m comp k 0 i - eRow c m comp a 7 i := by
  rw [discontinuity, ha, ← length_leftEdge (c := c) (m := m) (comp := comp) k,
    List.getD_append_right _ _ _ _ (Nat.le_add_right _ _), Nat.add_sub_cancel_left, topEdge, getD_map_range8 _ hi]

end

end Sys2Proof.Machine

open Sys2Proof Sys2Proof.Machine

/-- Settles O43: the formula of R165 rounds to the table, and an estimate is one double sum in either order. -/
theorem edgeEstimatesAgreeOnAPixel : Obligations.EdgeEstimatesAgreeOnAPixel := by
  refine ⟨fun y v => bq_eq_floor, zigzag_walk, fun c m comp x => ⟨rfl, fun p => dequantised_zzToNat⟩,
    fun c m comp x x0 y => ⟨eCol_eq_sum x0 y, eCol_eq_eRow x0 y, ?_⟩,
    fun c m mx comp k => ⟨length_discontinuity mx k, fun l y => discontinuity_left, fun a x => discontinuity_top⟩⟩
  have h := abs_eCol_lt (c := c) (m := m) (comp := comp) (x := x) x0 y
  rw [Int.abs_eq_natAbs] at h
  omega

end

section
/-! PROOF. The prediction and SPPRED (43_predictor.md R162, R168, R169, R172): what a prediction reads, how large it can
be, and the command that returns it. -/

namespace Sys2Proof.Machine

/-! ### What a prediction reads (R162) -/

theorem sum8_congr {f g : Nat → Int} (h : ∀ i, i < 8 → f i = g i) : sum8 f = sum8 g :=
  Finset.sum_congr rfl fun i hi => h i (Finset.mem_range.mp hi)

section
variable {c : Config} {m m' : Memory} {comp k : Nat}

theorem dcReference_congr {l a : Option Nat}
    (hn : ∀ j, l = some j ∨ a = some j → ∀ p, p < 64 → cmOf c m' comp j p = cmOf c m comp j p) :
    dcReference c m' comp l a = dcReference c m comp l a := by
  have hdc : ∀ j, l = some j ∨ a = some j → cmOf c m' comp j 0 = cmOf c m comp j 0 := fun j hj => hn j hj 0 (by decide)
  cases l with
  | none =>
    cases a with
    | none => rfl
    | some a => exact hdc a (.inr rfl)
  | some l =>
    cases a with
    | none => exact hdc l (.inl rfl)
    | some a => rw [dcReference, dcReference, hdc l (.inl rfl), hdc a (.inr rfl)]

section
variable (hq : ∀ p, p < 64 → qtOf m' (qtIndex comp) p = qtOf m (qtIndex comp) p)
include hq

section
variable {x : Nat} (hx : ∀ p, 1 ≤ p → p < 64 → cmOf c m' comp x p = cmOf c m comp x p)
include hx

/-- The DC coefficient of a block is not read for its edges. -/
theorem dequantised_congr {v u : Nat} (hv : v < 8) (hu : u < 8) :
    dequantised c m' comp x v u = dequantised c m comp x v u := by
  rw [dequantised, dequantised]
  split
  · rfl
  · next h0 =>
    have hzz : zz (8 * v + u) < 64 := zz_lt (by omega)
    rw [hq _ hzz, hx _ (zz_pos (by omega) (by omega)) hzz]

theorem eCol_congr (x0 y : Nat) : eCol c m' comp x x0 y = eCol c m comp x x0 y :=
  sum8_congr fun v hv => congrArg (bq y v * ·) (sum8_congr fun u hu =>
    congrArg (bq x0 u * ·) (dequantised_congr hq hx hv hu))

theorem eRow_congr (y0 i : Nat) : eRow c m' comp x y0 i = eRow c m comp x y0 i := by
  rw [← eCol_eq_eRow, ← eCol_eq_eRow, eCol_congr hq hx]

end

theorem leftEdge_congr {l : Option Nat} (hk : ∀ p, 1 ≤ p → p < 64 → cmOf c m' comp k p = cmOf c m comp k p)
    (hn : ∀ j, l = some j → ∀ p, p < 64 → cmOf c m' comp j p = cmOf c m comp j p) :
    leftEdge c m' comp k l = leftEdge c m comp k l := by
  cases l with
  | none => rfl
  | some l =>
    simp only [leftEdge, eCol_congr hq hk, eCol_congr hq fun p _ => hn l rfl p]

theorem topEdge_congr {a : Option Nat} (hk : ∀ p, 1 ≤ p → p < 64 → cmOf c m' comp k p = cmOf c m comp k p)
    (hn : ∀ j, a = some j → ∀ p, p < 64 → cmOf c m' comp j p = cmOf c m comp j p) :
    topEdge c m' comp k a = topEdge c m comp k a := by
  cases a with
  | none => rfl
  | some a =>
    simp only [topEdge, eRow_congr hq hk, eRow_congr hq fun p _ => hn a rfl p]

/-- A prediction reads QT, the block's AC coefficients and the coefficients of its neighbours. -/
theorem prediction_congr {mx : Nat} (hk : ∀ p, 1 ≤ p → p < 64 → cmOf c m' comp k p = cmOf c m comp k p)
    (hn : ∀ j, leftOf mx comp k = some j ∨ aboveOf mx comp k = some j →
      ∀ p, p < 64 → cmOf c m' comp j p = cmOf c m comp j p) :
    prediction c m' mx comp k = prediction c m mx comp k := by
  rw [prediction, prediction, discontinuity, discontinuity, leftEdge_congr hq hk fun j hj => hn j (.inl hj),
    topEdge_congr hq hk fun j hj => hn j (.inr hj), dcReference_congr hn, hq 0 (by decide)]

end

end

/-! ### How large a prediction is (R172) -/

theorem abs_sum_le {l : List Int} {B : Int} (h : ∀ x ∈ l, |x| ≤ B) : |l.sum| ≤ l.length * B := by
  have hhi := List.sum_le_card_nsmul l B fun x hx => (abs_le.mp (h x hx)).2
  have hlo := List.card_nsmul_le_sum l (-B) fun x hx => (abs_le.mp (h x hx)).1
  rw [nsmul_eq_mul] at hhi hlo
  exact abs_le.mpr ⟨by linarith, hhi⟩

/-- Entries below `2 ^ 55` give a delta of at most `2 ^ 30`. -/
theorem abs_dcDelta_le {d : List Int} (q : Nat) (h : ∀ x ∈ d, |x| ≤ 2 ^ 55) : |dcDelta d q| ≤ 2 ^ 30 := by
  obtain ⟨hlo, hhi⟩ := abs_le.mp (abs_sum_le fun x hx => h x (mem_of_mem_trimmed hx))
  rw [dcDelta]
  generalize (trimmed d).sum = T at *
  generalize (trimmed d).length = n at *
  obtain hb | hb := Nat.eq_zero_or_pos (n * q)
  · have hb : (n : Int) * q = 0 := by exact_mod_cast hb
    rw [hb, zero_mul, zero_mul, Int.ediv_zero]
    decide
  · have hn : (n : Int) ≤ n * q := by exact_mod_cast Nat.le_mul_of_pos_right n (Nat.pos_of_mul_pos_left hb)
    have hb : (0 : Int) < n * q := by exact_mod_cast hb
    generalize (n : Int) * q = b at *
    refine abs_le.mpr ⟨Int.le_ediv_of_mul_le (by omega) (by omega), ?_⟩
    exact Int.le_of_lt_add_one (Int.ediv_lt_of_lt_mul (by omega) (by omega))

section
variable {c : Config} {m : Memory} {mx comp k : Nat}

theorem abs_discontinuity_le : ∀ x ∈ discontinuity c m mx comp k, |x| ≤ 2 ^ 55 := by
  have hsub : ∀ a b : Int, |a| < 2 ^ 54 → |b| < 2 ^ 54 → |a - b| ≤ 2 ^ 55 := fun a b ha hb =>
    (abs_sub a b).trans (by omega)
  intro x hx
  rcases List.mem_append.mp hx with hx | hx
  · unfold leftEdge at hx
    split at hx
    · cases hx
    · obtain ⟨y, -, rfl⟩ := List.mem_map.mp hx
      exact hsub _ _ (abs_eCol_lt _ _) (abs_eCol_lt _ _)
  · unfold topEdge at hx
    split at hx
    · cases hx
    · obtain ⟨i, -, rfl⟩ := List.mem_map.mp hx
      rw [← eCol_eq_eRow, ← eCol_eq_eRow]
      exact hsub _ _ (abs_eCol_lt _ _) (abs_eCol_lt _ _)

theorem abs_dcReference_le (l a : Option Nat) : |dcReference c m comp l a| ≤ 32768 := by
  unfold dcReference
  split
  · next l a =>
    obtain ⟨h1, h2⟩ := abs_le.mp (abs_cmOf_le c m comp l 0)
    obtain ⟨h3, h4⟩ := abs_le.mp (abs_cmOf_le c m comp a 0)
    rw [abs_le]
    omega
  · exact abs_cmOf_le _ _ _ _ _
  · exact abs_cmOf_le _ _ _ _ _
  · decide

theorem fitsWord_prediction : fitsWord (prediction c m mx comp k) = true := by
  rw [fitsWord, Bool.and_eq_true, decide_eq_true_iff, decide_eq_true_iff, prediction]
  split
  · decide
  · obtain ⟨h1, h2⟩ := abs_le.mp (abs_dcReference_le (c := c) (m := m) (comp := comp) (leftOf mx comp k)
      (aboveOf mx comp k))
    obtain ⟨h3, h4⟩ := abs_le.mp (abs_dcDelta_le (qtOf m (qtIndex comp) 0)
      (abs_discontinuity_le (c := c) (m := m) (mx := mx) (comp := comp) (k := k)))
    omega

theorem prediction_of_no_neighbour (hl : leftOf mx comp k = none) (ha : aboveOf mx comp k = none) :
    prediction c m mx comp k = 0 := if_pos ⟨hl, ha⟩

theorem prediction_of_neighbour (h : ¬ (leftOf mx comp k = none ∧ aboveOf mx comp k = none)) :
    prediction c m mx comp k = dcReference c m comp (leftOf mx comp k) (aboveOf mx comp k) +
      dcDelta (discontinuity c m mx comp k) (qtOf m (qtIndex comp) 0) := if_neg h

end

theorem toInt_signedWord {v : Int} (h : fitsWord v = true) : (signedWord v).toInt = v := by
  rw [fitsWord, Bool.and_eq_true, decide_eq_true_iff, decide_eq_true_iff] at h
  rw [signedWord, BitVec.toInt_ofInt, Int.bmod_eq_of_le] <;> omega

/-! ### SPPRED (R172) -/

section
variable {s : State} {comp : Nat}

/-- SPPRED's body after its operand checks: QZERO, or the prediction in RES, which always fits. -/
theorem body_sppred : body (.sppred comp) s = checkBlock comp (arg0Nat s) s
    (if dcStep s comp = 0 then .raise .qzero (word comp) s
      else .ok () { s with res := signedWord (prediction s.cfg s.mem (mcux s) comp (arg0Nat s)) }) := by
  rw [body, pred]
  congr 1
  by_cases h0 : dcStep s comp = 0
  · rw [if_pos h0, dcStep] at *
    rw [if_pos h0]
    rfl
  · have hq : ¬ qtOf s.mem (qtIndex comp) 0 = 0 := h0
    rw [if_neg h0, if_neg hq, lift_ok, andThen_ok, if_pos fitsWord_prediction]

theorem exec_sppred (hb : BlockOk s comp) (h0 : dcStep s comp ≠ 0) : exec (.sppred comp) s =
    .next { s with res := signedWord (prediction s.cfg s.mem (mcux s) comp (arg0Nat s)), done := true, doneP := true,
                   inFlight := none } := by
  obtain ⟨hc, hg, hk⟩ := hb
  rw [exec_eq_body, body_sppred, checkBlock_of _ hc hg hk, if_neg h0]
  rfl

theorem exec_sppred_of_zero (hb : BlockOk s comp) (h0 : dcStep s comp = 0) (hr : s.recorded = none) :
    exec (.sppred comp) s =
      .next { s with recorded := some ⟨.qzero, word comp⟩, faultP := true, inFlight := none } := by
  obtain ⟨hc, hg, hk⟩ := hb
  rw [exec_eq_body, body_sppred, checkBlock_of _ hc hg hk, if_pos h0, endCommand_raise, faultEntry_of_none _ _ hr]

theorem one_le_mcux (hg : geomValid s = true) : 1 ≤ mcux s := by
  simp only [geomValid, Bool.and_eq_true, decide_eq_true_iff] at hg
  exact hg.1.1

end

/-! ### Runs side by side -/

/-- Two ends that leave the same in RES, FAULT and FAULT_INFO. -/
def SeenAlike (u u' : State) : Prop := u'.res = u.res ∧ u'.recorded = u.recorded

/-- Two runs that end alike, for what a host sees of them. -/
def EndAlike : Run State Unit → Run State Unit → Prop
  | .ok _ u, .ok _ u' => SeenAlike u u'
  | .raise code info u, .raise code' info' u' => code' = code ∧ info' = info ∧ SeenAlike u u'
  | _, _ => False

theorem SeenAlike.faultEntry {u u' : State} (h : SeenAlike u u') (code : FaultCode) (info : Word) :
    SeenAlike (faultEntry code info u) (faultEntry code info u') := by
  obtain ⟨hres, hrec⟩ := h
  refine ⟨by rw [faultEntry_res, faultEntry_res, hres], ?_⟩
  cases hu : u.recorded with
  | none => rw [faultEntry_of_none _ _ hu, faultEntry_of_none _ _ (hrec.trans hu)]
  | some r => rw [faultEntry_of_some _ _ hu, faultEntry_of_some _ _ (hrec.trans hu), hrec]

theorem EndAlike.endCommand {r r' : Run State Unit} {t t' : State} (h : EndAlike r r')
    (ht : endCommand r = .next t) (ht' : endCommand r' = .next t') : SeenAlike t t' := by
  cases r with
  | ok _ u =>
    cases r' with
    | ok _ u' => cases ht; cases ht'; exact h
    | raise => exact h.elim
  | raise code info u =>
    cases r' with
    | ok => exact h.elim
    | raise code' info' u' =>
      obtain ⟨rfl, rfl, h⟩ := h
      cases ht
      cases ht'
      exact h.faultEntry _ _

section
variable {s s' : State} {k k' : Run State Unit}

theorem EndAlike.check (h : EndAlike k k') (hs : SeenAlike s s') (ok : Bool) (code : FaultCode) (info : Word) :
    EndAlike (check ok code info s k) (check ok code info s' k') := by
  cases ok
  · exact ⟨rfl, rfl, hs⟩
  · exact h

theorem EndAlike.checkBlock (h : EndAlike k k') (hs : SeenAlike s s') (hcfg : s'.cfg = s.cfg) (hgeom : s'.geom = s.geom)
    (comp j : Nat) : EndAlike (checkBlock comp j s k) (checkBlock comp j s' k') := by
  have hvalid : geomValid s' = geomValid s := by unfold geomValid mcux mcuy; rw [hgeom, hcfg]
  have hblocks : nblocks s' comp = nblocks s comp := by unfold nblocks mcux mcuy; rw [hgeom]
  unfold Machine.checkBlock checkComp
  rw [hvalid, hblocks, hgeom]
  exact ((h.check hs _ _ _).check hs _ _ _).check hs _ _ _

end

end Sys2Proof.Machine

open Sys2Proof Sys2Proof.Machine

/-- Settles O47: the bounds of R164 to R168 keep the prediction in s32, so the command only checks its step. -/
theorem sppredReturnsThePrediction : Obligations.SppredReturnsThePrediction := by
  refine ⟨fun comp s hb => ⟨fun h0 => ⟨fitsWord_prediction, _, exec_sppred hb h0, toInt_signedWord fitsWord_prediction,
      fun hx hy => ?_⟩, exec_sppred_of_zero hb, rfl⟩, fun c m mx comp k delta hdelta => ?_⟩
  · obtain ⟨-, hleft, habove⟩ := onGrid (one_le_mcux hb.2.1) comp (arg0Nat s)
    rw [hx, if_pos rfl] at hleft
    rw [hy, if_pos rfl] at habove
    rw [prediction_of_no_neighbour hleft habove]
    rfl
  · have hpred := prediction_of_neighbour (c := c) (m := m) (mx := mx) (comp := comp) (k := k)
    rw [qtIndex, ← hdelta] at hpred
    refine ⟨prediction_of_no_neighbour, fun l hl ha => ?_, fun a hl ha => ?_, fun l a hl ha => ?_⟩
    · rw [hpred (by simp [hl]), hl, ha]
      rfl
    · rw [hpred (by simp [ha]), hl, ha]
      rfl
    · rw [hpred (by simp [hl]), hl, ha, dcReference, ← Int.cast_add]
      exact congrArg (· + delta) (Rat.floor_intCast_div_natCast _ 2).symm

/-- Settles O51: both runs pass the same checks, read the same step and make the same prediction. -/
theorem sppredDependsOnlyOnItsBlocks : Obligations.SppredDependsOnlyOnItsBlocks := by
  intro comp s s' t t' hcfg hgeom harg hres hrec hq hcm ht ht'
  have hs : SeenAlike s s' := ⟨hres, hrec⟩
  have harg : arg0Nat s' = arg0Nat s := congrArg BitVec.toNat harg
  have hmx : mcux s' = mcux s := by rw [mcux, mcux, hgeom]
  have hstep : dcStep s' comp = dcStep s comp := hq 0 (by decide)
  have hpred : prediction s.cfg s'.mem (mcux s) comp (arg0Nat s) = prediction s.cfg s.mem (mcux s) comp (arg0Nat s) :=
    prediction_congr hq (fun p _ hp => hcm _ (.inl rfl) p hp) fun j hj => hcm j (.inr hj)
  rw [exec_eq_body, body_sppred] at ht ht'
  rw [harg, hstep, hcfg, hmx, hpred] at ht'
  refine EndAlike.endCommand (EndAlike.checkBlock ?_ hs hcfg hgeom _ _) ht ht'
  split
  · exact ⟨rfl, rfl, hs⟩
  · exact ⟨rfl, hrec⟩

end

section
/-! PROOF. The range commands as one decoding and one encoding loop over a predictor (43_predictor.md R170, R171, R173,
R174): a causal predictor reads nothing that its own loop is yet to write. -/

namespace Sys2Proof.Machine

/-! ### Entries in RAM (R52) -/

section
variable {c : Config} {m m' : Memory} {comp k : Nat}

theorem memRead16_congr {a : Nat} (h : ∀ b, inHalf a b → memRead m' b = memRead m b) :
    memRead16 m' a = memRead16 m a := by
  rw [memRead16, memRead16, h _ (.inl rfl), h _ (.inr rfl)]

theorem cmOf_congr {p : Nat} (h : ∀ a, inHalf (cmAddr c comp k p) a → memRead m' a = memRead m a) :
    cmOf c m' comp k p = cmOf c m comp k p := congrArg BitVec.toInt (memRead16_congr h)

theorem drOf_congr (h : ∀ a, inHalf (drAddr c comp k) a → memRead m' a = memRead m a) :
    drOf c m' comp k = drOf c m comp k := congrArg BitVec.toInt (memRead16_congr h)

/-- QT lies below every other array. -/
theorem qtOf_congr (h : ∀ a, a < 0x2000 → memRead m' a = memRead m a) {p : Nat} (hp : p < 64) :
    qtOf m' (qtIndex comp) p = qtOf m (qtIndex comp) p := by
  have ht : qtIndex comp ≤ 1 := by unfold qtIndex; split <;> decide
  rw [qtOf, qtOf, h _ (by unfold qtAddr; omega)]

/-- A byte of one coefficient is a byte of no other. -/
theorem eq_of_inHalf_cmAddr {j p q a : Nat} (hp : p < 64) (hq : q < 64) (h : inHalf (cmAddr c comp k p) a)
    (h' : inHalf (cmAddr c comp j q) a) : j = k ∧ q = p := by
  unfold cmAddr at h h'
  omega

/-- CM ends where DR begins. -/
theorem lt_of_inHalf_cmAddr {p a : Nat} (hk : cbase c comp + k < 65536) (hp : p < 64)
    (h : inHalf (cmAddr c comp k p) a) : a < 0x2000000 := by
  unfold cmAddr at h
  omega

theorem le_of_inHalf_drAddr {a : Nat} (h : inHalf (drAddr c comp k) a) : 0x2000000 ≤ a := by
  unfold drAddr at h
  omega

theorem cmOf_fits (c : Config) (m : Memory) (comp k p : Nat) : fitsHalf (cmOf c m comp k p) = true := by
  have h1 := BitVec.toInt_lt (x := memRead16 m (cmAddr c comp k p))
  have h2 := BitVec.le_toInt (x := memRead16 m (cmAddr c comp k p))
  rw [fitsHalf, Bool.and_eq_true, decide_eq_true_iff, decide_eq_true_iff, cmOf]
  omega

theorem half_of_fitsHalf {v : Int} (h : fitsHalf v = true) : -32768 ≤ v ∧ v ≤ 32767 := by
  rwa [fitsHalf, Bool.and_eq_true, decide_eq_true_iff, decide_eq_true_iff] at h

theorem half_of_fitsResidual {v : Int} (h : fitsResidual v = true) : -32768 ≤ v ∧ v ≤ 32767 := by
  rw [fitsResidual, Bool.and_eq_true, decide_eq_true_iff, decide_eq_true_iff] at h
  omega

theorem memRead_memWrite16_of_not_inHalf (m : Memory) {a b : Nat} (v : Half) (h : ¬ inHalf a b) :
    memRead (memWrite16 m a v) b = memRead m b :=
  memRead_memWrite16_other m v (by omega)

/-- CM and DR are written above QT. -/
theorem qtOf_memWrite16 (m : Memory) {a : Nat} (v : Half) (comp : Nat) (ha : 0x2000 ≤ a) :
    qtOf (memWrite16 m a v) (qtIndex comp) 0 = qtOf m (qtIndex comp) 0 :=
  qtOf_congr (fun _ hb => memRead_memWrite16_other m v (by omega)) (by decide)

/-- An s16 entry of one memory stored in another: its two bytes, and no other. -/
theorem memRead_memWrite16_memRead16 (m m' : Memory) (a b : Nat) :
    memRead (memWrite16 m a (memRead16 m' a)) b = if inHalf a b then memRead m' b else memRead m b := by
  have hlow : (memRead16 m' a).extractLsb' 0 8 = memRead m' a := BitVec.extractLsb'_append_eq_right
  have hhigh : (memRead16 m' a).extractLsb' 8 8 = memRead m' (a + 1) := BitVec.extractLsb'_append_eq_left
  rw [memRead_memWrite16, hlow, hhigh]
  by_cases h1 : b = a + 1
  · rw [if_pos h1, if_pos (.inr h1), h1]
  · by_cases h0 : b = a
    · rw [if_neg h1, if_pos h0, if_pos (.inl h0), h0]
    · rw [if_neg h1, if_neg h0, if_neg (not_or.mpr ⟨h0, h1⟩)]

end

/-! ### What a predictor reads -/

/-- A byte that a prediction of block `k` may read: below the tables of codes, an AC coefficient of the block, or a
coefficient of a block before it. -/
def PredictorReads (c : Config) (comp k a : Nat) : Prop :=
  a < 0x2000 ∨ ∃ j p, p < 64 ∧ (j < k ∨ j = k ∧ 1 ≤ p) ∧ inHalf (cmAddr c comp j p) a

/-- A predictor that reads no more. -/
def Causal (c : Config) (comp : Nat) (P : Nat → Memory → Int) : Prop :=
  ∀ k m m', (∀ a, PredictorReads c comp k a → memRead m' a = memRead m a) → P k m' = P k m

theorem causal_prediction (c : Config) (comp : Nat) {mx : Nat} (hmx : 1 ≤ mx) :
    Causal c comp fun k m => prediction c m mx comp k := by
  intro k m m' h
  refine prediction_congr (fun p hp => qtOf_congr (fun a ha => h a (.inl ha)) hp)
    (fun p h1 hp => cmOf_congr fun a ha => h a (.inr ⟨k, p, hp, .inr ⟨rfl, h1⟩, ha⟩)) fun j hj p hp =>
    cmOf_congr fun a ha => h a (.inr ⟨j, p, hp, .inl ?_, ha⟩)
  exact hj.elim leftOf_lt (aboveOf_lt hmx)

/-- The predictor of DPCM: the DC before, in a range from `first` on (R170, R171). -/
def dpcmPrev (c : Config) (comp first k : Nat) (m : Memory) : Int :=
  if first < k then cmOf c m comp (k - 1) 0 else 0

theorem causal_dpcmPrev (c : Config) (comp first : Nat) : Causal c comp (dpcmPrev c comp first) := by
  intro k m m' h
  rw [dpcmPrev, dpcmPrev]
  split
  · exact cmOf_congr fun a ha => h a (.inr ⟨k - 1, 0, by decide, .inl (by omega), ha⟩)
  · rfl

/-! ### The loops -/

/-- `CM[k][0] <- DR[k] + P(k)` for `n` blocks from `k` on, ascending. -/
def decodeBlocks (c : Config) (comp : Nat) (P : Nat → Memory → Int) : (n k : Nat) → Memory → Run Memory Unit
  | 0, _, m => .ok () m
  | n + 1, k, m =>
    if fitsHalf (drOf c m comp k + P k m) then
      decodeBlocks c comp P n (k + 1) (setCm c m comp k 0 (drOf c m comp k + P k m))
    else .raise .predRange (word k) m

/-- `DR[k] <- CM[k][0] - P(k)` for the blocks of a list. -/
def encodeBlocks (c : Config) (comp : Nat) (P : Nat → Memory → Int) : List Nat → Memory → Run Memory Unit
  | [], m => .ok () m
  | k :: l, m =>
    if fitsResidual (cmOf c m comp k 0 - P k m) then
      encodeBlocks c comp P l (setDr c m comp k (cmOf c m comp k 0 - P k m))
    else .raise .predRange (word k) m

section
variable {c : Config} {comp mx first : Nat}

/-- DPCMDEC's loop carries the DC it has stored. -/
theorem dpcmDecode_eq : ∀ {n k : Nat} {prev : Int} {m : Memory}, first ≤ k → prev = dpcmPrev c comp first k m →
    dpcmDecode c comp n k prev m = decodeBlocks c comp (dpcmPrev c comp first) n k m
  | 0, _, _, _, _, _ => rfl
  | n + 1, k, prev, m, hk, hprev => by
    rw [dpcmDecode, decodeBlocks, ← hprev]
    split
    · next hfit =>
      refine dpcmDecode_eq (by omega) ?_
      rw [dpcmPrev, if_pos (by omega), Nat.add_sub_cancel, cmOf_setCm_same _ _ _ _ _ (half_of_fitsHalf hfit)]
    · rfl

/-- SPDEC's loop, with a step that is not 0, which no store of a DC changes. -/
theorem spatialDecode_eq : ∀ {n k : Nat} {m : Memory}, (0 < n → qtOf m (qtIndex comp) 0 ≠ 0) →
    spatialDecode c mx comp n k m = decodeBlocks c comp (fun k m => prediction c m mx comp k) n k m
  | 0, _, _, _ => rfl
  | n + 1, k, m, hq => by
    rw [spatialDecode, spatialDecodeBlock, pred, if_neg (hq (by omega)), andThen_ok, decodeBlocks]
    split
    · rw [andThen_ok, spatialDecode_eq fun _ => ?_]
      rw [setCm, qtOf_memWrite16 _ _ _ (by unfold cmAddr; omega)]
      exact hq (by omega)
    · rfl

/-- DPCMENC's loop carries the DC it has read, which no store of a residual changes. -/
theorem dpcmEncode_eq : ∀ {n k : Nat} {prev : Int} {m : Memory}, first ≤ k → cbase c comp + (k + n) ≤ 65536 →
    prev = dpcmPrev c comp first k m →
    dpcmEncode c comp n k prev m = encodeBlocks c comp (dpcmPrev c comp first) (List.range' k n) m
  | 0, _, _, _, _, _, _ => rfl
  | n + 1, k, prev, m, hk, hb, hprev => by
    rw [dpcmEncode, List.range'_succ, encodeBlocks, ← hprev]
    split
    · refine dpcmEncode_eq (by omega) (by omega) ?_
      rw [dpcmPrev, if_pos (by omega), Nat.add_sub_cancel]
      exact (cmOf_congr fun a ha => memRead_memWrite16_of_not_inHalf _ _ fun h =>
        absurd (le_of_inHalf_drAddr h) (by have := lt_of_inHalf_cmAddr (by omega) (by decide) ha; omega)).symm
    · rfl

/-- A step of 0 ends SPDEC's loop at its first block, before anything is stored. -/
theorem spatialDecode_of_zero {n k : Nat} {m : Memory} (h0 : qtOf m (qtIndex comp) 0 = 0) (hn : 0 < n) :
    spatialDecode c mx comp n k m = .raise .qzero (word comp) m := by
  obtain ⟨n, rfl⟩ := Nat.exists_eq_succ_of_ne_zero hn.ne'
  rw [spatialDecode, spatialDecodeBlock, pred, if_pos h0]
  rfl

/-- A step of 0 ends SPENC's loop at its first block, before anything is stored. -/
theorem spatialEncode_of_zero {n : Nat} {m : Memory} (h0 : qtOf m (qtIndex comp) 0 = 0) (hn : 0 < n) :
    spatialEncode c mx comp first n m = .raise .qzero (word comp) m := by
  obtain ⟨n, rfl⟩ := Nat.exists_eq_succ_of_ne_zero hn.ne'
  rw [spatialEncode, spatialEncodeBlock, pred, if_pos h0]
  rfl

/-- SPENC's loop, with a step that is not 0, which no store of a residual changes. -/
theorem spatialEncode_eq : ∀ {n : Nat} {m : Memory}, (0 < n → qtOf m (qtIndex comp) 0 ≠ 0) →
    spatialEncode c mx comp first n m =
      encodeBlocks c comp (fun k m => prediction c m mx comp k) (List.range' first n).reverse m
  | 0, _, _ => rfl
  | n + 1, m, hq => by
    rw [spatialEncode, spatialEncodeBlock, pred, if_neg (hq (by omega)), andThen_ok, List.range'_1_concat,
      List.reverse_concat, encodeBlocks]
    split
    · rw [andThen_ok, spatialEncode_eq fun _ => ?_]
      rw [setDr, qtOf_memWrite16 _ _ _ (by unfold drAddr; omega)]
      exact hq (by omega)
    · rfl

end

/-! ### Decoding towards a memory -/

/-- `m'` reads as `m` but for the DCs of `n` blocks from `k` on. -/
def AgreeOffDc (c : Config) (comp k n : Nat) (m m' : Memory) : Prop :=
  ∀ a, (∀ j, k ≤ j → j < k + n → ¬ inHalf (cmAddr c comp j 0) a) → memRead m' a = memRead m a

section
variable {c : Config} {comp k n : Nat} {m m' : Memory} (h : AgreeOffDc c comp k n m m')
include h

/-- A causal predictor does not see the DCs from its block on. -/
theorem AgreeOffDc.predictor {P : Nat → Memory → Int} (hP : Causal c comp P) : P k m' = P k m := by
  refine hP k m m' fun a ha => h a fun j hj _ hdc => ?_
  obtain ha | ⟨i, p, hp, hbefore, ha⟩ := ha
  · unfold cmAddr at hdc
    omega
  · obtain ⟨rfl, rfl⟩ := eq_of_inHalf_cmAddr hp (by decide) ha hdc
    omega

theorem AgreeOffDc.drOf (hb : cbase c comp + (k + n) ≤ 65536) (i : Nat) : drOf c m' comp i = drOf c m comp i :=
  drOf_congr fun a ha => h a fun j _ hj hdc => by
    have := lt_of_inHalf_cmAddr (by omega) (by decide) hdc
    have := le_of_inHalf_drAddr ha
    omega

end

section
variable {c : Config} {comp k n : Nat} {m m' : Memory}

/-- The first block's DC stored, one block less differs. -/
theorem AgreeOffDc.store (h : AgreeOffDc c comp k (n + 1) m m') :
    AgreeOffDc c comp (k + 1) n (setCm c m comp k 0 (cmOf c m' comp k 0)) m' := by
  intro a ha
  rw [setCm, cmOf, BitVec.ofInt_toInt, memRead_memWrite16_memRead16]
  split
  · rfl
  · next hk =>
    refine h a fun j hj hjn => ?_
    obtain rfl | hlt := Nat.eq_or_lt_of_le hj
    · exact hk
    · exact ha j hlt (by omega)

/-- A memory whose DCs meet the equations up to a block is where the loop comes to at that block. -/
theorem decodeBlocks_reaches {P : Nat → Memory → Int} (hP : Causal c comp P) : ∀ {i k : Nat} {m : Memory},
    cbase c comp + (k + (i + n)) ≤ 65536 → AgreeOffDc c comp k (i + n) m m' →
    (∀ j, k ≤ j → j < k + i → cmOf c m' comp j 0 = drOf c m' comp j + P j m') →
    ∃ u, decodeBlocks c comp P (i + n) k m = decodeBlocks c comp P n (k + i) u ∧ AgreeOffDc c comp (k + i) n u m'
  | 0, k, m, _, hm, _ => ⟨m, by rw [Nat.zero_add, Nat.add_zero], by rwa [Nat.zero_add] at hm⟩
  | i + 1, k, m, hb, hm, heq => by
    have hdc : drOf c m comp k + P k m = cmOf c m' comp k 0 := by
      rw [heq k (Nat.le_refl k) (by omega), hm.drOf hb, hm.predictor hP]
    rw [show i + 1 + n = i + n + 1 by omega] at hm ⊢
    obtain ⟨u, hu, hrest⟩ := decodeBlocks_reaches hP (by omega) hm.store fun j h1 h2 => heq j (by omega) (by omega)
    refine ⟨u, ?_, ?_⟩
    · rw [decodeBlocks, hdc, if_pos (cmOf_fits _ _ _ _ _), hu, show k + 1 + i = k + (i + 1) by omega]
    · rwa [show k + 1 + i = k + (i + 1) by omega] at hrest

end

end Sys2Proof.Machine
end

section
/-! PROOF. The range commands of the predictor (43_predictor.md R170, R171, R173 to R175): the loops end as the
equations of their blocks say, and decoding what an encoding stored meets its equations with the DCs of before. -/

namespace Sys2Proof.Machine

/-! ### Entries stored for a list of blocks -/

/-- One s16 entry stored for each block of a list. -/
def storeHalves (addr : Nat → Nat) (f : Nat → Int) : List Nat → Memory → Memory
  | [], m => m
  | k :: l, m => storeHalves addr f l (memWrite16 m (addr k) (BitVec.ofInt 16 (f k)))

section
variable {addr : Nat → Nat} {f : Nat → Int} {l : List Nat} {m : Memory}

theorem memRead_storeHalves {a : Nat} (h : ∀ k ∈ l, ¬ inHalf (addr k) a) :
    memRead (storeHalves addr f l m) a = memRead m a := by
  induction l generalizing m with
  | nil => rfl
  | cons k l ih =>
    obtain ⟨hk, hl⟩ := List.forall_mem_cons.mp h
    rw [storeHalves, ih hl, memRead_memWrite16_of_not_inHalf _ _ hk]

/-- An entry apart from the others holds what was stored for its block. -/
theorem memRead16_storeHalves {k : Nat} (hk : k ∈ l) (hsep : ∀ j a, inHalf (addr k) a → inHalf (addr j) a → j = k) :
    memRead16 (storeHalves addr f l m) (addr k) = BitVec.ofInt 16 (f k) := by
  induction l generalizing m with
  | nil => cases hk
  | cons j l ih =>
    by_cases hl : k ∈ l
    · exact ih hl
    · obtain rfl : k = j := (List.mem_cons.mp hk).resolve_right hl
      rw [storeHalves, memRead16_congr fun a ha => memRead_storeHalves fun i hi hia => hl (hsep i a ha hia ▸ hi),
        memRead16_memWrite16_same]

theorem toInt_ofInt_half {v : Int} (h : -32768 ≤ v ∧ v ≤ 32767) : (BitVec.ofInt 16 v).toInt = v := by
  rw [BitVec.toInt_ofInt, Int.bmod_eq_of_le] <;> omega

theorem cmOf_storeHalves {c : Config} {comp k : Nat} (hk : k ∈ l) (hf : fitsHalf (f k) = true) :
    cmOf c (storeHalves (fun k => cmAddr c comp k 0) f l m) comp k 0 = f k := by
  rw [cmOf, memRead16_storeHalves (addr := fun k => cmAddr c comp k 0) hk fun j a ha hj =>
    (eq_of_inHalf_cmAddr (by decide) (by decide) ha hj).1, toInt_ofInt_half (half_of_fitsHalf hf)]

theorem drOf_storeHalves {c : Config} {comp k : Nat} (hk : k ∈ l) (hf : fitsResidual (f k) = true) :
    drOf c (storeHalves (drAddr c comp) f l m) comp k = f k := by
  rw [drOf, memRead16_storeHalves hk fun j a ha hj => by unfold drAddr at ha hj; omega,
    toInt_ofInt_half (half_of_fitsResidual hf)]

end

/-! ### Encoding -/

/-- The residual of a block for a predictor. -/
def residualOf (c : Config) (comp : Nat) (P : Nat → Memory → Int) (m : Memory) (k : Nat) : Int :=
  cmOf c m comp k 0 - P k m

/-- `m'` reads as `m` below DR. -/
def AgreeBelowDr (m m' : Memory) : Prop := ∀ a, a < 0x2000000 → memRead m' a = memRead m a

section
variable {c : Config} {comp : Nat} {P : Nat → Memory → Int} {m m' : Memory}

theorem AgreeBelowDr.setDr (h : AgreeBelowDr m m') (k : Nat) (v : Int) : AgreeBelowDr m (setDr c m' comp k v) :=
  fun a ha => (memRead_memWrite16_of_not_inHalf _ _ fun hd => absurd (le_of_inHalf_drAddr hd) (by omega)).trans (h a ha)

theorem agreeBelowDr_storeHalves (f : Nat → Int) (l : List Nat) (m : Memory) :
    AgreeBelowDr m (storeHalves (drAddr c comp) f l m) := fun a ha =>
  memRead_storeHalves fun _ _ hd => absurd (le_of_inHalf_drAddr hd) (by omega)

section
variable (h : AgreeBelowDr m m') {k : Nat} (hk : cbase c comp + k < 65536)
include h hk

theorem AgreeBelowDr.cmOf : cmOf c m' comp k 0 = cmOf c m comp k 0 :=
  cmOf_congr fun a ha => h a (lt_of_inHalf_cmAddr hk (by decide) ha)

theorem AgreeBelowDr.predictor (hP : Causal c comp P) : P k m' = P k m := by
  refine hP k m m' fun a ha => h a ?_
  obtain ha | ⟨j, p, hp, hj, ha⟩ := ha
  · omega
  · exact lt_of_inHalf_cmAddr (by omega) hp ha

theorem AgreeBelowDr.residualOf (hP : Causal c comp P) : residualOf c comp P m' k = residualOf c comp P m k := by
  rw [Machine.residualOf, Machine.residualOf, h.cmOf hk, h.predictor hk hP]

end

section
variable (hP : Causal c comp P)
include hP

/-- Blocks whose residuals are in range are stored, and the loop goes on. -/
theorem encodeBlocks_append : ∀ {pre l : List Nat} {m' : Memory}, AgreeBelowDr m m' →
    (∀ k ∈ pre, cbase c comp + k < 65536) → (∀ k ∈ pre, fitsResidual (residualOf c comp P m k) = true) →
    encodeBlocks c comp P (pre ++ l) m' =
      encodeBlocks c comp P l (storeHalves (drAddr c comp) (residualOf c comp P m) pre m')
  | [], _, _, _, _, _ => rfl
  | k :: pre, l, m', hm, hb, hfit => by
    obtain ⟨hbk, hb⟩ := List.forall_mem_cons.mp hb
    obtain ⟨hfk, hfit⟩ := List.forall_mem_cons.mp hfit
    have hres : cmOf c m' comp k 0 - P k m' = residualOf c comp P m k := hm.residualOf hbk hP
    rw [List.cons_append, encodeBlocks, hres, if_pos hfk, encodeBlocks_append (hm.setDr k _) hb hfit]
    rfl

/-- The loop stops at the first block of its list whose residual is not in range. -/
theorem encodeBlocks_of_unfit {pre post : List Nat} {k : Nat} (hb : ∀ j ∈ pre ++ k :: post, cbase c comp + j < 65536)
    (hfit : ∀ j ∈ pre, fitsResidual (residualOf c comp P m j) = true)
    (hk : fitsResidual (residualOf c comp P m k) = false) :
    ∃ u, encodeBlocks c comp P (pre ++ k :: post) m = .raise .predRange (word k) u := by
  obtain ⟨hbpre, hbk⟩ := List.forall_mem_append.mp hb
  have hres := (agreeBelowDr_storeHalves (c := c) (comp := comp) (residualOf c comp P m) pre m).residualOf
    (hbk k List.mem_cons_self) hP
  refine ⟨_, (encodeBlocks_append hP (fun _ _ => rfl) hbpre hfit).trans (if_neg ?_)⟩
  rw [← residualOf, hres, hk]
  decide

/-- A loop that ends well found every residual in range. -/
theorem fits_of_encodeBlocks {u : Memory} : ∀ {l : List Nat} {m' : Memory}, AgreeBelowDr m m' →
    (∀ k ∈ l, cbase c comp + k < 65536) → encodeBlocks c comp P l m' = .ok () u →
    ∀ k ∈ l, fitsResidual (residualOf c comp P m k) = true
  | [], _, _, _, _, _, hk => nomatch hk
  | j :: l, m', hm, hb, hok, k, hk => by
    obtain ⟨hbj, hb⟩ := List.forall_mem_cons.mp hb
    rw [encodeBlocks] at hok
    split at hok
    · next hfit =>
      obtain rfl | hk := List.mem_cons.mp hk
      · rw [← hm.residualOf hbj hP]
        exact hfit
      · exact fits_of_encodeBlocks (hm.setDr j _) hb hok k hk
    · cases hok

end

end

/-! ### The ends of a range command -/

/-- A body that ends well with RAM changed. -/
theorem exec_of_mem {i : Instr} {s : State} {m : Memory} (h : body i s = .ok () { s with mem := m }) :
    exec i s = .next { s with mem := m, done := true, doneP := true, inFlight := none } := by
  rw [exec_eq_body, h]
  rfl

/-- A body that ends with a fault, RAM changed. -/
theorem exec_of_mem_fault {i : Instr} {s : State} {code : FaultCode} {info : Word} {m : Memory}
    (hr : s.recorded = none) (h : body i s = .raise code info { s with mem := m }) :
    exec i s = .next { s with mem := m, recorded := some ⟨code, info⟩, faultP := true, inFlight := none } :=
  exec_of_reading_fault (r := s.rd) hr h

section
variable {s : State} {comp : Nat}

/-- The blocks of a range in range have their entries in the windows. -/
theorem cbase_add_range_le (hr : RangeOk s comp) (hl : s.cfg.legal) :
    cbase s.cfg comp + (arg0Nat s + arg1Nat s) ≤ 65536 := by
  obtain ⟨-, hg, hrange⟩ := hr
  obtain ⟨-, hmax, -⟩ := hl
  obtain h0 | hpos := Nat.eq_zero_or_pos (arg0Nat s + arg1Nat s)
  · rw [h0, cbase]
    split_ifs <;> omega
  · have := cbase_add_lt (comp := comp) (k := arg0Nat s + arg1Nat s - 1) hg (by omega)
    omega

theorem forall_range_lt {l : List Nat} (hr : RangeOk s comp) (hl : s.cfg.legal) (hmem : ∀ k, k ∈ l ↔ inRange s k) :
    ∀ k ∈ l, cbase s.cfg comp + k < 65536 := fun k hk => by
  have := cbase_add_range_le hr hl
  have := ((hmem k).mp hk).2
  omega

theorem mem_range'_iff {k : Nat} : k ∈ List.range' (arg0Nat s) (arg1Nat s) ↔ inRange s k := List.mem_range'_1

theorem body_dpcmdec (hr : RangeOk s comp) : body (.dpcmdec comp) s =
    (decodeBlocks s.cfg comp (dpcmPrev s.cfg comp (arg0Nat s)) (arg1Nat s) (arg0Nat s) s.mem).lift
      fun m => { s with mem := m } := by
  obtain ⟨hc, hg, hrange⟩ := hr
  rw [body, checkRange_of _ hc hg hrange, dpcmDecode_eq (Nat.le_refl _) (if_neg (Nat.lt_irrefl _)).symm]

theorem body_dpcmenc (hr : RangeOk s comp) (hl : s.cfg.legal) : body (.dpcmenc comp) s =
    (encodeBlocks s.cfg comp (dpcmPrev s.cfg comp (arg0Nat s)) (List.range' (arg0Nat s) (arg1Nat s)) s.mem).lift
      fun m => { s with mem := m } := by
  have hb := cbase_add_range_le hr hl
  obtain ⟨hc, hg, hrange⟩ := hr
  rw [body, checkRange_of _ hc hg hrange, dpcmEncode_eq (Nat.le_refl _) hb (if_neg (Nat.lt_irrefl _)).symm]

/-- SPDEC's and SPENC's predictor. -/
abbrev spatialPredictor (s : State) (comp : Nat) : Nat → Memory → Int :=
  fun k m => prediction s.cfg m (mcux s) comp k

theorem body_spdec (hr : RangeOk s comp) (hq : 0 < arg1Nat s → dcStep s comp ≠ 0) : body (.spdec comp) s =
    (decodeBlocks s.cfg comp (spatialPredictor s comp) (arg1Nat s) (arg0Nat s) s.mem).lift
      fun m => { s with mem := m } := by
  obtain ⟨hc, hg, hrange⟩ := hr
  rw [body, checkRange_of _ hc hg hrange, spatialDecode_eq hq]

theorem body_spenc (hr : RangeOk s comp) (hq : 0 < arg1Nat s → dcStep s comp ≠ 0) : body (.spenc comp) s =
    (encodeBlocks s.cfg comp (spatialPredictor s comp) (List.range' (arg0Nat s) (arg1Nat s)).reverse s.mem).lift
      fun m => { s with mem := m } := by
  obtain ⟨hc, hg, hrange⟩ := hr
  rw [body, checkRange_of _ hc hg hrange, spatialEncode_eq hq]

theorem causal_spatialPredictor (hg : geomValid s = true) : Causal s.cfg comp (spatialPredictor s comp) :=
  causal_prediction s.cfg comp (one_le_mcux hg)

theorem exec_spdec_of_zero (hr : RangeOk s comp) (h0 : dcStep s comp = 0) (hn : 0 < arg1Nat s)
    (hrec : s.recorded = none) : exec (.spdec comp) s =
      .next { s with recorded := some ⟨.qzero, word comp⟩, faultP := true, inFlight := none } := by
  obtain ⟨hc, hg, hrange⟩ := hr
  refine exec_of_mem_fault (m := s.mem) hrec ?_
  rw [body, checkRange_of _ hc hg hrange, spatialDecode_of_zero h0 hn, lift_raise]

theorem exec_spenc_of_zero (hr : RangeOk s comp) (h0 : dcStep s comp = 0) (hn : 0 < arg1Nat s)
    (hrec : s.recorded = none) : exec (.spenc comp) s =
      .next { s with recorded := some ⟨.qzero, word comp⟩, faultP := true, inFlight := none } := by
  obtain ⟨hc, hg, hrange⟩ := hr
  refine exec_of_mem_fault (m := s.mem) hrec ?_
  rw [body, checkRange_of _ hc hg hrange, spatialEncode_of_zero h0 hn, lift_raise]

end

/-! ### Decoding commands -/

section
variable {s : State} {comp : Nat} {m' : Memory}

theorem agreeOffDc_of_sameButDc (h : SameButDc s comp s.mem m') :
    AgreeOffDc s.cfg comp (arg0Nat s) (arg1Nat s) s.mem m' :=
  fun a ha => h a fun j hj => ha j hj.1 hj.2

section
variable {i : Instr} {P : Nat → Memory → Int} (hr : RangeOk s comp) (hl : s.cfg.legal) (hP : Causal s.cfg comp P)
  (hbody : body i s =
    (decodeBlocks s.cfg comp P (arg1Nat s) (arg0Nat s) s.mem).lift fun m => { s with mem := m })
  (hm : SameButDc s comp s.mem m')
include hr hl hP hbody hm

/-- A decoding command leaves the memory that differs in the range's DCs only and meets the equations. -/
theorem exec_decode_of_equations
    (heq : ∀ k, inRange s k → cmOf s.cfg m' comp k 0 = drOf s.cfg s.mem comp k + P k m') :
    ∃ m, exec i s = .next { s with mem := m, done := true, doneP := true, inFlight := none } ∧
      ∀ a, memRead m a = memRead m' a := by
  have hb := cbase_add_range_le hr hl
  have hm := agreeOffDc_of_sameButDc hm
  obtain ⟨u, hu, hagree⟩ := decodeBlocks_reaches (n := 0) (i := arg1Nat s) hP hb hm fun j h1 h2 => by
    rw [hm.drOf hb, heq j ⟨h1, h2⟩]
  rw [Nat.add_zero] at hu
  exact ⟨u, exec_of_mem (by rw [hbody, hu]; rfl), fun a => (hagree a fun j h1 h2 => by omega).symm⟩

/-- A decoding command reports the first block whose sum does not fit. -/
theorem exec_decode_of_unfit {k : Nat} (hrec : s.recorded = none) (hk : inRange s k)
    (heq : ∀ j, inRange s j → j < k → cmOf s.cfg m' comp j 0 = drOf s.cfg s.mem comp j + P j m')
    (hfit : fitsHalf (drOf s.cfg s.mem comp k + P k m') = false) :
    ∃ t, exec i s = .next t ∧ t.recorded = some ⟨.predRange, word k⟩ ∧ t.faultP = true := by
  have hb := cbase_add_range_le hr hl
  have hm := agreeOffDc_of_sameButDc hm
  obtain ⟨hk1, hk2⟩ := hk
  obtain ⟨n, hn⟩ : ∃ n, arg1Nat s = k - arg0Nat s + (n + 1) := ⟨arg0Nat s + arg1Nat s - k - 1, by omega⟩
  rw [hn] at hb hm hbody
  obtain ⟨u, hu, hagree⟩ := decodeBlocks_reaches hP hb hm fun j h1 h2 => by
    rw [hm.drOf hb, heq j ⟨h1, by omega⟩ (by omega)]
  rw [Nat.add_sub_of_le hk1] at hu hagree
  have hval : drOf s.cfg u comp k + P k u = drOf s.cfg s.mem comp k + P k m' := by
    rw [hagree.predictor hP, ← hagree.drOf (by omega), hm.drOf hb]
  rw [hu, decodeBlocks, hval, hfit] at hbody
  exact ⟨_, exec_of_mem_fault hrec hbody, rfl, rfl⟩

end

/-! ### Running sums (R170) -/

theorem residualSum_eq {k : Nat} (hk : arg0Nat s ≤ k) : residualSum s comp k =
    drOf s.cfg s.mem comp k + if arg0Nat s < k then residualSum s comp (k - 1) else 0 := by
  obtain ⟨n, rfl⟩ := Nat.exists_eq_add_of_le hk
  rw [residualSum, show arg0Nat s + n + 1 - arg0Nat s = n + 1 by omega, List.range_succ, List.map_append,
    List.sum_append, List.map_singleton, List.sum_singleton, add_comm]
  congr 1
  split
  · rw [residualSum, show arg0Nat s + n - 1 + 1 - arg0Nat s = n by omega]
  · obtain rfl : n = 0 := by omega
    rfl

/-- RAM with the running sums in the DCs of `n` blocks of the range. -/
def sumsStored (s : State) (comp n : Nat) : Memory :=
  storeHalves (fun k => cmAddr s.cfg comp k 0) (residualSum s comp) (List.range' (arg0Nat s) n) s.mem

theorem sameButDc_sumsStored {n : Nat} (hn : n ≤ arg1Nat s) : SameButDc s comp s.mem (sumsStored s comp n) :=
  fun _ ha => memRead_storeHalves fun k hk => ha k (by have := List.mem_range'_1.mp hk; exact ⟨this.1, by omega⟩)

section
variable {n k : Nat} (hfit : ∀ j, inRange s j → j < arg0Nat s + n → fitsHalf (residualSum s comp j) = true)
include hfit

theorem cmOf_sumsStored (hk : inRange s k) (hkn : k < arg0Nat s + n) :
    cmOf s.cfg (sumsStored s comp n) comp k 0 = residualSum s comp k :=
  cmOf_storeHalves (List.mem_range'_1.mpr ⟨hk.1, hkn⟩) (hfit k hk hkn)

/-- The sum of a block is its residual and the sum stored before it. -/
theorem residualSum_eq_prev (hk : inRange s k) (hkn : k ≤ arg0Nat s + n) : residualSum s comp k =
    drOf s.cfg s.mem comp k + dpcmPrev s.cfg comp (arg0Nat s) k (sumsStored s comp n) := by
  rw [residualSum_eq hk.1, dpcmPrev]
  split
  · rw [cmOf_sumsStored hfit ⟨by omega, by omega⟩ (by omega)]
  · rfl

end

end

/-! ### Encoding commands -/

section
variable {s : State} {comp : Nat} {i : Instr} {P : Nat → Memory → Int} {l : List Nat} (hr : RangeOk s comp)
  (hl : s.cfg.legal) (hP : Causal s.cfg comp P)
include hr hl hP

/-- An encoding command whose residuals are in range stores them, and no more. -/
theorem exec_encode_of_fits (hmem : ∀ k, k ∈ l ↔ inRange s k)
    (hbody : body i s = (encodeBlocks s.cfg comp P l s.mem).lift fun m => { s with mem := m })
    (hfit : ∀ k, inRange s k → fitsResidual (residualOf s.cfg comp P s.mem k) = true) :
    ∃ m, exec i s = .next { s with mem := m, done := true, doneP := true, inFlight := none } ∧
      (∀ k, inRange s k → drOf s.cfg m comp k = residualOf s.cfg comp P s.mem k) ∧
      (∀ a, (∀ k, inRange s k → ¬ inHalf (drAddr s.cfg comp k) a) → memRead m a = memRead s.mem a) := by
  have hloop := encodeBlocks_append (l := []) hP (fun _ _ => rfl) (forall_range_lt hr hl hmem)
    fun k hk => hfit k ((hmem k).mp hk)
  rw [List.append_nil] at hloop
  refine ⟨_, exec_of_mem (by rw [hbody, hloop]; rfl), fun k hk => drOf_storeHalves ((hmem k).mpr hk) (hfit k hk),
    fun a ha => memRead_storeHalves fun k hk => ha k ((hmem k).mp hk)⟩

/-- An encoding command reports the first block of its list whose residual is not in range. -/
theorem exec_encode_of_unfit {pre post : List Nat} {k : Nat} (hmem : ∀ k, k ∈ l ↔ inRange s k)
    (hbody : body i s = (encodeBlocks s.cfg comp P l s.mem).lift fun m => { s with mem := m })
    (hsplit : l = pre ++ k :: post) (hrec : s.recorded = none)
    (hfit : ∀ j ∈ pre, fitsResidual (residualOf s.cfg comp P s.mem j) = true)
    (hk : fitsResidual (residualOf s.cfg comp P s.mem k) = false) :
    ∃ t, exec i s = .next t ∧ t.recorded = some ⟨.predRange, word k⟩ ∧ t.faultP = true := by
  obtain ⟨u, hu⟩ := encodeBlocks_of_unfit hP (hsplit ▸ forall_range_lt hr hl hmem) hfit hk
  rw [hsplit, hu] at hbody
  exact ⟨_, exec_of_mem_fault hrec hbody, rfl, rfl⟩

end

section
variable {s : State} {comp k : Nat}

/-- The blocks of a range before one of them, and those behind it. -/
theorem exists_range_split (hk : inRange s k) : ∃ pre post,
    List.range' (arg0Nat s) (arg1Nat s) = pre ++ k :: post ∧ (∀ j ∈ pre, inRange s j ∧ j < k) ∧
      ∀ j ∈ post, inRange s j ∧ k < j := by
  obtain ⟨hk1, hk2⟩ := hk
  obtain ⟨n, hn⟩ : ∃ n, arg1Nat s = k - arg0Nat s + (n + 1) := ⟨arg0Nat s + arg1Nat s - k - 1, by omega⟩
  refine ⟨List.range' (arg0Nat s) (k - arg0Nat s), List.range' (k + 1) n, ?_, fun j hj => ?_, fun j hj => ?_⟩
  · rw [hn, ← List.range'_append_1, Nat.add_sub_of_le hk1, List.range'_succ]
  · obtain ⟨h1, h2⟩ := List.mem_range'_1.mp hj
    exact ⟨⟨h1, by omega⟩, by omega⟩
  · obtain ⟨h1, h2⟩ := List.mem_range'_1.mp hj
    exact ⟨⟨by omega, by omega⟩, h1⟩

theorem dcDifference_eq (hk : arg0Nat s ≤ k) :
    dcDifference s comp k = residualOf s.cfg comp (dpcmPrev s.cfg comp (arg0Nat s)) s.mem k := by
  rw [dcDifference, residualOf, dpcmPrev]
  by_cases h : k = arg0Nat s
  · rw [if_pos h, if_neg (by omega)]
  · rw [if_neg h, if_pos (by omega)]

end

/-! ### The round trip (R175) -/

section
variable {s : State} {comp : Nat} {u m : Memory}

/-- A range command that ends well passed its checks, and its loop ended well. -/
theorem range_command_ok {i : Instr} {t : State} {loop : Run Memory Unit}
    (hbody : body i s = checkRange comp (arg0Nat s) (arg1Nat s) s (loop.lift fun m => { s with mem := m }))
    (h : exec i s = .next t) (hrec : t.recorded = none) :
    RangeOk s comp ∧ ∃ u, loop = .ok () u ∧ t = commandDone { s with mem := u } := by
  obtain ⟨v, hv, rfl⟩ | ⟨code, info, v, -, rfl⟩ := exec_next_cases h
  · rw [hbody] at hv
    obtain ⟨hc, hg, hrange, hcheck⟩ | ⟨code, info, -, hcheck⟩ :=
      checkRange_or_stops comp (arg0Nat s) (arg1Nat s) s (loop.lift fun m => { s with mem := m })
    · rw [hcheck] at hv
      cases loop with
      | ok _ u => cases hv; exact ⟨⟨hc, hg, hrange⟩, u, rfl, rfl⟩
      | raise => cases hv
    · rw [hcheck] at hv
      cases hv
  · have := faultEntry_recorded_isSome code info v
    rw [hrec] at this
    cases this

/-- The same command again: RAM is all that a body with RAM changed leaves changed. -/
theorem exec_of_mem_again {i : Instr} {v : Memory}
    (h : body i { commandDone { s with mem := u } with mem := m } =
      .ok () { commandDone { s with mem := u } with mem := v }) :
    exec i { commandDone { s with mem := u } with mem := m } =
      .next { commandDone { s with mem := u } with mem := v } := by
  rw [exec_eq_body, h]
  rfl

theorem sameButDc_symm (h : SameButDc s comp u m) : SameButDc s comp m u := fun a ha => (h a ha).symm

/-- SPENC and stores of DCs leave the step. -/
theorem dcStep_after_spenc {t : State} (henc : exec (.spenc comp) s = .next t) (hm : SameButDc s comp t.mem m) :
    qtOf m (qtIndex comp) 0 = dcStep s comp := by
  obtain ⟨-, -, -, -, -, -, hframe⟩ := exec_unchanged henc
  refine qtOf_congr (fun a ha => (hm a fun k _ hdc => ?_).trans (hframe a ?_)) (by decide)
  · unfold cmAddr at hdc
    omega
  · rintro ⟨-, k, -, hdr⟩
    have := le_of_inHalf_drAddr hdr
    omega

/-- Decoding what an encoding has stored: every block's equation is met by its DC of before. -/
theorem decodeBlocks_of_encoded {P : Nat → Memory → Int} {l : List Nat} (hr : RangeOk s comp) (hl : s.cfg.legal)
    (hP : Causal s.cfg comp P) (hmem : ∀ k, k ∈ l ↔ inRange s k) (henc : encodeBlocks s.cfg comp P l s.mem = .ok () u)
    (hm : SameButDc s comp u m) :
    ∃ v, decodeBlocks s.cfg comp P (arg1Nat s) (arg0Nat s) m = .ok () v ∧
      (∀ k, inRange s k → cmOf s.cfg v comp k 0 = cmOf s.cfg s.mem comp k 0) ∧ ∀ a, memRead v a = memRead u a := by
  have hb := cbase_add_range_le hr hl
  have hlt := forall_range_lt hr hl hmem
  have hfit := fits_of_encodeBlocks hP (m := s.mem) (fun _ _ => rfl) hlt henc
  have hloop := encodeBlocks_append (l := []) hP (fun _ _ => rfl) hlt hfit
  rw [List.append_nil, henc] at hloop
  obtain rfl : u = storeHalves (drAddr s.cfg comp) (residualOf s.cfg comp P s.mem) l s.mem := by cases hloop; rfl
  have hbelow := agreeBelowDr_storeHalves (c := s.cfg) (comp := comp) (residualOf s.cfg comp P s.mem) l s.mem
  have hm : AgreeOffDc s.cfg comp (arg0Nat s) (arg1Nat s) m _ := fun a ha =>
    sameButDc_symm hm a fun j hj => ha j hj.1 hj.2
  obtain ⟨v, hv, hagree⟩ := decodeBlocks_reaches (n := 0) (i := arg1Nat s) hP hb hm fun j h1 h2 => by
    have hj := (hmem j).mpr ⟨h1, h2⟩
    rw [drOf_storeHalves hj (hfit j hj), residualOf, hbelow.cmOf (hlt j hj), hbelow.predictor (hlt j hj) hP]
    omega
  have hread : ∀ a, memRead v a = memRead _ a := fun a => (hagree a fun j h1 h2 => by omega).symm
  refine ⟨v, hv, fun k hk => ?_, hread⟩
  rw [cmOf_congr fun a _ => hread a, hbelow.cmOf (hlt k ((hmem k).mpr hk))]

end

end Sys2Proof.Machine

open Sys2Proof Sys2Proof.Machine

/-- Settles O45: the running sums in the DCs are the memory that meets DPCM's equations. -/
theorem dpcmdecReconstructsRunningSums : Obligations.DpcmdecReconstructsRunningSums := by
  intro comp s hr hl
  have hP := causal_dpcmPrev s.cfg comp (arg0Nat s)
  refine ⟨fun hfit => ?_, fun k hrec hk hunfit hfit => ?_⟩
  · have hsums : ∀ k, inRange s k → cmOf s.cfg (sumsStored s comp (arg1Nat s)) comp k 0 = residualSum s comp k :=
      fun k hk => cmOf_sumsStored (fun j hj _ => hfit j hj) hk hk.2
    have hsame := sameButDc_sumsStored (s := s) (comp := comp) (Nat.le_refl (arg1Nat s))
    obtain ⟨m, hexec, hread⟩ := exec_decode_of_equations hr hl hP (body_dpcmdec hr) hsame fun k hk => by
      rw [hsums k hk, residualSum_eq_prev (fun j hj _ => hfit j hj) hk hk.2.le]
    refine ⟨m, hexec, fun k hk => ?_, fun a ha => (hread a).trans (hsame a ha)⟩
    rw [cmOf_congr fun a _ => hread a, hsums k hk]
  · obtain ⟨hk1, hk2⟩ := hk
    have hbefore : ∀ j, inRange s j → j < arg0Nat s + (k - arg0Nat s) → fitsHalf (residualSum s comp j) = true :=
      fun j hj hjk => hfit j hj (by omega)
    refine exec_decode_of_unfit hr hl hP (body_dpcmdec hr)
      (sameButDc_sumsStored (n := k - arg0Nat s) (by omega)) hrec ⟨hk1, hk2⟩ (fun j hj hjk => ?_) ?_
    · rw [cmOf_sumsStored hbefore hj (by omega), residualSum_eq_prev hbefore hj (by omega)]
    · rw [← residualSum_eq_prev hbefore ⟨hk1, hk2⟩ (by omega), hunfit]

/-- Settles O46: the encoding loop over the range, ascending, with the DC before as predictor. -/
theorem dpcmencStoresDifferences : Obligations.DpcmencStoresDifferences := by
  intro comp s hr hl
  have hP := causal_dpcmPrev s.cfg comp (arg0Nat s)
  have hmem : ∀ k, k ∈ List.range' (arg0Nat s) (arg1Nat s) ↔ inRange s k := fun _ => mem_range'_iff
  refine ⟨fun hfit => ?_, fun k hrec hk hunfit hfit => ?_⟩
  · obtain ⟨m, hexec, hdr, hframe⟩ := exec_encode_of_fits hr hl hP hmem (body_dpcmenc hr hl)
      fun k hk => dcDifference_eq hk.1 ▸ hfit k hk
    exact ⟨m, hexec, fun k hk => (hdr k hk).trans (dcDifference_eq hk.1).symm, hframe⟩
  · obtain ⟨pre, post, hsplit, hpre, -⟩ := exists_range_split hk
    refine exec_encode_of_unfit hr hl hP hmem (body_dpcmenc hr hl) hsplit hrec (fun j hj => ?_)
      (dcDifference_eq hk.1 ▸ hunfit)
    obtain ⟨hj, hlt⟩ := hpre j hj
    exact dcDifference_eq hj.1 ▸ hfit j hj hlt

/-- Settles O48: SPDEC is the decoding loop of a causal predictor. -/
theorem spdecReconstructsFromFinalNeighbours : Obligations.SpdecReconstructsFromFinalNeighbours := by
  intro comp s hr hl
  have hP := causal_spatialPredictor (comp := comp) hr.2.1
  refine ⟨fun m' hq hm heq => exec_decode_of_equations hr hl hP (body_spdec hr fun _ => hq) hm heq,
    fun m' k hq hrec hm hk heq hfit =>
      exec_decode_of_unfit hr hl hP (body_spdec hr fun _ => hq) hm hrec hk heq hfit,
    exec_spdec_of_zero hr, fun h0 => exec_of_mem (m := s.mem) ?_⟩
  rw [body_spdec hr fun hn => absurd h0 hn.ne', h0]
  rfl

/-- Settles O49: the encoding loop over the range, descending, with the spatial predictor. -/
theorem spencStoresResiduals : Obligations.SpencStoresResiduals := by
  intro comp s hr hl
  have hP := causal_spatialPredictor (comp := comp) hr.2.1
  have hmem : ∀ k, k ∈ (List.range' (arg0Nat s) (arg1Nat s)).reverse ↔ inRange s k := fun _ =>
    List.mem_reverse.trans mem_range'_iff
  refine ⟨fun hq hfit => exec_encode_of_fits hr hl hP hmem (body_spenc hr fun _ => hq) hfit,
    fun k hq hrec hk hunfit hfit => ?_, exec_spenc_of_zero hr, fun h0 => exec_of_mem (m := s.mem) ?_⟩
  · obtain ⟨pre, post, hsplit, -, hpost⟩ := exists_range_split hk
    have hsplit : (List.range' (arg0Nat s) (arg1Nat s)).reverse = post.reverse ++ k :: pre.reverse := by
      rw [hsplit, List.reverse_append, List.reverse_cons, List.append_assoc, List.singleton_append]
    refine exec_encode_of_unfit hr hl hP hmem (body_spenc hr fun _ => hq) hsplit hrec (fun j hj => ?_) hunfit
    obtain ⟨hj, hlt⟩ := hpost j (List.mem_reverse.mp hj)
    exact hfit j hj hlt
  · rw [body_spenc hr fun hn => absurd h0 hn.ne', h0]
    rfl

/-- Settles O50: the memory an encoding leaves meets the equations of its decoding. -/
theorem predictorRoundTrip : Obligations.PredictorRoundTrip := by
  rintro comp s t m enc dec (⟨rfl, rfl⟩ | ⟨rfl, rfl⟩) hl henc hrec hm
  · have hstep := dcStep_after_spenc henc hm
    obtain ⟨hr, u, hloop, rfl⟩ := range_command_ok rfl henc hrec
    have hq : 0 < arg1Nat s → dcStep s comp ≠ 0 := fun hn h0 => by
      rw [spatialEncode_of_zero h0 hn] at hloop
      cases hloop
    rw [spatialEncode_eq hq] at hloop
    obtain ⟨v, hv, hcm, hread⟩ := decodeBlocks_of_encoded hr hl (causal_spatialPredictor hr.2.1)
      (fun _ => List.mem_reverse.trans mem_range'_iff) hloop hm
    exact ⟨v, exec_of_mem_again ((body_spdec (s := { commandDone { s with mem := u } with mem := m }) hr
      fun hn => hstep.trans_ne (hq hn)).trans (congrArg (Run.lift · _) hv)), hcm, hread⟩
  · obtain ⟨hr, u, hloop, rfl⟩ := range_command_ok rfl henc hrec
    rw [dpcmEncode_eq (Nat.le_refl _) (cbase_add_range_le hr hl) (if_neg (Nat.lt_irrefl _)).symm] at hloop
    obtain ⟨v, hv, hcm, hread⟩ := decodeBlocks_of_encoded hr hl (causal_dpcmPrev s.cfg comp (arg0Nat s))
      (fun _ => mem_range'_iff) hloop hm
    exact ⟨v, exec_of_mem_again ((body_dpcmdec (s := { commandDone { s with mem := u } with mem := m }) hr).trans
      (congrArg (Run.lift · _) hv)), hcm, hread⟩

end

section
/-! PROOF. No step stops (44_control.md R192; 60_exceptions.md R200, R204): every end of a command is a next state, and
so is every piece a step is made of. -/

namespace Sys2Proof.Machine

theorem exec_exists_next (i : Instr) (s : State) : ∃ t, exec i s = .next t := by
  rw [exec_eq_body]
  rcases endCommand_cases (body i s) with ⟨u, -, e⟩ | ⟨code, info, u, -, e⟩
  · exact ⟨commandDone u, e⟩
  · exact ⟨faultEntry code info u, e⟩

theorem runCommand_exists_next (w : Word) (s : State) : ∃ t, runCommand w s = .next t := by
  rcases runCommand_cases w s with ⟨i, -, e⟩ | ⟨_, -, e⟩
  · rw [e]; exact exec_exists_next i s
  · exact ⟨_, e⟩

theorem afterEvent_exists_next (s : State) : ∃ t, afterEvent s = .next t := by
  rcases afterEvent_cases s with ⟨e, -⟩ | ⟨w, -, -, e⟩
  · exact ⟨s, e⟩
  · rw [e]; exact runCommand_exists_next w s

end Sys2Proof.Machine

open Sys2Proof Sys2Proof.Machine

/-- Settles O7: a command run in a step ends in a next state, and every other event is one. -/
theorem everyStepAnswersNext : Obligations.EveryStepAnswersNext := by
  intro s
  rcases step_cases s with ⟨w, a, rest, -, -, e⟩ | ⟨w, -, -, e⟩ | ⟨-, -, e⟩ | ⟨ev, rest, -, -, e⟩
  · exact ⟨_, e⟩
  · rw [e]; exact runCommand_exists_next w s
  · exact ⟨s, e⟩
  · rw [e]; exact afterEvent_exists_next _

end

section
/-! PROOF. The fault state (44_control.md R191, 60_exceptions.md R200, R204): it ignores CMD writes, and every piece of
a step but the two resets keeps the first fault recorded. -/

namespace Sys2Proof.Machine

section
variable {s t : State} {f : FaultRecord}

/-! ### The first fault stays recorded (R200) -/

theorem faultEntry_recorded_of_some (code : FaultCode) (info : Word) (hs : s.recorded = some f) :
    (faultEntry code info s).recorded = some f := by
  rw [faultEntry_of_some code info hs]; exact hs

theorem exec_recorded_of_some {i : Instr} (hs : s.recorded = some f) (h : exec i s = .next t) :
    t.recorded = some f := by
  rcases exec_next_cases h with ⟨u, hb, rfl⟩ | ⟨code, info, u, hb, rfl⟩
  · exact (ends_of_eq_ok (body_frame i s) hb).recorded.trans hs
  · exact faultEntry_recorded_of_some code info ((ends_of_eq_raise (body_frame i s) hb).recorded.trans hs)

theorem runCommand_recorded_of_some {w : Word} (hs : s.recorded = some f) (h : runCommand w s = .next t) :
    t.recorded = some f := by
  rcases runCommand_cases w s with ⟨i, -, e⟩ | ⟨_, -, e⟩
  · exact exec_recorded_of_some hs (e ▸ h)
  · rw [e] at h; cases h; exact faultEntry_recorded_of_some _ _ hs

theorem afterEvent_recorded_of_some (hs : s.recorded = some f) (h : afterEvent s = .next t) : t.recorded = some f := by
  rcases afterEvent_cases s with ⟨e, -⟩ | ⟨w, -, -, e⟩
  · rw [e] at h; cases h; exact hs
  · exact runCommand_recorded_of_some hs (e ▸ h)

theorem issueCommand_recorded (w : Word) (s : State) : (issueCommand w s).recorded = s.recorded := by
  rcases issueCommand_cases w s with ⟨-, e⟩ | ⟨-, e⟩
  · rw [e]
  · rw [e, acceptCommand_recorded]

/-- Of the host's accesses only a soft reset reaches FAULT. -/
theorem hostAccess_recorded {a : Access} (ha : isSoftReset a = false) (s : State) :
    (hostAccess a s).recorded = s.recorded := by
  rcases hostAccess_cases a s with ⟨addr, -, e⟩ | ⟨addr, v, -, ⟨hr, -⟩ | ⟨-, -, e⟩ | ⟨-, -, e⟩⟩
  · rw [e]
  · rw [ha] at hr; cases hr
  · rw [e, issueCommand_recorded]
  · rw [e, busWrite_recorded]

theorem busyViolation_recorded_of_some (a : Access) (hs : s.recorded = some f) :
    (busyViolation a s).recorded = some f := by
  obtain ⟨u, e, hu⟩ := busyViolation_eq a s
  have hus : u.recorded = s.recorded := by rcases hu with rfl | rfl <;> rfl
  rw [e]
  exact faultEntry_recorded_of_some _ _ ((abandon_recorded u).trans (hus.trans hs))

theorem earlyAccess_recorded_of_some {a : Access} (ha : isSoftReset a = false) (hs : s.recorded = some f) :
    (earlyAccess a s).recorded = some f := by
  cases hb : allowedWhileBusy a with
  | true => rw [earlyAccess_of_allowed hb, hostAccess_recorded ha, hs]
  | false => rw [earlyAccess_of_forbidden hb, busyViolation_recorded_of_some a hs]

/-- An event that is no reset leaves FAULT. -/
theorem hostEvent_recorded {ev : HostEvent} {rest : List HostEvent} (hh : s.host = ev :: rest)
    (hr : resetNext s = false) (u : State) : (hostEvent ev u).recorded = u.recorded := by
  unfold resetNext at hr
  rw [hh] at hr
  cases ev with
  | access a => exact hostAccess_recorded hr u
  | early a => exact hostAccess_recorded hr u
  | hardReset => cases hr

/-- Only a reset leaves the fault state (R204). -/
theorem step_recorded_of_some (hs : s.recorded = some f) (hr : resetNext s = false) (h : step s = .next t) :
    t.recorded = some f := by
  rcases step_cases s with ⟨w, a, rest, -, hh, e⟩ | ⟨w, -, -, e⟩ | ⟨-, -, e⟩ | ⟨ev, rest, -, hh, e⟩
  · have ha : isSoftReset a = false := by simpa [resetNext, hh] using hr
    rw [e] at h; cases h; exact earlyAccess_recorded_of_some ha hs
  · exact runCommand_recorded_of_some hs (e ▸ h)
  · rw [e] at h; cases h; exact hs
  · have hev : (hostEvent ev { s with host := rest }).recorded = some f := (hostEvent_recorded hh hr _).trans hs
    exact afterEvent_recorded_of_some hev (e ▸ h)

/-! ### CMD writes are ignored (R191) -/

theorem issueCommand_of_faulted (w : Word) (hs : s.recorded ≠ none) : issueCommand w s = s := by
  rcases issueCommand_cases w s with ⟨-, e⟩ | ⟨hn, -⟩
  · exact e
  · exact absurd hn hs

/-- In the fault state a CMD write is the whole step and leaves no trace. -/
theorem step_issue_of_faulted {addr w : Word} {rest : List HostEvent} (hs : s.recorded ≠ none) (hw : s.inFlight = none)
    (hh : s.host = .access (.write addr w) :: rest) (ha : wordAddr addr = 0x000) :
    step s = .next { s with host := rest } := by
  have hissue : hostAccess (.write addr w) { s with host := rest } = { s with host := rest } :=
    (hostAccess_write_cmd ha).trans (issueCommand_of_faulted w hs)
  rw [step_hostAccess hw hh (.inl rfl) (by rw [hissue]; exact hw), hissue]

end

end Sys2Proof.Machine

open Sys2Proof Sys2Proof.Machine

/-- Settles O8: the write is ignored, and every piece of a step that is no reset keeps the first fault. -/
theorem faultStateLeavesOnlyByReset : Obligations.FaultStateLeavesOnlyByReset := by
  intro s f hs
  refine ⟨fun addr w rest hw hh ha => ?_, fun t ht hr => step_recorded_of_some hs hr ht⟩
  exact step_issue_of_faulted (by simp [hs]) hw hh ha

end

section
/-! PROOF. NOP (44_control.md R190): its effect, and that no other word with opcode 0x00 selects a command. -/

namespace Sys2Proof

/-- Opcode 0x00 is NOP's alone (R73). -/
theorem eq_nop_of_op_eq_zero {i : Instr} (h : (encodeFields i).op = 0) : i = .nop := by
  cases i with
  | nop => rfl
  | _ => cases h

theorem fieldsOf_op_eq_zero {w : Word} (h : w.toNat < 2 ^ 24) : (fieldsOf w).op = 0 := by
  simp only [fieldsOf, BitVec.extractLsb'_toNat, Nat.shiftRight_eq_div_pow, Nat.div_eq_of_lt h, Nat.zero_mod]

/-- A word with opcode 0x00 that selects a command is NOP's word, 0. -/
theorem eq_zero_of_decode {w : Word} {i : Instr} (hop : w.toNat < 2 ^ 24) (h : decode w = .ok i) : w = 0 := by
  obtain ⟨hfields, -⟩ := encodeFields_of_decodeFields (fieldsOf_fit w) h
  obtain rfl : i = .nop := eq_nop_of_op_eq_zero (by rw [hfields, fieldsOf_op_eq_zero hop])
  rw [← wordOf_fieldsOf w, ← hfields]
  rfl

theorem exists_decode_error_of_ne_zero {w : Word} (hop : w.toNat < 2 ^ 24) (h0 : w ≠ 0) : ∃ e, decode w = .error e := by
  cases h : decode w with
  | ok i => exact absurd (eq_zero_of_decode hop h) h0
  | error e => exact ⟨e, rfl⟩

end Sys2Proof

open Sys2Proof Sys2Proof.Machine

/-- Settles O12: NOP's body is empty; 0 is issued as NOP, any other word with opcode 0x00 is illegal, and the fault
state ignores them all. -/
theorem nopOnlyEndsNormally : Obligations.NopOnlyEndsNormally := by
  have hnop : ∀ s : State, exec .nop s = .next { s with done := true, doneP := true, inFlight := none } := by
    intros; rfl
  refine ⟨hnop, fun s w rest hw hh hl hop => ⟨fun hn h0 => ?_, fun hn h0 => ?_, fun hf => ?_⟩⟩
  · rw [stepRunsDecodedCommand s 0x000 w rest .nop hw hn hh rfl hl (by rw [h0]; rfl), hnop, ← hw]
  · obtain ⟨e, he⟩ := exists_decode_error_of_ne_zero hop h0
    exact illegalWordRaisesBadCmd s 0x000 w rest e hw hn hh rfl hl he
  · exact step_issue_of_faulted hf hw hh rfl

end

section
/-! PROOF. The two resets (70_reset_and_hazards.md R210, R211). A state a reset leaves is one `resetRegisters` makes;
how its registers read is said there once. A soft reset keeps what a command in flight could not write (R64). -/

namespace Sys2Proof.Machine

/-! ### What both resets set -/

/-- STATUS shows the reader at end of data and nothing else. -/
theorem busRead_status_resetRegisters (s : State) : busRead (resetRegisters s) 0x010 = 0x00000010 := by
  rw [busRead_status]
  simp [statusWord, busy, faulted, bitAt, word, Reader.atReset]

theorem slotValidWord_resetRegisters (s : State) : slotValidWord (resetRegisters s) = 0 := by
  simp [slotValidWord, slotOf_resetRegisters_valid, bitAt]

/-- Beside what both resets set, R210 gives a value to GEOM, IN_LEN and OUT_LEN alone. -/
theorem registersReset_resetRegisters {s : State} (hg : s.geom = 0) (hi : s.inLen = 0) (ho : s.outLen = 0) :
    RegistersReset (resetRegisters s) := by
  have hctrl : ctrlWord (resetRegisters s) = 0 := by simp [ctrlWord, bitAt]
  have hirq : irqWord (resetRegisters s) = 0 := by simp [irqWord, bitAt]
  have hacc : wrAccWord (resetRegisters s) = 0 := by simp [wrAccWord, Writer.atReset]
  refine ⟨busRead_status_resetRegisters s, ?_, rfl⟩
  simp only [List.forall_mem_cons]
  exact ⟨rfl, rfl, rfl, rfl, rfl, hctrl, hirq, hg, hi, ho, rfl, rfl, rfl, rfl, hacc, slotValidWord_resetRegisters s,
    nofun⟩

/-! ### Power-on and the reset input (R210) -/

theorem resetRegisters_resetWith (c : Config) : resetRegisters (State.resetWith c) = State.resetWith c := by
  simp [State.resetWith, resetRegisters, invalidate, HuffSlot.atReset]

theorem resetRegisters_hardReset (s : State) : resetRegisters (hardReset s) = hardReset s := by
  simp [hardReset, resetRegisters, invalidate, Function.comp_def]

theorem slotOf_resetWith_valid (c : Config) (n : Nat) : (slotOf (State.resetWith c) n).valid = false := by
  rw [← resetRegisters_resetWith]; exact slotOf_resetRegisters_valid _ n

theorem registersReset_resetWith (c : Config) : RegistersReset (State.resetWith c) := by
  rw [← resetRegisters_resetWith]; exact registersReset_resetRegisters rfl rfl rfl

theorem registersReset_hardReset (s : State) : RegistersReset (hardReset s) := by
  rw [← resetRegisters_hardReset]; exact registersReset_resetRegisters rfl rfl rfl

/-- With no command in flight, the reset input is the whole step. -/
theorem step_hardReset {s : State} {rest : List HostEvent} (hw : s.inFlight = none) (hh : s.host = .hardReset :: rest) :
    step s = .next (hardReset { s with host := rest }) := by
  have hs : step s = afterEvent (hardReset { s with host := rest }) := by simp [step, nextEvent, hw, hh, hostEvent]
  rcases afterEvent_cases (hardReset { s with host := rest }) with ⟨e, -⟩ | ⟨w, hw', -⟩
  · exact hs.trans e
  · cases hw'

/-! ### The soft reset (R211) -/

@[simp] theorem abandon_cfg (s : State) : (abandon s).cfg = s.cfg := by rw [abandon_eq]
@[simp] theorem abandon_geom (s : State) : (abandon s).geom = s.geom := by rw [abandon_eq]
@[simp] theorem abandon_inLen (s : State) : (abandon s).inLen = s.inLen := by rw [abandon_eq]
@[simp] theorem abandon_outLen (s : State) : (abandon s).outLen = s.outLen := by rw [abandon_eq]
@[simp] theorem abandon_host (s : State) : (abandon s).host = s.host := by rw [abandon_eq]

theorem AbandonKeeps.memRead {w : Word} {i : Instr} {s t : State} {a : Nat} (h : AbandonKeeps w s t)
    (hi : decode w = .ok i) (ha : ¬ writesByte i s a) : memRead t.mem a = memRead s.mem a := by
  obtain ⟨-, -, -, -, hmem⟩ := h.1 i hi
  exact hmem a ha

theorem AbandonKeeps.mem_of_illegal {w : Word} {e : DecodeError} {s t : State} (h : AbandonKeeps w s t)
    (he : decode w = .error e) : t.mem = s.mem := by
  obtain ⟨-, -, -, -, hmem⟩ := h.2 e he
  exact hmem

theorem softReset_mem (s : State) : (softReset s).mem = (abandon s).mem := rfl

theorem abandon_of_none {s : State} (hw : s.inFlight = none) : abandon s = s := by
  simp [abandon, hw]

section
variable {s : State} {addr v : Word} {ev : HostEvent} {rest : List HostEvent}

theorem isSoftReset_write_srst (ha : wordAddr addr = 0x01C) (hv : v.getLsbD 0 = true) :
    isSoftReset (.write addr v) = true := by
  simp [isSoftReset, ha, hv]

theorem hostAccess_softReset (h : isSoftReset (.write addr v) = true) : hostAccess (.write addr v) s = softReset s := by
  simp [hostAccess, h]

/-- A soft reset is the whole step, even where it comes before the end of a command in flight (R58). -/
theorem step_softReset (h : isSoftReset (.write addr v) = true) (hh : s.host = ev :: rest)
    (hev : ev = .early (.write addr v) ∨ s.inFlight = none ∧ ev = .access (.write addr v)) :
    step s = .next (softReset { s with host := rest }) := by
  have hacc : hostAccess (.write addr v) { s with host := rest } = softReset { s with host := rest } :=
    hostAccess_softReset h
  have hidle : s.inFlight = none → ev = .access (.write addr v) ∨ ev = .early (.write addr v) →
      step s = .next (softReset { s with host := rest }) := fun hw hev => by
    rw [step_hostAccess hw hh hev (by rw [hacc]; rfl), hacc]
  rcases hev with rfl | ⟨hw, rfl⟩
  · rcases Option.eq_none_or_eq_some s.inFlight with hw | ⟨w, hw⟩
    · exact hidle hw (.inr rfl)
    · have hallowed : allowedWhileBusy (.write addr v) = true := h
      rw [step_early hw hh, earlyAccess_of_allowed hallowed, hacc]
  · exact hidle hw (.inl rfl)

end

end Sys2Proof.Machine

open Sys2Proof Sys2Proof.Machine

/-- Settles O60: the write is a soft reset, which abandons the command in flight and then sets what both resets set;
abandoning a command frees only the bytes it could write. -/
theorem softResetSetsTheBlock : Obligations.SoftResetSetsTheBlock := by
  intro s addr v ev rest hh ha hv hev
  have hkeeps : ∀ w, s.inFlight = some w → AbandonKeeps w s (abandon { s with host := rest }) := fun w hw =>
    .of_modelFields (l := rest) (x := s.busData) (n := s.freeDraws) (abandonKeeps_abandon hw)
  have hidle : s.inFlight = none → (softReset { s with host := rest }).mem = s.mem := fun hw => by
    rw [softReset_mem, abandon_of_none (s := { s with host := rest }) hw]
  exact ⟨softReset { s with host := rest }, step_softReset (isSoftReset_write_srst ha hv) hh hev, rfl, rfl, rfl,
    busRead_status_resetRegisters _, rfl, rfl, rfl, rfl, rfl, rfl, rfl, fun n _ => slotOf_resetRegisters_valid _ n,
    abandon_geom _, abandon_inLen _, abandon_outLen _, abandon_cfg _, abandon_host _, hidle,
    fun w i hw hi a ha => (hkeeps w hw).memRead hi ha, fun w e hw he => (hkeeps w hw).mem_of_illegal he⟩

/-- Settles O56: power-on and the reset input leave the registers in their reset state, where every invariant holds. -/
theorem invariantsHoldAtReset : Obligations.InvariantsHoldAtReset := by
  refine ⟨fun c hc => ⟨?memory, ?cursors, ?flags, ?tables, registersReset_resetWith c⟩, fun s rest hw hh => ?_,
    fun s => ⟨rfl, rfl, rfl, rfl⟩⟩
  case memory => exact ⟨⟨hc, Nat.zero_le _, Nat.zero_le _⟩, wf_reset c, nofun⟩
  case cursors => exact fun _ => cursors_atReset
  case flags => exact ⟨nofun, nofun, nofun⟩
  case tables => exact fun _ n _ hv => by rw [slotOf_resetWith_valid] at hv; cases hv
  exact ⟨_, step_hardReset hw hh, registersReset_hardReset _, rfl, rfl, rfl, rfl, fun n => slotOf_hardReset_valid _,
    rfl, rfl⟩

end
